-- ==== Sys2Proof/Word.lean ====
section
/-! DEFINITION. The widths of what the spec treats as bits: bytes on the two links (R6), values of the 32-bit time
base (R219). Every other quantity is a whole number of mV, mA, mW or ms and is a `Nat` (00, section 2.1). -/
namespace Sys2Proof

/-- One byte of a frame (R6). -/
abbrev Byte := BitVec 8

/-- A value of the time base, and so every stamp the block stores (R219). -/
abbrev Time := BitVec 32

end Sys2Proof
end

