-- ==== Sys2Proof/Machine/Bytes.lean ====
section
/-! DEFINITION. Byte order and CRC of both links (R6, R22): most significant byte first, and the 8-bit check. -/
namespace Sys2Proof.Machine

/-- The low `n` bytes of `v`, most significant byte first (R22). -/
def toBytes : Nat → Nat → List Byte
  | 0, _ => []
  | n + 1, v => BitVec.ofNat 8 (v / 256 ^ n) :: toBytes n v

/-- The number that bytes spell, most significant byte first (R22). -/
def fromBytes (bs : List Byte) : Nat :=
  bs.foldl (fun acc b => acc * 256 + b.toNat) 0

/-- The number spelt by `n` bytes of `bs` from offset `at`. -/
def field (bs : List Byte) (start n : Nat) : Nat :=
  fromBytes ((bs.drop start).take n)

/-- One shift of the CRC register, polynomial 2Fh (R6). -/
def crcShift (r : Byte) : Byte :=
  if r.getLsbD 7 then (r <<< 1) ^^^ 0x2F#8 else r <<< 1

/-- The CRC register after one byte, most significant bit first (R6). -/
def crcByte (r b : Byte) : Byte :=
  crcShift (crcShift (crcShift (crcShift (crcShift (crcShift (crcShift (crcShift (r ^^^ b))))))))

/-- The 8-bit check of R6: register loaded with FFh, no reflection, no final inversion. -/
def crc8 (bs : List Byte) : Byte :=
  bs.foldl crcByte 0xFF#8

/-- The envelope of a frame from its kind byte: kind, length, payload, CRC (R6, R22). -/
def envelope (kind : Byte) (payload : List Byte) : List Byte :=
  let body := kind :: BitVec.ofNat 8 payload.length :: payload
  body ++ [crc8 body]

/-- A received frame split at its envelope: its kind and payload when its length byte is at most the limit, all its bytes are
there and its CRC matches (R6, R8, R21). -/
def openEnvelope (limit : Nat) (raw : List Byte) : Option (Byte × List Byte) :=
  match raw with
  | kind :: len :: rest =>
    let n := len.toNat
    if n ≤ limit ∧ rest.length = n + 1 ∧ rest.drop n = [crc8 (kind :: len :: rest.take n)] then
      some (kind, rest.take n)
    else none
  | _ => none

/-! ## Levels on a wire (R4, R21), `true` for the high level -/

/-- The three bytes before every frame (R4). -/
def syncPattern : List Byte := [0x55#8, 0x55#8, 0xD5#8]

/-- A byte on the wire: a start bit at the low level, eight data bits with the most significant first, a stop bit at the
high level (R4). -/
def byteLevels (b : Byte) : List Bool :=
  [false, b.getLsbD 7, b.getLsbD 6, b.getLsbD 5, b.getLsbD 4, b.getLsbD 3, b.getLsbD 2, b.getLsbD 1, b.getLsbD 0, true]

/-- Bytes on the wire, in order. -/
def levelsOf (bs : List Byte) : List Bool := (bs.map byteLevels).flatten

/-- A frame on the wire: the sync pattern, then its bytes from the kind byte on (R4, R6, R21). -/
def frameLevels (raw : List Byte) : List Bool := levelsOf (syncPattern ++ raw)

/-- The byte that eight data bits spell, most significant first (R4). -/
def byteOfLevels (b7 b6 b5 b4 b3 b2 b1 b0 : Bool) : Byte :=
  BitVec.ofNat 8 (b7.toNat * 128 + b6.toNat * 64 + b5.toNat * 32 + b4.toNat * 16 + b3.toNat * 8 + b2.toNat * 4
    + b1.toNat * 2 + b0.toNat)

/-- The bytes that levels carry; none where a start or a stop bit is wrong or a byte is incomplete (R4; log 41). -/
def bytesOfLevels : List Bool → Option (List Byte)
  | [] => some []
  | false :: b7 :: b6 :: b5 :: b4 :: b3 :: b2 :: b1 :: b0 :: true :: rest =>
    (bytesOfLevels rest).map (byteOfLevels b7 b6 b5 b4 b3 b2 b1 b0 :: ·)
  | _ => none

/-- The bytes of a frame after its sync pattern, none where the levels are no frame (R4; log 41). -/
def rawOfLevels (levels : List Bool) : Option (List Byte) :=
  match bytesOfLevels levels with
  | some bs => if bs.take syncPattern.length = syncPattern then some (bs.drop syncPattern.length) else none
  | none => none

end Sys2Proof.Machine
end

