-- ==== Sys2Proof/Config.lean ====
section
/-! DEFINITION. What the part fixes: the constants its rules name, the fields a RESULT carries, and the one free value
(the coding of a field the manual gives no size). -/
namespace Sys2Proof

/-- Source base and outlet supply voltage in mV (R19). -/
def Config.baseVoltage : Nat := 5000
/-- Current drawn from a source at base, in mA (R19). -/
def Config.baseCurrent : Nat := 900
/-- Power of a source at base, in mW (R19). -/
def Config.basePower : Nat := 4500
/-- Score of the base option (R90). -/
def Config.baseScore : Nat := 2250
/-- Score taken for a frozen option (R93). -/
def Config.frozenScore : Nat := 131250
/-- Outlet default allowance in mA (R19). -/
def Config.defaultAllowance : Nat := 500
/-- Cable ceiling of a silent partner, and of any value that is not 500 in units of 10 mA (R10, R29). -/
def Config.lowCable : Nat := 3000
/-- The other cable ceiling (R10). -/
def Config.highCable : Nat := 5000
/-- The detach limit in consecutive absent samples (R3). -/
def Config.detachLimit : Nat := 10
/-- Lowest average that passes a CLOSE_CHECK, in mV (R128). -/
def Config.closeCheckFloor : Nat := 4375
/-- Floor and fallback floor of unattended selection, in mW (R81). -/
def Config.unattendedFloor : Nat := 4500
/-- Length of a burn in ms (R213). -/
def Config.burnTime : Nat := 12
/-- Capacity of the trap queue, and of one port's share of it (R179). -/
def Config.trapCapacity : Nat := 8
def Config.trapPerPort : Nat := 3
/-- Capacity of the owed BUSY list (R194). -/
def Config.owedCapacity : Nat := 4
/-- Greatest lengths of a charge-link and of a system-link payload (R6, R21). -/
def Config.maxChargePayload : Nat := 64
def Config.maxSystemPayload : Nat := 128
/-- Greatest length of the data of a RESULT (R23, R197). -/
def Config.maxResultData : Nat := 126
/-- Tops of the sensed ranges (R157). -/
def Config.topFeedVoltage : Nat := 31000
def Config.topFeedCurrent : Nat := 8000
def Config.topOutletCurrent : Nat := 4000
def Config.topThermal : Nat := 4095

/-- One field of a RESULT's data. `num` and `raw` have the size and unit the manual gives them; `unsized` is a value
whose size the manual does not give, `absent` a field that holds nothing, `unloaded` the remaining count of a timer that
is loaded on the next tick (R197; log 11). -/
inductive Field
  | num (size value : Nat)
  | raw (bytes : List Byte)
  | unsized (value : Nat)
  | absent
  | unloaded
deriving DecidableEq, Repr

/-- DESIGN CHOICE (log 11), safe: a FREE VALUE. The bytes of a field for which R197 gives no size or no coding. -/
opaque Config.unstatedCoding : Field → List Byte

end Sys2Proof
end

