-- ==== Sys2Proof/Syntax.lean ====
section
/-! DEFINITION. The commands the block takes: one constructor for each row of spec/opcode_table.json, with the operands
the row's rule names (assumption log 34). -/
namespace Sys2Proof

/-- The four connectors and their port units (00, section 2.3). -/
inductive Port
  | A | B | C | D
deriving DecidableEq, Repr

/-- The two intake paths (00, section 1.1). -/
inductive Feed
  | F0 | F1
deriving DecidableEq, Repr

/-- One value for each port. -/
structure PerPort (α : Type) where
  a : α
  b : α
  c : α
  d : α
deriving DecidableEq, Repr

/-- One value for each feed. -/
structure PerFeed (α : Type) where
  f0 : α
  f1 : α
deriving DecidableEq, Repr

def PerPort.get {α : Type} (t : PerPort α) : Port → α
  | .A => t.a
  | .B => t.b
  | .C => t.c
  | .D => t.d

def PerPort.set {α : Type} (t : PerPort α) (p : Port) (v : α) : PerPort α :=
  match p with
  | .A => { t with a := v }
  | .B => { t with b := v }
  | .C => { t with c := v }
  | .D => { t with d := v }

def PerPort.all {α : Type} (v : α) : PerPort α := ⟨v, v, v, v⟩

def PerFeed.get {α : Type} (t : PerFeed α) : Feed → α
  | .F0 => t.f0
  | .F1 => t.f1

def PerFeed.set {α : Type} (t : PerFeed α) (f : Feed) (v : α) : PerFeed α :=
  match f with
  | .F0 => { t with f0 := v }
  | .F1 => { t with f1 := v }

def PerFeed.all {α : Type} (v : α) : PerFeed α := ⟨v, v⟩

/-- Where the idle level of a configuration wire lies (R1). -/
inductive WireLevel
  | presentBand
  | absentBand
  | neitherBand
deriving DecidableEq, Repr

/-- What one configuration wire shows at a tick: its level, and whether a frame of the partner is on it (R1, R4). -/
structure WireSample where
  level : WireLevel
  frame : Bool
deriving DecidableEq, Repr

/-- The readings of one tick: the four configuration wires (R1), the sense and thermal inputs before they are held to
their ranges (R157), and the bytes so far received of a request frame in progress on the system link (R192). -/
structure TickInputs where
  wires   : PerPort WireSample
  feedV   : PerFeed Int
  feedI   : PerFeed Int
  outletI : PerPort Int
  thermal : Int
  sysRx   : List Byte
deriving DecidableEq, Repr

/-- The rows of spec/opcode_table.json, in the table's order. Frames carry their payload bytes and requests their
parameter bytes as received; `raw` is a frame from its kind byte to its last received byte. -/
inductive Instr
  | tick (inputs : TickInputs)
  | attachConfirmed (p : Port)
  | detach (p : Port)
  | frameTruncated (p : Port)
  | frameDropped (p : Port) (raw : List Byte)
  | announce (p : Port) (payload : List Byte)
  | offers (p : Port) (payload : List Byte)
  | resheet (p : Port) (payload : List Byte)
  | settled (p : Port)
  | draw (p : Port) (payload : List Byte)
  | grant (p : Port)
  | decline (p : Port)
  | defer (p : Port)
  | restart (p : Port)
  | openRangeFrame (p : Port) (kind : Byte) (payload : List Byte)
  | frameTxStart (p : Port)
  | frameSent (p : Port)
  | relayFrameSend (p : Port)
  | greetingDeadlineExpiry (p : Port)
  | answerDeadlineExpiry (p : Port)
  | deferIntervalExpiry (p : Port)
  | settleDeadlineExpiry (p : Port)
  | recoveryHoldOffExpiry (p : Port)
  | closeCheckExpiry (f : Feed)
  | contractCheckExpiry (f : Feed)
  | gapTimerExpiry (f : Feed)
  | rampTimerExpiry (f : Feed)
  | underVoltageExpiry (f : Feed)
  | overdrawExpiry (f : Feed)
  | outletOverdrawExpiry (p : Port)
  | watchHoldExpiry
  | trapDeadlineExpiry
  | sysFrameTruncated
  | sysFrameDropped (raw : List Byte)
  | requestOwedBusy (code : Byte)
  | unknownRequest (code : Byte) (params : List Byte)
  | sysTxStart
  | resultSent
  | forwardSent
  | loadPolicy (params : List Byte)
  | loadPort (params : List Byte)
  | loadWatch (params : List Byte)
  | loadBudget (params : List Byte)
  | loadTiming (params : List Byte)
  | readEntry (params : List Byte)
  | readState (params : List Byte)
  | readFactory (params : List Byte)
  | readCause (params : List Byte)
  | liveMark (params : List Byte)
  | liveConfirm (params : List Byte)
  | livenessTimerExpiry
  | verdict (params : List Byte)
  | relay (params : List Byte)
  | evaluate (params : List Byte)
  | portRestart (params : List Byte)
  | clearFault (params : List Byte)
  | clearNotices (params : List Byte)
  | setMask (params : List Byte)
  | clearCause (params : List Byte)
  | lockPolicy (params : List Byte)
  | policyRestart (params : List Byte)
  | burnFactory (params : List Byte)
  | burnReadBack (cellsBad : Bool)
  | powerUp
  | resetInput
  | supplyDip
  | fullResetEnd (cellsLost : Bool)
deriving DecidableEq, Repr

end Sys2Proof
end

