-- ==== Sys2Proof/Machine/State.lean ====
section
/-! DEFINITION. The state of the block as plain data, the reasons a step can stop, and the state after reset. Each type
cites the rule that lists its parts. -/
namespace Sys2Proof.Machine

/-! ## Port units (R24) -/

/-- The fourteen port states, in the order of 02, section 2.2. -/
inductive PortState
  | detached | debounce | greeting | awaitSheet | held | claiming | settling | contract | releasing
  | outletBase | outletGranted | parked | recovery | disabled
deriving DecidableEq, Repr

inductive Role
  | intake | outlet | refused
deriving DecidableEq, Repr

inductive PartnerClass
  | adapter | dock | accessory | unknown
deriving DecidableEq, Repr

/-- The partner record (R24), its fields taken as R10 gives. Cable ceiling in mA. -/
structure Partner where
  role : Role
  cls : PartnerClass
  cable : Nat
  tag : BitVec 16
  revision : Nat
  silent : Bool
deriving DecidableEq, Repr

inductive LineKind
  | fixed | window
deriving DecidableEq, Repr

/-- One stored offer line (R13) with its declined mark (R32). mV, mA, mW. -/
structure Line where
  kind : LineKind
  vLow : Nat
  vHigh : Nat
  current : Nat
  cap : Option Nat
  pooled : Bool
  declined : Bool
deriving DecidableEq, Repr

/-- The contract record (R24). mV, mA, mW. -/
structure Contract where
  line : Nat
  voltage : Nat
  current : Nat
  power : Nat
  grantTime : Time
deriving DecidableEq, Repr

inductive Origin
  | raise | lower | protective
deriving DecidableEq, Repr

/-- The claim record (R24); its grant time is kept from the GRANT on (R36). -/
structure Claim where
  line : Nat
  voltage : Nat
  current : Nat
  origin : Origin
  contractHeld : Bool
  repeatLimit : Nat
  grantTime : Option Time
deriving DecidableEq, Repr

/-- Last-failure reasons (R24), NONE first. -/
inductive FailReason
  | noFailure | declined | noAnswer | voltageOut | settleTimeout | superseded | detached | commanded | partnerRestart
deriving DecidableEq, Repr

inductive ParkReason
  | role | pool | denied
deriving DecidableEq, Repr

/-- The uses of a port's exchange timer (R24). -/
inductive TimerUse
  | debounce | greeting | answer | deferral | settle | holdOff
deriving DecidableEq, Repr

/-- A countdown: stopped, started and to be loaded on the next tick, or running with its remaining count. It has
expired when the count is 0 (00, section 2.4). -/
inductive Timer
  | stopped
  | armed
  | running (n : Nat)
deriving DecidableEq, Repr

/-- The exchange timer, with its use (R24). -/
inductive ExchangeTimer
  | stopped
  | armed (use : TimerUse)
  | running (use : TimerUse) (n : Nat)
deriving DecidableEq, Repr

/-- The open-range frame in a relay slot (R190). -/
structure RelayFrame where
  kind : Byte
  payload : List Byte
deriving DecidableEq, Repr

/-- The frames a port unit decides (R7), with their fields in mV and mA. -/
inductive OutFrame
  | welcome (role : Role) (ceiling : Nat)
  | claim (line voltage current : Nat)
  | release
  | grant (current : Nat)
  | decline
  | defer
  | cut (current : Nat)
  | restart
deriving DecidableEq, Repr

/-- The frame in transmission on a port: one of the outgoing order, or the relay frame, `live` while it still fills
the slot (R5, R191; log 22). -/
inductive TxFrame
  | ordered (f : OutFrame)
  | relayed (f : RelayFrame) (live : Bool)
deriving DecidableEq, Repr

/-- The port record of R24 with the detach count and presence indication (R3) and the outgoing order (R5).
`detachRaised` is the model's: the count reached 10 and DETACH is still to be taken (log 3). `rxBusy`: a frame of the
partner is in progress (R4). -/
structure PortRec where
  state : PortState
  partner : Option Partner
  sheet : List Line
  contract : Option Contract
  claim : Option Claim
  relay : Option RelayFrame
  timer : ExchangeTimer
  repeatCount : Nat
  lastFailure : FailReason
  parkReason : Option ParkReason
  detachCount : Nat
  presence : Bool
  detachRaised : Bool
  order : List OutFrame
  tx : Option TxFrame
  rxBusy : Bool
deriving DecidableEq, Repr

/-- The port record after a full reset (R25, R3, R5). -/
def PortRec.reset : PortRec where
  state := .detached
  partner := none
  sheet := []
  contract := none
  claim := none
  relay := none
  timer := .stopped
  repeatCount := 0
  lastFailure := .noFailure
  parkReason := none
  detachCount := 0
  presence := false
  detachRaised := false
  order := []
  tx := none
  rxBusy := false

/-! ## Feed controllers (R124) -/

inductive FeedState
  | idle | base | contract | gap | fault
deriving DecidableEq, Repr

/-- The three conditions of an intake-switch drive (R126). -/
inductive Drive
  | opened | softStart | closed
deriving DecidableEq, Repr

/-- The check a feed runs, with its port, its voltage and its window timer (R127, R133). -/
inductive Check
  | idle
  | close (p : Port) (window : Timer)
  | contract (p : Port) (voltage : Nat) (window : Timer)
deriving DecidableEq, Repr

/-- A period of consecutive ticks with its latched length (R138). -/
inductive Period
  | off
  | counting (count length : Nat)
deriving DecidableEq, Repr

inductive FaultReason
  | noFault | overdraw
deriving DecidableEq, Repr

/-- The contract in force as the port last told it (R124). -/
structure ContractView where
  voltage : Nat
  current : Nat
deriving DecidableEq, Repr

/-- The feed record (R124). `driveLead` belongs to the lead port (A or C), `driveOther` to the other. Currents in mA.
`heldLost`: the port of the held close has left HELD since the CLOSE command, so that the close fails when the gap ends,
whatever state the port is in then (R114, R129; DEDUCED: log 43). -/
structure FeedRec where
  state : FeedState
  selected : Option Port
  driveLead : Drive
  driveOther : Drive
  heldClose : Option Port
  heldLost : Bool
  view : Option ContractView
  output : Nat
  target : Nat
  stepCap : Option Nat
  ramp : Timer
  gap : Timer
  check : Check
  overdraw : Period
  underVolt : Period
  derate : Nat
  shed : Bool
  faultReason : FaultReason
  faultPort : Option Port
  faultTime : Option Time
deriving DecidableEq, Repr

/-- The feed record after a full reset (R125). -/
def FeedRec.reset : FeedRec where
  state := .idle
  selected := none
  driveLead := .opened
  driveOther := .opened
  heldClose := none
  heldLost := false
  view := none
  output := 0
  target := 0
  stepCap := none
  ramp := .stopped
  gap := .stopped
  check := .idle
  overdraw := .off
  underVolt := .off
  derate := 0
  shed := false
  faultReason := .noFault
  faultPort := none
  faultTime := none

/-! ## Transition controller (R99) -/

inductive StepMark
  | raise | lower
deriving DecidableEq, Repr

/-- The kinds of plan step; a CLAIM carries its line, voltage, current, claimed power and mark (R99). -/
inductive StepKind
  | release
  | openSwitch
  | closeSwitch
  | claim (line voltage current power : Nat) (mark : StepMark)
deriving DecidableEq, Repr

inductive StepStatus
  | waiting | inFlight | done | failed (r : FailReason) | skipped
deriving DecidableEq, Repr

/-- A step of the plan (R99). `base` is the feed's committed power when the step started (R103). -/
structure PlanStep where
  kind : StepKind
  feed : Feed
  port : Port
  status : StepStatus
  base : Nat
deriving DecidableEq, Repr

inductive TargetKind
  | nothing | base | line
deriving DecidableEq, Repr

/-- A feed target (R80). -/
structure FeedTarget where
  kind : TargetKind
  port : Option Port
  line : Option Nat
  voltage : Nat
  current : Nat
  power : Nat
  score : Nat
  frozen : Bool
deriving DecidableEq, Repr

/-- The target NOTHING (R80). -/
def FeedTarget.nothing : FeedTarget := ⟨.nothing, none, none, 0, 0, 0, 0, false⟩

/-- The transition controller's state (R99) with the target set of the last evaluation (R80). `effLimit` is each feed's
effective feed limit as the last evaluation computed it (R121; log 21). -/
structure Controller where
  plan : List PlanStep
  reeval : Bool
  targets : PerFeed FeedTarget
  trim : PerFeed (Option Nat)
  effLimit : PerFeed Nat
deriving DecidableEq, Repr

def Controller.reset : Controller where
  plan := []
  reeval := false
  targets := .all .nothing
  trim := .all none
  effLimit := .all 0

/-! ## Table store (R60) -/

inductive PolicyAction
  | use | exclude
deriving DecidableEq, Repr

/-- A policy entry (R65). -/
structure PolicyEntry where
  valid : Bool
  anyPort : Bool
  anyClass : Bool
  anyKind : Bool
  anyVoltage : Bool
  /-- The port set, port A as bit 0 up to port D as bit 3 (DESIGN CHOICE: log 45). -/
  ports : BitVec 4
  cls : PartnerClass
  kind : LineKind
  vLow : Nat
  vHigh : Nat
  action : PolicyAction
  weight : Nat
  ideal : Nat
  cost : Nat
  cap : Nat
deriving DecidableEq, Repr

/-- The default policy entry (R65). -/
def PolicyEntry.default : PolicyEntry :=
  ⟨false, true, true, true, true, 0, .adapter, .fixed, 5000, 5000, .exclude, 1, 5000, 0, 0⟩

inductive RolesPermitted
  | noRole | intake | outlet | both
deriving DecidableEq, Repr

inductive TrapMode
  | pass | copy | hold
deriving DecidableEq, Repr

inductive OpenMode
  | drop | copy
deriving DecidableEq, Repr

inductive DefaultVerdict
  | allow | deny
deriving DecidableEq, Repr

/-- A port entry (R70). -/
structure PortEntry where
  enabled : Bool
  roles : RolesPermitted
  outletCap : Nat
  trapAnnounce : TrapMode
  trapSheet : TrapMode
  trapDraw : TrapMode
  openRange : OpenMode
  verdict : DefaultVerdict
  feedLimit : Nat
  rampStep : Nat
  margin : Nat
deriving DecidableEq, Repr

/-- The default port entry (R70). -/
def PortEntry.default : PortEntry := ⟨true, .both, 1500, .pass, .pass, .pass, .copy, .allow, 45000, 100, 2⟩

/-- The budget record (R73). -/
structure Budget where
  ceiling : Nat
  usefulFloor : Nat
  margin : Nat
  poolIntake : Nat
  poolBattery : Nat
deriving DecidableEq, Repr

/-- The default budget record (R73). -/
def Budget.default : Budget := ⟨45000, 4500, 2000, 3000, 1500⟩

/-- The timing record (R75), in the order of its table. -/
structure Timing where
  debounce : Nat
  greeting : Nat
  answer : Nat
  settle : Nat
  checkWindow : Nat
  deferral : Nat
  holdOff : Nat
  gap : Nat
  ramp : Nat
  overdraw : Nat
  trap : Nat
  liveness : Nat
  repeatLimit : Nat
deriving DecidableEq, Repr

/-- The default timing record (R75). -/
def Timing.default : Timing := ⟨20, 450, 30, 450, 20, 100, 150, 25, 5, 20, 40, 3000, 2⟩

/-- The loaded structures other than the watch table, and the policy lock (R60, R77). -/
structure Tables where
  policy : List PolicyEntry
  port : PerPort PortEntry
  budget : Budget
  timing : Timing
  lock : Bool
deriving DecidableEq, Repr

/-- All defaults, the lock clear (R65, R70, R73, R75, R78). -/
def Tables.default : Tables where
  policy := List.replicate 24 .default
  port := .all .default
  budget := .default
  timing := .default
  lock := false

/-! ## Watch unit (R160) -/

inductive Quantity
  | feed0V | feed0I | feed1V | feed1I | intakeP | outletI | thermal
deriving DecidableEq, Repr

inductive Direction
  | above | below
deriving DecidableEq, Repr

inductive WatchAction
  | notice | derate | shed
deriving DecidableEq, Repr

inductive FeedSelector
  | feed0 | feed1 | both
deriving DecidableEq, Repr

/-- The loaded fields of a watch entry (R160). -/
structure WatchEntry where
  valid : Bool
  quantity : Quantity
  direction : Direction
  threshold : Nat
  margin : Nat
  hold : Nat
  action : WatchAction
  selector : FeedSelector
  step : Nat
deriving DecidableEq, Repr

/-- The default watch entry (R160). -/
def WatchEntry.default : WatchEntry := ⟨false, .thermal, .above, 0, 0, 0, .notice, .both, 1⟩

inductive WatchState
  | clear | blocked | holding | active
deriving DecidableEq, Repr

/-- An entry with what the watch unit keeps beside it: watch state (none when invalid), the hold timer's remaining
count while it runs, and the fired time (R160, R165, R166). -/
structure WatchSlot where
  entry : WatchEntry
  state : Option WatchState
  hold : Option Nat
  fired : Option Time
deriving DecidableEq, Repr

def WatchSlot.reset : WatchSlot := ⟨.default, none, none, none⟩

/-! ## Outlet allocator (R144) -/

inductive GrantKind
  | base | granted
deriving DecidableEq, Repr

/-- An entry of the outlet grant list, with its over-draw period (R144, R155). -/
structure GrantEntry where
  port : Port
  kind : GrantKind
  current : Nat
  admitted : Time
  period : Period
deriving DecidableEq, Repr

inductive OutletDrive
  | opened | closed
deriving DecidableEq, Repr

/-- The allocator's state; the grant list is oldest first (R144). -/
structure Outlet where
  pool : Nat
  grants : List GrantEntry
  drives : PerPort OutletDrive
  parkTime : PerPort (Option Time)
deriving DecidableEq, Repr

/-- The allocator after a full reset (R145). -/
def Outlet.reset : Outlet := ⟨1500, [], .all .opened, .all none⟩

/-! ## Sense block (R157, R158) -/

/-- The last samples of each quantity, oldest first, at most eight; the sample count is their number (R158). -/
structure Sense where
  feedV : PerFeed (List Nat)
  feedI : PerFeed (List Nat)
  outletI : PerPort (List Nat)
  thermal : List Nat
deriving DecidableEq, Repr

def Sense.reset : Sense := ⟨.all [], .all [], .all [], []⟩

/-! ## Trap unit (R173) -/

/-- The kinds a trap entry can hold (R173). -/
inductive TrapKind
  | announce | offers | resheet | draw
  | openRange (code : Byte)
deriving DecidableEq, Repr

inductive EntryMode
  | copy | hold
deriving DecidableEq, Repr

inductive EntryState
  | queued | sent
deriving DecidableEq, Repr

/-- An entry of the trap queue (R173). `onWire` is the model's: its FORWARD is in transmission (log 22). -/
structure TrapEntry where
  tag : Byte
  port : Port
  kind : TrapKind
  mode : EntryMode
  payload : List Byte
  arrival : Time
  deadline : Timer
  early : Bool
  state : EntryState
  onWire : Bool
deriving DecidableEq, Repr

/-- The trap queue, oldest first, and the next tag (R173). -/
structure TrapUnit where
  queue : List TrapEntry
  nextTag : Byte
deriving DecidableEq, Repr

/-! ## System link unit (R192) -/

/-- The result codes of R23. -/
inductive ResultCode
  | done | doneClamped | badIndex | badForm | locked | stale | busy | written | refused
deriving DecidableEq, Repr

/-- A RESULT: the code it answers, its result code and its data (R23). -/
structure Result where
  code : Byte
  result : ResultCode
  data : List Field
deriving DecidableEq, Repr

/-- What is on the transmit wire: the pending RESULT, or a FORWARD with the entry as its transmission started (R181). -/
inductive SysTx
  | result
  | forward (e : TrapEntry)
deriving DecidableEq, Repr

inductive Mode
  | attended | unattended
deriving DecidableEq, Repr

/-- The system link unit's state (R192) and its transmit wire (R182). Bits of `notices` and `mask` as R199 numbers them. -/
structure Link where
  rxBuffer : List Byte
  held : Option Byte
  pendingResult : Option Result
  owed : List Byte
  notices : BitVec 12
  mask : BitVec 12
  markArmed : Bool
  liveness : Timer
  mode : Mode
  tx : Option SysTx
deriving DecidableEq, Repr

/-- The link after a full reset: RESTARTED alone is set (R192). -/
def Link.reset : Link where
  rxBuffer := []
  held := none
  pendingResult := none
  owed := []
  notices := 0x800#12
  mask := 0#12
  markArmed := false
  liveness := .stopped
  mode := .unattended
  tx := none

/-! ## Factory record and reset (R210, R216, R217) -/

inductive RecordState
  | blank | written | damaged
deriving DecidableEq, Repr

/-- The content of the factory record (R210), in mA, mW and mV. -/
structure FactoryContent where
  portCurrent : Nat
  feedPower : Nat
  systemCeiling : Nat
  maxVoltage : Nat
  fallbackCeiling : Nat
  fallbackVoltage : Nat
  fallbackLimit : Nat
  outletCeiling : Nat
  revision : Nat
  serial : Nat
deriving DecidableEq, Repr

/-- The blank defaults (R210). -/
def FactoryContent.blank : FactoryContent := ⟨3000, 65000, 65000, 20000, 27000, 15000, 27000, 1500, 0, 0⟩

/-- The record cells: unwritten, a content with its check byte, or contents that fail the check (R211; log 19). -/
inductive Cells
  | unwritten
  | holding (content : FactoryContent) (check : Byte)
  | damaged
deriving DecidableEq, Repr

/-- A running burn: its content and its 12 ms countdown (R213). -/
structure Burn where
  content : FactoryContent
  timer : Timer
deriving DecidableEq, Repr

structure Factory where
  record : RecordState
  cells : Cells
  burn : Option Burn
deriving DecidableEq, Repr

/-- An unburned part (log 4). -/
def Factory.reset : Factory := ⟨.blank, .unwritten, none⟩

/-- The causes gathered by a full reset that still lasts (R216). -/
structure ResetCauses where
  powerUp : Bool
  pin : Bool
  dip : Bool
deriving DecidableEq, Repr

/-! ## The state -/

/-- Everything the spec gives the block, and the queue of waiting commands. -/
structure State where
  ports : PerPort PortRec
  feeds : PerFeed FeedRec
  control : Controller
  tables : Tables
  watches : List WatchSlot
  outlet : Outlet
  sense : Sense
  traps : TrapUnit
  link : Link
  factory : Factory
  time : Time
  cause : BitVec 4
  resetting : Option ResetCauses
  pending : List Instr
deriving DecidableEq, Repr

/-- The machine at the end of its first power-up reset: R25, R99, R125, R145, R170, R173, R192, R216, R217 (log 4). -/
def State.reset : State where
  ports := .all .reset
  feeds := .all .reset
  control := .reset
  tables := .default
  watches := List.replicate 8 .reset
  outlet := .reset
  sense := .reset
  traps := ⟨[], 0⟩
  link := .reset
  factory := .reset
  time := 0
  cause := 0x1#4
  resetting := none
  pending := []

/-- Reasons the machine stops with a fault. The spec gives the block none: a wrong frame is dropped (R8, R21), a wrong
request is answered (R61, R193), a feed fault is a feed state (R140). Nothing raises one, which is safe. -/
inductive Fault
deriving DecidableEq, Repr

/-- Reasons a command is refused. -/
inductive Refusal
  /-- Raised by `exec` alone, for a row that has no meaning yet; no row is left so. Safe: the run stops. -/
  | notModelled (mnemonic : String)
deriving DecidableEq, Repr

/-- The event in progress: the state it works on, and what the transition controller and the allocator still owe at
its close: a trigger (R100), the step that ended (R102), the re-admission pass (R153). Not part of State. -/
structure Ev extends State where
  trig : Bool
  ended : Option PlanStep
  readmit : Bool
deriving DecidableEq, Repr

/-- The start of an event: nothing owed. -/
def Ev.start (s : State) : Ev := { toState := s, trig := false, ended := none, readmit := false }

end Sys2Proof.Machine
end

