-- ==== Sys2Proof/Machine/Operands.lean ====
section
/-! DEFINITION. The operand forms: payloads of partner frames (R7, R10, R12, R13, R14, R22), frames the part sends, table
entries and records with their checks and clamps (R61, R62, R66, R70, R73, R75, R161, R195), the factory content (R210). -/
namespace Sys2Proof.Machine

/-! ## Ports and feeds -/

def feedOf : Port → Feed
  | .A | .B => .F0
  | .C | .D => .F1

/-- The port that gives a feed its feed fields (00, section 2.3). -/
def leadPort : Feed → Port
  | .F0 => .A
  | .F1 => .C

/-- The feed's other port. -/
def secondPort : Feed → Port
  | .F0 => .B
  | .F1 => .D

/-- The other port of the same feed. -/
def otherPort : Port → Port
  | .A => .B
  | .B => .A
  | .C => .D
  | .D => .C

def allPorts : List Port := [.A, .B, .C, .D]
def allFeeds : List Feed := [.F0, .F1]

def portCode : Port → Nat
  | .A => 0
  | .B => 1
  | .C => 2
  | .D => 3

/-- A port parameter (R195). -/
def portOfCode : Nat → Option Port
  | 0 => some .A
  | 1 => some .B
  | 2 => some .C
  | 3 => some .D
  | _ => none

def feedCode : Feed → Nat
  | .F0 => 0
  | .F1 => 1

def feedOfCode : Nat → Option Feed
  | 0 => some .F0
  | 1 => some .F1
  | _ => none

/-! ## Kind codes and permitted lengths (R7) -/

/-- The kinds a partner sends. -/
inductive RxKind
  | announce | offers | resheet | settled | draw | grant | decline | defer | restart
  | openRange (code : Byte)
deriving DecidableEq, Repr

def inOpenRange (k : Byte) : Bool := 0x40 ≤ k.toNat && k.toNat ≤ 0x7F

/-- The kind a code names when it comes from a partner; none for a code that names no kind or a kind the partner does
not send (R7, R8). -/
def rxKindOf (k : Byte) : Option RxKind :=
  if inOpenRange k then some (.openRange k)
  else match k.toNat with
    | 0x01 => some .announce
    | 0x03 => some .offers
    | 0x05 => some .resheet
    | 0x08 => some .settled
    | 0x09 => some .draw
    | 0x0A => some .grant
    | 0x0B => some .decline
    | 0x0C => some .defer
    | 0x0F => some .restart
    | _ => none

def rxKindCode : RxKind → Byte
  | .announce => 0x01#8
  | .offers => 0x03#8
  | .resheet => 0x05#8
  | .settled => 0x08#8
  | .draw => 0x09#8
  | .grant => 0x0A#8
  | .decline => 0x0B#8
  | .defer => 0x0C#8
  | .restart => 0x0F#8
  | .openRange c => c

/-- The payload lengths R7 permits for a kind from a partner. -/
def lengthPermitted (k : RxKind) (n : Nat) : Bool :=
  match k with
  | .announce => n == 6
  | .offers | .resheet => n % 9 == 0 && n ≤ 63
  | .draw => n == 2
  | .openRange _ => n ≤ Config.maxChargePayload
  | .settled | .grant | .decline | .defer | .restart => n == 0

/-! ## Offer lines (R13, R14, R22) -/

/-- One 9-byte line, decoded and normalised (R13). -/
def decodeLine (flags vl1 vl0 vh1 vh0 c1 c0 p1 p0 : Byte) : Line :=
  let window := flags.getLsbD 0
  let vLow := fromBytes [vl1, vl0] * 20
  let vHigh := fromBytes [vh1, vh0] * 20
  let cap := fromBytes [p1, p0]
  { kind := if window then .window else .fixed
    vLow := vLow
    vHigh := if window then vHigh else vLow
    current := min (fromBytes [c1, c0] * 10) 6000
    cap := if flags.getLsbD 1 && cap != 0 then some (cap * 100) else none
    pooled := flags.getLsbD 2
    declined := false }

/-- A sheet payload: its 9-byte lines in order; bytes short of a line are none of it (R12). -/
def decodeSheet : List Byte → List Line
  | b0 :: b1 :: b2 :: b3 :: b4 :: b5 :: b6 :: b7 :: b8 :: rest =>
    decodeLine b0 b1 b2 b3 b4 b5 b6 b7 b8 :: decodeSheet rest
  | _ => []

/-- R14. -/
def Line.usableValid (l : Line) : Bool :=
  5000 ≤ l.vLow && l.vLow ≤ l.vHigh && l.vHigh ≤ 28000 && 0 < l.current

/-- A line carries a voltage (R43): its own when FIXED, any within its bounds when WINDOW. -/
def Line.carries (l : Line) (v : Nat) : Bool :=
  match l.kind with
  | .fixed => l.vLow == v
  | .window => l.vLow ≤ v && v ≤ l.vHigh

/-! ## ANNOUNCE and DRAW (R10, R18) -/

def classOfByte (b : Byte) : PartnerClass :=
  match b.toNat with
  | 1 => .adapter
  | 2 => .dock
  | 3 => .accessory
  | _ => .unknown

/-- A cable ceiling field in 10 mA units (R10). -/
def cableOfField (n : Nat) : Nat := if n = 500 then Config.highCable else Config.lowCable

/-- What an ANNOUNCE gives the partner record (R10). -/
structure Announcement where
  cls : PartnerClass
  cable : Nat
  tag : BitVec 16
deriving DecidableEq, Repr

def decodeAnnounce (payload : List Byte) : Announcement where
  cls := classOfByte (payload.headD 0)
  cable := cableOfField (field payload 1 2)
  tag := BitVec.ofNat 16 (field payload 3 2)

/-- The requested current of a DRAW in mA (R18). -/
def decodeDraw (payload : List Byte) : Nat := field payload 0 2 * 10

/-! ## Frames the part sends (R7, R22) -/

def OutFrame.kindCode : OutFrame → Byte
  | .welcome .. => 0x02#8
  | .claim .. => 0x04#8
  | .release => 0x06#8
  | .grant _ => 0x0A#8
  | .decline => 0x0B#8
  | .defer => 0x0C#8
  | .cut _ => 0x0D#8
  | .restart => 0x0F#8

/-- The role byte of WELCOME (R11). -/
def roleByte : Role → Nat
  | .intake => 1
  | .outlet => 2
  | .refused => 0

def OutFrame.payload : OutFrame → List Byte
  | .welcome r v => toBytes 1 (roleByte r) ++ toBytes 2 (v / 20)
  | .claim l v i => toBytes 1 l ++ toBytes 2 (v / 20) ++ toBytes 2 (i / 10)
  | .grant i => toBytes 2 (i / 10)
  | .cut i => toBytes 2 (i / 10)
  | .release | .decline | .defer | .restart => []

/-- The bytes of a frame in transmission, from its kind byte (R6). -/
def TxFrame.bytes : TxFrame → List Byte
  | .ordered f => envelope f.kindCode f.payload
  | .relayed r _ => envelope r.kind r.payload

/-- The levels a port drives onto its configuration wire for the frame in transmission, its sync pattern first; none while
nothing is in transmission (R4). -/
def PortRec.wireLevels (r : PortRec) : List Bool :=
  match r.tx with
  | none => []
  | some f => frameLevels f.bytes

/-! ## Enumerated fields (R195): coded from 00h in the order of their lists -/

def boolOf : Nat → Option Bool
  | 0 => some false
  | 1 => some true
  | _ => none

def boolCode (b : Bool) : Nat := if b then 1 else 0

def classOf : Nat → Option PartnerClass
  | 0 => some .adapter
  | 1 => some .dock
  | 2 => some .accessory
  | 3 => some .unknown
  | _ => none

def classCode : PartnerClass → Nat
  | .adapter => 0
  | .dock => 1
  | .accessory => 2
  | .unknown => 3

def lineKindOf : Nat → Option LineKind
  | 0 => some .fixed
  | 1 => some .window
  | _ => none

def lineKindCode : LineKind → Nat
  | .fixed => 0
  | .window => 1

def actionOf : Nat → Option PolicyAction
  | 0 => some .use
  | 1 => some .exclude
  | _ => none

def actionCode : PolicyAction → Nat
  | .use => 0
  | .exclude => 1

def rolesOf : Nat → Option RolesPermitted
  | 0 => some .noRole
  | 1 => some .intake
  | 2 => some .outlet
  | 3 => some .both
  | _ => none

def rolesCode : RolesPermitted → Nat
  | .noRole => 0
  | .intake => 1
  | .outlet => 2
  | .both => 3

/-- The four trap-mode fields share the codes PASS, COPY, HOLD, DROP (R195); DROP is no member of the first three. -/
def trapModeOf : Nat → Option TrapMode
  | 0 => some .pass
  | 1 => some .copy
  | 2 => some .hold
  | _ => none

def trapModeCode : TrapMode → Nat
  | .pass => 0
  | .copy => 1
  | .hold => 2

/-- PASS and HOLD are no members of the open-range field (R70). -/
def openModeOf : Nat → Option OpenMode
  | 1 => some .copy
  | 3 => some .drop
  | _ => none

def openModeCode : OpenMode → Nat
  | .copy => 1
  | .drop => 3

def verdictOf : Nat → Option DefaultVerdict
  | 0 => some .allow
  | 1 => some .deny
  | _ => none

def verdictCode : DefaultVerdict → Nat
  | .allow => 0
  | .deny => 1

def quantityOf : Nat → Option Quantity
  | 0 => some .feed0V
  | 1 => some .feed0I
  | 2 => some .feed1V
  | 3 => some .feed1I
  | 4 => some .intakeP
  | 5 => some .outletI
  | 6 => some .thermal
  | _ => none

def quantityCode : Quantity → Nat
  | .feed0V => 0
  | .feed0I => 1
  | .feed1V => 2
  | .feed1I => 3
  | .intakeP => 4
  | .outletI => 5
  | .thermal => 6

def directionOf : Nat → Option Direction
  | 0 => some .above
  | 1 => some .below
  | _ => none

def directionCode : Direction → Nat
  | .above => 0
  | .below => 1

def watchActionOf : Nat → Option WatchAction
  | 0 => some .notice
  | 1 => some .derate
  | 2 => some .shed
  | _ => none

def watchActionCode : WatchAction → Nat
  | .notice => 0
  | .derate => 1
  | .shed => 2

def selectorOf : Nat → Option FeedSelector
  | 0 => some .feed0
  | 1 => some .feed1
  | 2 => some .both
  | _ => none

def selectorCode : FeedSelector → Nat
  | .feed0 => 0
  | .feed1 => 1
  | .both => 2

/-! ## Clamping (R62) -/

/-- A value and whether bringing it within bounds changed it. -/
structure Clamped where
  value : Nat
  changed : Bool
deriving DecidableEq, Repr

/-- Into the range `lo` to `hi`. -/
def clampRange (lo hi v : Nat) : Clamped :=
  let w := min (max v lo) hi
  ⟨w, w != v⟩

/-- Into the range, then lowered to the ceiling in force. -/
def clampCeiling (lo hi ceiling v : Nat) : Clamped :=
  let w := min (min (max v lo) hi) ceiling
  ⟨w, w != v⟩

/-- A loaded structure after its form checks: refused, or what is stored and whether a field was clamped (R61). -/
inductive Loaded (α : Type)
  | badForm
  | stored (e : α) (clamped : Bool)
deriving DecidableEq, Repr

/-! ## Policy entries (R65, R66, R195) -/

def clampPolicy (c : FactoryContent) (e : PolicyEntry) : PolicyEntry × Bool :=
  let lo := clampCeiling 5000 28000 c.maxVoltage e.vLow
  let hi := clampCeiling 5000 28000 c.maxVoltage e.vHigh
  let w := clampRange 1 15 e.weight
  let ideal := clampCeiling 5000 28000 c.maxVoltage e.ideal
  let cost := clampRange 0 4095 e.cost
  let cap := clampCeiling 0 6000 c.portCurrent e.cap
  ({ e with vLow := lo.value, vHigh := hi.value, weight := w.value, ideal := ideal.value, cost := cost.value,
            cap := cap.value },
   lo.changed || hi.changed || w.changed || ideal.changed || cost.changed || cap.changed)

/-- The fields of a 17-byte policy entry as received, or none where R66 refuses it. The port set's four bits are kept as they
are received (R195; which bit is which port: log 45). -/
def parsePolicy (bs : List Byte) : Option PolicyEntry :=
  if bs.length ≠ 17 then none
  else
    let marks := (field bs 1 1)
    let set := field bs 2 1
    let vLow := field bs 5 2 * 20
    let vHigh := field bs 7 2 * 20
    if marks > 15 || set > 15 || vLow > vHigh then none
    else do
      let valid ← boolOf (field bs 0 1)
      let cls ← classOf (field bs 3 1)
      let kind ← lineKindOf (field bs 4 1)
      let action ← actionOf (field bs 9 1)
      some { valid := valid, anyPort := marks.testBit 0, anyClass := marks.testBit 1, anyKind := marks.testBit 2,
             anyVoltage := marks.testBit 3, ports := BitVec.ofNat 4 set, cls := cls, kind := kind, vLow := vLow,
             vHigh := vHigh, action := action, weight := field bs 10 1, ideal := field bs 11 2 * 20,
             cost := field bs 13 2, cap := field bs 15 2 * 10 }

def loadedPolicy (c : FactoryContent) (bs : List Byte) : Loaded PolicyEntry :=
  match parsePolicy bs with
  | none => .badForm
  | some e => .stored (clampPolicy c e).1 (clampPolicy c e).2

/-- The entry in the form its load carries (R196). -/
def policyBytes (e : PolicyEntry) : List Byte :=
  toBytes 1 (boolCode e.valid)
    ++ toBytes 1 (boolCode e.anyPort + 2 * boolCode e.anyClass + 4 * boolCode e.anyKind + 8 * boolCode e.anyVoltage)
    ++ toBytes 1 e.ports.toNat ++ toBytes 1 (classCode e.cls) ++ toBytes 1 (lineKindCode e.kind)
    ++ toBytes 2 (e.vLow / 20) ++ toBytes 2 (e.vHigh / 20) ++ toBytes 1 (actionCode e.action) ++ toBytes 1 e.weight
    ++ toBytes 2 (e.ideal / 20) ++ toBytes 2 e.cost ++ toBytes 2 (e.cap / 10)

/-! ## Port entries (R70, R195) -/

def clampPort (c : FactoryContent) (e : PortEntry) : PortEntry × Bool :=
  let cap := clampCeiling 0 3000 c.outletCeiling e.outletCap
  let limit := clampCeiling 4500 150000 c.feedPower e.feedLimit
  let step := clampRange 10 1000 e.rampStep
  let margin := clampRange 1 8 e.margin
  ({ e with outletCap := cap.value, feedLimit := limit.value, rampStep := step.value, margin := margin.value },
   cap.changed || limit.changed || step.changed || margin.changed)

def parsePort (bs : List Byte) : Option PortEntry :=
  if bs.length ≠ 16 then none
  else do
    let enabled ← boolOf (field bs 0 1)
    let roles ← rolesOf (field bs 1 1)
    let ta ← trapModeOf (field bs 4 1)
    let ts ← trapModeOf (field bs 5 1)
    let td ← trapModeOf (field bs 6 1)
    let om ← openModeOf (field bs 7 1)
    let v ← verdictOf (field bs 8 1)
    some { enabled := enabled, roles := roles, outletCap := field bs 2 2 * 10, trapAnnounce := ta, trapSheet := ts,
           trapDraw := td, openRange := om, verdict := v, feedLimit := field bs 9 4, rampStep := field bs 13 2 * 10,
           margin := field bs 15 1 }

def loadedPort (c : FactoryContent) (bs : List Byte) : Loaded PortEntry :=
  match parsePort bs with
  | none => .badForm
  | some e => .stored (clampPort c e).1 (clampPort c e).2

def portBytes (e : PortEntry) : List Byte :=
  toBytes 1 (boolCode e.enabled) ++ toBytes 1 (rolesCode e.roles) ++ toBytes 2 (e.outletCap / 10)
    ++ toBytes 1 (trapModeCode e.trapAnnounce) ++ toBytes 1 (trapModeCode e.trapSheet)
    ++ toBytes 1 (trapModeCode e.trapDraw) ++ toBytes 1 (openModeCode e.openRange) ++ toBytes 1 (verdictCode e.verdict)
    ++ toBytes 4 e.feedLimit ++ toBytes 2 (e.rampStep / 10) ++ toBytes 1 e.margin

/-! ## Watch entries (R160, R161, R195) -/

/-- The top of a watch quantity's range (R159). -/
def quantityTop : Quantity → Nat
  | .feed0V | .feed1V => 31000
  | .feed0I | .feed1I => 8000
  | .intakeP => 496000
  | .outletI => 16000
  | .thermal => 4095

/-- The release point lies within the quantity's range, on the fields as received (R161). -/
def releaseInRange (q : Quantity) (d : Direction) (threshold margin : Nat) : Bool :=
  match d with
  | .above => margin ≤ threshold && threshold - margin ≤ quantityTop q
  | .below => threshold + margin ≤ quantityTop q

def clampWatch (e : WatchEntry) : WatchEntry × Bool :=
  let t := clampRange 0 (quantityTop e.quantity) e.threshold
  let m := clampRange 0 (quantityTop e.quantity) e.margin
  let h := clampRange 0 1000 e.hold
  let d := clampRange 1 15 e.step
  ({ e with threshold := t.value, margin := m.value, hold := h.value, step := d.value },
   t.changed || m.changed || h.changed || d.changed)

def parseWatch (bs : List Byte) : Option WatchEntry :=
  if bs.length ≠ 16 then none
  else do
    let valid ← boolOf (field bs 0 1)
    let q ← quantityOf (field bs 1 1)
    let dir ← directionOf (field bs 2 1)
    let act ← watchActionOf (field bs 13 1)
    let sel ← selectorOf (field bs 14 1)
    let threshold := field bs 3 4
    let margin := field bs 7 4
    if releaseInRange q dir threshold margin then
      some { valid := valid, quantity := q, direction := dir, threshold := threshold, margin := margin,
             hold := field bs 11 2, action := act, selector := sel, step := field bs 15 1 }
    else none

def loadedWatch (bs : List Byte) : Loaded WatchEntry :=
  match parseWatch bs with
  | none => .badForm
  | some e => .stored (clampWatch e).1 (clampWatch e).2

def watchBytes (e : WatchEntry) : List Byte :=
  toBytes 1 (boolCode e.valid) ++ toBytes 1 (quantityCode e.quantity) ++ toBytes 1 (directionCode e.direction)
    ++ toBytes 4 e.threshold ++ toBytes 4 e.margin ++ toBytes 2 e.hold ++ toBytes 1 (watchActionCode e.action)
    ++ toBytes 1 (selectorCode e.selector) ++ toBytes 1 e.step

/-! ## Budget and timing records (R73, R75, R195) -/

def clampBudget (c : FactoryContent) (b : Budget) : Budget × Bool :=
  let sys := clampCeiling 9000 250000 c.systemCeiling b.ceiling
  let fl := clampRange 0 20000 b.usefulFloor
  let m := clampRange 0 20000 b.margin
  let pi := clampRange 0 6000 b.poolIntake
  let pb := clampRange 0 6000 b.poolBattery
  (⟨sys.value, fl.value, m.value, pi.value, pb.value⟩,
   sys.changed || fl.changed || m.changed || pi.changed || pb.changed)

def parseBudget (bs : List Byte) : Option Budget :=
  if bs.length ≠ 12 then none
  else some ⟨field bs 0 4, field bs 4 2, field bs 6 2, field bs 8 2 * 10, field bs 10 2 * 10⟩

def loadedBudget (c : FactoryContent) (bs : List Byte) : Loaded Budget :=
  match parseBudget bs with
  | none => .badForm
  | some b => .stored (clampBudget c b).1 (clampBudget c b).2

def budgetBytes (b : Budget) : List Byte :=
  toBytes 4 b.ceiling ++ toBytes 2 b.usefulFloor ++ toBytes 2 b.margin ++ toBytes 2 (b.poolIntake / 10)
    ++ toBytes 2 (b.poolBattery / 10)

/-- The ranges of R75. -/
def clampTiming (t : Timing) : Timing :=
  { debounce := (clampRange 5 100 t.debounce).value
    greeting := (clampRange 100 2000 t.greeting).value
    answer := (clampRange 10 200 t.answer).value
    settle := (clampRange 100 1000 t.settle).value
    checkWindow := (clampRange 5 100 t.checkWindow).value
    deferral := (clampRange 20 1000 t.deferral).value
    holdOff := (clampRange 50 1000 t.holdOff).value
    gap := (clampRange 10 200 t.gap).value
    ramp := (clampRange 1 50 t.ramp).value
    overdraw := (clampRange 5 200 t.overdraw).value
    trap := (clampRange 10 500 t.trap).value
    liveness := (clampRange 100 60000 t.liveness).value
    repeatLimit := (clampRange 0 3 t.repeatLimit).value }

def parseTiming (bs : List Byte) : Option Timing :=
  if bs.length ≠ 25 then none
  else some
    { debounce := field bs 0 2, greeting := field bs 2 2, answer := field bs 4 2, settle := field bs 6 2,
      checkWindow := field bs 8 2, deferral := field bs 10 2, holdOff := field bs 12 2, gap := field bs 14 2,
      ramp := field bs 16 2, overdraw := field bs 18 2, trap := field bs 20 2, liveness := field bs 22 2,
      repeatLimit := field bs 24 1 }

def loadedTiming (bs : List Byte) : Loaded Timing :=
  match parseTiming bs with
  | none => .badForm
  | some t => .stored (clampTiming t) (decide (clampTiming t ≠ t))

def timingBytes (t : Timing) : List Byte :=
  toBytes 2 t.debounce ++ toBytes 2 t.greeting ++ toBytes 2 t.answer ++ toBytes 2 t.settle ++ toBytes 2 t.checkWindow
    ++ toBytes 2 t.deferral ++ toBytes 2 t.holdOff ++ toBytes 2 t.gap ++ toBytes 2 t.ramp ++ toBytes 2 t.overdraw
    ++ toBytes 2 t.trap ++ toBytes 2 t.liveness ++ toBytes 1 t.repeatLimit

/-! ## Factory content (R210, R212) -/

def parseContent (bs : List Byte) : FactoryContent where
  portCurrent := field bs 0 2 * 10
  feedPower := field bs 2 4
  systemCeiling := field bs 6 4
  maxVoltage := field bs 10 2 * 20
  fallbackCeiling := field bs 12 4
  fallbackVoltage := field bs 16 2 * 20
  fallbackLimit := field bs 18 4
  outletCeiling := field bs 22 2 * 10
  revision := field bs 24 1
  serial := field bs 25 4

/-- The eight values in the order and sizes of R210. -/
def valueBytes (c : FactoryContent) : List Byte :=
  toBytes 2 (c.portCurrent / 10) ++ toBytes 4 c.feedPower ++ toBytes 4 c.systemCeiling ++ toBytes 2 (c.maxVoltage / 20)
    ++ toBytes 4 c.fallbackCeiling ++ toBytes 2 (c.fallbackVoltage / 20) ++ toBytes 4 c.fallbackLimit
    ++ toBytes 2 (c.outletCeiling / 10)

/-- The 29 content bytes. -/
def contentBytes (c : FactoryContent) : List Byte :=
  valueBytes c ++ toBytes 1 c.revision ++ toBytes 4 c.serial

def within (lo hi v : Nat) : Bool := lo ≤ v && v ≤ hi

/-- Every field within its range of R210, the fallback fields against the ceilings of the same content (R212). -/
def contentInRange (c : FactoryContent) : Bool :=
  within 900 5000 c.portCurrent && within 4500 150000 c.feedPower && within 9000 250000 c.systemCeiling
    && within 5000 28000 c.maxVoltage && within 4500 c.systemCeiling c.fallbackCeiling
    && within 5000 c.maxVoltage c.fallbackVoltage && within 4500 c.feedPower c.fallbackLimit
    && within 500 3000 c.outletCeiling

/-! ## Request codes (R195) -/

/-- The assigned codes. -/
def assignedCode (c : Byte) : Bool :=
  [0x80, 0x81, 0x82, 0x83, 0x84, 0x88, 0x89, 0x8A, 0x8B, 0x90, 0x91, 0x92, 0x93, 0x94, 0x95, 0x96, 0x98, 0x99, 0x9A,
    0x9B, 0x9C, 0x9D].contains c.toNat

/-- The range of request codes (R21). -/
def requestRange (c : Byte) : Bool := 0x80 ≤ c.toNat && c.toNat ≤ 0x9F

def resultByte : ResultCode → Nat
  | .done => 0
  | .doneClamped => 1
  | .badIndex => 2
  | .badForm => 3
  | .locked => 4
  | .stale => 5
  | .busy => 6
  | .written => 7
  | .refused => 8

/-- The bytes of one field of result data: fixed where the manual fixes them, a free value where it does not (log 11). -/
def fieldBytes : Field → List Byte
  | .num size v => toBytes size v
  | .raw bs => bs
  | f => Config.unstatedCoding f

/-- The payload of a RESULT (R23). Its data are at most 126 bytes, and every section of READ STATE fits within them (R197):
the bound on the free codings. -/
def Result.payload (r : Result) : List Byte :=
  r.code :: BitVec.ofNat 8 (resultByte r.result) :: (r.data.map fieldBytes).flatten.take Config.maxResultData

def trapKindCode : TrapKind → Byte
  | .announce => 0x01#8
  | .offers => 0x03#8
  | .resheet => 0x05#8
  | .draw => 0x09#8
  | .openRange c => c

def entryModeCode : EntryMode → Nat
  | .copy => 1
  | .hold => 2

/-- The payload of a FORWARD (R23). -/
def forwardPayload (e : TrapEntry) : List Byte :=
  [e.tag] ++ toBytes 1 (portCode e.port) ++ toBytes 1 (entryModeCode e.mode) ++ [trapKindCode e.kind]
    ++ toBytes 4 e.arrival.toNat ++ e.payload

end Sys2Proof.Machine
end

