-- ==== Sys2Proof/WellFormed.lean ====
section
/-! DEFINITION. Which commands are well formed: the payload of a frame has a length R7 permits, a kind lies in its range, a
request's parameters fit a frame (R21), a code is of the row that carries it (R194, R195). -/
namespace Sys2Proof

/-- Longest frame of either link from its kind byte on: two bytes, a payload of 255 at most, the CRC (R6). -/
def longestFrame : Nat := 258

/-- A request's parameters fit a frame (R21). -/
def paramsFit (params : List Byte) : Bool := params.length ≤ Config.maxSystemPayload

/-- The operands are of the form the row's rule gives (log 34). -/
def Instr.wellFormed : Instr → Bool
  | .announce _ payload => Machine.lengthPermitted .announce payload.length
  | .offers _ payload => Machine.lengthPermitted .offers payload.length
  | .resheet _ payload => Machine.lengthPermitted .resheet payload.length
  | .draw _ payload => Machine.lengthPermitted .draw payload.length
  | .openRangeFrame _ kind payload =>
    Machine.inOpenRange kind && Machine.lengthPermitted (.openRange kind) payload.length
  | .frameDropped _ raw => raw.length ≤ longestFrame
  | .sysFrameDropped raw => raw.length ≤ longestFrame
  | .tick inputs => inputs.sysRx.length ≤ longestFrame
  | .requestOwedBusy code => Machine.requestRange code
  | .unknownRequest code params => Machine.requestRange code && !Machine.assignedCode code && paramsFit params
  | .loadPolicy params => paramsFit params
  | .loadPort params => paramsFit params
  | .loadWatch params => paramsFit params
  | .loadBudget params => paramsFit params
  | .loadTiming params => paramsFit params
  | .readEntry params => paramsFit params
  | .readState params => paramsFit params
  | .readFactory params => paramsFit params
  | .readCause params => paramsFit params
  | .liveMark params => paramsFit params
  | .liveConfirm params => paramsFit params
  | .verdict params => paramsFit params
  | .relay params => paramsFit params
  | .evaluate params => paramsFit params
  | .portRestart params => paramsFit params
  | .clearFault params => paramsFit params
  | .clearNotices params => paramsFit params
  | .setMask params => paramsFit params
  | .clearCause params => paramsFit params
  | .lockPolicy params => paramsFit params
  | .policyRestart params => paramsFit params
  | .burnFactory params => paramsFit params
  | .attachConfirmed _ => true
  | .detach _ => true
  | .frameTruncated _ => true
  | .settled _ => true
  | .grant _ => true
  | .decline _ => true
  | .defer _ => true
  | .restart _ => true
  | .frameTxStart _ => true
  | .frameSent _ => true
  | .relayFrameSend _ => true
  | .greetingDeadlineExpiry _ => true
  | .answerDeadlineExpiry _ => true
  | .deferIntervalExpiry _ => true
  | .settleDeadlineExpiry _ => true
  | .recoveryHoldOffExpiry _ => true
  | .closeCheckExpiry _ => true
  | .contractCheckExpiry _ => true
  | .gapTimerExpiry _ => true
  | .rampTimerExpiry _ => true
  | .underVoltageExpiry _ => true
  | .overdrawExpiry _ => true
  | .outletOverdrawExpiry _ => true
  | .watchHoldExpiry => true
  | .trapDeadlineExpiry => true
  | .sysFrameTruncated => true
  | .sysTxStart => true
  | .resultSent => true
  | .forwardSent => true
  | .livenessTimerExpiry => true
  | .burnReadBack _ => true
  | .powerUp => true
  | .resetInput => true
  | .supplyDip => true
  | .fullResetEnd _ => true

end Sys2Proof
end

