-- ==== Sys2Proof/Decode.lean ====
section
/-! DEFINITION. From the wires to commands: the levels and the bytes of a frame on a charge link or on the system link, as the
command they are (R4, R6 to R8, R21, R195), and the bytes of a command's frame. The opcode table gives no row any bits, so no word spells a
command. -/
namespace Sys2Proof

/-- The command that a word spells: the table gives no bits, so none does. -/
def decodeTableWord (_nbits _w : Nat) : Option Instr := none

/-- The command of an accepted kind with its payload on a port (R7). -/
def chargeCommand (p : Port) (payload : List Byte) : Machine.RxKind → Instr
  | .announce => .announce p payload
  | .offers => .offers p payload
  | .resheet => .resheet p payload
  | .settled => .settled p
  | .draw => .draw p payload
  | .grant => .grant p
  | .decline => .decline p
  | .defer => .defer p
  | .restart => .restart p
  | .openRange code => .openRangeFrame p code payload

/-- The command that the bytes of a frame on a port's wire are, from the kind byte on; what R8 drops for its bytes is
FRAME_DROPPED (R6 to R8). -/
def decodeChargeFrame (p : Port) (raw : List Byte) : Instr :=
  match Machine.openEnvelope Config.maxChargePayload raw with
  | none => .frameDropped p raw
  | some (kind, payload) =>
    match Machine.rxKindOf kind with
    | none => .frameDropped p raw
    | some k => if Machine.lengthPermitted k payload.length then chargeCommand p payload k else .frameDropped p raw

/-- The request of a code in 80h to 9Fh (R195). -/
def requestCommand (code : Byte) (params : List Byte) : Instr :=
  match code.toNat with
  | 0x80 => .loadPolicy params
  | 0x81 => .loadPort params
  | 0x82 => .loadWatch params
  | 0x83 => .loadBudget params
  | 0x84 => .loadTiming params
  | 0x88 => .readEntry params
  | 0x89 => .readState params
  | 0x8A => .readFactory params
  | 0x8B => .readCause params
  | 0x90 => .liveMark params
  | 0x91 => .liveConfirm params
  | 0x92 => .verdict params
  | 0x93 => .relay params
  | 0x94 => .evaluate params
  | 0x95 => .portRestart params
  | 0x96 => .clearFault params
  | 0x98 => .clearNotices params
  | 0x99 => .setMask params
  | 0x9A => .clearCause params
  | 0x9B => .lockPolicy params
  | 0x9C => .policyRestart params
  | 0x9D => .burnFactory params
  | _ => .unknownRequest code params

/-- The command that the bytes of a frame from the EC are; what R21 drops is SYS_FRAME_DROPPED (R21, R195). -/
def decodeSystemFrame (raw : List Byte) : Instr :=
  match Machine.openEnvelope Config.maxSystemPayload raw with
  | none => .sysFrameDropped raw
  | some (code, params) => if Machine.requestRange code then requestCommand code params else .sysFrameDropped raw

/-- The command that the levels on a port's wire are, from the sync pattern on. Levels that carry no whole bytes after a
sync pattern are a truncated frame (R4; DESIGN CHOICE: log 41). -/
def decodeChargeLevels (p : Port) (levels : List Bool) : Instr :=
  match Machine.rawOfLevels levels with
  | none => .frameTruncated p
  | some raw => decodeChargeFrame p raw

/-- The command that the levels on the receive wire are, from the sync pattern on (R4, R21; DESIGN CHOICE: log 41). -/
def decodeSystemLevels (levels : List Bool) : Instr :=
  match Machine.rawOfLevels levels with
  | none => .sysFrameTruncated
  | some raw => decodeSystemFrame raw

/-- The frame of a command received on a port: its port and its bytes from the kind byte on (R6, R7). -/
def Instr.chargeFrame : Instr → Option (Port × List Byte)
  | .announce p payload => some (p, Machine.envelope 0x01#8 payload)
  | .offers p payload => some (p, Machine.envelope 0x03#8 payload)
  | .resheet p payload => some (p, Machine.envelope 0x05#8 payload)
  | .settled p => some (p, Machine.envelope 0x08#8 [])
  | .draw p payload => some (p, Machine.envelope 0x09#8 payload)
  | .grant p => some (p, Machine.envelope 0x0A#8 [])
  | .decline p => some (p, Machine.envelope 0x0B#8 [])
  | .defer p => some (p, Machine.envelope 0x0C#8 [])
  | .restart p => some (p, Machine.envelope 0x0F#8 [])
  | .openRangeFrame p kind payload => some (p, Machine.envelope kind payload)
  | _ => none

/-- The code and the parameters of a request (R195). -/
def Instr.request : Instr → Option (Byte × List Byte)
  | .loadPolicy params => some (0x80#8, params)
  | .loadPort params => some (0x81#8, params)
  | .loadWatch params => some (0x82#8, params)
  | .loadBudget params => some (0x83#8, params)
  | .loadTiming params => some (0x84#8, params)
  | .readEntry params => some (0x88#8, params)
  | .readState params => some (0x89#8, params)
  | .readFactory params => some (0x8A#8, params)
  | .readCause params => some (0x8B#8, params)
  | .liveMark params => some (0x90#8, params)
  | .liveConfirm params => some (0x91#8, params)
  | .verdict params => some (0x92#8, params)
  | .relay params => some (0x93#8, params)
  | .evaluate params => some (0x94#8, params)
  | .portRestart params => some (0x95#8, params)
  | .clearFault params => some (0x96#8, params)
  | .clearNotices params => some (0x98#8, params)
  | .setMask params => some (0x99#8, params)
  | .clearCause params => some (0x9A#8, params)
  | .lockPolicy params => some (0x9B#8, params)
  | .policyRestart params => some (0x9C#8, params)
  | .burnFactory params => some (0x9D#8, params)
  | .unknownRequest code params => some (code, params)
  | _ => none

/-- The bytes of a request's frame, from its kind byte on (R21). -/
def Instr.systemFrame (i : Instr) : Option (List Byte) := i.request.map (fun r => Machine.envelope r.1 r.2)

end Sys2Proof
end

