-- ==== Sys2Proof/Machine/Flags.lean ====
section
/-! DEFINITION. The notice flags, the mask and the alert line (R199 to R203), and the flags of the cause record (R217). -/
namespace Sys2Proof.Machine

/-- The notice flags in bit order (R199). -/
inductive Notice
  | attach | detach | sheetChanged | contractChanged | planDone | stepFailed | feedFault | watchFired | trapOverflow
  | livenessLost | outletCut | restarted
deriving DecidableEq, Repr

/-- A flag's place in a flag set (R199). -/
def noticeBit : Notice → Nat
  | .attach => 0
  | .detach => 1
  | .sheetChanged => 2
  | .contractChanged => 3
  | .planDone => 4
  | .stepFailed => 5
  | .feedFault => 6
  | .watchFired => 7
  | .trapOverflow => 8
  | .livenessLost => 9
  | .outletCut => 10
  | .restarted => 11

/-- The flag set that names one flag. -/
def noticeMask (n : Notice) : BitVec 12 := 1#12 <<< noticeBit n

/-- Sets a flag, masked or not; a flag already set stays set (R200). -/
def setNotice (n : Notice) (w : Ev) : Ev :=
  { w with link := { w.link with notices := w.link.notices ||| noticeMask n } }

/-- A flag of the link is set. -/
def Link.noticeSet (l : Link) (n : Notice) : Bool := l.notices.getLsbD (noticeBit n)

/-- The alert line: asserted while a set flag is marked in the mask, released while a reset lasts (R202, R216). -/
def State.alertAsserted (s : State) : Bool :=
  s.resetting.isNone && (s.link.notices &&& s.link.mask != 0#12)

/-- The flag set of two parameter bytes, or none when a bit above 11 is named (R195, R201). -/
def parseFlagSet (bs : List Byte) : Option (BitVec 12) :=
  let v := fromBytes bs
  if v < 4096 then some (BitVec.ofNat 12 v) else none

/-- The cause record after a full reset (R217): cleared and POWER_UP set by a power-up, then PIN and DIP by theirs,
then RECORD_DAMAGED by a DAMAGED record. -/
def updatedCause (old : BitVec 4) (c : ResetCauses) (record : RecordState) : BitVec 4 :=
  let base := if c.powerUp then 0x1#4 else old
  let base := if c.pin then base ||| 0x2#4 else base
  let base := if c.dip then base ||| 0x4#4 else base
  if record = .damaged then base ||| 0x8#4 else base

end Sys2Proof.Machine
end

