-- ==== Sys2Proof/Machine/Ops.lean ====
section
/-! DEFINITION. The named operations over the records: reading and updating a port, a feed or the controller's plan,
raising a trigger, ending a step, the outgoing order, timers, averages, the values in force. Every rule of the later files
is written over these. -/
namespace Sys2Proof.Machine

/-! ## Reading and updating -/

def State.port (s : State) (p : Port) : PortRec := s.ports.get p
def State.feed (s : State) (f : Feed) : FeedRec := s.feeds.get f

/-- Changes one port record. -/
def updPort (p : Port) (g : PortRec → PortRec) (w : Ev) : Ev :=
  { w with ports := w.ports.set p (g (w.ports.get p)) }

/-- Changes one feed record. -/
def updFeed (f : Feed) (g : FeedRec → FeedRec) (w : Ev) : Ev :=
  { w with feeds := w.feeds.set f (g (w.feeds.get f)) }

/-- Changes the system link unit. -/
def updLink (g : Link → Link) (w : Ev) : Ev := { w with link := g w.link }

/-- Changes the outlet allocator. -/
def updOutlet (g : Outlet → Outlet) (w : Ev) : Ev := { w with outlet := g w.outlet }

/-- Raises an evaluation trigger; several at one event count as one (R100). -/
def raiseTrigger (w : Ev) : Ev := { w with trig := true }

/-! ## The values in force (R210) and the mode -/

/-- The factory values in force: the stored fields while the record is WRITTEN, else the blank defaults (R210). -/
def Factory.values (f : Factory) : FactoryContent :=
  match f.record, f.cells with
  | .written, .holding c _ => c
  | _, _ => .blank

def State.factoryValues (s : State) : FactoryContent := s.factory.values

def State.attended (s : State) : Bool := s.link.mode == .attended

/-- The effective ceiling C (R81). -/
def State.effectiveCeiling (s : State) : Nat :=
  if s.attended then s.tables.budget.ceiling else s.factoryValues.fallbackCeiling

/-- The feed limit of R81: the lead entry's when attended, the fallback limit otherwise (R72). -/
def State.feedLimit (s : State) (f : Feed) : Nat :=
  if s.attended then (s.tables.port.get (leadPort f)).feedLimit else s.factoryValues.fallbackLimit

/-- The effective feed limit under a derate level (R82). -/
def derated (limit d : Nat) : Nat := limit * (16 - d) / 16

def State.effectiveFeedLimit (s : State) (f : Feed) : Nat := derated (s.feedLimit f) (s.feed f).derate

/-! ## Averages (R158, R159) -/

/-- The samples after a new one: the last eight (R158). -/
def pushSample (samples : List Nat) (x : Nat) : List Nat :=
  let l := samples ++ [x]
  l.drop (l.length - 8)

/-- A reading held to its range (R157). -/
def sampleOf (top : Nat) (reading : Int) : Nat := min reading.toNat top

/-- The average: 0 while fewer than eight samples are held (R158). -/
def average (samples : List Nat) : Nat :=
  if samples.length = 8 then samples.sum / 8 else 0

def State.avgVoltage (s : State) (f : Feed) : Nat := average (s.sense.feedV.get f)
def State.avgCurrent (s : State) (f : Feed) : Nat := average (s.sense.feedI.get f)
def State.avgOutlet (s : State) (p : Port) : Nat := average (s.sense.outletI.get p)

/-- R159: each feed's product is floored on its own. -/
def State.intakePower (s : State) : Nat :=
  s.avgVoltage .F0 * s.avgCurrent .F0 / 1000 + s.avgVoltage .F1 * s.avgCurrent .F1 / 1000

def State.outletCurrent (s : State) : Nat :=
  s.avgOutlet .A + s.avgOutlet .B + s.avgOutlet .C + s.avgOutlet .D

/-! ## Timers (00, section 2.4) -/

/-- One tick of a countdown whose preset is read when it is loaded, on the first tick after its start (R24, R76, R219). A
LOAD TIMING stored between the start and that tick is therefore the one that counts (DEDUCED: log 44). -/
def Timer.tick (preset : Nat) : Timer → Timer
  | .stopped => .stopped
  | .armed => .running preset
  | .running n => .running (n - 1)

/-- The count has reached 0. -/
def Timer.expired : Timer → Bool
  | .running 0 => true
  | _ => false

/-- The preset of a use of the exchange timer (R24, R75). -/
def presetOf (t : Timing) : TimerUse → Nat
  | .debounce => t.debounce
  | .greeting => t.greeting
  | .answer => t.answer
  | .deferral => t.deferral
  | .settle => t.settle
  | .holdOff => t.holdOff

/-- One tick of the exchange timer: a use that has been started reads its preset on the first tick after its start (R24). The
debounce is loaded on entry and only counts here (R2; DEDUCED: log 38). -/
def ExchangeTimer.tick (t : Timing) : ExchangeTimer → ExchangeTimer
  | .stopped => .stopped
  | .armed u => .running u (presetOf t u)
  | .running u n => .running u (n - 1)

/-- The timer has expired in the use `u`. -/
def ExchangeTimer.expiredAs (u : TimerUse) : ExchangeTimer → Bool
  | .running v 0 => v == u
  | _ => false

/-- The timer runs, or is to be loaded, as the use `u`. -/
def ExchangeTimer.runsAs (u : TimerUse) : ExchangeTimer → Bool
  | .running v _ => v == u
  | .armed v => v == u
  | .stopped => false

/-- A period has reached its latched length (R138). -/
def Period.expired : Period → Bool
  | .off => false
  | .counting n len => len ≤ n

/-- One tick of a period whose monitor is active and whose condition is `holds` (R138). -/
def Period.tick (length : Nat) (holds : Bool) (p : Period) : Period :=
  if holds then
    match p with
    | .off => .counting 1 length
    | .counting n len => .counting (n + 1) len
  else .off

/-! ## The outgoing order (R5) -/

/-- RESTART waits or is in transmission. -/
def PortRec.restartOwed (r : PortRec) : Bool :=
  r.order.any (· == .restart) || r.tx == some (.ordered .restart)

/-- A frame takes the place of a waiting frame of its kind, or the end of the order (R5). -/
def placeFrame (f : OutFrame) : List OutFrame → List OutFrame
  | [] => [f]
  | g :: rest => if g.kindCode = f.kindCode then f :: rest else g :: placeFrame f rest

/-- A frame other than RESTART is decided on a port: discarded while RESTART waits or is in transmission (R5). -/
def decideFrame (p : Port) (f : OutFrame) (w : Ev) : Ev :=
  updPort p (fun r => if r.restartOwed then r else { r with order := placeFrame f r.order }) w

/-- Any waiting CLAIM is discarded (R36, R45). -/
def discardClaims (p : Port) (w : Ev) : Ev :=
  updPort p (fun r => { r with order := r.order.filter (fun g => g.kindCode != 0x04#8) }) w

/-- The exchange timer is stopped. -/
def stopTimer (p : Port) (w : Ev) : Ev := updPort p (fun r => { r with timer := .stopped }) w

/-- The exchange timer is started in a use, to be loaded on the next tick (R24). -/
def startTimer (p : Port) (u : TimerUse) (w : Ev) : Ev := updPort p (fun r => { r with timer := .armed u }) w

/-- The last-failure reason (R24). -/
def recordFailure (p : Port) (r : FailReason) (w : Ev) : Ev := updPort p (fun q => { q with lastFailure := r }) w

/-! ## The step in flight (R99, R115) -/

/-- The step in flight, if any. -/
def Controller.inFlight (c : Controller) : Option PlanStep := c.plan.find? (fun st => st.status == .inFlight)

def State.inFlight (s : State) : Option PlanStep := s.control.inFlight

/-- The step in flight takes its final status; the controller acts on it at the close of the event (R102). -/
def endStep (status : StepStatus) (w : Ev) : Ev :=
  match w.inFlight with
  | none => w
  | some st =>
    { w with
      control := { w.control with
        plan := w.control.plan.map (fun x => if x.status == .inFlight then { x with status := status } else x) }
      ended := some { st with status := status } }

/-- The step in flight ends FAILED: reason recorded, STEP_FAILED set, trigger raised (R115). -/
def failStep (r : FailReason) (w : Ev) : Ev :=
  match w.inFlight with
  | none => w
  | some st => raiseTrigger (setNotice .stepFailed (recordFailure st.port r (endStep (.failed r) w)))

/-- A CLAIM or RELEASE step. -/
def StepKind.isExchange : StepKind → Bool
  | .release | .claim .. => true
  | .openSwitch | .closeSwitch => false

/-- A CLAIM or RELEASE step in flight on the port. -/
def State.exchangeOn (s : State) (p : Port) : Bool :=
  match s.inFlight with
  | some st => st.kind.isExchange && st.port == p
  | none => false

/-- A CLOSE step in flight that names the port. -/
def State.closeStepOn (s : State) (p : Port) : Bool :=
  match s.inFlight with
  | some st => st.kind == .closeSwitch && st.port == p
  | none => false

/-- A CLAIM or RELEASE step in flight on the port fails. -/
def failExchange (p : Port) (r : FailReason) (w : Ev) : Ev := if w.exchangeOn p then failStep r w else w

/-- A CLAIM or RELEASE step in flight on the port ends DONE. -/
def doneExchange (p : Port) (w : Ev) : Ev := if w.exchangeOn p then endStep .done w else w

/-- A CLOSE step in flight that names the port fails. -/
def failClose (p : Port) (r : FailReason) (w : Ev) : Ev := if w.closeStepOn p then failStep r w else w

/-! ## Committed power (R103) -/

/-- The committed power by the feed's state alone. -/
def State.statePower (s : State) (f : Feed) : Nat :=
  match (s.feed f).state with
  | .idle | .gap | .fault => 0
  | .base => Config.basePower
  | .contract =>
    match (s.feed f).selected with
    | none => 0
    | some p => match (s.port p).contract with
      | none => 0
      | some c => c.power

/-- The committed power of a feed (R103): the table's rows for a step in flight first, then the feed's state (log 9). -/
def State.committed (s : State) (f : Feed) : Nat :=
  match s.inFlight with
  | some st =>
    if st.feed = f then
      match st.kind with
      | .claim _ _ _ power _ => max st.base power
      | .closeSwitch => Config.basePower
      | .release | .openSwitch => s.statePower f
    else s.statePower f
  | none => s.statePower f

def State.committedTotal (s : State) : Nat := s.committed .F0 + s.committed .F1

/-! ## Partners -/

/-- A port has a partner attached (R142). -/
def PortRec.attached (r : PortRec) : Bool :=
  match r.state with
  | .detached | .debounce => false
  | .disabled => r.presence
  | _ => true

/-- The role a class asks for (R10, R28). -/
def roleAsked : PartnerClass → Role
  | .accessory => .outlet
  | _ => .intake

/-- A role is permitted by a port entry (R28). -/
def RolesPermitted.allows : RolesPermitted → Role → Bool
  | .both, .intake | .both, .outlet | .intake, .intake | .outlet, .outlet => true
  | _, _ => false

end Sys2Proof.Machine
end

