-- ==== Sys2Proof/Machine/OutletOps.lean ====
section
/-! DEFINITION. The outlet allocator (chapter 7): the pool, admission, DRAW, cuts, the shrink and the re-admission pass. -/
namespace Sys2Proof.Machine

/-- The sum of the current fields of entries (R144). -/
def sumCurrents (gs : List GrantEntry) : Nat := (gs.map (·.current)).sum

/-- The free room (R144). -/
def Outlet.freeRoom (o : Outlet) : Nat := o.pool - sumCurrents o.grants

/-- The budget value that is the pool now (R146). -/
def State.poolValue (s : State) : Nat :=
  if (s.feed .F0).state = .contract ∨ (s.feed .F1).state = .contract then s.tables.budget.poolIntake
  else s.tables.budget.poolBattery

/-- The port holds an entry of the grant list. -/
def Outlet.hasEntry (o : Outlet) (p : Port) : Bool := o.grants.any (·.port == p)

/-- A port's entry is removed and its switch drive opens; the freed room is owed to the re-admission pass (R154). -/
def removeEntry (p : Port) (w : Ev) : Ev :=
  if w.outlet.hasEntry p then
    { w with
      outlet := { w.outlet with
        grants := w.outlet.grants.filter (·.port != p)
        drives := w.outlet.drives.set p .opened }
      readmit := true }
  else w

/-- A port loses its park time (R153). -/
def forgetParkTime (p : Port) (w : Ev) : Ev :=
  updOutlet (fun o => { o with parkTime := o.parkTime.set p none }) w

/-- A port enters PARKED with reason POOL, its park time the present time base value (R147, R152). -/
def parkForPool (p : Port) (w : Ev) : Ev :=
  updOutlet (fun o => { o with parkTime := o.parkTime.set p (some w.time) })
    (updPort p (fun r => { r with state := .parked, parkReason := some .pool }) w)

/-- A port is admitted with a BASE entry as the newest of the list, its only one (R144), and its switch drive closes
(R147). -/
def admitPort (p : Port) (w : Ev) : Ev :=
  updOutlet (fun o =>
      { o with
        grants := o.grants.filter (·.port != p) ++ [⟨p, .base, Config.defaultAllowance, w.time, .off⟩]
        drives := o.drives.set p .closed
        parkTime := o.parkTime.set p none })
    (updPort p (fun r => { r with state := .outletBase, parkReason := none }) w)

/-- A port asks for admission (R147). -/
def requestAdmission (p : Port) (w : Ev) : Ev :=
  if Config.defaultAllowance ≤ w.outlet.freeRoom then admitPort p w else parkForPool p w

/-! ## Shrinking the pool (R152) -/

/-- Pass 1 over entries newest first: each GRANTED entry gives up the lesser of the excess and its current above 500. -/
def cutEntries : Nat → List GrantEntry → List GrantEntry
  | _, [] => []
  | excess, g :: gs =>
    let d := if g.kind = .granted then min excess (g.current - Config.defaultAllowance) else 0
    { g with current := g.current - d } :: cutEntries (excess - d) gs

/-- The ports whose entry fell, with their new currents. -/
def cutsMade : List GrantEntry → List GrantEntry → List (Port × Nat)
  | g :: gs, h :: hs => if h.current < g.current then (h.port, h.current) :: cutsMade gs hs else cutsMade gs hs
  | _, _ => []

/-- Pass 2 over entries newest first: the entries kept once the newest have gone until the sum fits the pool. -/
def keptEntries (pool : Nat) : List GrantEntry → List GrantEntry
  | [] => []
  | g :: gs => if pool < sumCurrents (g :: gs) then keptEntries pool gs else g :: gs

/-- Pass 2: the entries removed, newest first. -/
def removedEntries (pool : Nat) : List GrantEntry → List GrantEntry
  | [] => []
  | g :: gs => if pool < sumCurrents (g :: gs) then g :: removedEntries pool gs else []

/-- CUT is decided for a port whose entry fell, and OUTLET_CUT set (R152). -/
def announceCut (w : Ev) (c : Port × Nat) : Ev := setNotice .outletCut (decideFrame c.1 (.cut c.2) w)

/-- A removed entry: its switch drive opens, its port is parked, OUTLET_CUT is set (R152). -/
def expelPort (w : Ev) (g : GrantEntry) : Ev :=
  setNotice .outletCut
    (updOutlet (fun o => { o with drives := o.drives.set g.port .opened }) (parkForPool g.port w))

/-- The shrink of R152. -/
def shrinkPool (w : Ev) : Ev :=
  let newest := w.outlet.grants.reverse
  let cut := cutEntries (sumCurrents newest - w.outlet.pool) newest
  let kept := keptEntries w.outlet.pool cut
  let w := updOutlet (fun o => { o with grants := kept.reverse }) w
  let w := (cutsMade newest cut).foldl announceCut w
  (removedEntries w.outlet.pool cut).foldl expelPort w

/-- The pool in force is recomputed: a smaller pool is shrunk, a larger one owes the re-admission pass (R146). -/
def recomputePool (w : Ev) : Ev :=
  let old := w.outlet.pool
  let new := w.poolValue
  let w := updOutlet (fun o => { o with pool := new }) w
  if new < sumCurrents w.outlet.grants then shrinkPool w
  else if old < new then { w with readmit := true }
  else w

/-! ## DRAW (R149, R150) -/

/-- The grant of R149 for a requested current. -/
def State.drawGrant (s : State) (p : Port) (requested : Nat) : Nat :=
  let others := sumCurrents (s.outlet.grants.filter (·.port != p))
  min (min requested (s.tables.port.get p).outletCap) (s.outlet.pool - others)

/-- The port's entry takes a granted current; its admission time and place are kept (R149). -/
def setGrant (p : Port) (current : Nat) (w : Ev) : Ev :=
  updOutlet (fun o => { o with
    grants := o.grants.map (fun g => if g.port = p then { g with kind := .granted, current := current } else g) }) w

/-- The current of a port's entry, 0 without one. -/
def Outlet.currentOf (o : Outlet) (p : Port) : Nat :=
  match o.grants.find? (·.port == p) with
  | some g => g.current
  | none => 0

/-- A DRAW delivered to a port in an outlet state is decided (R149). -/
def decideDraw (p : Port) (requested : Nat) (w : Ev) : Ev :=
  let g := w.drawGrant p requested
  if Config.defaultAllowance ≤ g then
    let lowered := g < w.outlet.currentOf p
    let w := updPort p (fun r => { r with state := .outletGranted }) (setGrant p g (decideFrame p (.grant g) w))
    if lowered then { w with readmit := true } else w
  else decideFrame p .decline w

/-! ## A lowered outlet cap (R151) -/

/-- The port's GRANTED entry above both the new cap and 500 mA is cut. -/
def applyCap (p : Port) (cap : Nat) (w : Ev) : Ev :=
  match w.outlet.grants.find? (·.port == p) with
  | none => w
  | some g =>
    if g.kind = .granted ∧ cap < g.current ∧ Config.defaultAllowance < g.current then
      let new := max Config.defaultAllowance cap
      { announceCut (setGrant p new w) (p, new) with readmit := true }
    else w

/-! ## Re-admission (R153) -/

/-- A port parked with reason POOL, with the age of its park time (R219). -/
def State.parkAge (s : State) (p : Port) : Option Nat :=
  if (s.port p).state = .parked ∧ (s.port p).parkReason = some .pool then
    (s.outlet.parkTime.get p).map (fun t => (s.time - t).toNat)
  else none

/-- Inserts a port after every port at least as old (ties in order of port letter). -/
def insertByAge (x : Port × Nat) : List (Port × Nat) → List (Port × Nat)
  | [] => [x]
  | y :: ys => if x.2 ≤ y.2 then y :: insertByAge x ys else x :: y :: ys

/-- The parked ports, oldest park time first (R153). -/
def State.parkedByAge (s : State) : List Port :=
  ((allPorts.filterMap (fun p => (s.parkAge p).map (fun a => (p, a)))).foldl
    (fun acc x => insertByAge x acc) []).map (·.1)

/-- Admits ports in order while the free room is at least 500 mA, welcoming each again (R153). -/
def admitInOrder : List Port → Ev → Ev
  | [], w => w
  | p :: ps, w =>
    if Config.defaultAllowance ≤ w.outlet.freeRoom then
      admitInOrder ps (decideFrame p (.welcome .outlet Config.baseVoltage) (admitPort p w))
    else w

/-- The re-admission pass (R153). -/
def readmissionPass (w : Ev) : Ev := admitInOrder w.parkedByAge w

end Sys2Proof.Machine
end

