-- ==== Sys2Proof/Machine/FeedOps.lean ====
section
/-! DEFINITION. The feed controllers (chapter 6): switch drives, the limit target and output, openings, checks, contract
reports, leaving FAULT. -/
namespace Sys2Proof.Machine

/-! ## Switches (R126) -/

/-- The drive of a port on its feed. -/
def FeedRec.drive (r : FeedRec) : Port → Drive
  | .A | .C => r.driveLead
  | .B | .D => r.driveOther

def FeedRec.setDrive (r : FeedRec) (p : Port) (d : Drive) : FeedRec :=
  match p with
  | .A | .C => { r with driveLead := d }
  | .B | .D => { r with driveOther := d }

/-- The feed is in BASE or CONTRACT. -/
def FeedRec.powered (r : FeedRec) : Bool := r.state == .base || r.state == .contract

/-- The port whose switch is closed, the feed's incumbent (R94, R126). -/
def FeedRec.incumbent (r : FeedRec) : Option Port := if r.powered then r.selected else none

/-- The feed's switch is closed on the port (R126). -/
def State.closedOn (s : State) (p : Port) : Bool := (s.feed (feedOf p)).incumbent == some p

/-! ## Limit target and output (R134 to R136) -/

/-- A minimum in which an absent term takes no part. -/
def capBy (x : Nat) : Option Nat → Nat
  | none => x
  | some y => min x y

/-- The limit target of R134. -/
def limitTarget (r : FeedRec) (trim : Option Nat) : Nat :=
  match r.state with
  | .idle | .gap | .fault => 0
  | .base => capBy (capBy Config.baseCurrent trim) r.stepCap
  | .contract =>
    match r.view with
    | none => 0
    | some v => capBy (capBy v.current trim) r.stepCap

/-- The target is computed again: a fall lowers the output at once and stops the ramp (R135), a rise starts the ramp
unless it runs (R136). -/
def FeedRec.retarget (trim : Option Nat) (r : FeedRec) : FeedRec :=
  let t := limitTarget r trim
  if t ≤ r.output then { r with target := t, output := t, ramp := .stopped }
  else { r with target := t, ramp := if r.ramp = .stopped then .armed else r.ramp }

def retarget (f : Feed) (w : Ev) : Ev := updFeed f (FeedRec.retarget (w.control.trim.get f)) w

/-- The 10-bit limit word that drives the output pin, PWM duty word / 1024 (R134). -/
def FeedRec.limitWord (r : FeedRec) : BitVec 10 := BitVec.ofNat 10 (r.output / 10)

/-- A feed's trim value (R120). -/
def setTrim (f : Feed) (t : Option Nat) (w : Ev) : Ev :=
  { w with control := { w.control with trim := w.control.trim.set f t } }

/-- The step cap of a feed is set or removed, and the target computed again (R137). -/
def setStepCap (f : Feed) (c : Option Nat) (w : Ev) : Ev :=
  retarget f (updFeed f (fun r => { r with stepCap := c }) w)

/-! ## Opening (R130, R131, R140) -/

/-- What every opening of a closed switch does to the record (R130, R131, R140). -/
def FeedRec.openSwitch (r : FeedRec) : FeedRec :=
  { r with
    selected := none
    driveLead := .opened
    driveOther := .opened
    view := none
    output := 0
    target := 0
    stepCap := none
    ramp := .stopped
    check := .idle
    overdraw := .off
    underVolt := .off }

/-- An opening into a state: the record, the trim value (R120), and the pool when a contract ends by it (R146). -/
def openInto (st : FeedState) (f : Feed) (w : Ev) : Ev :=
  let wasContract := (w.feed f).state == .contract
  let w := setTrim f none (updFeed f (fun r => { r.openSwitch with state := st }) w)
  if wasContract then recomputePool w else w

/-- Opened with a gap (R130): nothing in IDLE, GAP or FAULT. -/
def openWithGap (f : Feed) (w : Ev) : Ev :=
  if (w.feed f).powered then updFeed f (fun r => { r with gap := .armed }) (openInto .gap f w) else w

/-- Opened with a gap when the switch is closed on the port (R28, R54, R55). -/
def openIfClosedOn (p : Port) (w : Ev) : Ev := if w.closedOn p then openWithGap (feedOf p) w else w

/-- A detach of the port the switch is closed on: IDLE with no gap (R131). -/
def openForDetach (p : Port) (w : Ev) : Ev := if w.closedOn p then openInto .idle (feedOf p) w else w

/-! ## Checks (R127, R129, R133) -/

/-- A CLOSE_CHECK starts: SOFT_START, output and target 0, the window timer (R127). -/
def startCloseCheck (p : Port) (w : Ev) : Ev :=
  updFeed (feedOf p) (fun r =>
    { r.setDrive p .softStart with selected := some p, check := .close p .armed, output := 0, target := 0 }) w

/-- The CLOSE_CHECK of a port ends without closing: the drive opens and the selected port is cleared (R128, R129). -/
def dropCloseCheck (p : Port) (w : Ev) : Ev :=
  updFeed (feedOf p) (fun r => { r.setDrive p .opened with selected := none, check := .idle }) w

/-- A CLOSE_CHECK of the port is in progress; the feed stays in IDLE throughout (R127). -/
def State.closeChecking (s : State) (p : Port) : Bool :=
  match (s.feed (feedOf p)).state, (s.feed (feedOf p)).check with
  | .idle, .close q _ => q == p
  | _, _ => false

/-- A CONTRACT_CHECK of the port is in progress. -/
def State.contractChecking (s : State) (p : Port) : Bool :=
  match (s.feed (feedOf p)).check with
  | .contract q _ _ => q == p
  | _ => false

/-- A CLOSE of the port is held in the gap of its feed (R127). -/
def State.closeHeld (s : State) (p : Port) : Bool :=
  (s.feed (feedOf p)).state == .gap && (s.feed (feedOf p)).heldClose == some p

/-- The port leaves HELD for a state other than DETACHED: its CLOSE_CHECK ends and the CLOSE step fails; a held close is
lost, which takes effect when the gap ends (R129). -/
def leaveHeld (p : Port) (w : Ev) : Ev :=
  if w.closeChecking p then failClose p .superseded (dropCloseCheck p w)
  else if w.closeHeld p then updFeed (feedOf p) (fun r => { r with heldLost := true }) w
  else w

/-- The port detaches while its CLOSE is held or checked (R129). -/
def detachClose (p : Port) (w : Ev) : Ev :=
  let w := if w.closeChecking p then dropCloseCheck p w else w
  if w.closeHeld p then
    updFeed (feedOf p) (fun r => { r with heldClose := none, heldLost := false, selected := none }) w
  else w

/-- The port leaves SETTLING: its CONTRACT_CHECK is abandoned (R133). -/
def abandonCheck (p : Port) (w : Ev) : Ev :=
  if w.contractChecking p then updFeed (feedOf p) (fun r => { r with check := .idle }) w else w

/-! ## Contract reports (R132) -/

/-- A port tells its feed of a contract entered (R132). -/
def reportEntered (p : Port) (v i : Nat) (w : Ev) : Ev :=
  if w.closedOn p then
    let f := feedOf p
    let wasBase := (w.feed f).state == .base
    let w := retarget f (updFeed f (fun r => { r with state := .contract, view := some ⟨v, i⟩, underVolt := .off }) w)
    if wasBase then recomputePool w else w
  else w

/-- A port tells its feed that the protective reaction has rewritten its contract's current (R132). -/
def reportRewritten (p : Port) (i : Nat) (w : Ev) : Ev :=
  if w.closedOn p ∧ (w.feed (feedOf p)).state = .contract then
    retarget (feedOf p) (updFeed (feedOf p) (fun r =>
      { r with view := r.view.map (fun v => { v with current := i }), underVolt := .off }) w)
  else w

/-- A port tells its feed that its contract is removed (R132). -/
def reportRemoved (p : Port) (w : Ev) : Ev :=
  if w.closedOn p then
    let f := feedOf p
    let w := updFeed f (fun r => { r with underVolt := .off }) w
    if (w.feed f).state = .contract then
      recomputePool (retarget f (updFeed f (fun r => { r with state := .base, view := none }) w))
    else w
  else w

/-! ## Leaving FAULT (R142) -/

/-- A feed in FAULT with no partner attached on either port enters IDLE and a trigger is raised (R142). -/
def faultExit (f : Feed) (w : Ev) : Ev :=
  if (w.feed f).state = .fault ∧ (w.port (leadPort f)).attached = false ∧ (w.port (secondPort f)).attached = false then
    raiseTrigger (updFeed f (fun r => { r with state := .idle }) w)
  else w

/-! ## Trims (R118, R119) -/

/-- The voltage of R118: the contract's in CONTRACT, base otherwise. -/
def FeedRec.trimVoltage (r : FeedRec) : Nat :=
  match r.state, r.view with
  | .contract, some v => v.voltage
  | _, _ => Config.baseVoltage

/-- A feed's output is lowered to at most `i`, and the lowered output becomes its trim value (R118 to R120). -/
def trimTo (f : Feed) (i : Nat) (w : Ev) : Ev :=
  retarget f (setTrim f (some (min (w.feed f).output i)) w)

/-- The share of the ceiling of R118, turned into a current; every floor on the exact value. -/
def trimShare (c pFeed pSum v : Nat) : Nat := c * pFeed * 1000 / (pSum * v) / 10 * 10

/-- The immediate trim of R118, for the effective ceiling now in force. The changes of mode and a burn ask for it whether or
not they lower the ceiling (R207, R208, R214; DEDUCED: log 23). -/
def trimForCeiling (w : Ev) : Ev :=
  let c := w.effectiveCeiling
  let p0 := w.committed .F0
  let p1 := w.committed .F1
  if c < p0 + p1 then
    let w0 := if (w.feed .F0).powered then
        trimTo .F0 (trimShare c p0 (p0 + p1) (w.feed .F0).trimVoltage) w else w
    if (w0.feed .F1).powered then
      trimTo .F1 (trimShare c p1 (p0 + p1) (w0.feed .F1).trimVoltage) w0 else w0
  else w

/-- The trim of R119 for a feed whose derate level rose. -/
def trimForDerate (f : Feed) (w : Ev) : Ev :=
  let l := w.effectiveFeedLimit f
  if (w.feed f).powered ∧ l < w.committed f then
    trimTo f (l * 1000 / (w.feed f).trimVoltage / 10 * 10) w
  else w

end Sys2Proof.Machine
end

