-- ==== Sys2Proof/Machine/PortOps.lean ====
section
/-! DEFINITION. The port units (chapter 2): entering a state, WELCOME, partner restarts and RESTART, sheets and the
protective reaction, claims and releases, parking, disabling and detach. -/
namespace Sys2Proof.Machine

/-! ## Port states -/

/-- A port enters a state; outside CONTRACT the under-voltage monitor of its feed is inactive and its period ends (R138). -/
def enter (p : Port) (st : PortState) (w : Ev) : Ev :=
  let w := updPort p (fun r => { r with state := st }) w
  if st ≠ .contract ∧ w.closedOn p then updFeed (feedOf p) (fun r => { r with underVolt := .off }) w else w

/-- The port enters DEBOUNCE, its timer loaded on entry from the timing record then in force (R2; DEDUCED against R24: log
38). -/
def enterDebounce (p : Port) (w : Ev) : Ev :=
  enter p .debounce (updPort p (fun r => { r with timer := .running .debounce w.tables.timing.debounce }) w)

/-- A contract record is removed: CONTRACT_CHANGED is set and the feed is told (R132, R199). -/
def dropContract (p : Port) (w : Ev) : Ev :=
  if (w.port p).contract.isSome then
    reportRemoved p (setNotice .contractChanged (updPort p (fun r => { r with contract := none }) w))
  else w

/-- The claim record is removed, and with it a CONTRACT_CHECK of the port (R133). -/
def dropClaim (p : Port) (w : Ev) : Ev := abandonCheck p (updPort p (fun r => { r with claim := none }) w)

/-- The park reason is removed, and the park time with it (R153). -/
def unpark (p : Port) (w : Ev) : Ev := forgetParkTime p (updPort p (fun r => { r with parkReason := none }) w)

/-- What a restart in either direction and a partner restart clear: claim and contract records, sheet, partner record,
park reason, the grant-list entry (R47, R48). -/
def clearNegotiation (p : Port) (w : Ev) : Ev :=
  let w := dropContract p (dropClaim p w)
  let w := updPort p (fun r => { r with sheet := [], partner := none }) w
  removeEntry p (unpark p w)

/-! ## RESTART (R48, R49) -/

/-- The part decides RESTART on a port (R49); the rule that decides it has already failed the step. In RECOVERY the
RESTART is placed again and a running hold-off runs on (log 13). -/
def decideRestart (p : Port) (w : Ev) : Ev :=
  if (w.port p).state = .recovery then
    raiseTrigger (updPort p (fun r => { r with order := [.restart] }) w)
  else
    let w := clearNegotiation p (leaveHeld p w)
    let w := updPort p (fun r => { r with order := [.restart], timer := .stopped }) w
    raiseTrigger (enter p .recovery w)

/-- A RESTART accepted from the partner, in GREETING or later other than RECOVERY (R48). -/
def partnerSendsRestart (p : Port) (w : Ev) : Ev :=
  let w := leaveHeld p (failExchange p .partnerRestart w)
  let w := clearNegotiation p w
  let w := updPort p (fun r => { r with order := [], timer := .armed .holdOff }) w
  raiseTrigger (enter p .recovery w)

/-! ## Announcement and welcome (R11, R27, R28) -/

/-- The highest V high among valid USE entries, an any mark counting as the factory max voltage (R11, R69). -/
def policyCeiling (maxVoltage : Nat) (es : List PolicyEntry) : Option Nat :=
  es.foldl (fun acc e =>
    if e.valid ∧ e.action = .use then
      let v := if e.anyVoltage then maxVoltage else e.vHigh
      some (match acc with
        | none => v
        | some a => max a v)
    else acc) none

/-- The voltage ceiling of a WELCOME (R11). -/
def State.welcomeCeiling (s : State) : Role → Nat
  | .intake =>
    let m := s.factoryValues.maxVoltage
    if s.attended then
      match policyCeiling m s.tables.policy with
      | none => m
      | some v => min m v
    else m
  | .outlet => Config.baseVoltage
  | .refused => 0

/-- The role written into the partner record (R28). -/
def setRole (p : Port) (role : Role) (w : Ev) : Ev :=
  updPort p (fun r => { r with partner := r.partner.map (fun q => { q with role := role }) }) w

/-- A WELCOME is decided: the role is recorded and the exchange timer stopped (R28). -/
def decideWelcome (p : Port) (role : Role) (w : Ev) : Ev :=
  stopTimer p (decideFrame p (.welcome role (w.welcomeCeiling role)) (setRole p role w))

/-- The port enters PARKED with reason ROLE or DENIED, which raises a trigger (R52). -/
def park (p : Port) (reason : ParkReason) (w : Ev) : Ev :=
  raiseTrigger (enter p .parked (updPort p (fun r => { r with parkReason := some reason }) w))

/-- The port answers a partner whose record stands with the role it asked for (R28). -/
def welcomePartner (p : Port) (cls : PartnerClass) (w : Ev) : Ev :=
  let role := roleAsked cls
  if (w.tables.port.get p).roles.allows role then
    match role with
    | .outlet => requestAdmission p (openIfClosedOn p (decideWelcome p .outlet w))
    | _ => enter p .awaitSheet (decideWelcome p .intake w)
  else park p .role (openIfClosedOn p (decideWelcome p .refused w))

/-- The decision with which a held frame is delivered (R185), the amended content already taken as R184 gives. -/
inductive Decision
  | allow
  | deny
  | amendAnnounce (cls : PartnerClass) (cable : Nat)
  | amendSheet (lines : List Line)
  | amendDraw (current : Nat)
deriving DecidableEq, Repr

/-- An ANNOUNCE delivered in GREETING (R27, R28). -/
def greetPartner (p : Port) (a : Announcement) (d : Decision) (w : Ev) : Ev :=
  let cls := match d with
    | .amendAnnounce c _ => c
    | _ => a.cls
  let cable := match d with
    | .amendAnnounce _ i => i
    | _ => a.cable
  let w := updPort p (fun r => { r with partner := some ⟨.refused, cls, cable, a.tag, 1, false⟩ }) w
  match d with
  | .deny => park p .denied (openIfClosedOn p (decideWelcome p .refused w))
  | _ => welcomePartner p cls w

/-- An ANNOUNCE after greeting clears the old partner first (R47). -/
def clearOldPartner (p : Port) (w : Ev) : Ev :=
  let w := leaveHeld p (failExchange p .partnerRestart w)
  let w := clearNegotiation p w
  raiseTrigger (updPort p (fun r => { r with timer := .stopped, repeatCount := 0 }) w)

/-- An ANNOUNCE delivered to the port state machine (R27, R47, R59). -/
def deliverAnnounce (p : Port) (a : Announcement) (d : Decision) (w : Ev) : Ev :=
  match (w.port p).state with
  | .greeting => greetPartner p a d w
  | .awaitSheet | .held | .claiming | .settling | .contract | .releasing | .outletBase | .outletGranted | .parked =>
    greetPartner p a d (clearOldPartner p w)
  | .detached | .debounce | .recovery | .disabled => w

/-- The greeting deadline finds no ANNOUNCE: a silent partner (R29). No WELCOME is sent, so a switch closed on the port is
opened first, whatever state follows (R28; DEDUCED: log 36). -/
def silentPartner (p : Port) (w : Ev) : Ev :=
  let intake := (w.tables.port.get p).roles.allows .intake
  let role : Role := if intake then .intake else .refused
  let w := updPort p (fun r =>
    { r with partner := some ⟨role, .unknown, Config.lowCable, 0, 1, true⟩, timer := .stopped }) w
  let w := openIfClosedOn p w
  if intake then raiseTrigger (enter p .held w) else park p .role w

/-! ## Sheets and the protective reaction (R31, R33, R43, R45) -/

/-- A delivered sheet is stored whole; SHEET_CHANGED is set and a trigger raised (R31). -/
def storeSheet (p : Port) (lines : List Line) (w : Ev) : Ev :=
  raiseTrigger (setNotice .sheetChanged (updPort p (fun r => { r with sheet := lines }) w))

/-- The carrying line of R43 with its index, counted from `i`: largest current ceiling, then lowest index. -/
def carryingLine (v : Nat) : Nat → List Line → Option (Nat × Line)
  | _, [] => none
  | i, l :: ls =>
    let rest := carryingLine v (i + 1) ls
    if l.usableValid && l.carries v then
      match rest with
      | some (j, m) => if l.current < m.current then some (j, m) else some (i, l)
      | none => some (i, l)
    else rest

/-- Opens a claim exchange: claim record, repeat count 0, CLAIM decided, CLAIMING (R35). -/
def openClaim (p : Port) (line v i : Nat) (origin : Origin) (held : Bool) (w : Ev) : Ev :=
  let w := updPort p (fun r =>
    { r with
      claim := some ⟨line, v, i, origin, held, w.tables.timing.repeatLimit, none⟩
      repeatCount := 0
      timer := .stopped }) w
  enter p .claiming (decideFrame p (.claim line v i) w)

/-- A contract with the carrying line's index, and with a lower current and its power where the new sheet bounds it
below the contract's (R43). -/
def Contract.rewritten (c : Contract) (line current : Nat) : Contract :=
  if current < c.current then
    { c with line := line, current := current, power := c.voltage * current / 1000 }
  else { c with line := line }

/-- The contract record rewritten by the protective reaction (R43). -/
def rewriteContract (p : Port) (line current : Nat) (w : Ev) : Ev :=
  updPort p (fun r => { r with contract := r.contract.map (·.rewritten line current) }) w

/-- The protective reaction of a contracted port to the sheet it holds (R43). -/
def protectiveReaction (p : Port) (w : Ev) : Ev :=
  match (w.port p).contract with
  | none => w
  | some c =>
    match carryingLine c.voltage 1 (w.port p).sheet with
    | none => raiseTrigger (enter p .held (dropContract p w))
    | some (j, l) =>
      let cable := match (w.port p).partner with
        | some q => q.cable
        | none => Config.lowCable
      let bound := min (min l.current cable) w.factoryValues.portCurrent
      let i := min bound c.current
      let w := reportRewritten p i (rewriteContract p j i w)
      raiseTrigger (openClaim p j c.voltage i .protective true (setNotice .contractChanged w))

/-- A sheet ends the exchange of a port in CLAIMING: back to CONTRACT or HELD (R45). -/
def endClaimBySheet (p : Port) (w : Ev) : Ev :=
  let held := match (w.port p).claim with
    | some c => c.contractHeld
    | none => false
  let w := discardClaims p (stopTimer p (dropClaim p (failExchange p .superseded w)))
  enter p (if held then .contract else .held) w

/-- A sheet ends the exchange of a port in SETTLING: RESTART (R45). -/
def endSettlingBySheet (p : Port) (w : Ev) : Ev := decideRestart p (failExchange p .superseded w)

/-- A sheet delivered to the port state machine (R30, R33, R43, R45). -/
def deliverSheet (p : Port) (lines : List Line) (w : Ev) : Ev :=
  match (w.port p).state with
  | .awaitSheet => enter p .held (stopTimer p (storeSheet p lines w))
  | .held | .releasing => storeSheet p lines w
  | .claiming =>
    let w := storeSheet p lines (endClaimBySheet p w)
    if (w.port p).state = .contract then protectiveReaction p w else w
  | .settling => endSettlingBySheet p w
  | .contract => protectiveReaction p (storeSheet p lines w)
  | .detached | .debounce | .greeting | .outletBase | .outletGranted | .parked | .recovery | .disabled => w

/-- What a port does at acceptance with a sheet that is held (R46, R176; in CLAIMING without a contract DEDUCED: log 29). -/
def acceptHeldSheet (p : Port) (lines : List Line) (w : Ev) : Ev :=
  match (w.port p).state with
  | .contract => deliverSheet p lines w
  | .claiming =>
    if (w.port p).claim.any (·.contractHeld) then deliverSheet p lines w else endClaimBySheet p w
  | .settling => endSettlingBySheet p w
  | _ => w

/-- The held sheet is stored at acceptance, so its entry carries the early mark (R46, R176). -/
def PortRec.storesHeldSheet (r : PortRec) : Bool :=
  r.state == .contract || (r.state == .claiming && r.claim.any (·.contractHeld))

/-! ## DRAW (R149, R150) -/

def PortRec.inOutlet (r : PortRec) : Bool := r.state == .outletBase || r.state == .outletGranted

/-- A DRAW delivered with a requested current; ignored outside the outlet states (R149). -/
def deliverDraw (p : Port) (current : Nat) (w : Ev) : Ev :=
  if (w.port p).inOutlet then decideDraw p current w else w

/-- A DRAW denied by verdict: DECLINE, in an outlet state (R150). -/
def denyDraw (p : Port) (w : Ev) : Ev :=
  if (w.port p).inOutlet then decideFrame p .decline w else w

/-! ## Answers and the end of exchanges (R36 to R42) -/

/-- A GRANT accepted in CLAIMING (R36). -/
def claimGranted (p : Port) (w : Ev) : Ev :=
  let w := updPort p (fun r =>
    { r with claim := r.claim.map (fun c => { c with grantTime := some w.time }), timer := .armed .settle }) w
  enter p .settling (discardClaims p w)

/-- The line of an index takes its declined mark (R32). -/
def markDeclined : Nat → List Line → List Line
  | _, [] => []
  | 0, ls => ls
  | 1, l :: ls => { l with declined := true } :: ls
  | n + 2, l :: ls => l :: markDeclined (n + 1) ls

/-- A DECLINE accepted in CLAIMING (R37, R44). -/
def claimDeclined (p : Port) (w : Ev) : Ev :=
  match (w.port p).claim with
  | none => w
  | some c =>
    let w := updPort p (fun r => { r with sheet := markDeclined c.line r.sheet }) w
    let w := recordFailure p .declined (dropClaim p (stopTimer p w))
    match c.origin with
    | .raise => enter p (if c.contractHeld then .contract else .held) (failExchange p .declined w)
    | .lower => decideRestart p (failExchange p .declined w)
    | .protective => raiseTrigger (enter p .held (dropContract p w))

/-- An exchange ends by RESTART with a reason, for a step in flight and for a protective claim alike (R39, R40). -/
def exchangeFails (p : Port) (r : FailReason) (w : Ev) : Ev :=
  decideRestart p (failExchange p r (recordFailure p r (dropClaim p w)))

/-- The CLAIM is decided again with the claim record's fields (R38, R39). -/
def repeatClaim (p : Port) (w : Ev) : Ev :=
  match (w.port p).claim with
  | none => w
  | some c => decideFrame p (.claim c.line c.voltage c.current) w

/-- The repeat count stands below the claim's limit (R38, R39). -/
def PortRec.mayRepeat (r : PortRec) : Bool :=
  match r.claim with
  | none => false
  | some c => r.repeatCount < c.repeatLimit

def countRepeat (p : Port) (w : Ev) : Ev := updPort p (fun r => { r with repeatCount := r.repeatCount + 1 }) w

/-- A DEFER accepted in CLAIMING (R38). -/
def claimDeferred (p : Port) (w : Ev) : Ev :=
  if (w.port p).mayRepeat then startTimer p .deferral (countRepeat p w) else exchangeFails p .noAnswer w

/-- The answer deadline expires in CLAIMING (R39). -/
def answerMissed (p : Port) (w : Ev) : Ev :=
  if (w.port p).mayRepeat then repeatClaim p (countRepeat p (stopTimer p w)) else exchangeFails p .noAnswer w

/-- The settle check passes: the contract is entered (R41, R44). -/
def enterContract (p : Port) (w : Ev) : Ev :=
  match (w.port p).claim with
  | none => w
  | some c =>
    let w := updPort p (fun r =>
      { r with
        contract := some ⟨c.line, c.voltage, c.current, c.voltage * c.current / 1000, c.grantTime.getD w.time⟩
        claim := none
        repeatCount := 0 }) w
    let w := reportEntered p c.voltage c.current (enter p .contract (setNotice .contractChanged w))
    match c.origin with
    | .protective => raiseTrigger w
    | .raise | .lower => doneExchange p w

/-- SETTLED accepted in SETTLING: the timer is stopped and the check is asked for (R40, R133). -/
def askSettleCheck (p : Port) (w : Ev) : Ev :=
  match (w.port p).claim with
  | none => w
  | some c =>
    let w := stopTimer p w
    if w.closedOn p then updFeed (feedOf p) (fun r => { r with check := .contract p c.voltage .armed }) w
    else exchangeFails p .voltageOut w

/-- SETTLED accepted in RELEASING: the release ends DONE (R42). -/
def releaseSettled (p : Port) (w : Ev) : Ev :=
  doneExchange p (enter p .held (dropContract p (stopTimer p w)))

/-- The settle deadline expires in RELEASING: the step is DONE and the port restarts (R42). -/
def releaseTimedOut (p : Port) (w : Ev) : Ev := decideRestart p (doneExchange p (dropContract p w))

/-! ## Step commands (R34, R35, R42) -/

/-- A CLAIM step's command (R34, R35). -/
def commandClaim (p : Port) (line v i : Nat) (mark : StepMark) (w : Ev) : Ev :=
  let origin : Origin := match mark with
    | .raise => .raise
    | .lower => .lower
  match (w.port p).state with
  | .held => openClaim p line v i origin false w
  | .contract => openClaim p line v i origin true w
  | _ => failStep .superseded w

/-- A RELEASE step's command (R34, R42). -/
def commandRelease (p : Port) (w : Ev) : Ev :=
  match (w.port p).state with
  | .contract => enter p .releasing (stopTimer p (decideFrame p .release w))
  | _ => failStep .superseded w

/-! ## Port-table changes (R53 to R56) -/

/-- The role of a served partner that R54 can withdraw. -/
def PortRec.servedRole (r : PortRec) : Option Role :=
  match r.state with
  | .awaitSheet | .held | .claiming | .settling | .contract | .releasing => some .intake
  | .outletBase | .outletGranted => some .outlet
  | .parked => if r.parkReason = some .pool then some .outlet else none
  | _ => none

/-- RELEASE is owed on a withdrawal or a disable (R54, R55). -/
def PortRec.owesRelease (r : PortRec) : Bool :=
  r.contract.isSome || r.state == .claiming || r.state == .settling || r.state == .releasing

/-- The role a partner holds is withdrawn (R54). -/
def withdrawRole (p : Port) (w : Ev) : Ev :=
  let release := (w.port p).owesRelease
  let w := leaveHeld p (failExchange p .commanded w)
  let w := if release then decideFrame p .release w else w
  let w := dropContract p (dropClaim p w)
  let w := openIfClosedOn p (updPort p (fun r => { r with sheet := [] }) w)
  let w := unpark p (removeEntry p w)
  park p .role (decideWelcome p .refused w)

/-- A port parked with reason ROLE whose role is now permitted leaves PARKED, welcomed anew (R53; DEDUCED: log 31). -/
def leaveParkedRole (p : Port) (w : Ev) : Ev :=
  match (w.port p).partner with
  | none => w
  | some q =>
    if (w.port p).state = .parked ∧ (w.port p).parkReason = some .role
        ∧ (w.tables.port.get p).roles.allows (roleAsked q.cls) then
      let w := updPort p (fun r => { r with parkReason := none }) w
      raiseTrigger (if q.silent then enter p .held (setRole p .intake w) else welcomePartner p q.cls w)
    else w

/-- The relay slot is emptied; a relay frame in transmission goes on without it (R191). -/
def emptySlot (p : Port) (w : Ev) : Ev :=
  updPort p (fun r =>
    { r with
      relay := none
      tx := match r.tx with
        | some (.relayed f _) => some (.relayed f false)
        | t => t }) w

/-- Every trap entry of a port is removed without effect (R187). -/
def purgeTraps (p : Port) (w : Ev) : Ev :=
  { w with traps := { w.traps with queue := w.traps.queue.filter (·.port != p) } }

/-- A port's entry becomes disabled (R55). -/
def disablePort (p : Port) (w : Ev) : Ev :=
  let st := (w.port p).state
  let release := (w.port p).owesRelease
  let w := leaveHeld p (failExchange p .commanded w)
  let w := updPort p (fun r => { r with order := if release then [.release] else [], presence := st != .detached }) w
  let w := openIfClosedOn p (removeEntry p w)
  let w := dropContract p (dropClaim p w)
  let w := unpark p (updPort p (fun r => { r with partner := none, sheet := [] }) w)
  let w := stopTimer p (purgeTraps p (emptySlot p w))
  let w := faultExit (feedOf p) (enter p .disabled w)
  if st = .detached ∨ st = .debounce then w else raiseTrigger w

/-- A disabled port's entry becomes enabled (R56). Outside DISABLED the presence indication keeps its last value (DESIGN
CHOICE: log 39). -/
def enablePort (p : Port) (w : Ev) : Ev :=
  let w := if (w.port p).presence then enterDebounce p w else enter p .detached w
  faultExit (feedOf p) (raiseTrigger w)

/-- The consequences of a port entry that replaces another, on the stored entry as a whole (R71). -/
def applyPortEntry (p : Port) (w : Ev) : Ev :=
  let e := w.tables.port.get p
  let r := w.port p
  if r.state = .disabled then
    if e.enabled then enablePort p w else w
  else if e.enabled = false then disablePort p w
  else match r.servedRole with
    | some role => if e.roles.allows role then w else withdrawRole p w
    | none => leaveParkedRole p w

/-! ## Detach and presence (R3, R26, R58) -/

/-- What detach does to the frames of a port: the order is emptied, a frame in transmission is abandoned and one being
received is discarded (R3, R5). -/
def abandonFrames (p : Port) (w : Ev) : Ev :=
  updPort p (fun r => { r with order := [], tx := none, rxBusy := false }) w

/-- Detach of a port in GREETING or a later state other than DISABLED (R58). -/
def detachPort (p : Port) (w : Ev) : Ev :=
  let w := failClose p .detached (failExchange p .detached w)
  let w := detachClose p w
  let w := dropContract p (dropClaim p w)
  let w := abandonFrames p (updPort p (fun r =>
    { r with partner := none, sheet := [], relay := none, timer := .stopped, repeatCount := 0 }) w)
  let w := openForDetach p (removeEntry p (purgeTraps p (unpark p w)))
  let w := enter p .detached w
  faultExit (feedOf p) (raiseTrigger (setNotice .detach w))

/-- A detach raised by the filter, in any port state: what it does in each is chapter 2's to say (R3), and in DISABLED it clears
the presence indication and does nothing else (R58), but for the feed's own check (R142; DEDUCED: log 15). -/
def takeDetach (p : Port) (w : Ev) : Ev :=
  let w := updPort p (fun r => { r with detachRaised := false }) w
  match (w.port p).state with
  | .detached | .debounce => w
  | .disabled => faultExit (feedOf p) (updPort p (fun r => { r with presence := false }) w)
  | _ => detachPort p w

/-- GREETING is entered: detach count 0 and the greeting deadline started (R3, R26). -/
def enterGreeting (p : Port) (w : Ev) : Ev :=
  startTimer p .greeting (enter p .greeting (updPort p (fun r => { r with detachCount := 0 }) w))

end Sys2Proof.Machine
end

