-- ==== Sys2Proof/Machine/Selection.lean ====
section
/-! DEFINITION. The selection computation (chapter 4): options of a port, their valuation, feed winners, allocation and
claim currents. Pure functions of the state (R79). -/
namespace Sys2Proof.Machine

/-- An option of a port (R83): the base option, an offer line, or the frozen option. -/
inductive OptionKind
  | base
  | line (index : Nat)
  | frozen (index : Nat)
deriving DecidableEq, Repr

/-- An option with its voltage, current bound, power and score (R85 to R90, R93). -/
structure Choice where
  kind : OptionKind
  voltage : Nat
  current : Nat
  power : Nat
  score : Nat
deriving DecidableEq, Repr

/-- The floor of R81. -/
def State.usefulFloor (s : State) : Nat :=
  if s.attended then s.tables.budget.usefulFloor else Config.unattendedFloor

/-- The changeover margin of R81. -/
def State.changeoverMargin (s : State) : Nat := if s.attended then s.tables.budget.margin else 0

/-! ## The policy search (R67, R68) -/

/-- The voltage comparison of an entry (R68). -/
def PolicyEntry.fitsVoltage (e : PolicyEntry) (l : Line) : Bool :=
  e.anyVoltage || (l.vLow ≤ e.vHigh && e.vLow ≤ l.vHigh)

/-- A valid entry matches a line on all four comparisons (R67). A FIXED line has V low and V high equal (R13). Port A is bit 0
of the port set, up to port D as bit 3 (DESIGN CHOICE: log 45). -/
def PolicyEntry.fits (e : PolicyEntry) (p : Port) (cls : PartnerClass) (l : Line) : Bool :=
  e.valid && (e.anyPort || e.ports.getLsbD (portCode p)) && (e.anyClass || e.cls == cls)
    && (e.anyKind || e.kind == l.kind) && e.fitsVoltage l

/-- The governing entry of a line (R67). -/
def governingEntry (es : List PolicyEntry) (p : Port) (cls : PartnerClass) (l : Line) : Option PolicyEntry :=
  es.find? (·.fits p cls l)

/-- The matched window of a WINDOW line under its governing entry (R68). -/
def matchedWindow (e : PolicyEntry) (l : Line) : Nat × Nat :=
  if e.anyVoltage then (l.vLow, l.vHigh) else (max l.vLow e.vLow, min l.vHigh e.vHigh)

/-- A value clamped into an interval (R85). -/
def clampInto (lo hi v : Nat) : Nat := max lo (min v hi)

/-- The distance between two voltages (R88). -/
def distance (a b : Nat) : Nat := (a - b) + (b - a)

/-! ## Valuation of a line -/

/-- Power of a voltage and current, under the line's cap and the effective feed limit (R87, R92). -/
def linePower (v i : Nat) (cap : Option Nat) (limit : Nat) : Nat := min (capBy (v * i / 1000) cap) limit

/-- Stage 5 (R88): natural subtraction gives 0 when the difference is negative. -/
def lineScore (p v : Nat) (e : PolicyEntry) : Nat := p * e.weight / 16 - e.cost * distance v e.ideal / 1000

/-- Stages 1 and 2 (R84, R85): the voltage of a line under its governing entry, none where it is unusable. -/
def lineVoltage (maxVoltage : Nat) (e : PolicyEntry) (l : Line) : Option Nat :=
  match l.kind with
  | .fixed => if l.vLow ≤ maxVoltage then some l.vLow else none
  | .window =>
    let m := matchedWindow e l
    if m.1 ≤ maxVoltage then some (clampInto (max m.1 5000) (min m.2 maxVoltage) e.ideal) else none

/-- Stages 1 to 5 of a line in attended mode (R84 to R88). -/
def State.attendedLine (s : State) (p : Port) (q : Partner) (index : Nat) (l : Line) : Option Choice :=
  let c := s.factoryValues
  if l.usableValid = false ∨ l.declined = true then none
  else match governingEntry s.tables.policy p q.cls l with
    | none => none
    | some e =>
      if e.action = .exclude then none
      else match lineVoltage c.maxVoltage e l with
        | none => none
        | some v =>
          let i := min (min (min l.current e.cap) q.cable) c.portCurrent
          let pw := linePower v i l.cap (s.effectiveFeedLimit (feedOf p))
          if i = 0 ∨ pw < s.usefulFloor ∨ pw = 0 then none
          else some ⟨.line index, v, i, pw, lineScore pw v e⟩

/-- The fallback computation of a line in unattended mode (R92). -/
def State.fallbackLine (s : State) (p : Port) (q : Partner) (index : Nat) (l : Line) : Option Choice :=
  let c := s.factoryValues
  if l.kind = .fixed ∧ l.usableValid = true ∧ l.declined = false ∧ 5000 ≤ l.vLow
      ∧ l.vLow ≤ min c.fallbackVoltage c.maxVoltage then
    let i := min (min l.current q.cable) c.portCurrent
    let pw := linePower l.vLow i l.cap (s.effectiveFeedLimit (feedOf p))
    if pw < Config.unattendedFloor then none else some ⟨.line index, l.vLow, i, pw, pw⟩
  else none

/-- The line options of a sheet, counted from `i` (R83). -/
def lineOptions (value : Nat → Line → Option Choice) : Nat → List Line → List Choice
  | _, [] => []
  | i, l :: ls =>
    match value i l with
    | some c => c :: lineOptions value (i + 1) ls
    | none => lineOptions value (i + 1) ls

/-! ## Options of a port (R83, R90, R91, R93) -/

/-- The base option's fields (R90). -/
def baseChoice : Choice := ⟨.base, Config.baseVoltage, Config.baseCurrent, Config.basePower, Config.baseScore⟩

/-- The base option is usable on a feed (R90). -/
def State.baseUsable (s : State) (f : Feed) : Bool :=
  s.usefulFloor ≤ Config.basePower && Config.basePower ≤ s.effectiveFeedLimit f

/-- The frozen option of a contract record (R93). -/
def frozenChoice (c : Contract) : Choice := ⟨.frozen c.line, c.voltage, c.current, c.power, Config.frozenScore⟩

/-- The line options of a port in HELD or CONTRACT (R83). -/
def State.linesOf (s : State) (p : Port) : List Choice :=
  match (s.port p).partner with
  | none => []
  | some q =>
    lineOptions (if s.attended then s.attendedLine p q else s.fallbackLine p q) 1 (s.port p).sheet

/-- `a` goes before `b`: higher S, then higher P, then lower V; an earlier line keeps its place (R91). -/
def Choice.beats (a b : Choice) : Bool :=
  b.score < a.score || (a.score == b.score && (b.power < a.power || (a.power == b.power && a.voltage < b.voltage)))

/-- The best of line options in index order (R91 step 2). -/
def bestLine : List Choice → Option Choice
  | [] => none
  | c :: cs =>
    match bestLine cs with
    | none => some c
    | some d => if d.beats c then some d else some c

/-- The option of the contracted line, when its S is the highest (R91 step 1). -/
def keptLine (r : PortRec) (cs : List Choice) : Option Choice :=
  match r.state, r.contract with
  | .contract, some k => cs.find? (fun c => c.kind == .line k.line && cs.all (fun d => d.score ≤ c.score))
  | _, _ => none

/-- The best option among line options and the base option (R91). -/
def pickOption (r : PortRec) (cs : List Choice) (base : Option Choice) : Option Choice :=
  let line := match keptLine r cs with
    | some c => some c
    | none => bestLine cs
  match base with
  | none => line
  | some b => if cs.all (fun c => c.score ≤ Config.baseScore) then some b else line

/-- The base option of a port whose feed switch is closed on it (R83). -/
def State.baseIfClosed (s : State) (p : Port) : Option Choice :=
  if s.closedOn p && s.baseUsable (feedOf p) then some baseChoice else none

/-- A port's best option (R83, R91, R93). -/
def State.bestOption (s : State) (p : Port) : Option Choice :=
  let r := s.port p
  match r.state with
  | .held | .contract =>
    pickOption r (s.linesOf p) (if s.baseUsable (feedOf p) then some baseChoice else none)
  | .claiming | .settling =>
    match r.contract with
    | some c => some (frozenChoice c)
    | none => s.baseIfClosed p
  | .recovery | .greeting | .awaitSheet | .releasing => s.baseIfClosed p
  | .detached | .debounce | .outletBase | .outletGranted | .parked | .disabled => none

/-- The port is in CLAIMING or SETTLING with a contract record (R93). -/
def PortRec.frozen (r : PortRec) : Bool :=
  (r.state == .claiming || r.state == .settling) && r.contract.isSome

/-! ## Feed winners (R82, R93 to R95) -/

/-- Stage 6 between the incumbent's and the other candidate's best options, or between lead and second port (R95). -/
def State.contest (s : State) (f : Feed) : Option (Port × Choice) :=
  let lead := leadPort f
  let second := secondPort f
  match s.bestOption lead, s.bestOption second with
  | none, none => none
  | some a, none => some (lead, a)
  | none, some b => some (second, b)
  | some a, some b =>
    let inc := (s.feed f).incumbent
    if b.score ≤ a.score then
      if inc = some second ∧ a.score ≤ b.score + s.changeoverMargin then some (second, b) else some (lead, a)
    else
      if inc = some lead ∧ b.score ≤ a.score + s.changeoverMargin then some (lead, a) else some (second, b)

/-- The winner of a feed with its option, none when the feed has no candidate (R82, R93). -/
def State.winner (s : State) (f : Feed) : Option (Port × Choice) :=
  let r := s.feed f
  match r.incumbent with
  | some p =>
    match (s.port p).frozen, (s.port p).contract with
    | true, some c => some (p, frozenChoice c)
    | _, _ => if r.shed then none else s.contest f
  | none => if r.shed || r.state == .fault then none else s.contest f

/-! ## Allocation and claim current (R96 to R98) -/

def OptionKind.isFrozen : OptionKind → Bool
  | .frozen _ => true
  | _ => false

/-- The allocation a feed keeps after the test of R97, from the share of the ceiling left to it (R96). -/
def State.allocation (s : State) (left : Nat) : Option (Port × Choice) → Nat
  | none => 0
  | some (_, c) =>
    match c.kind with
    | .frozen _ => c.power
    | .base => if min c.power left < Config.basePower then 0 else Config.basePower
    | .line _ =>
      let a := min c.power left
      if a < s.usefulFloor then 0 else a

/-- Stage 8: the largest multiple of 10 mA within the allocation at the line's voltage, at most I (R98). -/
def claimCurrent (alloc v i : Nat) : Nat := min (alloc * 1000 / (10 * v) * 10) i

/-- The feed target of a winner with its allocation (R80, R93, R97, R98). -/
def State.targetOf (s : State) (alloc : Nat) : Option (Port × Choice) → FeedTarget
  | none => .nothing
  | some (p, c) =>
    match c.kind with
    | .frozen n => ⟨.line, some p, some n, c.voltage, c.current, c.power, Config.frozenScore, true⟩
    | .base =>
      if alloc = 0 then .nothing
      else ⟨.base, some p, none, Config.baseVoltage, Config.baseCurrent, Config.basePower, Config.baseScore, false⟩
    | .line n =>
      let i := claimCurrent alloc c.voltage c.current
      let pw := c.voltage * i / 1000
      if alloc = 0 ∨ i = 0 ∨ pw < s.usefulFloor then .nothing
      else ⟨.line, some p, some n, c.voltage, i, pw, c.score, false⟩

/-- Feed 1 takes its share before feed 0 (R96). -/
def feed1First : Option (Port × Choice) → Option (Port × Choice) → Bool
  | some (_, a), some (_, b) =>
    if a.kind.isFrozen then false else b.kind.isFrozen || a.score < b.score
  | none, some _ => true
  | _, none => false

/-- The target set of an evaluation (R79 to R98). -/
def State.evaluate (s : State) : PerFeed FeedTarget :=
  let w0 := s.winner .F0
  let w1 := s.winner .F1
  let c := s.effectiveCeiling
  if feed1First w0 w1 then
    let a1 := s.allocation c w1
    let a0 := s.allocation (c - a1) w0
    ⟨s.targetOf a0 w0, s.targetOf a1 w1⟩
  else
    let a0 := s.allocation c w0
    let a1 := s.allocation (c - a0) w1
    ⟨s.targetOf a0 w0, s.targetOf a1 w1⟩

end Sys2Proof.Machine
end

