-- ==== Sys2Proof/Machine/Plans.lean ====
section
/-! DEFINITION. The transition controller (chapter 5): building a plan, starting its steps, step ends, the end of a plan,
and the close of an event, at which triggers and step ends are acted on (R101, R102) and the re-admission pass runs (R153). -/
namespace Sys2Proof.Machine

/-! ## Building a plan (R104 to R106) -/

def newStep (f : Feed) (p : Port) (k : StepKind) : PlanStep := ⟨k, f, p, .waiting, 0⟩

/-- The CLAIM of a LINE target with a mark (R105). -/
def claimOf (t : FeedTarget) (m : StepMark) : StepKind := .claim (t.line.getD 0) t.voltage t.current t.power m

/-- A LINE target has the line index, voltage and current of the contract in force (R104). -/
def FeedTarget.equalsContract (t : FeedTarget) (c : Option Contract) : Bool :=
  match c with
  | none => false
  | some k => t.line == some k.line && t.voltage == k.voltage && t.current == k.current

/-- The steps a feed needs, the decrease group's and the increase group's (R104 to R106). -/
def State.stepsFor (s : State) (f : Feed) (t : FeedTarget) : List PlanStep × List PlanStep :=
  let r := s.feed f
  let goTo : List PlanStep :=
    match t.kind, t.port with
    | .base, some q => [newStep f q .closeSwitch]
    | .line, some q => [newStep f q .closeSwitch, newStep f q (claimOf t .raise)]
    | _, _ => []
  let claimHere (p : Port) : List PlanStep × List PlanStep :=
    if t.power < s.committed f then ([newStep f p (claimOf t .lower)], []) else ([], [newStep f p (claimOf t .raise)])
  match r.incumbent with
  | none => ([], goTo)
  | some p =>
    let leave : List PlanStep :=
      if r.state = .contract then [newStep f p .release, newStep f p .openSwitch] else [newStep f p .openSwitch]
    match t.kind with
    | .nothing => (leave, [])
    | .base =>
      if t.port = some p then (if r.state = .contract then [newStep f p .release] else [], [])
      else (leave, goTo)
    | .line =>
      if t.port = some p then
        (if t.frozen = true ∨ (r.state = .contract ∧ t.equalsContract (s.port p).contract = true) then ([], [])
         else claimHere p)
      else (leave, goTo)

/-- The plan of a target set (R106): decreases of feed 0 then feed 1, increases of the higher score first. -/
def State.buildPlan (s : State) (ts : PerFeed FeedTarget) : List PlanStep :=
  let a := s.stepsFor .F0 ts.f0
  let b := s.stepsFor .F1 ts.f1
  a.1 ++ b.1 ++ (if ts.f0.score < ts.f1.score then b.2 ++ a.2 else a.2 ++ b.2)

/-! ## Starting a step (R107 to R114) -/

/-- The committed power a step of the increase group would give its feed; none for a decrease step (R106, R108). -/
def PlanStep.increase (st : PlanStep) : Option Nat :=
  match st.kind with
  | .closeSwitch => some Config.basePower
  | .claim _ _ _ power .raise => some power
  | .claim _ _ _ _ .lower | .release | .openSwitch => none

/-- The ceiling check of R108. -/
def State.ceilingAllows (s : State) (st : PlanStep) : Bool :=
  match st.increase with
  | none => true
  | some new => s.committedTotal - s.committed st.feed + new ≤ s.effectiveCeiling

/-- The first WAITING step takes a status; the later steps stand. -/
def markFirstWaiting (g : PlanStep → PlanStep) : List PlanStep → List PlanStep
  | [] => []
  | st :: rest => if st.status = .waiting then g st :: rest else st :: markFirstWaiting g rest

/-- The first WAITING step of the plan. -/
def Controller.nextStep (c : Controller) : Option PlanStep := c.plan.find? (fun st => st.status == .waiting)

/-- A step is skipped: marked SKIPPED, re-evaluate-pending set, the WAITING steps after it removed (R109). -/
def skipStep (w : Ev) : Ev :=
  { w with control := { w.control with
      plan := (markFirstWaiting (fun st => { st with status := .skipped }) w.control.plan).filter
        (fun st => st.status != .waiting)
      reeval := true } }

/-- A CLOSE step's command (R114, R127). -/
def commandClose (f : Feed) (p : Port) (w : Ev) : Ev :=
  if (w.port p).state = .held ∧ (w.feed f).state = .idle then startCloseCheck p w
  else if (w.port p).state = .held ∧ (w.feed f).state = .gap then
    updFeed f (fun r => { r with heldClose := some p, heldLost := false, selected := some p }) w
  else failStep .superseded w

/-- An OPEN step's command, which ends DONE at once (R113). -/
def commandOpen (f : Feed) (w : Ev) : Ev := endStep .done (setTrim f none (openWithGap f w))

/-- The change of the limit output that belongs to a step (R110 to R112, R137). -/
def lowerForStep (st : PlanStep) (w : Ev) : Ev :=
  match st.kind with
  | .release => setStepCap st.feed (some Config.baseCurrent) w
  | .claim _ _ i _ _ => setStepCap st.feed (some i) w
  | .openSwitch | .closeSwitch => w

/-- The command of a step is issued to the block that runs it (R107). -/
def issueStep (st : PlanStep) (w : Ev) : Ev :=
  match st.kind with
  | .release => commandRelease st.port w
  | .openSwitch => commandOpen st.feed w
  | .closeSwitch => commandClose st.feed st.port w
  | .claim line v i _ m => commandClaim st.port line v i m w

/-- A step starts (R107): ceiling check, output, committed power, command. -/
def startStep (st : PlanStep) (w : Ev) : Ev :=
  if w.ceilingAllows st then
    let base := w.committed st.feed
    let w := lowerForStep st w
    let w := { w with control := { w.control with
      plan := markFirstWaiting (fun x => { x with status := .inFlight, base := base }) w.control.plan } }
    issueStep st w
  else skipStep w

/-! ## The end of a plan (R117, R121) -/

/-- At the normal end of a plan the trim values are removed where both conditions of R121 hold. -/
def liftTrims (w : Ev) : Ev :=
  if w.committedTotal ≤ w.effectiveCeiling ∧ w.committed .F0 ≤ w.control.effLimit.f0
      ∧ w.committed .F1 ≤ w.control.effLimit.f1 then
    retarget .F1 (retarget .F0 (setTrim .F1 none (setTrim .F0 none w)))
  else w

/-- The plan has ended normally (R117). -/
def endPlan (w : Ev) : Ev := liftTrims (setNotice .planDone w)

/-! ## Evaluation and the close of an event (R100 to R102) -/

/-- The evaluation runs and its plan replaces the plan held, whole; re-evaluate-pending is cleared (R101, R102). -/
def replan (w : Ev) : Ev :=
  let ts := w.evaluate
  { w with
    control := { w.control with
      plan := w.buildPlan ts
      reeval := false
      targets := ts
      effLimit := ⟨w.effectiveFeedLimit .F0, w.effectiveFeedLimit .F1⟩ }
    trig := false
    ended := none }

/-- The first step of a new plan starts; a plan of no steps ends normally without PLAN_DONE (R101, R117). -/
def startPlan (w : Ev) : Ev :=
  match w.control.nextStep with
  | none => liftTrims w
  | some st => startStep st w

/-- The step that ended at this event is taken up: its cap is removed (R137), and the next step starts or the plan ends,
unless an evaluation is owed (R102). -/
def afterStep (st : PlanStep) (w : Ev) : Ev :=
  let w := setStepCap st.feed none { w with ended := none }
  if w.trig ∨ w.control.reeval then startPlan (replan w)
  else match w.control.nextStep with
    | some nx => startStep nx w
    | none => endPlan w

/-- Step ends and triggers are acted on until nothing is owed; `n` bounds the steps that can end at one event (log 10). -/
def settleController : Nat → Ev → Ev
  | 0, w => { w with control := { w.control with reeval := true }, trig := false, ended := none }
  | n + 1, w =>
    match w.ended with
    | some st => settleController n (afterStep st w)
    | none =>
      if w.trig then
        if w.inFlight.isSome then { w with control := { w.control with reeval := true }, trig := false }
        else settleController n (startPlan (replan w))
      else w

/-- Bound of `settleController` (log 10). -/
def settleBound : Nat := 64

/-- The close of an event: the controller, then the re-admission pass (R102, R153; log 30). -/
def closeEvent (w : Ev) : State :=
  let w := settleController settleBound w
  (if w.readmit then readmissionPass w else w).toState

/-- One event of the part: it acts, then closes. While a full reset lasts nothing happens (R216; log 5). -/
def runEvent (act : Ev → Ev) (s : State) : State :=
  match s.resetting with
  | some _ => s
  | none => closeEvent (act (Ev.start s))

/-- The outcome of a command that is one event: a next state, always. -/
def takeEvent (act : Ev → Ev) (s : State) : Host.Outcome State Fault Refusal := .next (runEvent act s)

end Sys2Proof.Machine
end

