-- ==== Sys2Proof/Machine/TrapOps.lean ====
section
/-! DEFINITION. The trap unit (chapter 9): trap modes, the queue, forwarding, verdicts and amendments, default verdicts,
and the acceptance of partner frames (R8, R9, R50). -/
namespace Sys2Proof.Machine

/-! ## The queue (R178, R179, R180) -/

/-- The trap kind of a frame that can be trapped (R173). -/
def trapKindOf : RxKind → Option TrapKind
  | .announce => some .announce
  | .offers => some .offers
  | .resheet => some .resheet
  | .draw => some .draw
  | .openRange c => some (.openRange c)
  | .settled | .grant | .decline | .defer | .restart => none

/-- The first value from `t` on that no entry holds, in at most `n` moves; after 255 comes 0 (R178). -/
def freeTag (queue : List TrapEntry) : Nat → Byte → Byte
  | 0, t => t
  | n + 1, t => if queue.any (·.tag == t) then freeTag queue n (t + 1) else t

/-- The queue has room for an entry of the port (R179). -/
def TrapUnit.hasRoom (t : TrapUnit) (p : Port) : Bool :=
  t.queue.length < Config.trapCapacity && (t.queue.filter (·.port == p)).length < Config.trapPerPort

/-- Adds an entry at the end of the queue with the next free tag (R178). -/
def addEntry (p : Port) (k : TrapKind) (m : EntryMode) (payload : List Byte) (early : Bool) (w : Ev) : Ev :=
  let tag := freeTag w.traps.queue 9 w.traps.nextTag
  let e : TrapEntry :=
    { tag := tag, port := p, kind := k, mode := m, payload := payload, arrival := w.time,
      deadline := (match m with
        | .hold => .armed
        | .copy => .stopped),
      early := early, state := .queued, onWire := false }
  { w with traps := ⟨w.traps.queue ++ [e], tag + 1⟩ }

def TrapEntry.isHeldSheet (e : TrapEntry) : Bool := e.mode == .hold && (e.kind == .offers || e.kind == .resheet)
def TrapEntry.isHeldDraw (e : TrapEntry) : Bool := e.mode == .hold && e.kind == .draw

/-- A newer sheet or draw removes the port's held entry of its kind without effect (R180). -/
def supersede (p : Port) (k : TrapKind) (w : Ev) : Ev :=
  let gone (e : TrapEntry) : Bool :=
    e.port == p && match k with
      | .offers | .resheet => e.isHeldSheet
      | .draw => e.isHeldDraw
      | .announce | .openRange _ => false
  { w with traps := { w.traps with queue := w.traps.queue.filter (fun e => !gone e) } }

/-! ## Verdicts (R183 to R185) -/

/-- The decision of the port's default verdict (R186). -/
def defaultDecision : DefaultVerdict → Decision
  | .allow => .allow
  | .deny => .deny

/-- A decision is delivered for a held entry (R185). -/
def deliverDecision (e : TrapEntry) (d : Decision) (w : Ev) : Ev :=
  match e.kind with
  | .announce => deliverAnnounce e.port (decodeAnnounce e.payload) d w
  | .offers | .resheet =>
    match d with
    | .deny => deliverSheet e.port [] w
    | .amendSheet ls => deliverSheet e.port ls w
    | _ => if e.early then w else deliverSheet e.port (decodeSheet e.payload) w
  | .draw =>
    match d with
    | .deny => denyDraw e.port w
    | .amendDraw i => deliverDraw e.port i w
    | _ => deliverDraw e.port (decodeDraw e.payload) w
  | .openRange _ => w

/-- The entry of a tag is removed, which stops its deadline. -/
def removeTag (t : Byte) (w : Ev) : Ev :=
  { w with traps := { w.traps with queue := w.traps.queue.filter (·.tag != t) } }

/-- A verdict or default verdict is applied: the entry is removed and its decision delivered (R183, R186). -/
def applyDecision (e : TrapEntry) (d : Decision) (w : Ev) : Ev := deliverDecision e d (removeTag e.tag w)

/-- The default verdict of an entry's port is applied. -/
def applyDefault (w : Ev) (e : TrapEntry) : Ev :=
  applyDecision e (defaultDecision (w.tables.port.get e.port).verdict) w

/-- The HOLD entries, oldest first. -/
def TrapUnit.held (t : TrapUnit) : List TrapEntry := t.queue.filter (·.mode == .hold)

/-- Every HOLD entry gets its default verdict, oldest first, and every other entry is removed (R188, R189). -/
def flushTraps (w : Ev) : Ev :=
  let w := w.traps.held.foldl applyDefault w
  { w with traps := { w.traps with queue := [] } }

/-! ## Amendments (R184) -/

/-- One amended line and whether a value of it was clamped to the received one: `r` is the received line and `a` the
amended line of the same kind, both as decoded (R13, R184). -/
def amendLine (r a : Line) : Line × Bool :=
  let (lo, hi, cv) := match r.kind with
    | .fixed => (r.vLow, r.vHigh, a.vLow != r.vLow || a.vHigh != r.vHigh)
    | .window => (max a.vLow r.vLow, min a.vHigh r.vHigh, a.vLow < r.vLow || r.vHigh < a.vHigh)
  let (cap, cc) := match r.cap, a.cap with
    | some c, some d => (some (min c d), decide (c < d))
    | some c, none => (some c, true)
    | none, d => (d, false)
  ({ r with vLow := lo, vHigh := hi, current := min a.current r.current, cap := cap },
   cv || r.current < a.current || cc)

/-- The flag byte of an amended line with the received line's kind in place of its own (R184). -/
def flagsOfKind (k : LineKind) (b : Byte) : Byte :=
  match k with
  | .fixed => b &&& 0xFE#8
  | .window => b ||| 0x01#8

/-- The amended sheet line by line; none when the number of lines differs (R184). -/
def amendSheet : List Line → List Byte → Option (List Line × Bool)
  | [], [] => some ([], false)
  | r :: rs, b0 :: b1 :: b2 :: b3 :: b4 :: b5 :: b6 :: b7 :: b8 :: rest =>
    match amendSheet rs rest with
    | none => none
    | some (ls, c) =>
      let one := amendLine r (decodeLine (flagsOfKind r.kind b0) b1 b2 b3 b4 b5 b6 b7 b8)
      some (one.1 :: ls, one.2 || c)
  | _, _ => none

/-- The decision an AMEND's content gives a held entry, and whether a value was clamped; none when the content has not
the form of the kind (R183 check 3, R184). -/
def amendDecision (e : TrapEntry) (content : List Byte) : Option (Decision × Bool) :=
  match e.kind with
  | .announce =>
    if content.length = 3 then
      let a := decodeAnnounce e.payload
      let cable := cableOfField (field content 1 2)
      some (.amendAnnounce (classOfByte (content.headD 0)) (min cable a.cable), a.cable < cable)
    else none
  | .offers | .resheet =>
    match amendSheet (decodeSheet e.payload) content with
    | none => none
    | some (ls, c) => some (.amendSheet ls, c)
  | .draw =>
    if content.length = 2 then
      let i := decodeDraw content
      let asked := decodeDraw e.payload
      some (.amendDraw (min i asked), asked < i)
    else none
  | .openRange _ => none

/-! ## Acceptance of partner frames (R8, R9, R50, R174 to R177) -/

/-- The loaded trap mode of a kind (R174). -/
def PortEntry.trapMode (e : PortEntry) : TrapKind → TrapMode
  | .announce => e.trapAnnounce
  | .offers | .resheet => e.trapSheet
  | .draw => e.trapDraw
  | .openRange _ => .pass

/-- The mode in force for an ANNOUNCE, sheet or DRAW: PASS when unattended (R174). -/
def State.modeInForce (s : State) (p : Port) (k : TrapKind) : TrapMode :=
  if s.attended then (s.tables.port.get p).trapMode k else .pass

/-- A frame of a trapped kind reaches the port state machine as received. -/
def deliverReceived (p : Port) (k : TrapKind) (payload : List Byte) (w : Ev) : Ev :=
  match k with
  | .announce => deliverAnnounce p (decodeAnnounce payload) .allow w
  | .offers | .resheet => deliverSheet p (decodeSheet payload) w
  | .draw => deliverDraw p (decodeDraw payload) w
  | .openRange _ => w

/-- What the port does at acceptance with a frame that is held (R176). -/
def acceptHeld (p : Port) (k : TrapKind) (payload : List Byte) (w : Ev) : Ev :=
  match k with
  | .offers | .resheet => acceptHeldSheet p (decodeSheet payload) w
  | .draw => if (w.port p).inOutlet then decideFrame p .defer w else w
  | .announce | .openRange _ => w

/-- The entry's early mark is set (R176). -/
def earlyMark (r : PortRec) : TrapKind → Bool
  | .offers | .resheet => r.storesHeldSheet
  | .announce | .draw | .openRange _ => false

/-- The trap check of an accepted ANNOUNCE, sheet or DRAW (R174 to R176, R179, R180). -/
def trapCheck (p : Port) (k : TrapKind) (payload : List Byte) (w : Ev) : Ev :=
  let w := supersede p k w
  match w.modeInForce p k with
  | .pass => deliverReceived p k payload w
  | .copy =>
    if w.traps.hasRoom p then deliverReceived p k payload (addEntry p k .copy payload false w)
    else deliverReceived p k payload (setNotice .trapOverflow w)
  | .hold =>
    if w.traps.hasRoom p then
      acceptHeld p k payload (addEntry p k .hold payload (earlyMark (w.port p) k) w)
    else deliverReceived p k payload (setNotice .trapOverflow w)

/-- An accepted open-range frame: dropped or copied under the port's open-range mode (R177, R179). -/
def openRangeCheck (p : Port) (code : Byte) (payload : List Byte) (w : Ev) : Ev :=
  match (w.tables.port.get p).openRange with
  | .drop => w
  | .copy =>
    if w.traps.hasRoom p then addEntry p (.openRange code) .copy payload false w
    else setNotice .trapOverflow w

/-- An accepted frame of another negotiation kind reaches the port state machine (R36 to R38, R40, R42, R48, R59). -/
def takeAnswer (p : Port) (k : RxKind) (w : Ev) : Ev :=
  match k, (w.port p).state with
  | .grant, .claiming => claimGranted p w
  | .decline, .claiming => claimDeclined p w
  | .defer, .claiming => claimDeferred p w
  | .settled, .settling => if w.contractChecking p then w else askSettleCheck p w
  | .settled, .releasing => releaseSettled p w
  | .restart, _ => partnerSendsRestart p w
  | _, _ => w

/-- A RESTART accepted in RECOVERY starts a started hold-off again (R50). -/
def restartInRecovery (p : Port) (w : Ev) : Ev :=
  if (w.port p).timer.runsAs .holdOff then startTimer p .holdOff w else w

/-- A port takes no frame: it transmits (R4), or stands in DETACHED, DEBOUNCE or DISABLED (R8). -/
def PortRec.deaf (r : PortRec) : Bool :=
  r.tx.isSome || r.state == .detached || r.state == .debounce || r.state == .disabled

/-- A frame with a good envelope and CRC: dropped by R8 or R50, or accepted and handed on (R9). -/
def receiveFrame (p : Port) (k : RxKind) (payload : List Byte) (w : Ev) : Ev :=
  let r := w.port p
  let w := updPort p (fun r => { r with rxBusy := false }) w
  if r.deaf || !lengthPermitted k payload.length then w
  else if r.state = .recovery then (if k = .restart then restartInRecovery p w else w)
  else match k with
    | .openRange c => openRangeCheck p c payload w
    | .announce => trapCheck p .announce payload w
    | .offers => trapCheck p .offers payload w
    | .resheet => trapCheck p .resheet payload w
    | .draw => trapCheck p .draw payload w
    | .settled | .grant | .decline | .defer | .restart => takeAnswer p k w

/-- R8 drops the frame at this port (R4, R8, R50). -/
def PortRec.drops (r : PortRec) (raw : List Byte) : Bool :=
  match openEnvelope Config.maxChargePayload raw with
  | none => true
  | some (kind, payload) =>
    match rxKindOf kind with
    | none => true
    | some k => !lengthPermitted k payload.length || r.deaf || (r.state == .recovery && k != .restart)

end Sys2Proof.Machine
end

