-- ==== Sys2Proof/Machine/WatchOps.lean ====
section
/-! DEFINITION. The watch unit (chapter 8): watch quantities, conditions, states, derate levels and shed flags. -/
namespace Sys2Proof.Machine

/-- The value of a watch quantity from the averages that stand (R159). -/
def State.quantityValue (s : State) : Quantity → Nat
  | .feed0V => s.avgVoltage .F0
  | .feed0I => s.avgCurrent .F0
  | .feed1V => s.avgVoltage .F1
  | .feed1I => s.avgCurrent .F1
  | .intakeP => s.intakePower
  | .outletI => s.outletCurrent
  | .thermal => average s.sense.thermal

/-- The condition of an entry on a value (R162). -/
def WatchEntry.holds (e : WatchEntry) (v : Nat) : Bool :=
  match e.direction with
  | .above => e.threshold < v
  | .below => v < e.threshold

/-- The entry is released on a value (R162). -/
def WatchEntry.released (e : WatchEntry) (v : Nat) : Bool :=
  match e.direction with
  | .above => v + e.margin ≤ e.threshold
  | .below => e.threshold + e.margin ≤ v

/-- An entry enters ACTIVE at a time: its fired time is recorded (R166). -/
def WatchSlot.activate (now : Time) (w : WatchSlot) : WatchSlot :=
  { w with state := some .active, hold := none, fired := some now }

/-- One tick of a valid entry on its value (R164, R165). A hold timer that reaches 0 waits for its expiry. -/
def WatchSlot.tick (now : Time) (v : Nat) (w : WatchSlot) : WatchSlot :=
  match w.state with
  | none => w
  | some .clear =>
    if w.entry.holds v then
      if w.entry.hold = 0 then w.activate now else { w with state := some .holding, hold := some w.entry.hold }
    else w
  | some .blocked => if w.entry.released v then { w with state := some .clear } else w
  | some .holding =>
    if w.entry.holds v then { w with hold := w.hold.map (· - 1) } else { w with state := some .clear, hold := none }
  | some .active => if w.entry.released v then { w with state := some .clear } else w

/-- The entry's hold timer has expired (R165). -/
def WatchSlot.holdExpired (w : WatchSlot) : Bool := w.state == some .holding && w.hold == some 0

/-- The slot of a newly loaded entry (R163). -/
def WatchSlot.loaded (s : State) (e : WatchEntry) : WatchSlot :=
  { entry := e
    state := if e.valid then (if e.holds (s.quantityValue e.quantity) then some .blocked else some .clear) else none
    hold := none
    fired := none }

/-- A selector names a feed (R168). -/
def FeedSelector.names : FeedSelector → Feed → Bool
  | .both, _ | .feed0, .F0 | .feed1, .F1 => true
  | .feed0, .F1 | .feed1, .F0 => false

/-- The entry is ACTIVE with an action on a feed. -/
def WatchSlot.actsOn (a : WatchAction) (f : Feed) (w : WatchSlot) : Bool :=
  w.state == some .active && w.entry.action == a && w.entry.selector.names f

/-- The derate level of a feed: the largest d among its ACTIVE DERATE entries (R168). -/
def derateLevel (ws : List WatchSlot) (f : Feed) : Nat :=
  ((ws.filter (·.actsOn .derate f)).map (·.entry.step)).foldl max 0

/-- The shed flag of a feed (R169). -/
def shedFlag (ws : List WatchSlot) (f : Feed) : Bool := ws.any (·.actsOn .shed f)

/-- The levels and flags are worked out once from all entries and written where they changed: one trigger, and a trim
of each feed whose level rose (R119, R168, R169). -/
def applyWatches (w : Ev) : Ev :=
  let d0 := derateLevel w.watches .F0
  let d1 := derateLevel w.watches .F1
  let s0 := shedFlag w.watches .F0
  let s1 := shedFlag w.watches .F1
  let r0 := w.feed .F0
  let r1 := w.feed .F1
  if r0.derate = d0 ∧ r1.derate = d1 ∧ r0.shed = s0 ∧ r1.shed = s1 then w
  else
    let w := updFeed .F0 (fun r => { r with derate := d0, shed := s0 }) w
    let w := updFeed .F1 (fun r => { r with derate := d1, shed := s1 }) w
    let w := if r0.derate < d0 then trimForDerate .F0 w else w
    let w := if r1.derate < d1 then trimForDerate .F1 w else w
    raiseTrigger w

/-- The watch unit's tick: every valid entry on the tick's values, WATCH_FIRED for entries that enter ACTIVE. Where a
hold timer expires on this tick, the levels wait for WATCH_HOLD_EXPIRY, so that one tick's changes are one event
(R164; log 8). -/
def tickWatches (w : Ev) : Ev :=
  let slots := w.watches.map (fun x => x.tick w.time (w.quantityValue x.entry.quantity))
  let fired := (w.watches.zip slots).any (fun q => q.1.state != some .active && q.2.state == some .active)
  let w := { w with watches := slots }
  let w := if fired then setNotice .watchFired w else w
  if slots.any (·.holdExpired) then w else applyWatches w

/-- Every entry whose hold timer has expired enters ACTIVE (R165, R166). -/
def fireWatches (w : Ev) : Ev :=
  if w.watches.any (·.holdExpired) then
    applyWatches (setNotice .watchFired
      { w with watches := w.watches.map (fun x => if x.holdExpired then x.activate w.time else x) })
  else w

end Sys2Proof.Machine
end

