-- ==== Sys2Proof/Machine/LinkOps.lean ====
section
/-! DEFINITION. The system link unit (chapter 10): taking requests and answering them, the owed BUSY list, the transmit
wire, and the sections of READ STATE (R197). -/
namespace Sys2Proof.Machine

/-! ## Taking requests (R193, R194) -/

/-- What deciding a request gives: its effects, its result code and its data (R193). -/
structure Answer where
  work : Ev
  result : ResultCode
  data : List Field

/-- An answer with a result code alone. -/
def answer (w : Ev) (r : ResultCode) : Answer := ⟨w, r, []⟩

/-- A request frame that completes while a request is held: its code joins the owed BUSY list, unless that is full (R194). -/
def oweBusy (code : Byte) (w : Ev) : Ev :=
  updLink (fun l => if l.owed.length < Config.owedCapacity then { l with owed := l.owed ++ [code] } else l) w

/-- The RESULT becomes the pending RESULT (R193). -/
def placeResult (code : Byte) (a : Answer) : Ev :=
  updLink (fun l => { l with pendingResult := some ⟨code, a.result, a.data⟩ }) a.work

/-- The code of READ STATE, which a burn does not refuse (R213). -/
def readStateCode : Byte := 0x89#8

/-- A request frame that R21 passes: owed BUSY while a request is held (R194); else it is taken, which clears mark armed
(R204), answered BUSY during a burn (R213), and otherwise decided by `decide` from the mark as it stood (R193). -/
def takeRequest (code : Byte) (params : List Byte) (decide : Bool → Ev → Answer) (w : Ev) : Ev :=
  let w := updLink (fun l => { l with rxBuffer := [] }) w
  if Config.maxSystemPayload < params.length then w
  else if w.link.held.isSome then oweBusy code w
  else
    let mark := w.link.markArmed
    let w := updLink (fun l => { l with held := some code, markArmed := false }) w
    if w.factory.burn.isSome ∧ code ≠ readStateCode then placeResult code (answer w .busy)
    else placeResult code (decide mark w)

/-- The event of a request frame that completes (R193). -/
def requestEvent (code : Byte) (params : List Byte) (decide : Bool → Ev → Answer) (s : State) :
    Host.Outcome State Fault Refusal :=
  takeEvent (takeRequest code params decide) s

/-- A request whose parameters must have a length, checked before its own rule (R193). -/
def withLength (n : Nat) (params : List Byte) (decide : Ev → Answer) (w : Ev) : Answer :=
  if params.length = n then decide w else answer w .badForm

/-- The held request ends; the oldest owed code becomes the held request with a BUSY RESULT (R193, R194). -/
def endHeld (l : Link) : Link :=
  match l.owed with
  | [] => { l with held := none, pendingResult := none }
  | c :: rest => { l with held := some c, pendingResult := some ⟨c, .busy, []⟩, owed := rest }

/-! ## The transmit wire (R181, R182) -/

/-- Marks the oldest QUEUED entry as on the wire. -/
def markForward : List TrapEntry → List TrapEntry
  | [] => []
  | e :: es => if e.state = .queued then { e with onWire := true } :: es else e :: markForward es

/-- The idle transmit wire takes the pending RESULT, else the oldest QUEUED entry's FORWARD (R182). -/
def startTransmission (w : Ev) : Ev :=
  if w.link.tx.isSome then w
  else if w.link.pendingResult.isSome then updLink (fun l => { l with tx := some .result }) w
  else match w.traps.queue.find? (fun e => e.state == .queued) with
    | none => w
    | some e =>
      updLink (fun l => { l with tx := some (.forward e) })
        { w with traps := { w.traps with queue := markForward w.traps.queue } }

/-- The queue after a FORWARD has been sent: its COPY entry gone, its HOLD entry SENT; nothing when the entry has been
removed meanwhile (R181). -/
def queueAfterForward (q : List TrapEntry) : List TrapEntry :=
  (q.filter (fun e => !(e.onWire && e.mode == .copy))).map
    (fun e => if e.onWire then { e with state := .sent, onWire := false } else e)

/-- The bytes of the frame on the transmit wire, from its kind byte (R23). -/
def Link.wireBytes (l : Link) : List Byte :=
  match l.tx, l.pendingResult with
  | some .result, some r => envelope 0xA0#8 r.payload
  | some (.forward e), _ => envelope 0xA1#8 (forwardPayload e)
  | _, _ => []

/-- The levels of the frame on the transmit wire, its sync pattern first; none while it carries no frame (R4, R21). -/
def Link.wireLevels (l : Link) : List Bool := if l.tx.isNone then [] else frameLevels l.wireBytes

/-! ## Sections of READ STATE (R197): fields in the order listed, with the sizes their counterparts have (logs 11, 27, 33, 47) -/

def flagField (b : Bool) : Field := .num 1 (boolCode b)
def voltageField (v : Nat) : Field := .num 2 (v / 20)
def currentField (i : Nat) : Field := .num 2 (i / 10)
/-- A power of a section: four bytes, in mW (DESIGN CHOICE: log 47). -/
def powerField (p : Nat) : Field := .num 4 p
def timeField (t : Time) : Field := .num 4 t.toNat

def optField {α : Type} (g : α → List Field) : Option α → List Field
  | none => [.absent]
  | some x => g x

/-- A remaining count has the size and unit of the preset it is loaded from: two bytes, in ms (R195, R197; log 11). -/
def timerField : Timer → Field
  | .stopped => .absent
  | .armed => .unloaded
  | .running n => .num 2 n

def portField (p : Port) : Field := .num 1 (portCode p)

def modeCode : Mode → Nat
  | .attended => 0
  | .unattended => 1

def recordStateCode : RecordState → Nat
  | .blank => 0
  | .written => 1
  | .damaged => 2

/-- Section LINK. -/
def linkSection (s : State) : List Field :=
  [.num 1 (modeCode s.link.mode), timerField s.link.liveness, flagField s.link.markArmed, .num 2 s.link.notices.toNat,
    .num 2 s.link.mask.toNat, flagField s.alertAsserted, flagField s.tables.lock, .unsized s.link.owed.length,
    timeField s.time, .num 1 (recordStateCode s.factory.record), flagField s.factory.burn.isSome]

def portStateCode : PortState → Nat
  | .detached => 0
  | .debounce => 1
  | .greeting => 2
  | .awaitSheet => 3
  | .held => 4
  | .claiming => 5
  | .settling => 6
  | .contract => 7
  | .releasing => 8
  | .outletBase => 9
  | .outletGranted => 10
  | .parked => 11
  | .recovery => 12
  | .disabled => 13

def failCode : FailReason → Nat
  | .noFailure => 0
  | .declined => 1
  | .noAnswer => 2
  | .voltageOut => 3
  | .settleTimeout => 4
  | .superseded => 5
  | .detached => 6
  | .commanded => 7
  | .partnerRestart => 8

def parkCode : ParkReason → Nat
  | .role => 0
  | .pool => 1
  | .denied => 2

/-- Coded from 00h in the order of R24 (DESIGN CHOICE: log 33). -/
def originCode : Origin → Nat
  | .raise => 0
  | .lower => 1
  | .protective => 2

def useCode : TimerUse → Nat
  | .debounce => 0
  | .greeting => 1
  | .answer => 2
  | .deferral => 3
  | .settle => 4
  | .holdOff => 5

/-- The role has its counterpart in WELCOME (R11, R22), the class in LOAD POLICY (R195; DESIGN CHOICE: log 33). -/
def partnerFields (q : Partner) : List Field :=
  [.num 1 (roleByte q.role), .num 1 (classCode q.cls), currentField q.cable, .num 2 q.tag.toNat, .num 1 q.revision,
    flagField q.silent]

def contractFields (c : Contract) : List Field :=
  [.num 1 c.line, voltageField c.voltage, currentField c.current, powerField c.power, timeField c.grantTime]

def claimFields (c : Claim) : List Field :=
  [.num 1 c.line, voltageField c.voltage, currentField c.current, .num 1 (originCode c.origin), flagField c.contractHeld,
    .num 1 c.repeatLimit]

/-- The use of the exchange timer is listed before its remaining count; its code has no list but R24's (log 11). -/
def exchangeFields : ExchangeTimer → List Field
  | .stopped => [.absent, .absent]
  | .armed u => [.unsized (useCode u), .unloaded]
  | .running u n => [.unsized (useCode u), .num 2 n]

def txKindField : Option TxFrame → Field
  | none => .absent
  | some (.ordered f) => .raw [f.kindCode]
  | some (.relayed r _) => .raw [r.kind]

/-- Section PORT. -/
def portSection (s : State) (p : Port) : List Field :=
  let r := s.port p
  [Field.num 1 (portStateCode r.state)] ++ optField partnerFields r.partner ++ optField contractFields r.contract
    ++ optField claimFields r.claim ++ optField (fun x => [.raw [x.kind], .raw x.payload]) r.relay
    ++ exchangeFields r.timer ++ [.num 1 r.repeatCount, .num 1 (failCode r.lastFailure)]
    ++ optField (fun x => [.num 1 (parkCode x)]) r.parkReason ++ optField (fun t => [timeField t]) (s.outlet.parkTime.get p)
    ++ [flagField r.presence, .unsized r.detachCount] ++ r.order.map (fun f => .raw [f.kindCode]) ++ [txKindField r.tx]

def lineFields (l : Line) : List Field :=
  [.num 1 (lineKindCode l.kind), voltageField l.vLow, voltageField l.vHigh, currentField l.current]
    ++ optField (fun c => [.num 2 (c / 100)]) l.cap
    ++ [flagField l.pooled, flagField l.declined, flagField l.usableValid]

/-- Section SHEET. -/
def sheetSection (s : State) (p : Port) : List Field :=
  .unsized (s.port p).sheet.length :: ((s.port p).sheet.map lineFields).flatten

def feedStateCode : FeedState → Nat
  | .idle => 0
  | .base => 1
  | .contract => 2
  | .gap => 3
  | .fault => 4

/-- Coded from 00h in the order of R126 (DESIGN CHOICE: log 33). -/
def driveCode : Drive → Nat
  | .opened => 0
  | .softStart => 1
  | .closed => 2

/-- The kind of check coded from 00h (DESIGN CHOICE: log 33). -/
def checkFields : Check → List Field
  | .idle => [.num 1 0]
  | .close p t => [.num 1 1, portField p, voltageField Config.baseVoltage, timerField t]
  | .contract p v t => [.num 1 2, portField p, voltageField v, timerField t]

def periodFields : Period → List Field
  | .off => [.absent]
  | .counting n len => [.num 2 n, .num 2 len]

def faultCode : FaultReason → Nat
  | .noFault => 0
  | .overdraw => 1

/-- Section FEED. -/
def feedSection (s : State) (f : Feed) : List Field :=
  let r := s.feed f
  [Field.num 1 (feedStateCode r.state)] ++ optField (fun p => [portField p]) r.selected
    ++ [.num 1 (driveCode r.driveLead), .num 1 (driveCode r.driveOther)] ++ optField (fun p => [portField p]) r.heldClose
    ++ optField (fun v => [voltageField v.voltage, currentField v.current]) r.view
    ++ [currentField r.output, currentField r.target] ++ optField (fun i => [currentField i]) r.stepCap
    ++ [timerField r.ramp, timerField r.gap] ++ checkFields r.check ++ periodFields r.overdraw
    ++ periodFields r.underVolt ++ [.num 1 r.derate, flagField r.shed, .num 1 (faultCode r.faultReason)]
    ++ optField (fun p => [portField p]) r.faultPort ++ optField (fun t => [timeField t]) r.faultTime

/-- The kinds of step coded from 00h in the order of R106's groups (DESIGN CHOICE: log 33). -/
def stepKindCode : StepKind → Nat
  | .release => 0
  | .openSwitch => 1
  | .closeSwitch => 2
  | .claim .. => 3

/-- What a CLAIM step carries more; the mark coded from 00h (R99; DESIGN CHOICE: log 33). -/
def claimStepFields : StepKind → List Field
  | .claim l v i pw m =>
    [.num 1 l, voltageField v, currentField i, powerField pw, .num 1 (match m with
      | .raise => 0
      | .lower => 1)]
  | .release | .openSwitch | .closeSwitch => []

def statusFields : StepStatus → List Field
  | .waiting => [.num 1 0]
  | .inFlight => [.num 1 1]
  | .done => [.num 1 2]
  | .failed r => [.num 1 3, .num 1 (failCode r)]
  | .skipped => [.num 1 4]

/-- The fields of a step in the order of R99, then its status (R123). -/
def stepFields (st : PlanStep) : List Field :=
  [.num 1 (stepKindCode st.kind), .num 1 (feedCode st.feed), portField st.port] ++ claimStepFields st.kind
    ++ statusFields st.status

/-- A feed target in the order of R80, its outcome coded from 00h (DESIGN CHOICE: log 33). -/
def targetFields (t : FeedTarget) : List Field :=
  [.num 1 (match t.kind with
      | .nothing => 0
      | .base => 1
      | .line => 2)]
    ++ optField (fun p => [portField p]) t.port ++ optField (fun n => [.num 1 n]) t.line
    ++ [voltageField t.voltage, currentField t.current, powerField t.power, .unsized t.score, flagField t.frozen]

/-- The position of the step in flight in the plan, counted from `i`. -/
def flightPosition : Nat → List PlanStep → Option Nat
  | _, [] => none
  | i, st :: rest => if st.status = .inFlight then some i else flightPosition (i + 1) rest

/-- Section PLAN (R123). -/
def planSection (s : State) : List Field :=
  (s.control.plan.map stepFields).flatten
    ++ optField (fun n => [.unsized n]) (flightPosition 0 s.control.plan) ++ [flagField s.control.reeval]
    ++ [powerField (s.committed .F0), powerField (s.committed .F1)]
    ++ optField (fun i => [currentField i]) s.control.trim.f0 ++ optField (fun i => [currentField i]) s.control.trim.f1
    ++ targetFields s.control.targets.f0 ++ targetFields s.control.targets.f1

def entryStateCode : EntryState → Nat
  | .queued => 0
  | .sent => 1

/-- A trap entry's fields in the order of R173. A deadline that is not held, and the early mark of an entry that is no HOLD
sheet, are absent fields, whose bytes are a free value (DESIGN CHOICE: log 11). -/
def entryFields (e : TrapEntry) : List Field :=
  [.raw [e.tag], portField e.port, .raw [trapKindCode e.kind], .num 1 (entryModeCode e.mode), .raw e.payload,
    timeField e.arrival, timerField e.deadline, if e.isHeldSheet then flagField e.early else .absent, .num 1 (entryStateCode e.state)]

/-- Section TRAP. -/
def trapSection (s : State) (i : Nat) : List Field :=
  [.unsized s.traps.queue.length, .raw [s.traps.nextTag]] ++ optField entryFields s.traps.queue[i]?

/-- An entry's fields but for its over-draw period, in the order of R144, the kind coded from 00h (DESIGN CHOICE: log 33). -/
def grantFields (g : GrantEntry) : List Field :=
  [portField g.port, .num 1 (match g.kind with
      | .base => 0
      | .granted => 1), currentField g.current, timeField g.admitted]

def outletDriveCode : OutletDrive → Nat
  | .opened => 0
  | .closed => 1

/-- The pool in force is the with-intake value (R156). -/
def State.poolIsIntake (s : State) : Bool := (s.feed .F0).state == .contract || (s.feed .F1).state == .contract

/-- Section OUTLET in the order of R156. Which budget value the pool is has no stated coding (log 11). -/
def outletSection (s : State) : List Field :=
  [currentField s.outlet.pool, .unsized (boolCode s.poolIsIntake)] ++ (s.outlet.grants.map grantFields).flatten
    ++ allPorts.map (fun p => .num 1 (outletDriveCode (s.outlet.drives.get p)))
    ++ (allPorts.map (fun p => optField (fun t => [timeField t]) (s.outlet.parkTime.get p))).flatten
    ++ (s.outlet.grants.map (fun g => periodFields g.period)).flatten

/-- An average in the unit and size a watch threshold has, and its sample count (logs 11, 27). -/
def averageFields (samples : List Nat) : List Field := [.num 4 (average samples), .unsized samples.length]

/-- Section SENSE (R172). INTAKE_P and OUTLET_I take four bytes, in mW and mA, as a watch threshold on them has; R197 names
no counterpart for them (DESIGN CHOICE: log 27). -/
def senseSection (s : State) : List Field :=
  averageFields s.sense.feedV.f0 ++ averageFields s.sense.feedV.f1 ++ averageFields s.sense.feedI.f0
    ++ averageFields s.sense.feedI.f1 ++ averageFields s.sense.outletI.a ++ averageFields s.sense.outletI.b
    ++ averageFields s.sense.outletI.c ++ averageFields s.sense.outletI.d ++ averageFields s.sense.thermal
    ++ [.num 4 s.intakePower, .num 4 s.outletCurrent]

def watchStateCode : WatchState → Nat
  | .clear => 0
  | .blocked => 1
  | .holding => 2
  | .active => 3

/-- Section WATCH. -/
def watchSection (s : State) (i : Nat) : List Field :=
  optField (fun (x : WatchSlot) =>
      [flagField x.entry.valid] ++ optField (fun st => [.num 1 (watchStateCode st)]) x.state
        ++ optField (fun n => [.num 2 n]) x.hold ++ optField (fun t => [timeField t]) x.fired) s.watches[i]?
    ++ [.num 1 (s.feed .F0).derate, .num 1 (s.feed .F1).derate, flagField (s.feed .F0).shed, flagField (s.feed .F1).shed]

/-- The section and item of a READ STATE: its data, or the result that refuses it (R197). -/
def readSection (s : State) (sec item : Nat) : ResultCode × List Field :=
  match sec with
  | 0 => (.done, linkSection s)
  | 1 => match portOfCode item with
    | some p => (.done, portSection s p)
    | none => (.badIndex, [])
  | 2 => match portOfCode item with
    | some p => (.done, sheetSection s p)
    | none => (.badIndex, [])
  | 3 => match feedOfCode item with
    | some f => (.done, feedSection s f)
    | none => (.badIndex, [])
  | 4 => (.done, planSection s)
  | 5 => if item ≤ 7 then (.done, trapSection s item) else (.badIndex, [])
  | 6 => (.done, outletSection s)
  | 7 => (.done, senseSection s)
  | 8 => if item ≤ 7 then (.done, watchSection s item) else (.badIndex, [])
  | _ => (.badForm, [])

/-- The stored entry or record in the form its load carries, or the result that refuses the read (R196). -/
def readStored (s : State) (structure_ index : Nat) : ResultCode × List Field :=
  match structure_ with
  | 0 => match s.tables.policy[index]? with
    | some e => if index ≤ 23 then (.done, [.raw (policyBytes e)]) else (.badIndex, [])
    | none => (.badIndex, [])
  | 1 => match portOfCode index with
    | some p => (.done, [.raw (portBytes (s.tables.port.get p))])
    | none => (.badIndex, [])
  | 2 => match s.watches[index]? with
    | some x => if index ≤ 7 then (.done, [.raw (watchBytes x.entry)]) else (.badIndex, [])
    | none => (.badIndex, [])
  | 3 => (.done, [.raw (budgetBytes s.tables.budget)])
  | 4 => (.done, [.raw (timingBytes s.tables.timing)])
  | _ => (.badForm, [])

end Sys2Proof.Machine
end

