-- ==== Sys2Proof/Machine/FactoryOps.lean ====
section
/-! DEFINITION. The factory record and the resets (chapter 11) as shared operations: the ceilings put over stored tables
(R63), the record state fixed from the cells (R211), the burn and its read-back (R213, R214), the full reset (R216, R217),
the policy restart (R218), and the loads' trigger (R64). -/
namespace Sys2Proof.Machine

/-! ## Tables under the ceilings in force (R62, R63) -/

/-- A policy entry with its capped fields lowered to the ceilings (R63). -/
def PolicyEntry.under (c : FactoryContent) (e : PolicyEntry) : PolicyEntry :=
  { e with
    vLow := min e.vLow c.maxVoltage
    vHigh := min e.vHigh c.maxVoltage
    ideal := min e.ideal c.maxVoltage
    cap := min e.cap c.portCurrent }

def PortEntry.under (c : FactoryContent) (e : PortEntry) : PortEntry :=
  { e with
    outletCap := min e.outletCap c.outletCeiling
    feedLimit := min e.feedLimit c.feedPower }

def Budget.under (c : FactoryContent) (b : Budget) : Budget := { b with ceiling := min b.ceiling c.systemCeiling }

/-- Every stored field with a ceiling lowered to it where it stands above (R63). -/
def Tables.under (c : FactoryContent) (t : Tables) : Tables :=
  { t with
    policy := t.policy.map (·.under c)
    port := ⟨t.port.a.under c, t.port.b.under c, t.port.c.under c, t.port.d.under c⟩
    budget := t.budget.under c }

/-- The fields selection reads (R64). -/
structure SelectionFields where
  policy : List PolicyEntry
  limitA : Nat
  limitC : Nat
  ceiling : Nat
  usefulFloor : Nat
  margin : Nat
deriving DecidableEq, Repr

def Tables.selectionFields (t : Tables) : SelectionFields :=
  ⟨t.policy, t.port.a.feedLimit, t.port.c.feedLimit, t.budget.ceiling, t.budget.usefulFloor, t.budget.margin⟩

/-- The tables take new contents; a trigger is raised when a field selection reads differs (R63, R64). -/
def storeTables (t : Tables) (w : Ev) : Ev :=
  let old := w.tables.selectionFields
  let w := { w with tables := t }
  if t.selectionFields = old then w else raiseTrigger w

/-- A lowered outlet cap of a port is applied to its grant-list entry (R151). -/
def applyLoweredCap (old : PerPort PortEntry) (w : Ev) (p : Port) : Ev :=
  let cap := (w.tables.port.get p).outletCap
  if cap < (old.get p).outletCap then applyCap p cap w else w

/-! ## The record and its burn (R211 to R214) -/

/-- The record state that the cells give (R211). -/
def Cells.recordState : Cells → RecordState
  | .unwritten => .blank
  | .holding c check => if crc8 (contentBytes c) = check then .written else .damaged
  | .damaged => .damaged

/-- The cells with their content lost, where they held one (R211; log 19). -/
def Cells.lost : Cells → Cells
  | .unwritten => .unwritten
  | .holding _ _ => .damaged
  | .damaged => .damaged

/-- The record read back at the end of a burn of a content (R213). -/
def Factory.readBack (content : FactoryContent) (cellsBad : Bool) : Factory :=
  let cells : Cells := if cellsBad then .damaged else .holding content (crc8 (contentBytes content))
  ⟨cells.recordState, cells, none⟩

/-- A burn cut short leaves the cells partly written (R213). -/
def Factory.cutShort (f : Factory) : Factory :=
  match f.burn with
  | none => f
  | some _ => { f with cells := .damaged, burn := none }

/-- The current of a port's contract or claim record stands above a ceiling (R214 step 3). -/
def PortRec.aboveCeiling (r : PortRec) (ceiling : Nat) : Bool :=
  r.contract.any (fun c => ceiling < c.current) || r.claim.any (fun c => ceiling < c.current)

/-- A port above the new port current ceiling is restarted (R214 step 3). -/
def restartAbove (w : Ev) (p : Port) : Ev :=
  if (w.port p).aboveCeiling w.factoryValues.portCurrent then decideRestart p (failExchange p .commanded w) else w

/-- A value in force that selection reads differs (R214 step 5; log 24). -/
def FactoryContent.selectionDiffers (a b : FactoryContent) : Bool :=
  a.portCurrent != b.portCurrent || a.maxVoltage != b.maxVoltage || a.fallbackCeiling != b.fallbackCeiling
    || a.fallbackVoltage != b.fallbackVoltage || a.fallbackLimit != b.fallbackLimit

/-- A burn that reads back WRITTEN puts its values in force (R214). -/
def putInForce (old : FactoryContent) (w : Ev) : Ev :=
  let oldPorts := w.tables.port
  let w := storeTables (w.tables.under w.factoryValues) w
  let w := allPorts.foldl (applyLoweredCap oldPorts) w
  let w := allPorts.foldl restartAbove w
  let w := trimForCeiling w
  if old.selectionDiffers w.factoryValues then raiseTrigger w else w

/-- The expiry of the 12 ms countdown of a burn (R213, R214). -/
def readBackBurn (cellsBad : Bool) (w : Ev) : Ev :=
  match w.factory.burn with
  | none => w
  | some b =>
    if b.timer.expired then
      let old := w.factoryValues
      let w := { w with factory := Factory.readBack b.content cellsBad }
      if w.factory.record = .written then putInForce old w else w
    else w

/-! ## Full reset (R216, R217) -/

/-- No cause yet. -/
def ResetCauses.none : ResetCauses := ⟨false, false, false⟩

/-- A full reset begins, or goes on with one cause more: every block takes its reset values, a burn is cut short, the
record and the cause record are kept (R213, R216; log 5). -/
def State.beginReset (mark : ResetCauses → ResetCauses) (s : State) : State :=
  { State.reset with
    factory := s.factory.cutShort
    tables := Tables.default.under s.factory.cutShort.values
    cause := s.cause
    resetting := some (mark (s.resetting.getD ResetCauses.none))
    pending := s.pending }

/-- The record at the end of a full reset, its state fixed from its cells (R211). -/
def Factory.refixed (cellsLost : Bool) (f : Factory) : Factory :=
  let cells := if cellsLost then f.cells.lost else f.cells
  ⟨cells.recordState, cells, none⟩

/-- The end of a full reset (R211, R216, R217). -/
def State.endReset (cellsLost : Bool) (s : State) : State :=
  match s.resetting with
  | none => s
  | some c =>
    let f := s.factory.refixed cellsLost
    { State.reset with
      factory := f
      tables := Tables.default.under f.values
      cause := updatedCause s.cause c f.record
      pending := s.pending }

/-! ## Policy restart (R218) -/

/-- Step 2: the tables return to their clamped defaults, the slots, notices and mask are emptied, the part is unattended
and trimmed where it was attended, and every watch action ends (R63, R171, R191, R203, R208). -/
def restorePolicy (w : Ev) : Ev :=
  let was := w.attended
  let lock := w.tables.lock
  let w := { w with
    tables := { Tables.default.under w.factoryValues with lock := lock }
    watches := List.replicate 8 .reset }
  let w := allPorts.foldl (fun w p => emptySlot p w) w
  let w := updLink (fun l => { l with notices := 0, mask := 0, mode := .unattended, liveness := .stopped }) w
  applyWatches (if was then trimForCeiling w else w)

/-- A disabled port is enabled by the restored table (R56). -/
def enableIfDisabled (w : Ev) (p : Port) : Ev :=
  if (w.port p).state = .disabled then enablePort p w else w

/-- Step 3: the consequences of the restored tables, in the order of R145 (R53, R56, R146, R151). Ports parked with reason
ROLE leave PARKED in the order A to D (DESIGN CHOICE: log 40). -/
def followRestart (oldPorts : PerPort PortEntry) (w : Ev) : Ev :=
  let w := recomputePool (allPorts.foldl enableIfDisabled w)
  let w := allPorts.foldl (applyLoweredCap oldPorts) w
  allPorts.foldl (fun w p => leaveParkedRole p w) w

/-- The whole of a policy restart (R218). The re-admission pass is owed for the restart as a whole (R145). -/
def policyRestart (w : Ev) : Ev :=
  let w := flushTraps w
  let oldPorts := w.tables.port
  raiseTrigger { followRestart oldPorts (restorePolicy w) with readmit := true }

end Sys2Proof.Machine
end

