-- ==== Sys2Proof/Machine/Expiries.lean ====
section
/-! DEFINITION. What the expiry of each timer does, as shared operations: of the exchange timer (chapter 2), of a feed's
timers and periods (chapter 6), of an outlet over-draw period (R155), of a trap deadline (R186) and of the liveness timer
(R206). An expiry that is not due changes nothing (log 2). -/
namespace Sys2Proof.Machine

/-! ## Port timers -/

/-- The exchange timer of the port has expired in a use, and the port stands in a state. -/
def State.portDue (s : State) (p : Port) (u : TimerUse) (st : PortState) : Bool :=
  (s.port p).timer.expiredAs u && (s.port p).state == st

/-- The debounce has run out on present samples: attach is confirmed (R2, R26). -/
def expireDebounce (p : Port) (w : Ev) : Ev :=
  if w.portDue p .debounce .debounce then raiseTrigger (setNotice .attach (enterGreeting p w)) else w

/-- The detach filter has raised detach (R3, R58). -/
def expireFilter (p : Port) (w : Ev) : Ev := if (w.port p).detachRaised then takeDetach p w else w

/-- The greeting deadline expires, in GREETING or AWAIT_SHEET (R29, R30). -/
def expireGreeting (p : Port) (w : Ev) : Ev :=
  if w.portDue p .greeting .greeting then silentPartner p w
  else if w.portDue p .greeting .awaitSheet then raiseTrigger (enter p .held (stopTimer p w))
  else w

/-- The answer deadline expires in CLAIMING (R39). -/
def expireAnswer (p : Port) (w : Ev) : Ev := if w.portDue p .answer .claiming then answerMissed p w else w

/-- The defer interval expires in CLAIMING: CLAIM is decided again (R38). -/
def expireDeferral (p : Port) (w : Ev) : Ev :=
  if w.portDue p .deferral .claiming then repeatClaim p (stopTimer p w) else w

/-- The settle deadline expires, in SETTLING or RELEASING (R40, R42). -/
def expireSettle (p : Port) (w : Ev) : Ev :=
  if w.portDue p .settle .settling then exchangeFails p .settleTimeout w
  else if w.portDue p .settle .releasing then releaseTimedOut p w
  else w

/-- The recovery hold-off expires: GREETING, with no ATTACH and no trigger (R26, R50). -/
def expireHoldOff (p : Port) (w : Ev) : Ev := if w.portDue p .holdOff .recovery then enterGreeting p w else w

/-! ## Feed timers -/

/-- A CLOSE_CHECK passes: CLOSED, BASE, and the base level at once (R128; log 20). -/
def passCloseCheck (f : Feed) (p : Port) (w : Ev) : Ev :=
  let trim := w.control.trim.get f
  let w := updFeed f (fun r =>
    let r := { r.setDrive p .closed with state := .base, selected := some p, check := .idle }
    let t := limitTarget r trim
    { r with output := t, target := t, ramp := .stopped }) w
  if w.closeStepOn p then endStep .done w else w

/-- A CLOSE_CHECK fails: OPEN, no selected port, the step FAILED, and the port restarts (R49, R120, R128). -/
def failCloseCheck (f : Feed) (p : Port) (w : Ev) : Ev :=
  let w := setTrim f none (dropCloseCheck p w)
  decideRestart p (failClose p .voltageOut (recordFailure p .voltageOut w))

/-- The window of a CLOSE_CHECK expires (R128). -/
def expireCloseCheck (f : Feed) (w : Ev) : Ev :=
  match (w.feed f).check with
  | .close p t =>
    if t.expired ∧ feedOf p = f then
      if Config.closeCheckFloor ≤ w.avgVoltage f then passCloseCheck f p w else failCloseCheck f p w
    else w
  | .idle | .contract .. => w

/-- The band of a CONTRACT_CHECK (R133). -/
def inBand (v avg : Nat) : Bool := v - v / 16 ≤ avg && avg ≤ v + v / 16

/-- The window of a CONTRACT_CHECK expires (R133). -/
def expireContractCheck (f : Feed) (w : Ev) : Ev :=
  match (w.feed f).check with
  | .contract p v t =>
    if t.expired then
      let pass := inBand v (w.avgVoltage f)
      let w := updFeed f (fun r => { r with check := .idle }) w
      if pass then enterContract p w else exchangeFails p .voltageOut w
    else w
  | .idle | .close .. => w

/-- A held close is taken as the gap ends, if its port has stayed in HELD (R114, R127, R129; DEDUCED: log 43). -/
def takeHeldClose (f : Feed) (p : Port) (w : Ev) : Ev :=
  let lost := (w.feed f).heldLost
  let w := updFeed f (fun r => { r with heldClose := none, heldLost := false }) w
  if (w.port p).state = .held ∧ lost = false then startCloseCheck p w
  else failClose p .superseded (updFeed f (fun r => { r with selected := none }) w)

/-- The gap timer expires: IDLE, and a held close is taken (R127, R130). -/
def expireGap (f : Feed) (w : Ev) : Ev :=
  if (w.feed f).gap.expired ∧ (w.feed f).state = .gap then
    let w := updFeed f (fun r => { r with state := .idle, gap := .stopped }) w
    match (w.feed f).heldClose with
    | none => w
    | some p => takeHeldClose f p w
  else w

/-- The output after one ramp expiry, and the timer reloaded while it is below the target (R136). -/
def FeedRec.climb (step interval : Nat) (r : FeedRec) : FeedRec :=
  let out := r.output + min step (r.target - r.output)
  { r with output := out, ramp := if out < r.target then .running interval else .stopped }

/-- The ramp timer expires (R72, R136). -/
def expireRamp (f : Feed) (w : Ev) : Ev :=
  if (w.feed f).ramp.expired then
    updFeed f (FeedRec.climb (w.tables.port.get (leadPort f)).rampStep w.tables.timing.ramp) w
  else w

/-- A port that restarts when its feed faults (R140). -/
def PortRec.restartsOnFault (r : PortRec) : Bool :=
  r.contract.isSome || r.state == .claiming || r.state == .settling || r.state == .releasing

/-- The feed faults (R140 points 1 to 5). -/
def faultFeed (f : Feed) (p : Port) (w : Ev) : Ev :=
  let now := w.time
  let w := updFeed f (fun r => { r with faultReason := .overdraw, faultPort := some p, faultTime := some now })
    (openInto .fault f w)
  raiseTrigger (setNotice .feedFault w)

/-- The over-draw period of a feed expires (R140). -/
def expireOverdraw (f : Feed) (w : Ev) : Ev :=
  match (w.feed f).incumbent with
  | none => w
  | some p =>
    if (w.feed f).overdraw.expired then
      let restarts := (w.port p).restartsOnFault
      let w := faultFeed f p w
      if restarts then decideRestart p (failExchange p .superseded w) else w
    else w

/-- The under-voltage period expires: the port restarts (R139). An over-draw period that expires at the same tick then finds
the feed in BASE and faults it, in this event, before anything can open the switch (R140; DEDUCED: log 46). -/
def expireUnderVoltage (f : Feed) (w : Ev) : Ev :=
  match (w.feed f).selected with
  | none => w
  | some p =>
    if (w.feed f).underVolt.expired ∧ (w.feed f).state = .contract then
      let w := updFeed f (fun r => { r with underVolt := .off }) w
      expireOverdraw f (decideRestart p (recordFailure p .voltageOut w))
    else w

/-! ## Outlet, traps, liveness -/

/-- The over-draw period of the port's entry has expired (R155). -/
def Outlet.overdrawDue (o : Outlet) (p : Port) : Bool := o.grants.any (fun g => g.port == p && g.period.expired)

/-- An outlet over-draw: the entry removed, OUTLET_CUT, the port restarts (R155). -/
def expireOutletOverdraw (p : Port) (w : Ev) : Ev :=
  if w.outlet.overdrawDue p then decideRestart p (setNotice .outletCut (removeEntry p w)) else w

/-- The oldest HOLD entry whose deadline has expired (R186); one command takes one entry (DESIGN CHOICE: log 26). -/
def TrapUnit.dueEntry (t : TrapUnit) : Option TrapEntry :=
  t.queue.find? (fun e => e.mode == .hold && e.deadline.expired)

/-- A trap deadline expires: the default verdict (R186). -/
def expireTrap (w : Ev) : Ev :=
  match w.traps.dueEntry with
  | none => w
  | some e => applyDefault w e

/-- The liveness timer expires in attended mode (R206, R208). -/
def expireLiveness (w : Ev) : Ev :=
  if w.attended ∧ w.link.liveness.expired then
    let w := setNotice .livenessLost (updLink (fun l => { l with mode := .unattended, liveness := .stopped }) w)
    raiseTrigger (trimForCeiling (flushTraps w))
  else w

end Sys2Proof.Machine
end

