-- ==== Sys2Proof/Machine/ChargeFrames.lean ====
section
/-! DEFINITION. The meanings of frames received on a charge link (R8, R9) and of transmission on it (R4, R5, R191). -/
namespace Sys2Proof.Machine

/-! ## Received frames -/

/-- ANNOUNCE (R27). -/
def execAnnounce (p : Port) (payload : List Byte) (s : State) : Host.Outcome State Fault Refusal :=
  takeEvent (receiveFrame p .announce payload) s

/-- OFFERS (R31). -/
def execOffers (p : Port) (payload : List Byte) (s : State) : Host.Outcome State Fault Refusal :=
  takeEvent (receiveFrame p .offers payload) s

/-- RESHEET (R43). -/
def execResheet (p : Port) (payload : List Byte) (s : State) : Host.Outcome State Fault Refusal :=
  takeEvent (receiveFrame p .resheet payload) s

/-- SETTLED (R40). -/
def execSettled (p : Port) (s : State) : Host.Outcome State Fault Refusal := takeEvent (receiveFrame p .settled []) s

/-- DRAW (R149). -/
def execDraw (p : Port) (payload : List Byte) (s : State) : Host.Outcome State Fault Refusal :=
  takeEvent (receiveFrame p .draw payload) s

/-- GRANT (R36). -/
def execGrant (p : Port) (s : State) : Host.Outcome State Fault Refusal := takeEvent (receiveFrame p .grant []) s

/-- DECLINE (R37). -/
def execDecline (p : Port) (s : State) : Host.Outcome State Fault Refusal := takeEvent (receiveFrame p .decline []) s

/-- DEFER (R38). -/
def execDefer (p : Port) (s : State) : Host.Outcome State Fault Refusal := takeEvent (receiveFrame p .defer []) s

/-- RESTART (R48). -/
def execRestart (p : Port) (s : State) : Host.Outcome State Fault Refusal := takeEvent (receiveFrame p .restart []) s

/-- The line is idle again after a frame that is dropped (R4, R8). -/
def endReception (p : Port) (w : Ev) : Ev := updPort p (fun r => { r with rxBusy := false }) w

/-- An open-range frame; a kind outside the open range is no frame of this row and is dropped (R8, R177; log 34). -/
def receiveOpenRange (p : Port) (kind : Byte) (payload : List Byte) (w : Ev) : Ev :=
  if inOpenRange kind then receiveFrame p (.openRange kind) payload w else endReception p w

/-- OPEN_RANGE_FRAME (R20). -/
def execOpenRangeFrame (p : Port) (kind : Byte) (payload : List Byte) (s : State) : Host.Outcome State Fault Refusal :=
  takeEvent (receiveOpenRange p kind payload) s

/-- FRAME_TRUNCATED (R4). -/
def execFrameTruncated (p : Port) (s : State) : Host.Outcome State Fault Refusal := takeEvent (endReception p) s

/-- A frame that R8 drops has no effect; one that R8 passes is no event of this row (log 2). -/
def dropFrame (p : Port) (raw : List Byte) (w : Ev) : Ev := if (w.port p).drops raw then endReception p w else w

/-- FRAME_DROPPED (R8). -/
def execFrameDropped (p : Port) (raw : List Byte) (s : State) : Host.Outcome State Fault Refusal :=
  takeEvent (dropFrame p raw) s

/-! ## Transmission -/

/-- The line is idle and nothing is in transmission on the port (R4, R5). -/
def PortRec.lineIdle (r : PortRec) : Bool := r.tx.isNone && !r.rxBusy

/-- In DETACHED and DEBOUNCE the port sends no frame (R2). -/
def PortState.mute : PortState → Bool
  | .detached | .debounce => true
  | _ => false

/-- The oldest waiting frame is started on an idle line (R2, R5; log 35). -/
def startFrame (p : Port) (w : Ev) : Ev :=
  match (w.port p).order with
  | [] => w
  | f :: rest =>
    if (w.port p).lineIdle && !(w.port p).state.mute then
      updPort p (fun r => { r with order := rest, tx := some (.ordered f) }) w
    else w

/-- FRAME_TX_START (R5). -/
def execFrameTxStart (p : Port) (s : State) : Host.Outcome State Fault Refusal := takeEvent (startFrame p) s

/-- What the sending of a frame of the order starts, in the port state it is meant for (R28, R35, R39, R42, R49). Any WELCOME(INTAKE)
and any CLAIM counts, also an earlier one that was still in transmission (DEDUCED: log 17). -/
def afterSending (p : Port) (f : OutFrame) (w : Ev) : Ev :=
  match f, (w.port p).state with
  | .welcome .intake _, .awaitSheet => startTimer p .greeting w
  | .claim .., .claiming => startTimer p .answer w
  | .release, .releasing => startTimer p .settle w
  | .restart, .recovery => startTimer p .holdOff w
  | _, _ => w

/-- The CRC byte of the frame in transmission has been sent (R5, R191). -/
def endFrame (p : Port) (w : Ev) : Ev :=
  match (w.port p).tx with
  | none => w
  | some (.ordered f) => afterSending p f (updPort p (fun r => { r with tx := none }) w)
  | some (.relayed _ true) => updPort p (fun r => { r with tx := none, relay := none }) w
  | some (.relayed _ false) => updPort p (fun r => { r with tx := none }) w

/-- FRAME_SENT (R5). -/
def execFrameSent (p : Port) (s : State) : Host.Outcome State Fault Refusal := takeEvent (endFrame p) s

/-- The states in which a port sends its relay slot (R191). -/
def PortState.sendsRelay : PortState → Bool
  | .awaitSheet | .held | .contract | .outletBase | .outletGranted | .parked => true
  | _ => false

/-- The frame of the relay slot is started (R191). -/
def startRelay (p : Port) (w : Ev) : Ev :=
  match (w.port p).relay with
  | none => w
  | some f =>
    if (w.port p).state.sendsRelay ∧ (w.port p).order = [] ∧ (w.port p).lineIdle then
      updPort p (fun r => { r with tx := some (.relayed f true) }) w
    else w

/-- RELAY_FRAME_SEND (R191). -/
def execRelayFrameSend (p : Port) (s : State) : Host.Outcome State Fault Refusal := takeEvent (startRelay p) s

end Sys2Proof.Machine
end

