-- ==== Sys2Proof/Machine/Commands.lean ====
section
/-! DEFINITION. The meanings of the other requests: liveness (R204, R205), verdicts (R183), relays (R190), commands to the
controller, ports and feeds (R142, R198), notices and causes (R201, R202, R217), the lock (R77) and the policy restart (R218). -/
namespace Sys2Proof.Machine

/-! ## Liveness -/

/-- LIVE_MARK (R204). -/
def execLiveMark (params : List Byte) (s : State) : Host.Outcome State Fault Refusal :=
  requestEvent 0x90#8 params (fun _ w =>
    withLength 0 params (fun w => answer (updLink (fun l => { l with markArmed := true }) w) .done) w) s

/-- The part enters attended mode (R207). -/
def enterAttended (w : Ev) : Ev :=
  if w.attended then w
  else raiseTrigger (trimForCeiling (updLink (fun l => { l with mode := .attended }) w))

/-- A LIVE CONFIRM with the mark as it stood (R205). -/
def confirmLive (mark : Bool) (w : Ev) : Answer :=
  if mark then answer (enterAttended (updLink (fun l => { l with liveness := .armed }) w)) .done
  else answer w .refused

/-- LIVE_CONFIRM (R205). -/
def execLiveConfirm (params : List Byte) (s : State) : Host.Outcome State Fault Refusal :=
  requestEvent 0x91#8 params (fun mark w => withLength 0 params (confirmLive mark) w) s

/-! ## Verdicts and relays -/

/-- A HOLD entry with a tag (R183 check 2). -/
def TrapUnit.heldTag (t : TrapUnit) (tag : Byte) : Option TrapEntry :=
  t.queue.find? (fun e => e.tag == tag && e.mode == .hold)

/-- A verdict by the checks of R183; 00h is ALLOW, 01h DENY, 02h AMEND (R195). -/
def decideVerdict (tag decision : Byte) (content : List Byte) (w : Ev) : Answer :=
  if 2 < decision.toNat then answer w .badForm
  else match w.traps.heldTag tag with
    | none => answer w .stale
    | some e =>
      if decision = 0 then answer (applyDecision e .allow w) .done
      else if decision = 1 then answer (applyDecision e .deny w) .done
      else match amendDecision e content with
        | none => answer w .badForm
        | some (d, clamped) => answer (applyDecision e d w) (if clamped then .doneClamped else .done)

/-- VERDICT (R183). -/
def execVerdict (params : List Byte) (s : State) : Host.Outcome State Fault Refusal :=
  requestEvent 0x92#8 params (fun _ w =>
    match params with
    | tag :: decision :: content => decideVerdict tag decision content w
    | _ => answer w .badForm) s

/-- The states in which a RELAY is refused (R190 check 3). -/
def PortState.refusesRelay : PortState → Bool
  | .detached | .debounce | .greeting | .recovery | .disabled => true
  | _ => false

/-- A RELAY by the checks of R190. -/
def decideRelay (port kind : Byte) (payload : List Byte) (w : Ev) : Answer :=
  match portOfCode port.toNat with
  | none => answer w .badIndex
  | some p =>
    if Config.maxChargePayload < payload.length then answer w .badForm
    else if !inOpenRange kind || (w.port p).state.refusesRelay then answer w .refused
    else if (w.port p).relay.isSome then answer w .busy
    else answer (updPort p (fun r => { r with relay := some ⟨kind, payload⟩ }) w) .done

/-- RELAY (R190). -/
def execRelay (params : List Byte) (s : State) : Host.Outcome State Fault Refusal :=
  requestEvent 0x93#8 params (fun _ w =>
    match params with
    | port :: kind :: payload => decideRelay port kind payload w
    | _ => answer w .badForm) s

/-! ## Commands -/

/-- EVALUATE (R198). -/
def execEvaluate (params : List Byte) (s : State) : Host.Outcome State Fault Refusal :=
  requestEvent 0x94#8 params (fun _ w => withLength 0 params (fun w => answer (raiseTrigger w) .done) w) s

/-- The states in which PORT RESTART is refused (R57). -/
def PortState.refusesRestart : PortState → Bool
  | .detached | .debounce | .disabled => true
  | _ => false

/-- A PORT RESTART of a port code (R57, R198). -/
def decidePortRestart (code : Nat) (w : Ev) : Answer :=
  match portOfCode code with
  | none => answer w .badIndex
  | some p =>
    if (w.port p).state.refusesRestart then answer w .refused
    else answer (decideRestart p (failExchange p .commanded w)) .done

/-- PORT_RESTART (R57). -/
def execPortRestart (params : List Byte) (s : State) : Host.Outcome State Fault Refusal :=
  requestEvent 0x95#8 params (fun _ w => withLength 1 params (decidePortRestart (field params 0 1)) w) s

/-- A CLEAR FAULT of a feed code (R142). -/
def decideClearFault (code : Nat) (w : Ev) : Answer :=
  match feedOfCode code with
  | none => answer w .badIndex
  | some f =>
    if (w.feed f).state = .fault then answer (raiseTrigger (updFeed f (fun r => { r with state := .idle }) w)) .done
    else answer w .refused

/-- CLEAR_FAULT (R142). -/
def execClearFault (params : List Byte) (s : State) : Host.Outcome State Fault Refusal :=
  requestEvent 0x96#8 params (fun _ w => withLength 1 params (decideClearFault (field params 0 1)) w) s

/-! ## Notices and causes -/

/-- A CLEAR NOTICES of a flag set; its data are the flags after the clearing (R201). -/
def clearNotices (set : BitVec 12) (w : Ev) : Answer :=
  let left := w.link.notices &&& ~~~set
  ⟨updLink (fun l => { l with notices := left }) w, .done, [.num 2 left.toNat]⟩

/-- CLEAR_NOTICES (R201). -/
def execClearNotices (params : List Byte) (s : State) : Host.Outcome State Fault Refusal :=
  requestEvent 0x98#8 params (fun _ w => withLength 2 params (fun w =>
    match parseFlagSet params with
    | none => answer w .badForm
    | some set => clearNotices set w) w) s

/-- SET_MASK (R202). -/
def execSetMask (params : List Byte) (s : State) : Host.Outcome State Fault Refusal :=
  requestEvent 0x99#8 params (fun _ w => withLength 2 params (fun w =>
    match parseFlagSet params with
    | none => answer w .badForm
    | some set => answer (updLink (fun l => { l with mask := set }) w) .done) w) s

/-- A CLEAR CAUSE of a cause set (R217). -/
def clearCause (set : Nat) (w : Ev) : Answer :=
  if 15 < set then answer w .badForm
  else answer { w with cause := w.cause &&& ~~~(BitVec.ofNat 4 set) } .done

/-- CLEAR_CAUSE (R217). -/
def execClearCause (params : List Byte) (s : State) : Host.Outcome State Fault Refusal :=
  requestEvent 0x9A#8 params (fun _ w => withLength 1 params (clearCause (field params 0 1)) w) s

/-! ## Lock, policy restart, burn -/

/-- LOCK_POLICY (R77). -/
def execLockPolicy (params : List Byte) (s : State) : Host.Outcome State Fault Refusal :=
  requestEvent 0x9B#8 params (fun _ w => withLength 0 params (fun w =>
    answer { w with tables := { w.tables with lock := true } } .done) w) s

/-- POLICY_RESTART (R218). -/
def execPolicyRestart (params : List Byte) (s : State) : Host.Outcome State Fault Refusal :=
  requestEvent 0x9C#8 params (fun _ w => withLength 0 params (fun w =>
    if w.tables.lock then answer w .locked else answer (policyRestart w) .done) w) s

/-- A BURN FACTORY by the checks of R212. -/
def decideBurn (params : List Byte) (w : Ev) : Answer :=
  if w.tables.lock then answer w .locked
  else if w.factory.record ≠ .blank then answer w .written
  else if contentInRange (parseContent params) then
    answer { w with factory := { w.factory with burn := some ⟨parseContent params, .armed⟩ } } .done
  else answer w .badForm

/-- BURN_FACTORY (R212). -/
def execBurnFactory (params : List Byte) (s : State) : Host.Outcome State Fault Refusal :=
  requestEvent 0x9D#8 params (fun _ w => withLength 29 params (decideBurn params) w) s

end Sys2Proof.Machine
end

