-- ==== Sys2Proof/Machine/LinkEvents.lean ====
section
/-! DEFINITION. The meanings of the system link's own events: frames that are lost or dropped (R21), requests that are owed
BUSY or name nothing (R193, R194), and the transmit wire (R181, R182). -/
namespace Sys2Proof.Machine

/-- The receive buffer is emptied. -/
def emptyBuffer (w : Ev) : Ev := updLink (fun l => { l with rxBuffer := [] }) w

/-- SYS_FRAME_TRUNCATED (R21). -/
def execSysFrameTruncated (s : State) : Host.Outcome State Fault Refusal := takeEvent emptyBuffer s

/-- R21 drops a received frame: its envelope is bad, or its kind lies outside 80h to 9Fh. -/
def systemDrops (raw : List Byte) : Bool :=
  match openEnvelope Config.maxSystemPayload raw with
  | none => true
  | some (kind, _) => !requestRange kind

/-- A frame that R21 drops has no effect but that it is over; one that R21 passes is no event of this row (log 2). -/
def dropRequest (raw : List Byte) (w : Ev) : Ev := if systemDrops raw then emptyBuffer w else w

/-- SYS_FRAME_DROPPED (R21). -/
def execSysFrameDropped (raw : List Byte) (s : State) : Host.Outcome State Fault Refusal :=
  takeEvent (dropRequest raw) s

/-- A request completes while one is held; without one it is no event of this row (R194; log 2). -/
def refuseBusy (code : Byte) (w : Ev) : Ev :=
  if w.link.held.isSome && requestRange code then oweBusy code (emptyBuffer w) else w

/-- REQUEST_OWED_BUSY (R194). -/
def execRequestOwedBusy (code : Byte) (s : State) : Host.Outcome State Fault Refusal := takeEvent (refuseBusy code) s

/-- A request whose code names none is answered BAD_FORM; any other code is no event of this row (R193; log 2). -/
def takeUnknown (code : Byte) (params : List Byte) (w : Ev) : Ev :=
  if requestRange code && !assignedCode code then takeRequest code params (fun _ w => answer w .badForm) w else w

/-- UNKNOWN_REQUEST (R193). -/
def execUnknownRequest (code : Byte) (params : List Byte) (s : State) : Host.Outcome State Fault Refusal :=
  takeEvent (takeUnknown code params) s

/-- SYS_TX_START (R182). -/
def execSysTxStart (s : State) : Host.Outcome State Fault Refusal := takeEvent startTransmission s

/-- The pending RESULT's CRC byte has been sent: the held request ends (R193, R194). -/
def endResult (w : Ev) : Ev :=
  match w.link.tx with
  | some .result => updLink (fun l => endHeld { l with tx := none }) w
  | some (.forward _) | none => w

/-- RESULT_SENT (R193). -/
def execResultSent (s : State) : Host.Outcome State Fault Refusal := takeEvent endResult s

/-- A FORWARD's CRC byte has been sent: a COPY entry goes, a HOLD entry becomes SENT (R181). -/
def endForward (w : Ev) : Ev :=
  match w.link.tx with
  | some (.forward _) =>
    updLink (fun l => { l with tx := none })
      { w with traps := { w.traps with queue := queueAfterForward w.traps.queue } }
  | some .result | none => w

/-- FORWARD_SENT (R181). -/
def execForwardSent (s : State) : Host.Outcome State Fault Refusal := takeEvent endForward s

end Sys2Proof.Machine
end

