-- ==== Sys2Proof/Machine/Loads.lean ====
section
/-! DEFINITION. The meanings of the loads (R60 to R76, R161) and of the reads (R196, R197, R215, R217). -/
namespace Sys2Proof.Machine

/-! ## Loads -/

/-- The result of an accepted load (R61 checks 4 and 5). -/
def loadResult (clamped : Bool) : ResultCode := if clamped then .doneClamped else .done

/-- The index check of a table load and its form check after it (R61 checks 1 to 3). -/
def loadAt {α : Type} (last : Nat) (decode : List Byte → Loaded α) (store : Nat → α → Ev → Ev) (params : List Byte)
    (w : Ev) : Answer :=
  if w.tables.lock then answer w .locked
  else match params with
    | [] => answer w .badForm
    | i :: bs =>
      if last < i.toNat then answer w .badIndex
      else match decode bs with
        | .badForm => answer w .badForm
        | .stored e clamped => answer (store i.toNat e w) (loadResult clamped)

/-- A policy entry replaces entry `i` (R60, R64). -/
def storePolicy (i : Nat) (e : PolicyEntry) (w : Ev) : Ev :=
  storeTables { w.tables with policy := w.tables.policy.set i e } w

/-- LOAD_POLICY (R66). -/
def execLoadPolicy (params : List Byte) (s : State) : Host.Outcome State Fault Refusal :=
  requestEvent 0x80#8 params (fun _ w => loadAt 23 (loadedPolicy w.factoryValues) storePolicy params w) s

/-- A port entry replaces a port's entry, with its consequences on the stored entry as a whole, a lowered outlet cap
last (R64, R71, R151). -/
def storePort (i : Nat) (e : PortEntry) (w : Ev) : Ev :=
  match portOfCode i with
  | none => w
  | some p =>
    let old := w.tables.port
    let w := storeTables { w.tables with port := w.tables.port.set p e } w
    applyLoweredCap old (applyPortEntry p w) p

/-- LOAD_PORT (R70). -/
def execLoadPort (params : List Byte) (s : State) : Host.Outcome State Fault Refusal :=
  requestEvent 0x81#8 params (fun _ w => loadAt 3 (loadedPort w.factoryValues) storePort params w) s

/-- A watch entry replaces entry `i`, its state started again (R163). Levels and flags are worked out at once, whatever hold
timer is still due, and a due entry that is replaced does not fire (DESIGN CHOICE: log 42). -/
def storeWatch (i : Nat) (e : WatchEntry) (w : Ev) : Ev :=
  applyWatches { w with watches := w.watches.set i (WatchSlot.loaded w.toState e) }

/-- LOAD_WATCH (R161). -/
def execLoadWatch (params : List Byte) (s : State) : Host.Outcome State Fault Refusal :=
  requestEvent 0x82#8 params (fun _ w => loadAt 7 loadedWatch storeWatch params w) s

/-- A record load (R61 from the form check on). -/
def loadRecord {α : Type} (loaded : Loaded α) (store : α → Ev → Ev) (w : Ev) : Answer :=
  match loaded with
  | .badForm => answer w .badForm
  | .stored e clamped => answer (store e w) (loadResult clamped)

/-- The budget record is replaced: a lowered ceiling trims an attended part, and the pool in force is recomputed
(R74, R118, R146). -/
def storeBudget (b : Budget) (w : Ev) : Ev :=
  let old := w.tables.budget.ceiling
  let w := storeTables { w.tables with budget := b } w
  recomputePool (if w.attended ∧ b.ceiling < old then trimForCeiling w else w)

/-- LOAD_BUDGET (R73). -/
def execLoadBudget (params : List Byte) (s : State) : Host.Outcome State Fault Refusal :=
  requestEvent 0x83#8 params (fun _ w =>
    if w.tables.lock then answer w .locked else loadRecord (loadedBudget w.factoryValues params) storeBudget w) s

/-- The timing record is replaced; running timers keep their counts (R76). -/
def storeTiming (t : Timing) (w : Ev) : Ev := { w with tables := { w.tables with timing := t } }

/-- LOAD_TIMING (R75). -/
def execLoadTiming (params : List Byte) (s : State) : Host.Outcome State Fault Refusal :=
  requestEvent 0x84#8 params (fun _ w => loadRecord (loadedTiming params) storeTiming w) s

/-! ## Reads -/

/-- A read of two parameter bytes. -/
def readTwo (params : List Byte) (read : Nat → Nat → ResultCode × List Field) (w : Ev) : Answer :=
  withLength 2 params (fun w =>
    let r := read (field params 0 1) (field params 1 1)
    ⟨w, r.1, r.2⟩) w

/-- READ_ENTRY (R196). -/
def execReadEntry (params : List Byte) (s : State) : Host.Outcome State Fault Refusal :=
  requestEvent 0x88#8 params (fun _ w => readTwo params (readStored w.toState) w) s

/-- READ_STATE (R197; log 32). -/
def execReadState (params : List Byte) (s : State) : Host.Outcome State Fault Refusal :=
  requestEvent 0x89#8 params (fun _ w => readTwo params (readSection w.toState) w) s

/-- The fields of a READ FACTORY: revision and serial are 0 unless the record is WRITTEN (R215). -/
def factoryFields (f : Factory) : List Field :=
  let c := f.values
  [.num 1 (recordStateCode f.record), .raw (valueBytes c), .num 1 c.revision, .num 4 c.serial]

/-- READ_FACTORY (R215). -/
def execReadFactory (params : List Byte) (s : State) : Host.Outcome State Fault Refusal :=
  requestEvent 0x8A#8 params (fun _ w => withLength 0 params (fun w => ⟨w, .done, factoryFields w.factory⟩) w) s

/-- READ_CAUSE (R217). -/
def execReadCause (params : List Byte) (s : State) : Host.Outcome State Fault Refusal :=
  requestEvent 0x8B#8 params (fun _ w => withLength 0 params (fun w => ⟨w, .done, [.num 1 w.cause.toNat]⟩) w) s

end Sys2Proof.Machine
end

