-- ==== Sys2Proof/Machine/Resets.lean ====
section
/-! DEFINITION. The meanings of the burn's read-back (R214) and of the full reset (R216, R217). -/
namespace Sys2Proof.Machine

/-- BURN_READ_BACK (R214). -/
def execBurnReadBack (cellsBad : Bool) (s : State) : Host.Outcome State Fault Refusal :=
  takeEvent (readBackBurn cellsBad) s

/-- POWER_UP (R216). -/
def execPowerUp (s : State) : Host.Outcome State Fault Refusal :=
  .next (s.beginReset (fun c => { c with powerUp := true }))

/-- RESET_INPUT (R216). -/
def execResetInput (s : State) : Host.Outcome State Fault Refusal :=
  .next (s.beginReset (fun c => { c with pin := true }))

/-- SUPPLY_DIP (R216). -/
def execSupplyDip (s : State) : Host.Outcome State Fault Refusal :=
  .next (s.beginReset (fun c => { c with dip := true }))

/-- FULL_RESET_END (R216, R217). -/
def execFullResetEnd (cellsLost : Bool) (s : State) : Host.Outcome State Fault Refusal := .next (s.endReset cellsLost)

end Sys2Proof.Machine
end

