-- ==== Sys2Proof/Machine/TimeBase.lean ====
section
/-! DEFINITION. The millisecond tick (TICK, R219): the time base, the samples (R157), every countdown (00, section 2.4), the
presence samples (R1 to R3), the monitors (R138, R155) and the watches (R164). Expiries that no command has taken by then
are taken first, each as its own event (log 3). -/
namespace Sys2Proof.Machine

/-! ## Expiries still to be taken -/

/-- Every expiry, in the order in which a tick takes those still due (log 3). -/
def expiries : List (Ev → Ev) :=
  allPorts.map expireFilter
    ++ (allPorts.map (fun p =>
        [expireDebounce p, expireGreeting p, expireAnswer p, expireDeferral p, expireSettle p, expireHoldOff p])).flatten
    ++ (allFeeds.map (fun f =>
        [expireCloseCheck f, expireContractCheck f, expireGap f, expireRamp f, expireUnderVoltage f, expireOverdraw f])).flatten
    ++ allPorts.map expireOutletOverdraw ++ [fireWatches] ++ List.replicate Config.trapCapacity expireTrap
    ++ [expireLiveness, readBackBurn false]

/-- Takes the expiries that are still due. -/
def drainExpiries (s : State) : State := expiries.foldl (fun s act => runEvent act s) s

/-! ## Samples and countdowns -/

/-- One sample of each quantity joins the last eight (R157, R158). -/
def Sense.sample (i : TickInputs) (x : Sense) : Sense where
  feedV := ⟨pushSample x.feedV.f0 (sampleOf Config.topFeedVoltage i.feedV.f0),
            pushSample x.feedV.f1 (sampleOf Config.topFeedVoltage i.feedV.f1)⟩
  feedI := ⟨pushSample x.feedI.f0 (sampleOf Config.topFeedCurrent i.feedI.f0),
            pushSample x.feedI.f1 (sampleOf Config.topFeedCurrent i.feedI.f1)⟩
  outletI := ⟨pushSample x.outletI.a (sampleOf Config.topOutletCurrent i.outletI.a),
              pushSample x.outletI.b (sampleOf Config.topOutletCurrent i.outletI.b),
              pushSample x.outletI.c (sampleOf Config.topOutletCurrent i.outletI.c),
              pushSample x.outletI.d (sampleOf Config.topOutletCurrent i.outletI.d)⟩
  thermal := pushSample x.thermal (sampleOf Config.topThermal i.thermal)

/-- A check's window timer counts (R127, R133). -/
def Check.tick (window : Nat) : Check → Check
  | .idle => .idle
  | .close p t => .close p (t.tick window)
  | .contract p v t => .contract p v (t.tick window)

/-- A feed's countdowns (R124). -/
def FeedRec.tick (t : Timing) (r : FeedRec) : FeedRec :=
  { r with ramp := r.ramp.tick t.ramp, gap := r.gap.tick t.gap, check := r.check.tick t.checkWindow }

/-- Every countdown of the part, but for those of the watches, counts one tick. -/
def tickTimers (w : Ev) : Ev :=
  let t := w.tables.timing
  let port (r : PortRec) : PortRec := { r with timer := r.timer.tick t }
  { w with
    ports := ⟨port w.ports.a, port w.ports.b, port w.ports.c, port w.ports.d⟩
    feeds := ⟨w.feeds.f0.tick t, w.feeds.f1.tick t⟩
    traps := { w.traps with queue := w.traps.queue.map (fun e => { e with deadline := e.deadline.tick t.trap }) }
    link := { w.link with liveness := w.link.liveness.tick t.liveness }
    factory := { w.factory with
      burn := w.factory.burn.map (fun b => { b with timer := b.timer.tick Config.burnTime }) } }

/-! ## Presence (R1 to R3, R26) -/

/-- The presence sample: present in the present band, and while a frame is on the wire in either direction (R1). -/
def presenceSample (r : PortRec) (x : WireSample) : Bool :=
  x.frame || r.tx.isSome || x.level == .presentBand

/-- The detach filter on one sample (R3). -/
def PortRec.filter (present : Bool) (r : PortRec) : PortRec :=
  if present then { r with detachCount := 0, presence := r.presence || r.state == .disabled }
  else
    let n := min (r.detachCount + 1) Config.detachLimit
    { r with detachCount := n, detachRaised := r.detachCount < Config.detachLimit && n == Config.detachLimit }

/-- The presence sample of a port taken at a tick (R1 to R3, R26). -/
def samplePresence (i : TickInputs) (w : Ev) (p : Port) : Ev :=
  let present := presenceSample (w.port p) (i.wires.get p)
  match (w.port p).state with
  | .detached => if present then enterDebounce p w else w
  | .debounce => if present then w else enter p .detached (stopTimer p w)
  | _ => updPort p (PortRec.filter present) w

/-- A frame of the partner is on the wire while the port sends none (R4; log 6). -/
def sampleLine (i : TickInputs) (w : Ev) (p : Port) : Ev :=
  updPort p (fun r => { r with rxBusy := (i.wires.get p).frame && r.tx.isNone }) w

/-! ## Monitors (R138 to R140, R155) -/

/-- The over-draw condition of a feed under a margin (R140). -/
def FeedRec.overdrawn (margin avg : Nat) (r : FeedRec) : Bool := r.powered && r.output * (16 + margin) / 16 < avg

/-- The under-voltage condition of a feed, its monitor active only with a contracted port (R138, R139). -/
def FeedRec.underVoltage (contracted : Bool) (avg : Nat) (r : FeedRec) : Bool :=
  match r.state, r.view with
  | .contract, some v => contracted && avg < v.voltage - v.voltage / 8
  | _, _ => false

/-- The port a feed's switch is closed on is in CONTRACT. -/
def State.contracted (s : State) (f : Feed) : Bool :=
  match (s.feed f).incumbent with
  | some p => (s.port p).state == .contract
  | none => false

/-- Both periods of a feed at a tick (R138). -/
def monitorFeed (w : Ev) (f : Feed) : Ev :=
  let len := w.tables.timing.overdraw
  let margin := (w.tables.port.get (leadPort f)).margin
  let overHolds := (w.feed f).overdrawn margin (w.avgCurrent f)
  let underHolds := (w.feed f).underVoltage (w.contracted f) (w.avgVoltage f)
  updFeed f (fun r => { r with overdraw := r.overdraw.tick len overHolds, underVolt := r.underVolt.tick len underHolds }) w

/-- The outlet over-draw condition of an entry (R155). -/
def GrantEntry.overdrawn (avg : Nat) (g : GrantEntry) : Bool := g.current * 18 / 16 < avg

/-- The outlet over-draw periods at a tick (R155). -/
def monitorOutlets (w : Ev) : Ev :=
  let len := w.tables.timing.overdraw
  updOutlet (fun o => { o with
    grants := o.grants.map (fun g => { g with period := g.period.tick len (g.overdrawn (w.avgOutlet g.port)) }) }) w

/-! ## The tick -/

/-- What one tick does, as one event (R219). -/
def tickBody (i : TickInputs) (w : Ev) : Ev :=
  let w := { w with time := w.time + 1, sense := w.sense.sample i }
  let w := allPorts.foldl (samplePresence i) (tickTimers w)
  let w := monitorOutlets (allFeeds.foldl monitorFeed w)
  let w := allPorts.foldl (sampleLine i) (tickWatches w)
  updLink (fun l => { l with rxBuffer := i.sysRx }) w

/-- TICK (R219). -/
def execTick (i : TickInputs) (s : State) : Host.Outcome State Fault Refusal :=
  takeEvent (tickBody i) (drainExpiries s)

end Sys2Proof.Machine
end

