-- ==== Sys2Proof/Machine/Timers.lean ====
section
/-! DEFINITION. The meanings of the timer events: of a port, a feed, the outlet supply, the watches, the traps and liveness. -/
namespace Sys2Proof.Machine

/-- ATTACH_CONFIRMED (R26). -/
def execAttachConfirmed (p : Port) (s : State) : Host.Outcome State Fault Refusal := takeEvent (expireDebounce p) s

/-- DETACH (R58). -/
def execDetach (p : Port) (s : State) : Host.Outcome State Fault Refusal := takeEvent (expireFilter p) s

/-- GREETING_DEADLINE_EXPIRY (R29, R30). -/
def execGreetingDeadlineExpiry (p : Port) (s : State) : Host.Outcome State Fault Refusal :=
  takeEvent (expireGreeting p) s

/-- ANSWER_DEADLINE_EXPIRY (R39). -/
def execAnswerDeadlineExpiry (p : Port) (s : State) : Host.Outcome State Fault Refusal := takeEvent (expireAnswer p) s

/-- DEFER_INTERVAL_EXPIRY (R38). -/
def execDeferIntervalExpiry (p : Port) (s : State) : Host.Outcome State Fault Refusal := takeEvent (expireDeferral p) s

/-- SETTLE_DEADLINE_EXPIRY (R40, R42). -/
def execSettleDeadlineExpiry (p : Port) (s : State) : Host.Outcome State Fault Refusal := takeEvent (expireSettle p) s

/-- RECOVERY_HOLD_OFF_EXPIRY (R50). -/
def execRecoveryHoldOffExpiry (p : Port) (s : State) : Host.Outcome State Fault Refusal := takeEvent (expireHoldOff p) s

/-- CLOSE_CHECK_EXPIRY (R128). -/
def execCloseCheckExpiry (f : Feed) (s : State) : Host.Outcome State Fault Refusal := takeEvent (expireCloseCheck f) s

/-- CONTRACT_CHECK_EXPIRY (R133). -/
def execContractCheckExpiry (f : Feed) (s : State) : Host.Outcome State Fault Refusal :=
  takeEvent (expireContractCheck f) s

/-- GAP_TIMER_EXPIRY (R130). -/
def execGapTimerExpiry (f : Feed) (s : State) : Host.Outcome State Fault Refusal := takeEvent (expireGap f) s

/-- RAMP_TIMER_EXPIRY (R136). -/
def execRampTimerExpiry (f : Feed) (s : State) : Host.Outcome State Fault Refusal := takeEvent (expireRamp f) s

/-- UNDER_VOLTAGE_EXPIRY (R139). -/
def execUnderVoltageExpiry (f : Feed) (s : State) : Host.Outcome State Fault Refusal := takeEvent (expireUnderVoltage f) s

/-- OVERDRAW_EXPIRY (R140). -/
def execOverdrawExpiry (f : Feed) (s : State) : Host.Outcome State Fault Refusal := takeEvent (expireOverdraw f) s

/-- OUTLET_OVERDRAW_EXPIRY (R155). -/
def execOutletOverdrawExpiry (p : Port) (s : State) : Host.Outcome State Fault Refusal :=
  takeEvent (expireOutletOverdraw p) s

/-- WATCH_HOLD_EXPIRY (R165). -/
def execWatchHoldExpiry (s : State) : Host.Outcome State Fault Refusal := takeEvent fireWatches s

/-- TRAP_DEADLINE_EXPIRY (R186). -/
def execTrapDeadlineExpiry (s : State) : Host.Outcome State Fault Refusal := takeEvent expireTrap s

/-- LIVENESS_TIMER_EXPIRY (R206). -/
def execLivenessTimerExpiry (s : State) : Host.Outcome State Fault Refusal := takeEvent expireLiveness s

end Sys2Proof.Machine
end

