-- ==== Sys2Proof/Machine/Dispatch.lean ====
section
/-! DEFINITION. The meaning of each row of spec/opcode_table.json: one arm for each constructor of Instr. -/
namespace Sys2Proof.Machine

def exec (i : Instr) (s : State) : Host.Outcome State Fault Refusal :=
  match i with
  | .tick inputs => Sys2Proof.Machine.execTick inputs s
  | .attachConfirmed p => Sys2Proof.Machine.execAttachConfirmed p s
  | .detach p => Sys2Proof.Machine.execDetach p s
  | .frameTruncated p => Sys2Proof.Machine.execFrameTruncated p s
  | .frameDropped p raw => Sys2Proof.Machine.execFrameDropped p raw s
  | .announce p payload => Sys2Proof.Machine.execAnnounce p payload s
  | .offers p payload => Sys2Proof.Machine.execOffers p payload s
  | .resheet p payload => Sys2Proof.Machine.execResheet p payload s
  | .settled p => Sys2Proof.Machine.execSettled p s
  | .draw p payload => Sys2Proof.Machine.execDraw p payload s
  | .grant p => Sys2Proof.Machine.execGrant p s
  | .decline p => Sys2Proof.Machine.execDecline p s
  | .defer p => Sys2Proof.Machine.execDefer p s
  | .restart p => Sys2Proof.Machine.execRestart p s
  | .openRangeFrame p kind payload => Sys2Proof.Machine.execOpenRangeFrame p kind payload s
  | .frameTxStart p => Sys2Proof.Machine.execFrameTxStart p s
  | .frameSent p => Sys2Proof.Machine.execFrameSent p s
  | .relayFrameSend p => Sys2Proof.Machine.execRelayFrameSend p s
  | .greetingDeadlineExpiry p => Sys2Proof.Machine.execGreetingDeadlineExpiry p s
  | .answerDeadlineExpiry p => Sys2Proof.Machine.execAnswerDeadlineExpiry p s
  | .deferIntervalExpiry p => Sys2Proof.Machine.execDeferIntervalExpiry p s
  | .settleDeadlineExpiry p => Sys2Proof.Machine.execSettleDeadlineExpiry p s
  | .recoveryHoldOffExpiry p => Sys2Proof.Machine.execRecoveryHoldOffExpiry p s
  | .closeCheckExpiry f => Sys2Proof.Machine.execCloseCheckExpiry f s
  | .contractCheckExpiry f => Sys2Proof.Machine.execContractCheckExpiry f s
  | .gapTimerExpiry f => Sys2Proof.Machine.execGapTimerExpiry f s
  | .rampTimerExpiry f => Sys2Proof.Machine.execRampTimerExpiry f s
  | .underVoltageExpiry f => Sys2Proof.Machine.execUnderVoltageExpiry f s
  | .overdrawExpiry f => Sys2Proof.Machine.execOverdrawExpiry f s
  | .outletOverdrawExpiry p => Sys2Proof.Machine.execOutletOverdrawExpiry p s
  | .watchHoldExpiry => Sys2Proof.Machine.execWatchHoldExpiry s
  | .trapDeadlineExpiry => Sys2Proof.Machine.execTrapDeadlineExpiry s
  | .sysFrameTruncated => Sys2Proof.Machine.execSysFrameTruncated s
  | .sysFrameDropped raw => Sys2Proof.Machine.execSysFrameDropped raw s
  | .requestOwedBusy code => Sys2Proof.Machine.execRequestOwedBusy code s
  | .unknownRequest code params => Sys2Proof.Machine.execUnknownRequest code params s
  | .sysTxStart => Sys2Proof.Machine.execSysTxStart s
  | .resultSent => Sys2Proof.Machine.execResultSent s
  | .forwardSent => Sys2Proof.Machine.execForwardSent s
  | .loadPolicy params => Sys2Proof.Machine.execLoadPolicy params s
  | .loadPort params => Sys2Proof.Machine.execLoadPort params s
  | .loadWatch params => Sys2Proof.Machine.execLoadWatch params s
  | .loadBudget params => Sys2Proof.Machine.execLoadBudget params s
  | .loadTiming params => Sys2Proof.Machine.execLoadTiming params s
  | .readEntry params => Sys2Proof.Machine.execReadEntry params s
  | .readState params => Sys2Proof.Machine.execReadState params s
  | .readFactory params => Sys2Proof.Machine.execReadFactory params s
  | .readCause params => Sys2Proof.Machine.execReadCause params s
  | .liveMark params => Sys2Proof.Machine.execLiveMark params s
  | .liveConfirm params => Sys2Proof.Machine.execLiveConfirm params s
  | .livenessTimerExpiry => Sys2Proof.Machine.execLivenessTimerExpiry s
  | .verdict params => Sys2Proof.Machine.execVerdict params s
  | .relay params => Sys2Proof.Machine.execRelay params s
  | .evaluate params => Sys2Proof.Machine.execEvaluate params s
  | .portRestart params => Sys2Proof.Machine.execPortRestart params s
  | .clearFault params => Sys2Proof.Machine.execClearFault params s
  | .clearNotices params => Sys2Proof.Machine.execClearNotices params s
  | .setMask params => Sys2Proof.Machine.execSetMask params s
  | .clearCause params => Sys2Proof.Machine.execClearCause params s
  | .lockPolicy params => Sys2Proof.Machine.execLockPolicy params s
  | .policyRestart params => Sys2Proof.Machine.execPolicyRestart params s
  | .burnFactory params => Sys2Proof.Machine.execBurnFactory params s
  | .burnReadBack cellsBad => Sys2Proof.Machine.execBurnReadBack cellsBad s
  | .powerUp => Sys2Proof.Machine.execPowerUp s
  | .resetInput => Sys2Proof.Machine.execResetInput s
  | .supplyDip => Sys2Proof.Machine.execSupplyDip s
  | .fullResetEnd cellsLost => Sys2Proof.Machine.execFullResetEnd cellsLost s

end Sys2Proof.Machine
end

