-- ==== Sys2Proof/Safety.lean ====
section
/-! DEFINITION. What the statements speak of: when a command is acted on, the parts of the state that a class of commands
leaves alone, what a trim and the protective reaction make of a feed and a port, and the invariants of the block
(R60, R62, R134, R144, R152, R158, R178, R179, R192 to R194, R206). -/
namespace Sys2Proof.Machine

/-! ## When a command is acted on -/

/-- No full reset lasts (R216). -/
def State.running (s : State) : Bool := s.resetting.isNone

/-- A request frame that completes now is taken and acted on: no reset, no request held (R194), no burn (R213). -/
def State.takes (s : State) : Bool := s.running && s.link.held.isNone && s.factory.burn.isNone

/-- The state with the receive buffer emptied and a request's RESULT pending, mark armed cleared (R193, R204). -/
def State.answered (s : State) (code : Byte) (r : ResultCode) (data : List Field) : State :=
  { s with link := { s.link with
      rxBuffer := [], held := some code, markArmed := false, pendingResult := some ⟨code, r, data⟩ } }

/-- The state with one port record changed. -/
def State.withPort (s : State) (p : Port) (g : PortRec → PortRec) : State :=
  { s with ports := s.ports.set p (g (s.ports.get p)) }

/-- The state with one feed record changed. -/
def State.withFeed (s : State) (f : Feed) (g : FeedRec → FeedRec) : State :=
  { s with feeds := s.feeds.set f (g (s.feeds.get f)) }

/-- The state with the system link changed. -/
def State.withLink (s : State) (g : Link → Link) : State := { s with link := g s.link }

/-- The length of a request's parameters, for the requests whose length is checked before their own rule (R193, R195). -/
def requestLength (code : Byte) : Option Nat :=
  match code.toNat with
  | 0x88 | 0x89 | 0x98 | 0x99 => some 2
  | 0x8A | 0x8B | 0x90 | 0x91 | 0x94 | 0x9B | 0x9C => some 0
  | 0x95 | 0x96 | 0x9A => some 1
  | 0x9D => some 29
  | _ => none

/-- The commands of a full reset (R216). -/
def isReset : Instr → Bool
  | .powerUp | .resetInput | .supplyDip | .fullResetEnd _ => true
  | _ => false

/-- The receive buffer is emptied and mark armed cleared, the request held: how a request is taken (R193, R204). -/
def State.holding (s : State) (code : Byte) : State :=
  s.withLink (fun l => { l with rxBuffer := [], held := some code, markArmed := false })

/-- Line `n` of an AMEND's content in the 9-byte form of R22, decoded with the kind of the received line (R13, R184). -/
def amendedLine (k : LineKind) (content : List Byte) (n : Nat) : Line :=
  let b (j : Nat) : Byte := content.getD (9 * n + j) 0
  decodeLine (flagsOfKind k (b 0)) (b 1) (b 2) (b 3) (b 4) (b 5) (b 6) (b 7) (b 8)

/-! ## What the close of an event leaves alone -/

/-- The parts of the state that neither the transition controller nor the re-admission pass writes. -/
structure Rest where
  tables : Tables
  watches : List WatchSlot
  sense : Sense
  traps : TrapUnit
  link : Link
  factory : Factory
  time : Time
  cause : BitVec 4
  resetting : Option ResetCauses
  pending : List Instr
deriving DecidableEq, Repr

/-- Those parts of a state, its notice flags set aside. -/
def State.rest (s : State) : Rest :=
  ⟨s.tables, s.watches, s.sense, s.traps, { s.link with notices := 0 }, s.factory, s.time, s.cause, s.resetting, s.pending⟩

/-- The parts of a port record that neither of them writes. -/
structure PortRest where
  partner : Option Partner
  sheet : List Line
  contract : Option Contract
  relay : Option RelayFrame
  detachCount : Nat
  presence : Bool
  detachRaised : Bool
  tx : Option TxFrame
  rxBusy : Bool
deriving DecidableEq, Repr

def PortRec.rest (r : PortRec) : PortRest :=
  ⟨r.partner, r.sheet, r.contract, r.relay, r.detachCount, r.presence, r.detachRaised, r.tx, r.rxBusy⟩

/-! ## Trims and the protective reaction -/

/-- The trimmed current that R118 gives a feed under an effective ceiling, if it trims the feed. -/
def State.ceilingTrim (s : State) (ceiling : Nat) (f : Feed) : Option Nat :=
  if ceiling < s.committedTotal ∧ (s.feed f).powered = true then
    some (min (s.feed f).output
      (ceiling * s.committed f * 1000 / (s.committedTotal * (s.feed f).trimVoltage) / 10 * 10))
  else none

/-- The current that R119 lowers a feed's output to under an effective feed limit, if it acts. -/
def State.derateTrim (s : State) (limit : Nat) (f : Feed) : Option Nat :=
  if (s.feed f).powered = true ∧ limit < s.committed f then
    some (min (s.feed f).output (limit * 1000 / (s.feed f).trimVoltage / 10 * 10))
  else none

/-- The state with the derate levels and shed flags that a watch table gives (R168, R169). -/
def State.withLevels (s : State) (ws : List WatchSlot) : State :=
  (s.withFeed .F0 (fun r => { r with derate := derateLevel ws .F0, shed := shedFlag ws .F0 })).withFeed .F1
    (fun r => { r with derate := derateLevel ws .F1, shed := shedFlag ws .F1 })

/-- What R43 makes of a contract `c` of port `p`, its cable ceiling `cable`, on the delivery of a sheet. -/
def State.reactsTo (s : State) (p : Port) (c : Contract) (cable : Nat) (sheet : List Line) (w : Ev) : Prop :=
  w.trig = true ∧ (w.port p).sheet = sheet ∧ w.link.noticeSet .sheetChanged = true
    ∧ w.link.noticeSet .contractChanged = true
    ∧ match carryingLine c.voltage 1 sheet with
      | some (j, l) =>
        let i := min (min (min l.current cable) s.factoryValues.portCurrent) c.current
        (w.port p).state = .claiming ∧ (w.port p).repeatCount = 0
          ∧ (w.port p).contract = some { c with
              line := j, current := i, power := if i < c.current then c.voltage * i / 1000 else c.power }
          ∧ (w.port p).claim = some ⟨j, c.voltage, i, .protective, true, s.tables.timing.repeatLimit, none⟩
          ∧ ((s.port p).restartOwed = false → OutFrame.claim j c.voltage i ∈ (w.port p).order)
          ∧ (s.closedOn p = true → (s.feed (feedOf p)).state = .contract → (s.feed (feedOf p)).view.isSome = true →
              (w.feed (feedOf p)).output ≤ i)
      | none =>
        (w.port p).state = .held ∧ (w.port p).contract = none ∧ (w.port p).claim = none
          ∧ (s.closedOn p = true → (s.feed (feedOf p)).state = .contract →
              (w.feed (feedOf p)).state = .base ∧ (w.feed (feedOf p)).view = none ∧ (w.feed (feedOf p)).output ≤ 900)

/-! ## Invariants -/

/-- The output of a feed is at most its target, and the target at most what R134 allows. -/
def FeedRec.limitHolds (trim : Option Nat) (r : FeedRec) : Bool := r.output ≤ r.target && r.target ≤ limitTarget r trim

/-- What a trim to `i` makes of a feed record `r` with the trim value `t` (R118 to R120): the record and the trim value
after it. With no trim both stand; with one, target, output and ramp alone change, and an output within R134 comes to `i`. -/
def FeedRec.trimmed (r : FeedRec) (t i : Option Nat) (after : FeedRec) (value : Option Nat) : Prop :=
  match i with
  | none => after = r ∧ value = t
  | some n =>
    value = some n ∧ after = { r with target := after.target, output := after.output, ramp := after.ramp }
      ∧ after.output ≤ n ∧ (r.limitHolds t = true → after.output = n ∧ after.target = n ∧ after.ramp = .stopped)

/-- An event trims each feed of a state to the current given for it, and changes the controller no further. -/
def State.trimsTo (s : State) (i : Feed → Option Nat) (after : State) : Prop :=
  (∀ f, (s.feed f).trimmed (s.control.trim.get f) (i f) (after.feed f) (after.control.trim.get f))
    ∧ after.control = { s.control with trim := after.control.trim }

/-- Both feeds' limit outputs are within R134. -/
def State.limitsHold (s : State) : Bool :=
  (s.feed .F0).limitHolds s.control.trim.f0 && (s.feed .F1).limitHolds s.control.trim.f1

/-- The grant list holds at most one entry for a port (R144), and the sum of its currents is within the pool (R152). -/
def Outlet.withinPool (o : Outlet) : Bool :=
  decide (o.grants.map (·.port)).Nodup && sumCurrents o.grants ≤ o.pool

/-- The trap queue is within its capacities (R179), and its tags are unique (R178). -/
def TrapUnit.bounded (t : TrapUnit) : Bool :=
  t.queue.length ≤ Config.trapCapacity && allPorts.all (fun p => (t.queue.filter (·.port == p)).length ≤ Config.trapPerPort)
    && decide (t.queue.map (·.tag)).Nodup

/-- A held request has its RESULT pending (R193), at most four codes are owed BUSY and none without a held request (R194),
a RESULT on the wire is the pending one, and the liveness timer is stopped when unattended (R206). -/
def Link.consistent (l : Link) : Bool :=
  l.held.isSome == l.pendingResult.isSome && l.owed.length ≤ Config.owedCapacity && (l.owed.isEmpty || l.held.isSome)
    && (l.tx != some .result || l.pendingResult.isSome) && (l.mode == .attended || l.liveness == .stopped)

/-- Every stored field with a ceiling is within it (R62). -/
def Tables.within (c : FactoryContent) (t : Tables) : Bool := t.under c == t

/-- At most eight samples of a quantity are held, each within its range (R157, R158). -/
def samplesWithin (top : Nat) (xs : List Nat) : Bool := xs.length ≤ 8 && xs.all (· ≤ top)

def Sense.within (x : Sense) : Bool :=
  samplesWithin Config.topFeedVoltage x.feedV.f0 && samplesWithin Config.topFeedVoltage x.feedV.f1
    && samplesWithin Config.topFeedCurrent x.feedI.f0 && samplesWithin Config.topFeedCurrent x.feedI.f1
    && samplesWithin Config.topOutletCurrent x.outletI.a && samplesWithin Config.topOutletCurrent x.outletI.b
    && samplesWithin Config.topOutletCurrent x.outletI.c && samplesWithin Config.topOutletCurrent x.outletI.d
    && samplesWithin Config.topThermal x.thermal

/-- The tables have their sizes (R60, R65, R160). -/
def State.sized (s : State) : Bool := s.tables.policy.length == 24 && s.watches.length == 8

end Sys2Proof.Machine
end

