-- ==== Sys2Proof/Certificates/Slice0/Obligations.lean ====
section
/-! DEFINITION. The statements for the provers. A statement about an event that raises a trigger or ends a plan step says what
the event does before the controller acts on it at the event's close (`closeEvent`, R101, R102, R153); what the close may
change is a statement of its own. -/
open Sys2Proof Sys2Proof.Machine

/-! ## The machine -/

/-- 10_system_link_and_management.md and 95: a step takes the front command and runs it on the queue's rest; on an empty
queue the block idles (the model's choice: log 1). -/
def Obligations.StepTakesTheFrontCommand : Prop :=
  (∀ (s : State) (c : Instr) (rest : List Instr),
      step (s.withPending (c :: rest)) = exec c (s.withPending rest))
    ∧ ∀ s : State, s.pending = [] → step s = .next s

/-- Every command answers a next state, in every state: the spec gives each row an effect (00, 95). While a full reset
lasts, none but those of the reset changes anything (R216, with the model's choice of log 5). -/
def Obligations.CommandsCompleteAndAwaitAFullReset : Prop :=
  ∀ (c : Instr) (s : State),
    (∃ t, exec c s = .next t) ∧ (s.running = false → isReset c = false → exec c s = .next s)

/-- R101, R102, R153: the close of an event leaves the tables, watches, samples, traps, the link but for notices, the
factory record, the time base and, of every port, partner, sheet, contract, relay slot, presence and line alone; a notice
that is set stays set. -/
def Obligations.CloseOfEventFrame : Prop :=
  ∀ w : Ev,
    (closeEvent w).rest = w.toState.rest
      ∧ (∀ n, w.link.noticeSet n = true → (closeEvent w).link.noticeSet n = true)
      ∧ (∀ p, ((closeEvent w).port p).rest = (w.port p).rest)
      ∧ (∀ f, ((closeEvent w).feed f).derate = (w.feed f).derate ∧ ((closeEvent w).feed f).shed = (w.feed f).shed
          ∧ ((closeEvent w).feed f).faultReason = (w.feed f).faultReason
          ∧ ((closeEvent w).feed f).faultPort = (w.feed f).faultPort
          ∧ ((closeEvent w).feed f).faultTime = (w.feed f).faultTime)

/-! ## Frames and requests on the wires -/

/-- R4, R6 to R8, R21, R195: the levels of a frame on a wire, its sync pattern first, carry its bytes from the kind byte on;
the bytes of every well-formed frame command decode to that command on its port, and the bytes of every well-formed request
to that request, and so do their levels. -/
def Obligations.FramesDecodeToTheirCommands : Prop :=
  (∀ raw : List Byte, rawOfLevels (frameLevels raw) = some raw)
    ∧ (∀ (i : Instr) (p : Port) (raw : List Byte),
      i.wellFormed = true → i.chargeFrame = some (p, raw) →
        decodeChargeFrame p raw = i ∧ decodeChargeLevels p (frameLevels raw) = i)
    ∧ ∀ (i : Instr) (raw : List Byte), i.wellFormed = true → i.systemFrame = some raw →
        decodeSystemFrame raw = i ∧ decodeSystemLevels (frameLevels raw) = i

/-- R60 to R62, R65, R66, R70, R73, R75, R160, R161, R195, R196: what READ ENTRY returns for a stored entry or record is stored
exactly, unclamped, when it is loaded again under the same ceilings. An accepted load stores each field as its bytes and codes
give it, brought into its range and then under its ceiling, and tells of a clamp exactly where a field changed. The port set's
bits are kept as received; which bit is which port is the model's choice (log 45). -/
def Obligations.EntriesReadBackAsLoaded : Prop :=
  (∀ c : FactoryContent, c.maxVoltage % 20 = 0 → c.portCurrent % 10 = 0 → c.outletCeiling % 10 = 0 →
      (∀ bs e b, loadedPolicy c bs = .stored e b → loadedPolicy c (policyBytes e) = .stored e false)
        ∧ (∀ bs e b, loadedPort c bs = .stored e b → loadedPort c (portBytes e) = .stored e false)
        ∧ (∀ bs e b, loadedWatch bs = .stored e b → loadedWatch (watchBytes e) = .stored e false)
        ∧ (∀ bs r b, loadedBudget c bs = .stored r b → loadedBudget c (budgetBytes r) = .stored r false)
        ∧ (∀ bs t b, loadedTiming bs = .stored t b → loadedTiming (timingBytes t) = .stored t false))
    ∧ ∀ (c : FactoryContent) (bs : List Byte) (b : Bool),
      let at_ (start size : Nat) : Nat := field bs start size
      let into (lo hi v : Nat) : Nat := min (max v lo) hi
      (∀ e, loadedPolicy c bs = .stored e b →
          e = { e with
            valid := at_ 0 1 == 1, ports := BitVec.ofNat 4 (at_ 2 1)
            anyPort := (at_ 1 1).testBit 0, anyClass := (at_ 1 1).testBit 1
            anyKind := (at_ 1 1).testBit 2, anyVoltage := (at_ 1 1).testBit 3
            vLow := min (into 5000 28000 (at_ 5 2 * 20)) c.maxVoltage
            vHigh := min (into 5000 28000 (at_ 7 2 * 20)) c.maxVoltage
            weight := into 1 15 (at_ 10 1)
            ideal := min (into 5000 28000 (at_ 11 2 * 20)) c.maxVoltage
            cost := into 0 4095 (at_ 13 2)
            cap := min (into 0 6000 (at_ 15 2 * 10)) c.portCurrent }
          ∧ [PartnerClass.adapter, .dock, .accessory, .unknown][at_ 3 1]? = some e.cls
          ∧ [LineKind.fixed, .window][at_ 4 1]? = some e.kind ∧ [PolicyAction.use, .exclude][at_ 9 1]? = some e.action
          ∧ (b = true ↔ e.vLow ≠ at_ 5 2 * 20 ∨ e.vHigh ≠ at_ 7 2 * 20 ∨ e.weight ≠ at_ 10 1 ∨ e.ideal ≠ at_ 11 2 * 20
              ∨ e.cost ≠ at_ 13 2 ∨ e.cap ≠ at_ 15 2 * 10))
        ∧ (∀ e, loadedPort c bs = .stored e b →
          e = { e with
            enabled := at_ 0 1 == 1
            outletCap := min (into 0 3000 (at_ 2 2 * 10)) c.outletCeiling
            openRange := if at_ 7 1 = 1 then .copy else .drop
            feedLimit := min (into 4500 150000 (at_ 9 4)) c.feedPower
            rampStep := into 10 1000 (at_ 13 2 * 10)
            margin := into 1 8 (at_ 15 1) }
          ∧ [RolesPermitted.noRole, .intake, .outlet, .both][at_ 1 1]? = some e.roles
          ∧ [TrapMode.pass, .copy, .hold][at_ 4 1]? = some e.trapAnnounce
          ∧ [TrapMode.pass, .copy, .hold][at_ 5 1]? = some e.trapSheet
          ∧ [TrapMode.pass, .copy, .hold][at_ 6 1]? = some e.trapDraw
          ∧ [DefaultVerdict.allow, .deny][at_ 8 1]? = some e.verdict
          ∧ (b = true ↔ e.outletCap ≠ at_ 2 2 * 10 ∨ e.feedLimit ≠ at_ 9 4 ∨ e.rampStep ≠ at_ 13 2 * 10 ∨ e.margin ≠ at_ 15 1))
        ∧ (∀ e, loadedWatch bs = .stored e b →
          let top := [31000, 8000, 31000, 8000, 496000, 16000, 4095].getD (at_ 1 1) 0
          e = { e with
            valid := at_ 0 1 == 1, threshold := into 0 top (at_ 3 4), margin := into 0 top (at_ 7 4)
            hold := into 0 1000 (at_ 11 2), step := into 1 15 (at_ 15 1) }
          ∧ [Quantity.feed0V, .feed0I, .feed1V, .feed1I, .intakeP, .outletI, .thermal][at_ 1 1]? = some e.quantity
          ∧ [Direction.above, .below][at_ 2 1]? = some e.direction
          ∧ [WatchAction.notice, .derate, .shed][at_ 13 1]? = some e.action
          ∧ [FeedSelector.feed0, .feed1, .both][at_ 14 1]? = some e.selector
          ∧ (b = true ↔ e.threshold ≠ at_ 3 4 ∨ e.margin ≠ at_ 7 4 ∨ e.hold ≠ at_ 11 2 ∨ e.step ≠ at_ 15 1))
        ∧ (∀ r, loadedBudget c bs = .stored r b →
          r = ⟨min (into 9000 250000 (at_ 0 4)) c.systemCeiling, into 0 20000 (at_ 4 2), into 0 20000 (at_ 6 2),
            into 0 6000 (at_ 8 2 * 10), into 0 6000 (at_ 10 2 * 10)⟩
          ∧ (b = true ↔ r ≠ ⟨at_ 0 4, at_ 4 2, at_ 6 2, at_ 8 2 * 10, at_ 10 2 * 10⟩))
        ∧ (∀ t, loadedTiming bs = .stored t b →
          t = { debounce := into 5 100 (at_ 0 2), greeting := into 100 2000 (at_ 2 2), answer := into 10 200 (at_ 4 2)
                settle := into 100 1000 (at_ 6 2), checkWindow := into 5 100 (at_ 8 2), deferral := into 20 1000 (at_ 10 2)
                holdOff := into 50 1000 (at_ 12 2), gap := into 10 200 (at_ 14 2), ramp := into 1 50 (at_ 16 2)
                overdraw := into 5 200 (at_ 18 2), trap := into 10 500 (at_ 20 2), liveness := into 100 60000 (at_ 22 2)
                repeatLimit := into 0 3 (at_ 24 1) }
          ∧ (b = true ↔ t ≠ { debounce := at_ 0 2, greeting := at_ 2 2, answer := at_ 4 2, settle := at_ 6 2
                              checkWindow := at_ 8 2, deferral := at_ 10 2, holdOff := at_ 12 2, gap := at_ 14 2
                              ramp := at_ 16 2, overdraw := at_ 18 2, trap := at_ 20 2, liveness := at_ 22 2
                              repeatLimit := at_ 24 1 }))

/-- R4, R8, R21: a charge-link frame that is dropped or truncated leaves nothing but an idle line, a request frame nothing
but an empty receive buffer. -/
def Obligations.DroppedFramesHaveNoEffect : Prop :=
  ∀ (p : Port) (raw : List Byte) (s : State), s.running = true →
    exec (.frameTruncated p) s = .next (s.withPort p (fun r => { r with rxBusy := false }))
      ∧ ((s.port p).drops raw = true →
          exec (.frameDropped p raw) s = .next (s.withPort p (fun r => { r with rxBusy := false })))
      ∧ exec .sysFrameTruncated s = .next (s.withLink (fun l => { l with rxBuffer := [] }))
      ∧ (systemDrops raw = true →
          exec (.sysFrameDropped raw) s = .next (s.withLink (fun l => { l with rxBuffer := [] })))

/-! ## Taking requests -/

/-- R194: a request that completes while one is held joins the end of the owed BUSY list, or is lost when that holds four
codes, and changes nothing else; when the held request's RESULT has been sent, the oldest owed code becomes the held
request, with a RESULT of BUSY and no data. -/
def Obligations.OwedCodesAreAnsweredInTheirOrder : Prop :=
  ∀ s : State, s.running = true →
    (∀ (i : Instr) (code : Byte) (params : List Byte),
        i.request = some (code, params) → i.wellFormed = true → s.link.held.isSome = true →
        exec i s = .next (s.withLink (fun l =>
          { l with rxBuffer := [], owed := if l.owed.length < 4 then l.owed ++ [code] else l.owed })))
      ∧ (∀ code : Byte, requestRange code = true → s.link.held.isSome = true →
        exec (.requestOwedBusy code) s = .next (s.withLink (fun l =>
          { l with rxBuffer := [], owed := if l.owed.length < 4 then l.owed ++ [code] else l.owed })))
      ∧ (s.link.tx = some .result →
        exec .resultSent s = .next (s.withLink (fun l =>
          match l.owed with
          | [] => { l with tx := none, held := none, pendingResult := none }
          | c :: rest => { l with tx := none, held := some c, pendingResult := some ⟨c, .busy, []⟩, owed := rest })))

/-- R193: parameters of another length than the request's (the loads, VERDICT and RELAY aside, whose rules decide their
own forms), and a code that names no request, are answered BAD_FORM, with no other effect. -/
def Obligations.IllFormedRequestsAreBadForm : Prop :=
  (∀ (i : Instr) (code : Byte) (params : List Byte) (n : Nat) (s : State),
      i.request = some (code, params) → i.wellFormed = true → requestLength code = some n → params.length ≠ n →
      s.takes = true → exec i s = .next (s.answered code .badForm []))
    ∧ ∀ (code : Byte) (params : List Byte) (s : State), (Instr.unknownRequest code params).wellFormed = true →
      s.takes = true → exec (.unknownRequest code params) s = .next (s.answered code .badForm [])

/-- R77, R213: under the policy lock the loads but LOAD TIMING, POLICY RESTART and BURN FACTORY are answered LOCKED,
and during a burn every request other than READ STATE is answered BUSY; neither has any other effect. READ STATE is acted
on during a burn; what it sees of its own request is the model's reading: log 32. -/
def Obligations.LockAndBurnRefuseRequests : Prop :=
  (∀ (params : List Byte) (s : State), s.takes = true → s.tables.lock = true → params.length ≤ 128 →
     exec (.loadPolicy params) s = .next (s.answered 0x80#8 .locked [])
       ∧ exec (.loadPort params) s = .next (s.answered 0x81#8 .locked [])
       ∧ exec (.loadWatch params) s = .next (s.answered 0x82#8 .locked [])
       ∧ exec (.loadBudget params) s = .next (s.answered 0x83#8 .locked [])
       ∧ exec (.policyRestart []) s = .next (s.answered 0x9C#8 .locked [])
       ∧ (params.length = 29 → exec (.burnFactory params) s = .next (s.answered 0x9D#8 .locked [])))
    ∧ (∀ (i : Instr) (code : Byte) (params : List Byte) (s : State),
         i.request = some (code, params) → i.wellFormed = true → s.running = true → s.link.held = none →
         s.factory.burn.isSome = true → code ≠ 0x89#8 → exec i s = .next (s.answered code .busy []))
    ∧ ∀ (a b : Byte) (s : State), s.running = true → s.link.held = none → s.factory.burn.isSome = true →
         exec (.readState [a, b]) s = .next (s.answered 0x89#8 (readSection (s.holding 0x89#8) a.toNat b.toNat).1
           (readSection (s.holding 0x89#8) a.toNat b.toNat).2)

/-- R196, R197, R215, R217: the reads answer from the state at the event and change nothing but the link; which
structures, sections, indices and items they answer, and which they refuse. READ ENTRY returns the bytes of the stored entry
or record (laid out as EntriesReadBackAsLoaded says). The snapshot is read as in log 32, and unstated codings are a free value
(log 11). -/
def Obligations.ReadsAnswerTheStateAtTheEvent : Prop :=
  (∀ (a b : Byte) (s : State), s.takes = true →
     exec (.readEntry [a, b]) s = .next (s.answered 0x88#8 (readStored s a.toNat b.toNat).1 (readStored s a.toNat b.toNat).2)
       ∧ exec (.readState [a, b]) s = .next (s.answered 0x89#8 (readSection (s.holding 0x89#8) a.toNat b.toNat).1
           (readSection (s.holding 0x89#8) a.toNat b.toNat).2)
       ∧ exec (.readFactory []) s = .next (s.answered 0x8A#8 .done
         [.num 1 (recordStateCode s.factory.record), .raw (valueBytes s.factoryValues),
           .num 1 (if s.factory.record = .written then s.factoryValues.revision else 0),
           .num 4 (if s.factory.record = .written then s.factoryValues.serial else 0)])
       ∧ exec (.readCause []) s = .next (s.answered 0x8B#8 .done [.num 1 s.cause.toNat]))
    ∧ (∀ (s : State) (a b : Nat), s.sized = true →
         ((readStored s a b).1 =
             if 4 < a then .badForm
             else if (a = 0 ∧ 23 < b) ∨ (a = 1 ∧ 3 < b) ∨ (a = 2 ∧ 7 < b) then .badIndex else .done)
           ∧ ((readSection s a b).1 =
             if 8 < a then .badForm
             else if ((a = 1 ∨ a = 2) ∧ 3 < b) ∨ (a = 3 ∧ 1 < b) ∨ ((a = 5 ∨ a = 8) ∧ 7 < b) then .badIndex else .done)
           ∧ ((readStored s a b).1 ≠ .done → (readStored s a b).2 = [])
           ∧ (∀ e, s.tables.policy[b]? = some e → readStored s 0 b = (.done, [.raw (policyBytes e)]))
           ∧ (∀ p, portOfCode b = some p → readStored s 1 b = (.done, [.raw (portBytes (s.tables.port.get p))]))
           ∧ (∀ x, s.watches[b]? = some x → readStored s 2 b = (.done, [.raw (watchBytes x.entry)]))
           ∧ readStored s 3 b = (.done, [.raw (budgetBytes s.tables.budget)])
           ∧ readStored s 4 b = (.done, [.raw (timingBytes s.tables.timing)]))

/-! ## Notices, mask, cause, lock -/

/-- R201, R202: CLEAR NOTICES clears exactly the named flags and answers with the flags left; SET MASK replaces the
mask whole; a bit above 11 is BAD_FORM and changes nothing. Outside a reset the alert line is asserted exactly while a
set flag is marked in the mask; after a full reset RESTARTED alone is set, the mask is empty and the line released. -/
def Obligations.ClearNoticesAndSetMask : Prop :=
  (∀ (a b : Byte) (s : State), s.takes = true →
     ∃ t, exec (.clearNotices [a, b]) s = .next t
       ∧ t = (if 4096 ≤ a.toNat * 256 + b.toNat then s.answered 0x98#8 .badForm []
        else
          let left := s.link.notices &&& ~~~(BitVec.ofNat 12 (a.toNat * 256 + b.toNat))
          (s.answered 0x98#8 .done [.num 2 left.toNat]).withLink (fun l => { l with notices := left }))
       ∧ (t.alertAsserted = true ↔
           ∃ n : Notice, t.link.noticeSet n = true ∧ t.link.mask.getLsbD (noticeBit n) = true))
    ∧ ((∀ (a b : Byte) (s : State), s.takes = true →
           exec (.setMask [a, b]) s = .next
             (if 4096 ≤ a.toNat * 256 + b.toNat then s.answered 0x99#8 .badForm []
              else (s.answered 0x99#8 .done []).withLink (fun l => { l with mask := BitVec.ofNat 12 (a.toNat * 256 + b.toNat) })))
         ∧ ∀ s : State, s.running = true →
           (s.alertAsserted = true ↔
             ∃ n : Notice, s.link.noticeSet n = true ∧ s.link.mask.getLsbD (noticeBit n) = true)
         ∧ ∀ (lost : Bool) (s : State), s.resetting.isSome = true →
           ∃ t, exec (.fullResetEnd lost) s = .next t ∧ t.alertAsserted = false ∧ t.link.mask = 0
             ∧ ∀ n : Notice, t.link.noticeSet n = true ↔ n = .restarted)

/-- R217, R77: CLEAR CAUSE clears the named cause flags, and none when a bit above 3 is named; LOCK POLICY sets the lock,
set or clear. Neither changes anything else. -/
def Obligations.ClearCauseAndLockPolicyDoNoMore : Prop :=
  ∀ (a : Byte) (s : State), s.takes = true →
    exec (.clearCause [a]) s = .next
        (if 15 < a.toNat then s.answered 0x9A#8 .badForm []
         else { s.answered 0x9A#8 .done [] with cause := s.cause &&& ~~~(BitVec.ofNat 4 a.toNat) })
      ∧ exec (.lockPolicy []) s = .next { s.answered 0x9B#8 .done [] with tables := { s.tables with lock := true } }

/-! ## The transmit wire -/

/-- R181, R182: an idle transmit wire takes the pending RESULT first, else the FORWARD of the oldest QUEUED entry, as the
entry stands then; the entry is marked as on the wire (the model's mark: log 22) and nothing else changes. Once sent, the
marked entry is removed where it is a COPY entry and becomes SENT where it is a HOLD entry, every other entry stands, and
an entry removed meanwhile leaves nothing to change. -/
def Obligations.ForwardsFollowTheResult : Prop :=
  ∀ s : State, s.running = true →
    (s.link.tx = none → s.link.pendingResult.isSome = true →
        exec .sysTxStart s = .next (s.withLink (fun l => { l with tx := some .result })))
      ∧ (∀ (older newer : List TrapEntry) (e : TrapEntry), s.link.tx = none → s.link.pendingResult = none →
          s.traps.queue = older ++ e :: newer → e.state = .queued → (∀ x ∈ older, x.state = .sent) →
        exec .sysTxStart s = .next { s.withLink (fun l => { l with tx := some (.forward e) }) with
          traps := ⟨older ++ { e with onWire := true } :: newer, s.traps.nextTag⟩ })
      ∧ (∀ (older newer : List TrapEntry) (f e : TrapEntry), s.link.tx = some (.forward f) →
          s.traps.queue = older ++ e :: newer → e.tag = f.tag → e.onWire = true → (∀ x ∈ older ++ newer, x.onWire = false) →
        exec .forwardSent s = .next { s.withLink (fun l => { l with tx := none }) with
          traps := ⟨if e.mode = .copy then older ++ newer
            else older ++ { e with state := .sent, onWire := false } :: newer, s.traps.nextTag⟩ })
      ∧ (∀ f, s.link.tx = some (.forward f) → (∀ x ∈ s.traps.queue, x.onWire = false) →
        exec .forwardSent s = .next (s.withLink (fun l => { l with tx := none })))

/-! ## Liveness -/

/-- R118, R204, R205, R207: LIVE MARK sets mark armed; LIVE CONFIRM without it is REFUSED; with it the timer is loaded afresh,
and an unattended part becomes attended, its feeds trimmed where the budget ceiling lies below the committed total, its
trigger raised. That they are compared also where the ceiling does not fall is the model's reading: log 23. -/
def Obligations.LiveConfirmNeedsTheMark : Prop :=
  ∀ s : State, s.takes = true →
    exec (.liveMark []) s = .next ((s.answered 0x90#8 .done []).withLink (fun l => { l with markArmed := true }))
      ∧ (s.link.markArmed = false → exec (.liveConfirm []) s = .next (s.answered 0x91#8 .refused []))
      ∧ (s.link.markArmed = true → s.link.mode = .attended →
          exec (.liveConfirm []) s =
            .next ((s.answered 0x91#8 .done []).withLink (fun l => { l with liveness := .armed })))
      ∧ (s.link.markArmed = true → s.link.mode = .unattended →
          ∃ w : Ev, exec (.liveConfirm []) s = .next (closeEvent w) ∧ w.trig = true
            ∧ w.link = { (s.answered 0x91#8 .done []).link with mode := .attended, liveness := .armed }
            ∧ w.ports = s.ports ∧ w.traps = s.traps ∧ w.tables = s.tables ∧ w.outlet = s.outlet
            ∧ s.trimsTo (s.ceilingTrim s.tables.budget.ceiling) w.toState)

/-- R118, R185, R186, R188, R206, R208: the liveness timer's expiry makes the part unattended, stops the timer, sets
LIVENESS_LOST, applies the default verdicts, empties the trap queue and, where the fallback ceiling lies below the committed
total then left, trims the feeds; it raises a trigger. The emptying of the queue takes the HOLD entries oldest first, each as
the expiry of its deadline takes it: removed, and its port's default verdict delivered by its kind; the COPY entries go without
effect. That the ceiling is compared also where it does not fall is the model's reading (log 23). -/
def Obligations.LivenessExpiryUnattends : Prop :=
  (∀ s : State, s.running = true → s.link.mode = .attended → s.link.liveness = .running 0 →
    ∃ w : Ev, exec .livenessTimerExpiry s = .next (closeEvent w) ∧ w.trig = true ∧ w.link.mode = .unattended
      ∧ w.link.liveness = .stopped ∧ w.link.noticeSet .livenessLost = true ∧ w.traps.queue = []
      ∧ w.traps.nextTag = s.traps.nextTag ∧ w.tables = s.tables ∧ w.time = s.time ∧ w.link.held = s.link.held
      ∧ (let v := flushTraps (Ev.start (s.withLink (fun l => { l with
          mode := .unattended, liveness := .stopped, notices := l.notices ||| noticeMask .livenessLost })))
        v.toState.trimsTo (v.ceilingTrim s.factoryValues.fallbackCeiling) w.toState
          ∧ w.ports = v.ports ∧ w.outlet = v.outlet
          ∧ ((∀ e ∈ s.traps.queue, e.mode = .copy) → v.ports = s.ports ∧ v.feeds = s.feeds ∧ v.control = s.control)))
    ∧ (∀ w : Ev,
      ((∀ e ∈ w.traps.queue, e.mode = .copy) → flushTraps w = { w with traps := { w.traps with queue := [] } })
        ∧ (∀ (older newer : List TrapEntry) (e : TrapEntry), w.traps.queue = older ++ e :: newer →
            (∀ x ∈ older, x.mode = .copy) → e.mode = .hold → (w.traps.queue.map (·.tag)).Nodup →
          flushTraps w = flushTraps (applyDefault w e) ∧ (applyDefault w e).traps.queue = older ++ newer)
        ∧ ∀ e : TrapEntry,
          let v : Ev := { w with traps := { w.traps with queue := w.traps.queue.filter (·.tag != e.tag) } }
          let allow : Bool := (w.tables.port.get e.port).verdict == .allow
          applyDefault w e = match e.kind with
            | .announce => deliverAnnounce e.port (decodeAnnounce e.payload) (if allow then .allow else .deny) v
            | .offers | .resheet =>
              if allow && e.early then v else deliverSheet e.port (if allow then decodeSheet e.payload else []) v
            | .draw => if allow then deliverDraw e.port (decodeDraw e.payload) v else denyDraw e.port v
            | .openRange _ => v)
    ∧ ∀ (s : State) (e : TrapEntry), s.running = true → s.traps.dueEntry = some e →
      exec .trapDeadlineExpiry s = .next (closeEvent (applyDefault (Ev.start s) e))

/-! ## Verdicts, relays and commands -/

/-- R183, R184: a verdict by its checks in their order; one that is applied, of any kind, removes its entry and is
answered DONE, or DONE_CLAMPED where the amendment was clamped. An amendment has the form of the held kind; each amended
value is what R184 takes for it, none above the received one, and it is clamped exactly where the content asked for more,
compared as decoded. -/
def Obligations.VerdictsAreDecidedByTheirChecks : Prop :=
  (∀ (params : List Byte) (s : State), s.takes = true → params.length < 2 →
      exec (.verdict params) s = .next (s.answered 0x92#8 .badForm []))
    ∧ (∀ (tag d : Byte) (content : List Byte) (s : State), s.takes = true → content.length ≤ 126 →
     (2 < d.toNat → exec (.verdict (tag :: d :: content)) s = .next (s.answered 0x92#8 .badForm []))
       ∧ (d.toNat ≤ 2 → (∀ e ∈ s.traps.queue, e.tag = tag → e.mode = .copy) →
           exec (.verdict (tag :: d :: content)) s = .next (s.answered 0x92#8 .stale []))
       ∧ (∀ e, s.traps.heldTag tag = some e → d.toNat = 2 → amendDecision e content = none →
           exec (.verdict (tag :: d :: content)) s = .next (s.answered 0x92#8 .badForm []))
       ∧ (∀ e x, s.traps.heldTag tag = some e →
           x = (if d.toNat = 0 then some (Decision.allow, false) else if d.toNat = 1 then some (Decision.deny, false)
             else if d.toNat = 2 then amendDecision e content else none) → x.isSome = true →
           ∃ w : Ev, exec (.verdict (tag :: d :: content)) s = .next (closeEvent w)
             ∧ w.link.pendingResult = some ⟨0x92#8, if x.any (·.2) then .doneClamped else .done, []⟩
             ∧ w.traps.queue = s.traps.queue.filter (·.tag != tag)
             ∧ w.tables = s.tables ∧ w.watches = s.watches ∧ w.factory = s.factory))
    ∧ (∀ (e : TrapEntry) (content : List Byte) (x : Decision) (clamped : Bool),
         amendDecision e content = some (x, clamped) →
         match x with
         | .amendAnnounce cls cable =>
             let asked := cableOfField (field content 1 2)
             e.kind = .announce ∧ content.length = 3 ∧ cls = classOfByte (content.headD 0)
               ∧ cable = min asked (decodeAnnounce e.payload).cable
               ∧ (clamped = true ↔ (decodeAnnounce e.payload).cable < asked)
         | .amendSheet ls =>
             (e.kind = .offers ∨ e.kind = .resheet) ∧ ls.length = (decodeSheet e.payload).length
               ∧ content.length = 9 * ls.length
               ∧ (∀ n r l, (decodeSheet e.payload)[n]? = some r → ls[n]? = some l →
                 let a := amendedLine r.kind content n
                 l.kind = r.kind ∧ l.pooled = r.pooled ∧ l.current = min a.current r.current
                   ∧ l.vLow = (if r.kind = .fixed then r.vLow else max a.vLow r.vLow)
                   ∧ l.vHigh = (if r.kind = .fixed then r.vHigh else min a.vHigh r.vHigh)
                   ∧ l.cap = (match r.cap with
                     | none => a.cap
                     | some c => some (capBy c a.cap)))
               ∧ (clamped = true ↔ ∃ n r, (decodeSheet e.payload)[n]? = some r
                 ∧ (let a := amendedLine r.kind content n
                    r.current < a.current ∨ (r.kind = .fixed ∧ (a.vLow ≠ r.vLow ∨ a.vHigh ≠ r.vHigh))
                      ∨ (r.kind = .window ∧ (a.vLow < r.vLow ∨ r.vHigh < a.vHigh))
                      ∨ ∃ c, r.cap = some c ∧ (a.cap = none ∨ ∃ d, a.cap = some d ∧ c < d)))
         | .amendDraw i => e.kind = .draw ∧ content.length = 2 ∧ i = min (decodeDraw content) (decodeDraw e.payload)
             ∧ (clamped = true ↔ decodeDraw e.payload < decodeDraw content)
         | .allow | .deny => False)

/-- R31, R43, R46, R183, R185, R186: ALLOW, DENY and AMEND of a held sheet, by verdict or by the deadline's default: the entry
is removed and the received sheet, an empty one or the amended one delivered in the port state of that moment; stored in HELD
and RELEASING with SHEET_CHANGED and a trigger, in CONTRACT reacted to. An ALLOW of a sheet that was stored early delivers
nothing further. Of several entries due, one command takes the oldest alone, the model's choice: log 26. -/
def Obligations.HeldSheetsAreDeliveredByTheirVerdict : Prop :=
  ∀ (d : Byte) (content : List Byte) (e : TrapEntry) (s : State), (e.kind = .offers ∨ e.kind = .resheet) →
    let left : TrapUnit := { s.traps with queue := s.traps.queue.filter (·.tag != e.tag) }
    (s.takes = true → content.length ≤ 126 → s.traps.heldTag e.tag = some e →
        let answered (clamped : Bool) : State := s.answered 0x92#8 (if clamped then .doneClamped else .done) []
        (∀ (clamped : Bool) (lines : List Line),
            (d = 0 ∧ e.early = false ∧ lines = decodeSheet e.payload ∧ clamped = false)
              ∨ (d = 1 ∧ lines = [] ∧ clamped = false)
              ∨ (d = 2 ∧ amendDecision e content = some (.amendSheet lines, clamped)) →
          ∃ w : Ev, exec (.verdict (e.tag :: d :: content)) s = .next (closeEvent w)
            ∧ w.link = { (answered clamped).link with notices := w.link.notices } ∧ w.traps = left
            ∧ (let v := deliverSheet e.port lines (Ev.start { s.holding 0x92#8 with traps := left })
              w.ports = v.ports ∧ w.feeds = v.feeds ∧ w.control = v.control ∧ w.outlet = v.outlet
                ∧ w.link.notices = v.link.notices ∧ w.trig = v.trig ∧ w.ended = v.ended)
            ∧ ((s.port e.port).state ∈ [.held, .releasing] →
              w.trig = true ∧ w.link.notices = s.link.notices ||| noticeMask .sheetChanged
                ∧ w.port e.port = { s.port e.port with sheet := lines }
                ∧ (∀ q, q ≠ e.port → w.port q = s.port q) ∧ w.feeds = s.feeds)
            ∧ (∀ c q, (s.port e.port).state = .contract → (s.port e.port).contract = some c →
                (s.port e.port).claim = none → (s.port e.port).partner = some q →
              s.reactsTo e.port c q.cable lines w))
          ∧ (d = 0 → e.early = true →
            exec (.verdict (e.tag :: d :: content)) s = .next { s.answered 0x92#8 .done [] with traps := left }))
      ∧ (s.running = true → s.traps.dueEntry = some e →
        (∀ lines : List Line,
            ((s.tables.port.get e.port).verdict = .allow ∧ e.early = false ∧ lines = decodeSheet e.payload)
              ∨ ((s.tables.port.get e.port).verdict = .deny ∧ lines = []) →
          exec .trapDeadlineExpiry s =
              .next (closeEvent (deliverSheet e.port lines (Ev.start { s with traps := left })))
            ∧ ((s.port e.port).state ∈ [.held, .releasing] →
              ∃ w : Ev, exec .trapDeadlineExpiry s = .next (closeEvent w) ∧ w.trig = true ∧ w.traps = left
                ∧ w.link = { s.link with notices := s.link.notices ||| noticeMask .sheetChanged }
                ∧ w.port e.port = { s.port e.port with sheet := lines }
                ∧ (∀ q, q ≠ e.port → w.port q = s.port q) ∧ w.feeds = s.feeds)
            ∧ (∀ c q, (s.port e.port).state = .contract → (s.port e.port).contract = some c →
                (s.port e.port).claim = none → (s.port e.port).partner = some q →
              ∃ w : Ev, exec .trapDeadlineExpiry s = .next (closeEvent w) ∧ w.traps = left
                ∧ s.reactsTo e.port c q.cable lines w))
          ∧ ((s.tables.port.get e.port).verdict = .allow → e.early = true →
            exec .trapDeadlineExpiry s = .next { s with traps := left }))

/-- R190, R191: RELAY by its five checks, in their order; the slot is started on an idle line with nothing waiting, in
the states that send it, and emptied when it has been sent. That a start that is not due changes nothing is the model's
choice: log 2. -/
def Obligations.RelaysWaitInTheirSlot : Prop :=
  (∀ (params : List Byte) (s : State), s.takes = true → params.length < 2 →
      exec (.relay params) s = .next (s.answered 0x93#8 .badForm []))
    ∧ ∀ (a kind : Byte) (payload : List Byte) (s : State), payload.length ≤ 126 →
    (s.takes = true → 3 < a.toNat → exec (.relay (a :: kind :: payload)) s = .next (s.answered 0x93#8 .badIndex []))
      ∧ (∀ p, s.takes = true → portOfCode a.toNat = some p →
          exec (.relay (a :: kind :: payload)) s = .next
            (if 64 < payload.length then s.answered 0x93#8 .badForm []
             else if kind.toNat < 0x40 ∨ 0x7F < kind.toNat
                 ∨ (s.port p).state ∈ [.detached, .debounce, .greeting, .recovery, .disabled] then
               s.answered 0x93#8 .refused []
             else if (s.port p).relay.isSome then s.answered 0x93#8 .busy []
             else (s.answered 0x93#8 .done []).withPort p (fun r => { r with relay := some ⟨kind, payload⟩ })))
      ∧ (∀ p f, s.running = true → (s.port p).relay = some f → (s.port p).order = [] → (s.port p).tx = none →
          (s.port p).rxBusy = false →
          exec (.relayFrameSend p) s = .next
            (if (s.port p).state ∈ [.awaitSheet, .held, .contract, .outletBase, .outletGranted, .parked] then
               s.withPort p (fun r => { r with tx := some (.relayed f true) })
             else s))
      ∧ (∀ p f, s.running = true → (s.port p).tx = some (.relayed f true) →
          exec (.frameSent p) s = .next (s.withPort p (fun r => { r with tx := none, relay := none })))

/-- R101, R102, R117, R121, R137, R153, R198: the close of an event is what the controller makes of it, and then the
re-admission pass where it is owed; an event that raises no trigger and ends no step leaves the controller nothing to do. The
bound on what one event can settle, and the order of controller and pass, are the model's (logs 10, 30). EVALUATE is answered DONE and raises one trigger. A trigger with no step in flight
runs the evaluation at once on the state as it stands: the plan held is replaced by the plan of the new target set. With a
step in flight it only sets re-evaluate-pending. A step that ended has its cap removed; then a trigger or
re-evaluate-pending runs an evaluation, else the next waiting step starts, else the plan ends with PLAN_DONE. At that end,
and at a plan of no steps, the trim values are removed exactly where both conditions of R121 hold. -/
def Obligations.TriggersRunOrWait : Prop :=
  (∀ s : State, s.takes = true →
      exec (.evaluate []) s = .next (closeEvent
        { toState := s.answered 0x94#8 .done [], trig := true, ended := none, readmit := false }))
    ∧ (∀ w : Ev, w.trig = true → w.ended = none →
      (∀ st, w.inFlight = some st → w.readmit = false →
          closeEvent w = { w.toState with control := { w.control with reeval := true } })
        ∧ (∀ st n, w.inFlight = some st →
          settleController (n + 1) w = { w with control := { w.control with reeval := true }, trig := false })
        ∧ (∀ n, w.inFlight = none → settleController (n + 1) w = settleController n (startPlan (replan w)))
        ∧ (replan w).control.targets = w.evaluate ∧ (replan w).control.plan = w.buildPlan w.evaluate
        ∧ (replan w).control.reeval = false ∧ (replan w).control.trim = w.control.trim
        ∧ (replan w).ports = w.ports ∧ (replan w).feeds = w.feeds ∧ (replan w).rest = w.rest)
    ∧ (∀ (w : Ev) (st : PlanStep), w.ended = some st →
      let v := setStepCap st.feed none { w with ended := none }
      (v.feed st.feed).stepCap = none
        ∧ ∀ n, settleController (n + 1) w = settleController n
          (if w.trig = true ∨ w.control.reeval = true then startPlan (replan v)
           else match w.control.nextStep with
             | some nx => startStep nx v
             | none => endPlan v))
    ∧ settleBound = 64
    ∧ ∀ w : Ev,
      closeEvent w = (if (settleController settleBound w).readmit = true then
          readmissionPass (settleController settleBound w) else settleController settleBound w).toState
        ∧ (∀ n, w.trig = false → w.ended = none → settleController (n + 1) w = w)
        ∧ (w.control.nextStep = none → startPlan w = liftTrims w)
        ∧ (∀ st, w.control.nextStep = some st → startPlan w = startStep st w)
        ∧ (endPlan w).link = { w.link with notices := w.link.notices ||| noticeMask .planDone }
        ∧ (endPlan w).control.trim = (liftTrims w).control.trim ∧ (endPlan w).feeds = (liftTrims w).feeds
        ∧ (w.committed .F0 + w.committed .F1 ≤ w.effectiveCeiling → w.committed .F0 ≤ w.control.effLimit.f0 →
            w.committed .F1 ≤ w.control.effLimit.f1 →
            (liftTrims w).control = { w.control with trim := ⟨none, none⟩ }
              ∧ (∀ f, ((liftTrims w).feed f).target = limitTarget (w.feed f) none) ∧ (liftTrims w).ports = w.ports)
        ∧ (w.effectiveCeiling < w.committed .F0 + w.committed .F1 ∨ w.control.effLimit.f0 < w.committed .F0
            ∨ w.control.effLimit.f1 < w.committed .F1 → liftTrims w = w)

/-- R57, R142, R198: PORT RESTART and CLEAR FAULT by their codes and the state they find. A restart that acts leaves the
port in RECOVERY with RESTART its only waiting frame, its records gone and a trigger raised, a step in flight on it failing
COMMANDED and its feed going to BASE with the switch left closed. The trigger of a restart decided in RECOVERY is the model's
reading: log 13. -/
def Obligations.PortRestartAndClearFaultByState : Prop :=
  (∀ (a : Byte) (s : State), s.takes = true →
     (3 < a.toNat → exec (.portRestart [a]) s = .next (s.answered 0x95#8 .badIndex []))
       ∧ (∀ p, portOfCode a.toNat = some p →
           ((s.port p).state ∈ [.detached, .debounce, .disabled] →
               exec (.portRestart [a]) s = .next (s.answered 0x95#8 .refused []))
             ∧ ((s.port p).state ∉ [.detached, .debounce, .disabled] →
               ∃ w : Ev, exec (.portRestart [a]) s = .next (closeEvent w) ∧ w.trig = true
                 ∧ (w.port p).state = .recovery ∧ (w.port p).order = [.restart]
                 ∧ w.link.pendingResult = some ⟨0x95#8, .done, []⟩
                 ∧ ((s.port p).state ≠ .recovery →
                     (w.port p).partner = none ∧ (w.port p).sheet = [] ∧ (w.port p).contract = none
                       ∧ (w.port p).claim = none ∧ (w.port p).parkReason = none ∧ (w.port p).timer = .stopped
                       ∧ w.outlet.hasEntry p = false
                       ∧ (s.outlet.hasEntry p = true → w.outlet.drives.get p = .opened)
                       ∧ ((s.port p).contract.isSome = true → w.link.noticeSet .contractChanged = true)
                       ∧ (s.closedOn p = true → w.closedOn p = true
                           ∧ (w.feed (feedOf p)).drive p = (s.feed (feedOf p)).drive p
                           ∧ ((s.port p).contract.isSome = true → (w.feed (feedOf p)).state = .base
                             ∧ ((s.feed (feedOf p)).state = .contract →
                               (w.feed (feedOf p)).view = none ∧ (w.feed (feedOf p)).output ≤ 900)))
                       ∧ (∀ st, s.inFlight = some st → s.exchangeOn p = true →
                           w.link.noticeSet .stepFailed = true ∧ (w.port p).lastFailure = .commanded
                             ∧ w.ended = some { st with status := .failed .commanded })))))
    ∧ (∀ (a : Byte) (s : State), s.takes = true →
         (1 < a.toNat → exec (.clearFault [a]) s = .next (s.answered 0x96#8 .badIndex []))
           ∧ (∀ f, feedOfCode a.toNat = some f →
               ((s.feed f).state ≠ .fault → exec (.clearFault [a]) s = .next (s.answered 0x96#8 .refused []))
                 ∧ ((s.feed f).state = .fault →
                   exec (.clearFault [a]) s = .next (closeEvent
                     { toState := (s.answered 0x96#8 .done []).withFeed f (fun r => { r with state := .idle })
                       trig := true, ended := none, readmit := false }))))

/-! ## Loads -/

/-- R61, R66, R70, R161, R195: a table load with no bytes or of a bad form is BAD_FORM, one with an index beyond its table
BAD_INDEX; neither has any other effect. LOAD BUDGET and LOAD TIMING have the form check alone. Of a bad form are: another
length; an enumerated field that names no member; a mark or a port beyond the fourth; V low above V high as received; a watch
whose release point, as received, lies outside its quantity's range. Every load of a good form is stored. -/
def Obligations.RefusedLoadsChangeNothing : Prop :=
  (∀ (i : Byte) (bs : List Byte) (s : State), s.takes = true → bs.length ≤ 127 →
    (s.tables.lock = false →
      (23 < i.toNat → exec (.loadPolicy (i :: bs)) s = .next (s.answered 0x80#8 .badIndex []))
        ∧ (3 < i.toNat → exec (.loadPort (i :: bs)) s = .next (s.answered 0x81#8 .badIndex []))
        ∧ (7 < i.toNat → exec (.loadWatch (i :: bs)) s = .next (s.answered 0x82#8 .badIndex []))
        ∧ (i.toNat ≤ 23 → parsePolicy bs = none → exec (.loadPolicy (i :: bs)) s = .next (s.answered 0x80#8 .badForm []))
        ∧ (i.toNat ≤ 3 → parsePort bs = none → exec (.loadPort (i :: bs)) s = .next (s.answered 0x81#8 .badForm []))
        ∧ (i.toNat ≤ 7 → parseWatch bs = none → exec (.loadWatch (i :: bs)) s = .next (s.answered 0x82#8 .badForm []))
        ∧ exec (.loadPolicy []) s = .next (s.answered 0x80#8 .badForm [])
        ∧ exec (.loadPort []) s = .next (s.answered 0x81#8 .badForm [])
        ∧ exec (.loadWatch []) s = .next (s.answered 0x82#8 .badForm [])
        ∧ (bs.length ≠ 12 → exec (.loadBudget bs) s = .next (s.answered 0x83#8 .badForm [])))
      ∧ (bs.length ≠ 25 → exec (.loadTiming bs) s = .next (s.answered 0x84#8 .badForm [])))
    ∧ ∀ (c : FactoryContent) (bs : List Byte),
      let code (start : Nat) : Nat := field bs start 1
      (parsePolicy bs = none ↔ bs.length ≠ 17 ∨ 1 < code 0 ∨ 15 < code 1 ∨ 15 < code 2 ∨ 3 < code 3 ∨ 1 < code 4
          ∨ field bs 7 2 < field bs 5 2 ∨ 1 < code 9)
        ∧ (parsePort bs = none ↔ bs.length ≠ 16 ∨ 1 < code 0 ∨ 3 < code 1 ∨ 2 < code 4 ∨ 2 < code 5 ∨ 2 < code 6
          ∨ (code 7 ≠ 1 ∧ code 7 ≠ 3) ∨ 1 < code 8)
        ∧ (parseWatch bs = none ↔ bs.length ≠ 16 ∨ 1 < code 0 ∨ 6 < code 1 ∨ 1 < code 2 ∨ 2 < code 13 ∨ 2 < code 14
          ∨ (let top := [31000, 8000, 31000, 8000, 496000, 16000, 4095].getD (code 1) 0
             (code 2 = 0 ∧ (field bs 3 4 < field bs 7 4 ∨ top < field bs 3 4 - field bs 7 4))
               ∨ (code 2 = 1 ∧ top < field bs 3 4 + field bs 7 4)))
        ∧ (loadedPolicy c bs = .badForm ↔ parsePolicy bs = none) ∧ (loadedPort c bs = .badForm ↔ parsePort bs = none)
        ∧ (loadedWatch bs = .badForm ↔ parseWatch bs = none) ∧ (loadedBudget c bs = .badForm ↔ bs.length ≠ 12)
        ∧ (loadedTiming bs = .badForm ↔ bs.length ≠ 25)

/-- R60, R61, R64, R76: an accepted LOAD POLICY replaces the entry whole, tells of a clamp, and raises a trigger exactly when
a stored field changed; an accepted LOAD TIMING replaces the record and nothing else: no timer, no trigger. -/
def Obligations.LoadPolicyAndTimingReplaceTheirEntry : Prop :=
  ∀ (i : Byte) (bs : List Byte) (clamped : Bool) (s : State), s.takes = true →
    (∀ e, s.tables.lock = false → i.toNat ≤ 23 → loadedPolicy s.factoryValues bs = .stored e clamped →
      ∃ w : Ev, exec (.loadPolicy (i :: bs)) s = .next (closeEvent w)
        ∧ w.tables = { s.tables with policy := s.tables.policy.set i.toNat e }
        ∧ w.link = (s.answered 0x80#8 (if clamped then .doneClamped else .done) []).link
        ∧ (w.trig = true ↔ s.tables.policy.set i.toNat e ≠ s.tables.policy)
        ∧ w.ports = s.ports ∧ w.feeds = s.feeds ∧ w.outlet = s.outlet ∧ w.control = s.control)
      ∧ (∀ t, loadedTiming bs = .stored t clamped →
        exec (.loadTiming bs) s = .next
          { s.answered 0x84#8 (if clamped then .doneClamped else .done) [] with tables := { s.tables with timing := t } })

/-- R64, R73, R74, R118, R146: an accepted LOAD BUDGET replaces the record, sets the pool in force from it, and raises a
trigger exactly when a field that selection reads changed. One that lowers the ceiling of an attended part below the committed
total trims the feeds. -/
def Obligations.LoadBudgetReplacesTheRecord : Prop :=
  ∀ (bs : List Byte) (b : Budget) (clamped : Bool) (s : State), s.takes = true → s.tables.lock = false →
    loadedBudget s.factoryValues bs = .stored b clamped →
    ∃ w : Ev, exec (.loadBudget bs) s = .next (closeEvent w) ∧ w.tables = { s.tables with budget := b }
      ∧ w.link.pendingResult = some ⟨0x83#8, if clamped then .doneClamped else .done, []⟩
      ∧ w.outlet.pool =
          (if (s.feed .F0).state = .contract ∨ (s.feed .F1).state = .contract then b.poolIntake else b.poolBattery)
      ∧ (w.trig = true ↔ b.ceiling ≠ s.tables.budget.ceiling ∨ b.usefulFloor ≠ s.tables.budget.usefulFloor
          ∨ b.margin ≠ s.tables.budget.margin)
      ∧ s.trimsTo (fun f => if s.link.mode = .attended ∧ b.ceiling < s.tables.budget.ceiling then s.ceilingTrim b.ceiling f
          else none) w.toState
      ∧ w.sense = s.sense ∧ w.time = s.time ∧ w.traps = s.traps ∧ w.watches = s.watches

/-- R61, R119, R163, R165, R166, R168, R169: an accepted LOAD WATCH starts its entry in BLOCKED or CLEAR with no hold and no
fired time; the expiry of hold timers makes every entry due ACTIVE, records its fired time and sets WATCH_FIRED. The
derate levels and shed flags follow the states of all entries, with one trigger exactly where one changed; a feed whose
level rose is trimmed where its committed power is above its new limit. That one event takes every hold timer due, and that a
load in the meantime works the levels out at once, are the model's choices: logs 8 and 42. -/
def Obligations.WatchesStartAndFire : Prop :=
  (∀ (i : Byte) (bs : List Byte) (e : WatchEntry) (clamped : Bool) (s : State), s.takes = true → s.tables.lock = false →
     i.toNat ≤ 7 → loadedWatch bs = .stored e clamped →
     ∃ w : Ev, exec (.loadWatch (i :: bs)) s = .next (closeEvent w)
       ∧ w.watches = s.watches.set i.toNat
           ⟨e, if e.valid then (if e.holds (s.quantityValue e.quantity) then some .blocked else some .clear) else none,
             none, none⟩
       ∧ w.link = (s.answered 0x82#8 (if clamped then .doneClamped else .done) []).link
       ∧ (∀ f, (w.feed f).derate = derateLevel w.watches f ∧ (w.feed f).shed = shedFlag w.watches f)
       ∧ (w.trig = true ↔ ∃ f, (s.feed f).derate ≠ derateLevel w.watches f ∨ (s.feed f).shed ≠ shedFlag w.watches f)
       ∧ (s.withLevels w.watches).trimsTo (fun f =>
           if (s.feed f).derate < derateLevel w.watches f then
             s.derateTrim (s.feedLimit f * (16 - derateLevel w.watches f) / 16) f else none) w.toState
       ∧ w.tables = s.tables ∧ w.ports = s.ports ∧ w.outlet = s.outlet)
    ∧ (∀ s : State, s.running = true → (∃ x ∈ s.watches, x.state = some .holding ∧ x.hold = some 0) →
         ∃ w : Ev, exec .watchHoldExpiry s = .next (closeEvent w)
           ∧ w.watches = s.watches.map (fun x =>
               if x.state = some .holding ∧ x.hold = some 0 then
                 { x with state := some .active, hold := none, fired := some s.time }
               else x)
           ∧ w.link = { s.link with notices := s.link.notices ||| noticeMask .watchFired }
           ∧ (∀ f, (w.feed f).derate = derateLevel w.watches f ∧ (w.feed f).shed = shedFlag w.watches f)
           ∧ (w.trig = true ↔ ∃ f, (s.feed f).derate ≠ derateLevel w.watches f ∨ (s.feed f).shed ≠ shedFlag w.watches f)
           ∧ (s.withLevels w.watches).trimsTo (fun f =>
               if (s.feed f).derate < derateLevel w.watches f then
                 s.derateTrim (s.feedLimit f * (16 - derateLevel w.watches f) / 16) f else none) w.toState
           ∧ w.tables = s.tables ∧ w.ports = s.ports ∧ w.outlet = s.outlet)

/-- R53 to R56, R60, R61, R151, R187: an accepted LOAD PORT stores the entry. One that disables a port takes it to DISABLED
from any other state: records, sheet, slot, timer and trap entries gone, RELEASE owed only where a contract was held or an
exchange ran. One that enables a disabled port takes it to DEBOUNCE or DETACHED by its presence indication. One that
withdraws its served partner's role parks it with reason ROLE, its records gone; one that permits the role a parked partner
asked for welcomes it anew. A lowered outlet cap cuts a GRANTED entry above both the cap and 500 mA. R64, R72: a changed feed
intake limit of port A or C raises a trigger, and an entry that asks nothing of port and cap raises no other and leaves ports,
feeds and outlet alone. The model's choices: the partner is welcomed anew from the record it holds (log 31), and the debounce
of an enabled port is loaded on its entry (log 38). -/
def Obligations.LoadPortStoresAndActsOnItsEntry : Prop :=
  ∀ (a : Byte) (p : Port) (bs : List Byte) (e : PortEntry) (clamped : Bool) (s : State), s.takes = true →
    s.tables.lock = false → portOfCode a.toNat = some p → loadedPort s.factoryValues bs = .stored e clamped →
    ∃ w : Ev, exec (.loadPort (a :: bs)) s = .next (closeEvent w)
      ∧ w.tables = { s.tables with port := s.tables.port.set p e }
      ∧ w.link.pendingResult = some ⟨0x81#8, if clamped then .doneClamped else .done, []⟩
      ∧ w.sense = s.sense ∧ w.time = s.time ∧ w.watches = s.watches
      ∧ (e.enabled = false → (s.port p).state ≠ .disabled →
        (w.port p).state = .disabled ∧ (w.port p).partner = none ∧ (w.port p).sheet = [] ∧ (w.port p).contract = none
          ∧ (w.port p).claim = none ∧ (w.port p).parkReason = none ∧ (w.port p).relay = none
          ∧ (w.port p).timer = .stopped
          ∧ (w.port p).order =
              (if (s.port p).contract.isSome ∨ (s.port p).state ∈ [.claiming, .settling, .releasing] then [.release] else [])
          ∧ (w.port p).presence = decide ((s.port p).state ≠ .detached)
          ∧ (∀ x ∈ w.traps.queue, x.port ≠ p) ∧ w.outlet.hasEntry p = false
          ∧ (s.closedOn p = true → (w.feed (feedOf p)).state = .gap ∧ (w.feed (feedOf p)).output = 0)
          ∧ ((s.port p).state ∉ [.detached, .debounce] → w.trig = true))
      ∧ (e.enabled = true → (s.port p).state = .disabled →
        w.trig = true
          ∧ (w.port p).state = (if (s.port p).presence then .debounce else .detached)
          ∧ ((s.port p).presence = true → (w.port p).timer = .running .debounce s.tables.timing.debounce))
      ∧ (p = .A ∨ p = .C → e.feedLimit ≠ (s.tables.port.get p).feedLimit → w.trig = true)
      ∧ (e.enabled = true → (s.port p).state ≠ .disabled → (s.port p).state ≠ .parked →
          (∀ role, (s.port p).servedRole = some role → e.roles.allows role = true) →
          (s.tables.port.get p).outletCap ≤ e.outletCap →
        (w.trig = true ↔ (p = .A ∨ p = .C) ∧ e.feedLimit ≠ (s.tables.port.get p).feedLimit)
          ∧ w.ports = s.ports ∧ w.feeds = s.feeds ∧ w.outlet = s.outlet ∧ w.traps = s.traps ∧ w.control = s.control)
      ∧ (∀ role, e.enabled = true → (s.port p).servedRole = some role → e.roles.allows role = false →
        w.trig = true ∧ (w.port p).state = .parked ∧ (w.port p).parkReason = some .role ∧ (w.port p).sheet = []
          ∧ (w.port p).contract = none ∧ (w.port p).claim = none ∧ w.outlet.hasEntry p = false
          ∧ ((s.port p).restartOwed = false → OutFrame.welcome .refused 0 ∈ (w.port p).order)
          ∧ (s.closedOn p = true → (w.feed (feedOf p)).state = .gap ∧ (w.feed (feedOf p)).output = 0))
      ∧ (∀ q, e.enabled = true → (s.port p).state = .parked → (s.port p).parkReason = some .role →
          (s.port p).partner = some q → e.roles.allows (roleAsked q.cls) = true → s.closedOn p = false →
          s.outlet.hasEntry p = false →
        w.trig = true
          ∧ (q.silent = true → (w.port p).state = .held ∧ (w.port p).partner = some { q with role := .intake }
              ∧ (w.port p).order = (s.port p).order)
          ∧ (q.silent = false → roleAsked q.cls = .intake →
              (w.port p).state = .awaitSheet ∧ (w.port p).partner = some { q with role := .intake }
                ∧ ((s.port p).restartOwed = false → ∃ v, OutFrame.welcome .intake v ∈ (w.port p).order))
          ∧ (q.silent = false → roleAsked q.cls = .outlet →
              (w.port p).state = (if s.outlet.freeRoom < 500 then .parked else .outletBase)
                ∧ (w.port p).parkReason = (if s.outlet.freeRoom < 500 then some .pool else none)
                ∧ ((s.port p).restartOwed = false → OutFrame.welcome .outlet 5000 ∈ (w.port p).order)))
      ∧ (∀ g, e.enabled = true → (s.port p).state = .outletGranted → e.roles.allows .outlet = true →
          s.outlet.grants.find? (fun x => x.port == p) = some g → g.kind = .granted →
          e.outletCap < (s.tables.port.get p).outletCap →
        (e.outletCap < g.current ∧ 500 < g.current →
          w.outlet.currentOf p = max 500 e.outletCap ∧ w.readmit = true ∧ w.link.noticeSet .outletCut = true
            ∧ ((s.port p).restartOwed = false → OutFrame.cut (max 500 e.outletCap) ∈ (w.port p).order))
          ∧ (g.current ≤ e.outletCap ∨ g.current ≤ 500 → w.outlet = s.outlet ∧ w.readmit = false ∧ w.ports = s.ports))

/-! ## Ports: attach, greeting, detach -/

/-- R26, R50: an attach confirmed takes the port from DEBOUNCE to GREETING, the detach count at 0, the greeting deadline
started, ATTACH set, a trigger raised; the hold-off's expiry takes it there from RECOVERY with no notice and no trigger.
The other ports stand. -/
def Obligations.AttachAndHoldOffEnterGreeting : Prop :=
  ∀ (p : Port) (s : State), s.running = true →
    ((s.port p).state = .debounce → (s.port p).timer = .running .debounce 0 →
      ∃ w : Ev, exec (.attachConfirmed p) s = .next (closeEvent w) ∧ w.trig = true
        ∧ w.port p = { s.port p with state := .greeting, detachCount := 0, timer := .armed .greeting }
        ∧ (∀ q, q ≠ p → w.port q = s.port q)
        ∧ w.link = { s.link with notices := s.link.notices ||| noticeMask .attach }
        ∧ w.outlet = s.outlet ∧ w.control = s.control ∧ w.traps = s.traps)
      ∧ ((s.port p).state = .recovery → (s.port p).timer = .running .holdOff 0 →
        ∃ t, exec (.recoveryHoldOffExpiry p) s = .next t ∧ t.rest = s.rest ∧ t.link = s.link ∧ t.control = s.control
          ∧ t.port p = { s.port p with state := .greeting, detachCount := 0, timer := .armed .greeting }
          ∧ (∀ q, q ≠ p → t.port q = s.port q) ∧ t.outlet = s.outlet)

/-- R58, R131, R154, R187: a detach in GREETING or later takes the port to DETACHED with nothing of its partner left,
opens its switch with no gap, frees its outlet entry, purges its trap entries, sets DETACH and raises a trigger; in
DISABLED it clears the presence indication and does nothing else to the port. How a raised detach waits to be taken is the
model's choice (log 3), and so is the reading of R3, R5 and R142 beside R58 in DISABLED (log 15). -/
def Obligations.DetachCleansThePort : Prop :=
  ∀ (p : Port) (s : State), s.running = true → (s.port p).detachRaised = true →
    ((s.port p).state ∉ [.detached, .debounce, .disabled] →
      ∃ w : Ev, exec (.detach p) s = .next (closeEvent w) ∧ w.trig = true
        ∧ w.port p = { PortRec.reset with
            lastFailure := if s.exchangeOn p || s.closeStepOn p then .detached else (s.port p).lastFailure
            detachCount := (s.port p).detachCount
            presence := (s.port p).presence }
        ∧ w.link.noticeSet .detach = true ∧ (∀ e ∈ w.traps.queue, e.port ≠ p) ∧ w.outlet.hasEntry p = false
        ∧ w.outlet.parkTime.get p = none
        ∧ (s.closedOn p = true → (w.feed (feedOf p)).state = .idle ∧ (w.feed (feedOf p)).output = 0
            ∧ (w.feed (feedOf p)).driveLead = .opened ∧ (w.feed (feedOf p)).driveOther = .opened))
      ∧ ((s.port p).state = .disabled →
        ∃ w : Ev, exec (.detach p) s = .next (closeEvent w)
          ∧ w.port p = { s.port p with presence := false, detachRaised := false }
          ∧ (∀ q, q ≠ p → w.port q = s.port q) ∧ w.link = s.link ∧ w.traps = s.traps ∧ w.outlet = s.outlet)

/-- R28, R29, R30: the greeting deadline makes the partner silent in GREETING, and ends the wait for a sheet in AWAIT_SHEET.
No WELCOME is sent to a silent partner, so a switch closed on its port is opened with a gap, also where the port goes to
HELD (log 36). -/
def Obligations.GreetingDeadlineTakesThePartnerAsSilent : Prop :=
  ∀ (p : Port) (s : State), s.running = true → (s.port p).timer = .running .greeting 0 →
    ((s.port p).state = .greeting → (s.tables.port.get p).roles.allows .intake = true → s.outlet.hasEntry p = false →
        ∃ w : Ev, exec (.greetingDeadlineExpiry p) s = .next (closeEvent w) ∧ w.trig = true
          ∧ w.port p = { s.port p with
              state := .held, timer := .stopped, partner := some ⟨.intake, .unknown, 3000, 0, 1, true⟩ }
          ∧ w.closedOn p = false
          ∧ (s.closedOn p = true → (w.feed (feedOf p)).state = .gap ∧ (w.feed (feedOf p)).gap = .armed
              ∧ (w.feed (feedOf p)).output = 0)
          ∧ (s.closedOn p = false → w.feeds = s.feeds ∧ w.link = s.link ∧ w.outlet = s.outlet))
      ∧ ((s.port p).state = .greeting → (s.tables.port.get p).roles.allows .intake = false →
        ∃ w : Ev, exec (.greetingDeadlineExpiry p) s = .next (closeEvent w) ∧ w.trig = true
          ∧ (w.port p).state = .parked ∧ (w.port p).parkReason = some .role
          ∧ (w.port p).partner = some ⟨.refused, .unknown, 3000, 0, 1, true⟩ ∧ w.closedOn p = false)
      ∧ ((s.port p).state = .awaitSheet →
        ∃ w : Ev, exec (.greetingDeadlineExpiry p) s = .next (closeEvent w) ∧ w.trig = true
          ∧ w.port p = { s.port p with state := .held, timer := .stopped } ∧ w.link = s.link)

/-- R10, R11, R27, R28, R47, R147, R185: an ANNOUNCE passed to a port in GREETING creates the partner record and is answered
by the role its class asks for: WELCOME(INTAKE) and AWAIT_SHEET; WELCOME(OUTLET) and admission, or PARKED with reason POOL
where the free room is below 500 mA; WELCOME(REFUSED) and PARKED with reason ROLE. After greeting the old partner is
cleared first, and for any other role than INTAKE a switch closed on the port is opened with a gap. Held, it is delivered by its verdict: ALLOW as received, AMEND with the amended class and cable, DENY with
WELCOME(REFUSED) and PARKED with reason DENIED. -/
def Obligations.AnnounceIsWelcomedByRole : Prop :=
  ∀ (p : Port) (payload : List Byte) (s : State) (cls : PartnerClass) (cable : Nat),
    let a := decodeAnnounce payload
    let role := roleAsked cls
    let decided (f : OutFrame) : List OutFrame :=
      if (s.port p).restartOwed then (s.port p).order else placeFrame f (s.port p).order
    (s.running = true → (s.port p).state = .greeting → (s.port p).tx = none → payload.length = 6 →
      s.modeInForce p .announce = .pass → cls = a.cls → cable = a.cable →
      ((s.tables.port.get p).roles.allows role = true → role = .intake →
          ∃ t, exec (.announce p payload) s = .next t ∧ t.rest = s.rest ∧ t.link = s.link
            ∧ t.port p = { s.port p with
                rxBusy := false, state := .awaitSheet, timer := .stopped
                partner := some ⟨.intake, a.cls, a.cable, a.tag, 1, false⟩
                order := decided (.welcome .intake (s.welcomeCeiling .intake)) })
        ∧ ((s.tables.port.get p).roles.allows role = true → role = .outlet → s.closedOn p = false →
            500 ≤ s.outlet.freeRoom →
          ∃ t, exec (.announce p payload) s = .next t ∧ t.rest = s.rest ∧ t.link = s.link
            ∧ t.port p = { s.port p with
                rxBusy := false, state := .outletBase, timer := .stopped, parkReason := none
                partner := some ⟨.outlet, a.cls, a.cable, a.tag, 1, false⟩
                order := decided (.welcome .outlet 5000) }
            ∧ t.outlet.grants = s.outlet.grants.filter (·.port != p) ++ [⟨p, .base, 500, s.time, .off⟩]
            ∧ t.outlet.drives.get p = .closed ∧ t.feeds = s.feeds)
        ∧ ((s.tables.port.get p).roles.allows role = true → role = .outlet → s.closedOn p = false →
            s.outlet.freeRoom < 500 →
          ∃ t, exec (.announce p payload) s = .next t ∧ t.rest = s.rest ∧ t.link = s.link
            ∧ t.port p = { s.port p with
                rxBusy := false, state := .parked, timer := .stopped, parkReason := some .pool
                partner := some ⟨.outlet, a.cls, a.cable, a.tag, 1, false⟩
                order := decided (.welcome .outlet 5000) }
            ∧ t.outlet = { s.outlet with parkTime := s.outlet.parkTime.set p (some s.time) } ∧ t.feeds = s.feeds)
        ∧ ((s.tables.port.get p).roles.allows role = false →
          ∃ w : Ev, exec (.announce p payload) s = .next (closeEvent w) ∧ w.trig = true ∧ (w.port p).state = .parked
            ∧ (w.port p).parkReason = some .role ∧ w.closedOn p = false ∧ (w.port p).timer = .stopped
            ∧ (w.port p).partner = some ⟨.refused, a.cls, a.cable, a.tag, 1, false⟩
            ∧ ((s.port p).restartOwed = false → OutFrame.welcome .refused 0 ∈ (w.port p).order)
            ∧ (s.closedOn p = true → (w.feed (feedOf p)).state = .gap)))
      ∧ (s.running = true → (s.port p).tx = none → payload.length = 6 → s.modeInForce p .announce = .pass →
          (s.port p).state ∈
            [.awaitSheet, .held, .claiming, .settling, .contract, .releasing, .outletBase, .outletGranted, .parked] →
          cls = a.cls →
        ∃ w : Ev, exec (.announce p payload) s = .next (closeEvent w) ∧ w.trig = true ∧ (w.port p).sheet = []
          ∧ (w.port p).contract = none ∧ (w.port p).claim = none ∧ (w.port p).repeatCount = 0
          ∧ (w.port p).timer = .stopped ∧ w.traps = s.traps
          ∧ ((s.tables.port.get p).roles.allows role = true → role = .intake →
            (w.port p).state = .awaitSheet ∧ (w.port p).parkReason = none ∧ w.outlet.hasEntry p = false
              ∧ (w.port p).partner = some ⟨.intake, a.cls, a.cable, a.tag, 1, false⟩
              ∧ ((s.port p).restartOwed = false → OutFrame.welcome .intake (s.welcomeCeiling .intake) ∈ (w.port p).order)
              ∧ (s.closedOn p = true → w.closedOn p = true
                ∧ ((s.port p).contract.isSome = true → (w.feed (feedOf p)).state = .base)))
          ∧ ((s.tables.port.get p).roles.allows role = true → role = .outlet →
            (w.port p).partner = some ⟨.outlet, a.cls, a.cable, a.tag, 1, false⟩
              ∧ ((s.port p).restartOwed = false → OutFrame.welcome .outlet 5000 ∈ (w.port p).order)
              ∧ (((w.port p).state = .outletBase ∧ (w.port p).parkReason = none
                  ∧ w.outlet.grants.getLast? = some ⟨p, .base, 500, s.time, .off⟩ ∧ w.outlet.drives.get p = .closed
                  ∧ sumCurrents w.outlet.grants ≤ w.outlet.pool)
                ∨ ((w.port p).state = .parked ∧ (w.port p).parkReason = some .pool ∧ w.outlet.freeRoom < 500
                  ∧ w.outlet.hasEntry p = false ∧ w.outlet.parkTime.get p = some s.time)))
          ∧ ((s.tables.port.get p).roles.allows role = false →
            (w.port p).state = .parked ∧ (w.port p).parkReason = some .role ∧ w.outlet.hasEntry p = false
              ∧ (w.port p).partner = some ⟨.refused, a.cls, a.cable, a.tag, 1, false⟩
              ∧ ((s.port p).restartOwed = false → OutFrame.welcome .refused 0 ∈ (w.port p).order))
          ∧ (¬ ((s.tables.port.get p).roles.allows role = true ∧ role = .intake) →
            w.closedOn p = false
              ∧ (s.closedOn p = true → (w.feed (feedOf p)).state = .gap ∧ (w.feed (feedOf p)).gap = .armed
                ∧ (w.feed (feedOf p)).output = 0 ∧ (w.feed (feedOf p)).drive p = .opened))
          ∧ ((s.port p).contract.isSome = true → w.link.noticeSet .contractChanged = true)
          ∧ (s.exchangeOn p = true → w.link.noticeSet .stepFailed = true
              ∧ (w.port p).lastFailure = .partnerRestart))
      ∧ (∀ (e : TrapEntry) (d : Byte) (content : List Byte) (clamped : Bool), s.takes = true → content.length ≤ 126 →
          s.traps.heldTag e.tag = some e → e.kind = .announce → e.port = p → e.payload = payload →
          (s.port p).state = .greeting →
          let left := { s.traps with queue := s.traps.queue.filter (·.tag != e.tag) }
          ((d = 0 ∧ cls = a.cls ∧ cable = a.cable ∧ clamped = false)
              ∨ (d = 2 ∧ amendDecision e content = some (.amendAnnounce cls cable, clamped)) →
            (s.tables.port.get p).roles.allows role = true → role = .intake →
            ∃ t, exec (.verdict (e.tag :: d :: content)) s = .next t
              ∧ t.link = (s.answered 0x92#8 (if clamped then .doneClamped else .done) []).link ∧ t.traps = left
              ∧ t.port p = { s.port p with
                  state := .awaitSheet, timer := .stopped, partner := some ⟨.intake, cls, cable, a.tag, 1, false⟩
                  order := decided (.welcome .intake (s.welcomeCeiling .intake)) })
            ∧ (d = 1 →
              ∃ w : Ev, exec (.verdict (e.tag :: d :: content)) s = .next (closeEvent w) ∧ w.trig = true
                ∧ w.link.pendingResult = some ⟨0x92#8, .done, []⟩ ∧ w.traps = left ∧ (w.port p).state = .parked
                ∧ (w.port p).parkReason = some .denied ∧ w.closedOn p = false
                ∧ (w.port p).partner = some ⟨.refused, a.cls, a.cable, a.tag, 1, false⟩
                ∧ ((s.port p).restartOwed = false → OutFrame.welcome .refused 0 ∈ (w.port p).order)))

/-- R48, R50: a RESTART from the partner takes a port in GREETING or later to RECOVERY with its negotiation cleared and the
hold-off started, a step in flight on it failing PARTNER_RESTART and its feed going to BASE with the switch left closed; in
RECOVERY it starts a started hold-off again. -/
def Obligations.PartnerRestartEntersRecovery : Prop :=
  ∀ (p : Port) (s : State), s.running = true → (s.port p).tx = none →
    ((s.port p).state ∉ [.detached, .debounce, .disabled, .recovery] →
      ∃ w : Ev, exec (.restart p) s = .next (closeEvent w) ∧ w.trig = true ∧ (w.port p).state = .recovery
        ∧ (w.port p).partner = none ∧ (w.port p).sheet = [] ∧ (w.port p).contract = none ∧ (w.port p).claim = none
        ∧ (w.port p).parkReason = none ∧ (w.port p).order = [] ∧ (w.port p).timer = .armed .holdOff
        ∧ w.outlet.hasEntry p = false ∧ w.traps = s.traps ∧ w.tables = s.tables
        ∧ (s.outlet.hasEntry p = true → w.outlet.drives.get p = .opened)
        ∧ ((s.port p).contract.isSome = true → w.link.noticeSet .contractChanged = true)
        ∧ (s.closedOn p = true → w.closedOn p = true ∧ (w.feed (feedOf p)).drive p = (s.feed (feedOf p)).drive p
            ∧ ((s.port p).contract.isSome = true → (w.feed (feedOf p)).state = .base
              ∧ ((s.feed (feedOf p)).state = .contract →
                (w.feed (feedOf p)).view = none ∧ (w.feed (feedOf p)).output ≤ 900)))
        ∧ (∀ st, s.inFlight = some st → s.exchangeOn p = true →
            w.link.noticeSet .stepFailed = true ∧ (w.port p).lastFailure = .partnerRestart
              ∧ w.ended = some { st with status := .failed .partnerRestart }))
      ∧ ((s.port p).state = .recovery →
        exec (.restart p) s = .next (s.withPort p (fun r => { r with
          rxBusy := false, timer := if r.timer.runsAs .holdOff then .armed .holdOff else r.timer })))

/-! ## Ports: sheets, claims, releases -/

/-- R30, R31, R33, R43, R45, R59, R180: OFFERS and RESHEET are handled alike. One passed to a port in AWAIT_SHEET is stored, its
port enters HELD with its timer stopped, SHEET_CHANGED is set and a trigger raised; a held sheet of the port is superseded. In
HELD and RELEASING the sheet is stored; in CLAIMING it ends the exchange, back to HELD with the sheet stored where no
contract was held, else through CONTRACT and the protective reaction to it; in SETTLING it restarts the port; a step in flight
fails SUPERSEDED. Elsewhere it is ignored. -/
def Obligations.OffersTakeThePortToHeld : Prop :=
  ∀ (p : Port) (payload : List Byte) (s : State), s.running = true →
    (s.port p).tx = none → payload.length % 9 = 0 → payload.length ≤ 63 → s.modeInForce p .offers = .pass →
    ∀ i, i = .offers p payload ∨ i = .resheet p payload →
    ((s.port p).state = .awaitSheet →
      ∃ w : Ev, exec i s = .next (closeEvent w) ∧ w.trig = true
        ∧ w.port p = { s.port p with rxBusy := false, state := .held, timer := .stopped, sheet := decodeSheet payload }
        ∧ w.link = { s.link with notices := s.link.notices ||| noticeMask .sheetChanged }
        ∧ w.traps.queue = s.traps.queue.filter (fun e => !(e.port == p && e.isHeldSheet))
        ∧ (∀ q, q ≠ p → w.port q = s.port q) ∧ w.outlet = s.outlet ∧ w.tables = s.tables)
      ∧ ((s.port p).state ∈ [.held, .releasing] →
          ∃ w : Ev, exec i s = .next (closeEvent w) ∧ w.trig = true
            ∧ w.port p = { s.port p with rxBusy := false, sheet := decodeSheet payload }
            ∧ w.link = { s.link with notices := s.link.notices ||| noticeMask .sheetChanged }
            ∧ (∀ q, q ≠ p → w.port q = s.port q) ∧ w.outlet = s.outlet ∧ w.feeds = s.feeds)
          ∧ (∀ c, (s.port p).state = .claiming → (s.port p).claim = some c → c.contractHeld = false →
            ∃ w : Ev, exec i s = .next (closeEvent w) ∧ w.trig = true ∧ (w.port p).state = .held
              ∧ (w.port p).claim = none ∧ (w.port p).timer = .stopped ∧ (w.port p).sheet = decodeSheet payload
              ∧ (w.port p).order = (s.port p).order.filter (fun g => g.kindCode != 0x04#8)
              ∧ w.link.noticeSet .sheetChanged = true
              ∧ (s.exchangeOn p = true → w.link.noticeSet .stepFailed = true ∧ (w.port p).lastFailure = .superseded))
          ∧ (∀ c k q, (s.port p).state = .claiming → (s.port p).claim = some c → c.contractHeld = true →
              (s.port p).contract = some k → (s.port p).partner = some q →
            ∃ w : Ev, exec i s = .next (closeEvent w) ∧ s.reactsTo p k q.cable (decodeSheet payload) w
              ∧ (s.exchangeOn p = true → w.link.noticeSet .stepFailed = true ∧ (w.port p).lastFailure = .superseded))
          ∧ ((s.port p).state = .settling →
            ∃ w : Ev, exec i s = .next (closeEvent w) ∧ w.trig = true ∧ (w.port p).state = .recovery
              ∧ (w.port p).claim = none ∧ (w.port p).contract = none ∧ (w.port p).sheet = []
              ∧ (w.port p).order = [.restart]
              ∧ (s.exchangeOn p = true → w.link.noticeSet .stepFailed = true
                  ∧ (w.port p).lastFailure = .superseded))
          ∧ ((s.port p).state ∈ [.greeting, .outletBase, .outletGranted, .parked] →
            ∃ t, exec i s = .next t ∧ t.port p = { s.port p with rxBusy := false } ∧ t.link = s.link
              ∧ (∀ q, q ≠ p → t.port q = s.port q) ∧ t.feeds = s.feeds ∧ t.control = s.control ∧ t.outlet = s.outlet)

/-- R33, R43: a sheet, OFFERS or RESHEET, passed to a contracted port. Where a line carries the contract's voltage, the contract is rewritten to the
best such line at no more than its current, a protective claim of it is opened, and the limit output falls with it. Where
none does, the contract ends: HELD, the feed at base. -/
def Obligations.ResheetBoundsOrEndsTheContract : Prop :=
  ∀ (p : Port) (payload : List Byte) (s : State) (c : Contract) (q : Partner) (k : Instr),
    k = .offers p payload ∨ k = .resheet p payload → s.running = true →
    (s.port p).state = .contract → (s.port p).tx = none → payload.length % 9 = 0 → payload.length ≤ 63 →
    s.modeInForce p .resheet = .pass → (s.port p).contract = some c → (s.port p).partner = some q →
    (∀ j l, carryingLine c.voltage 1 (decodeSheet payload) = some (j, l) →
      let i := min (min (min l.current q.cable) s.factoryValues.portCurrent) c.current
      ∃ w : Ev, exec k s = .next (closeEvent w) ∧ w.trig = true ∧ (w.port p).state = .claiming
        ∧ (w.port p).sheet = decodeSheet payload ∧ (w.port p).repeatCount = 0
        ∧ (w.port p).contract = some { c with
            line := j, current := i, power := if i < c.current then c.voltage * i / 1000 else c.power }
        ∧ (w.port p).claim = some ⟨j, c.voltage, i, .protective, true, s.tables.timing.repeatLimit, none⟩
        ∧ ((s.port p).restartOwed = false → OutFrame.claim j c.voltage i ∈ (w.port p).order)
        ∧ w.link.noticeSet .sheetChanged = true ∧ w.link.noticeSet .contractChanged = true
        ∧ (s.closedOn p = true → (s.feed (feedOf p)).state = .contract → (s.feed (feedOf p)).view.isSome = true →
            (w.feed (feedOf p)).output ≤ i))
      ∧ (carryingLine c.voltage 1 (decodeSheet payload) = none →
        ∃ w : Ev, exec k s = .next (closeEvent w) ∧ w.trig = true ∧ (w.port p).state = .held
          ∧ (w.port p).contract = none ∧ (w.port p).sheet = decodeSheet payload
          ∧ w.link.noticeSet .contractChanged = true
          ∧ (s.closedOn p = true → (s.feed (feedOf p)).state = .contract →
              (w.feed (feedOf p)).state = .base ∧ (w.feed (feedOf p)).view = none ∧ (w.feed (feedOf p)).output ≤ 900))

/-- R32, R36, R37, R44: a GRANT accepted in CLAIMING takes the port to SETTLING, keeps its arrival time, starts the
settle deadline and discards a waiting CLAIM; contract and step in flight stand. A DECLINE marks the line, removes the
claim and stops the timer; a RAISE returns to the state it came from, a LOWER restarts, which empties the sheet, a
protective claim ends the contract: HELD, the line marked, the feed at base. Outside CLAIMING both are ignored (R16, R59). -/
def Obligations.GrantAndDeclineAnswerTheClaim : Prop :=
  (∀ (p : Port) (s : State) (c : Claim), s.running = true → (s.port p).state = .claiming → (s.port p).tx = none →
     (s.port p).claim = some c →
     ∃ t, exec (.grant p) s = .next t ∧ t.rest = s.rest ∧ t.link = s.link ∧ t.control = s.control ∧ t.outlet = s.outlet
       ∧ t.port p = { s.port p with
           rxBusy := false, state := .settling, timer := .armed .settle, claim := some { c with grantTime := some s.time }
           order := (s.port p).order.filter (fun g => g.kindCode != 0x04#8) }
       ∧ (∀ q, q ≠ p → t.port q = s.port q))
    ∧ (∀ (p : Port) (s : State) (c : Claim), s.running = true → (s.port p).state = .claiming → (s.port p).tx = none →
         (s.port p).claim = some c →
         ∃ w : Ev, exec (.decline p) s = .next (closeEvent w) ∧ (w.port p).claim = none ∧ (w.port p).timer = .stopped
           ∧ (s.closeChecking p = false → (w.port p).lastFailure = .declined)
           ∧ (c.origin = .raise → (w.port p).state = (if c.contractHeld then .contract else .held)
               ∧ (w.port p).sheet = markDeclined c.line (s.port p).sheet ∧ (w.port p).contract = (s.port p).contract)
           ∧ (c.origin = .lower → (w.port p).state = .recovery ∧ (w.port p).contract = none ∧ (w.port p).sheet = []
               ∧ (w.port p).order = [.restart] ∧ w.trig = true)
           ∧ (c.origin = .protective → (w.port p).state = .held ∧ (w.port p).contract = none ∧ w.trig = true
               ∧ (w.port p).sheet = markDeclined c.line (s.port p).sheet
               ∧ ((s.port p).contract.isSome = true → w.link.noticeSet .contractChanged = true
                   ∧ (s.closedOn p = true → (w.feed (feedOf p)).state = .base)))
           ∧ (s.exchangeOn p = true → c.origin ≠ .protective → w.trig = true ∧ w.link.noticeSet .stepFailed = true))
    ∧ (∀ (p : Port) (s : State), s.running = true → (s.port p).state ≠ .claiming → (s.port p).tx = none →
         exec (.grant p) s = .next (s.withPort p (fun r => { r with rxBusy := false }))
           ∧ exec (.decline p) s = .next (s.withPort p (fun r => { r with rxBusy := false })))
    ∧ ∀ (n : Nat) (ls : List Line) (l : Line), (markDeclined n ls).length = ls.length
        ∧ (ls[n]? = some l → (markDeclined (n + 1) ls)[n]? = some { l with declined := true })
        ∧ (∀ m, m ≠ n → (markDeclined (n + 1) ls)[m]? = ls[m]?)

/-- R38, R39: a DEFER, and the answer deadline, below the repeat limit raise the count; the defer interval, and the deadline,
decide CLAIM again. At the limit both end the exchange NO_ANSWER in a RESTART. Outside CLAIMING a DEFER is ignored (R16, R59).
That a DEFER leaves a waiting CLAIM in the order is the model's choice: log 16. -/
def Obligations.ClaimsRepeatUpToTheirLimit : Prop :=
  (∀ (p : Port) (s : State), s.running = true → (s.port p).state ≠ .claiming → (s.port p).tx = none →
      exec (.defer p) s = .next (s.withPort p (fun r => { r with rxBusy := false })))
    ∧ ∀ (p : Port) (s : State) (c : Claim), s.running = true → (s.port p).state = .claiming → (s.port p).claim = some c →
    ((s.port p).tx = none → (s.port p).repeatCount < c.repeatLimit →
        exec (.defer p) s = .next (s.withPort p (fun r => { r with
          rxBusy := false, repeatCount := r.repeatCount + 1, timer := .armed .deferral })))
      ∧ ((s.port p).timer = .running .deferral 0 →
        exec (.deferIntervalExpiry p) s = .next (s.withPort p (fun r => { r with
          timer := .stopped
          order := if r.restartOwed then r.order else placeFrame (.claim c.line c.voltage c.current) r.order })))
      ∧ ((s.port p).timer = .running .answer 0 → (s.port p).repeatCount < c.repeatLimit →
        exec (.answerDeadlineExpiry p) s = .next (s.withPort p (fun r => { r with
          timer := .stopped, repeatCount := r.repeatCount + 1
          order := if r.restartOwed then r.order else placeFrame (.claim c.line c.voltage c.current) r.order })))
      ∧ (∀ i, (i = .answerDeadlineExpiry p ∧ (s.port p).timer = .running .answer 0) ∨ (i = .defer p ∧ (s.port p).tx = none) →
        c.repeatLimit ≤ (s.port p).repeatCount →
        ∃ w : Ev, exec i s = .next (closeEvent w) ∧ w.trig = true
          ∧ (w.port p).state = .recovery ∧ (s.closeChecking p = false → (w.port p).lastFailure = .noAnswer)
          ∧ (w.port p).claim = none ∧ (w.port p).contract = none ∧ (w.port p).order = [.restart]
          ∧ (s.exchangeOn p = true → w.link.noticeSet .stepFailed = true))

/-- R40, R42, R133: SETTLED in SETTLING stops the timer and asks for the check on a closed switch, and fails VOLTAGE_OUT
where the switch is not closed; a further SETTLED is ignored, and so is one outside SETTLING and RELEASING (R17, R59). In
RELEASING it ends the contract and the release (that it stops the timer there is the model's choice: log 18). The settle deadline restarts the port, failing the claim
SETTLE_TIMEOUT in SETTLING and ending the release DONE in RELEASING. -/
def Obligations.SettledAndItsDeadlineEndTheExchange : Prop :=
  (∀ (p : Port) (s : State), s.running = true → (s.port p).tx = none →
     (∀ c, (s.port p).state = .settling → (s.port p).claim = some c → s.closedOn p = true → s.contractChecking p = false →
         exec (.settled p) s = .next
           ((s.withPort p (fun r => { r with rxBusy := false, timer := .stopped })).withFeed (feedOf p)
             (fun r => { r with check := .contract p c.voltage .armed })))
       ∧ (∀ c, (s.port p).state = .settling → (s.port p).claim = some c → s.closedOn p = false →
           s.contractChecking p = false →
         ∃ w : Ev, exec (.settled p) s = .next (closeEvent w) ∧ w.trig = true ∧ (w.port p).state = .recovery
           ∧ (w.port p).claim = none ∧ (w.port p).order = [.restart]
           ∧ (s.closeChecking p = false → (w.port p).lastFailure = .voltageOut)
           ∧ (s.exchangeOn p = true → w.link.noticeSet .stepFailed = true))
       ∧ ((s.port p).state ∉ [.settling, .releasing] ∨ (s.port p).state = .settling ∧ s.contractChecking p = true →
         exec (.settled p) s = .next (s.withPort p (fun r => { r with rxBusy := false })))
       ∧ ((s.port p).state = .releasing → (s.port p).contract.isSome = true →
         ∃ w : Ev, exec (.settled p) s = .next (closeEvent w) ∧ (w.port p).state = .held ∧ (w.port p).contract = none
           ∧ (w.port p).timer = .stopped ∧ w.link.noticeSet .contractChanged = true
           ∧ (s.closedOn p = true → (w.feed (feedOf p)).state = .base)
           ∧ (∀ st, s.inFlight = some st → s.exchangeOn p = true → w.ended = some { st with status := .done })))
    ∧ (∀ (p : Port) (s : State), s.running = true → (s.port p).timer = .running .settle 0 →
         (s.port p).state ∈ [.settling, .releasing] →
         ∃ w : Ev, exec (.settleDeadlineExpiry p) s = .next (closeEvent w) ∧ w.trig = true ∧ (w.port p).state = .recovery
           ∧ (w.port p).contract = none ∧ (w.port p).claim = none ∧ (w.port p).order = [.restart]
           ∧ ((s.port p).state = .settling → s.closeChecking p = false → (w.port p).lastFailure = .settleTimeout)
           ∧ ((s.port p).state = .releasing → s.closeChecking p = false → (w.port p).lastFailure = (s.port p).lastFailure)
           ∧ ((s.port p).contract.isSome = true → w.link.noticeSet .contractChanged = true)
           ∧ (∀ st, s.inFlight = some st → s.exchangeOn p = true →
               ((s.port p).state = .settling → w.ended = some { st with status := .failed .settleTimeout }
                 ∧ w.link.noticeSet .stepFailed = true)
               ∧ ((s.port p).state = .releasing → w.ended = some { st with status := .done }
                 ∧ w.link.noticeSet .stepFailed = s.link.noticeSet .stepFailed)))

/-! ## Ports: transmission and trapped frames -/

/-- R2, R4, R5, R28, R35, R39, R42, R49: the oldest waiting frame is started on an idle line with nothing in
transmission, outside DETACHED and DEBOUNCE; its sending starts the greeting deadline after WELCOME(INTAKE), the answer
deadline after CLAIM, the settle deadline after RELEASE, the hold-off after RESTART, in the states they are meant for.
That an event that is not due changes nothing, that any CLAIM sent in CLAIMING arms the deadline, and that a frame waits
through DEBOUNCE are the model's choices: logs 2, 17 and 35. -/
def Obligations.SentFramesStartTheirDeadlines : Prop :=
  ∀ (p : Port) (f : OutFrame) (s : State), s.running = true →
    (∀ rest, (s.port p).order = f :: rest →
      exec (.frameTxStart p) s = .next
        (if (s.port p).tx = none ∧ (s.port p).rxBusy = false ∧ (s.port p).state ∉ [.detached, .debounce] then
           s.withPort p (fun r => { r with order := rest, tx := some (.ordered f) })
         else s))
      ∧ ((s.port p).tx = some (.ordered f) →
        exec (.frameSent p) s = .next (s.withPort p (fun r => { r with
          tx := none
          timer :=
            match f, r.state with
            | .welcome .intake _, .awaitSheet => .armed .greeting
            | .claim .., .claiming => .armed .answer
            | .release, .releasing => .armed .settle
            | .restart, .recovery => .armed .holdOff
            | _, _ => r.timer })))

/-- R20, R46, R174 to R180: an open-range frame is copied to the end of the queue under COPY with room, sets TRAP_OVERFLOW
without room, and has no effect under DROP. An ANNOUNCE, sheet or DRAW first removes the port's held entry of its kind (no
ANNOUNCE); under PASS it is delivered; under COPY with room it is delivered all the same, its copy at the end of the queue;
without room it is delivered with TRAP_OVERFLOW set and no entry. An ANNOUNCE, and a sheet outside CLAIMING, SETTLING and
CONTRACT, that its mode holds joins the queue with a free tag, its deadline started, and reaches no state machine. A sheet
held in CONTRACT, or in CLAIMING under the contract-held mark, is stored and protected at acceptance under an early mark; one
held in CLAIMING with no contract, or in SETTLING, ends the exchange and is not stored, which for CLAIMING is the model's
reading (log 29). -/
def Obligations.TrappedFramesJoinTheQueue : Prop :=
  (∀ (p : Port) (kind : Byte) (payload : List Byte) (s : State), s.running = true →
     (s.port p).state ∉ [.detached, .debounce, .disabled, .recovery] → (s.port p).tx = none →
     0x40 ≤ kind.toNat → kind.toNat ≤ 0x7F → payload.length ≤ 64 →
     let s' := s.withPort p (fun r => { r with rxBusy := false })
     ((s.tables.port.get p).openRange = .drop → exec (.openRangeFrame p kind payload) s = .next s')
       ∧ ((s.tables.port.get p).openRange = .copy → s.traps.hasRoom p = false →
         exec (.openRangeFrame p kind payload) s =
           .next (s'.withLink (fun l => { l with notices := l.notices ||| noticeMask .trapOverflow })))
       ∧ ((s.tables.port.get p).openRange = .copy → s.traps.hasRoom p = true →
         ∃ tag : Byte, (∀ e ∈ s.traps.queue, e.tag ≠ tag)
           ∧ exec (.openRangeFrame p kind payload) s = .next { s' with traps :=
               ⟨s.traps.queue ++ [⟨tag, p, .openRange kind, .copy, payload, s.time, .stopped, false, .queued, false⟩],
                 tag + 1⟩ }))
    ∧ (∀ (p : Port) (payload : List Byte) (s : State), s.running = true → (s.port p).tx = none →
         (s.port p).state ∉ [.detached, .debounce, .disabled, .recovery] →
         let s' := s.withPort p (fun r => { r with rxBusy := false })
         let left := s.traps.queue.filter (fun e => !(e.port == p && e.isHeldSheet))
         (payload.length = 6 → s.modeInForce p .announce = .hold → s.traps.hasRoom p = true →
             ∃ tag : Byte, (∀ e ∈ s.traps.queue, e.tag ≠ tag)
               ∧ exec (.announce p payload) s = .next { s' with traps :=
                   ⟨s.traps.queue ++ [⟨tag, p, .announce, .hold, payload, s.time, .armed, false, .queued, false⟩], tag + 1⟩ })
           ∧ (payload.length % 9 = 0 → payload.length ≤ 63 → s.modeInForce p .offers = .hold →
               (TrapUnit.mk left s.traps.nextTag).hasRoom p = true → (s.port p).state ∉ [.claiming, .settling, .contract] →
             ∃ tag : Byte, (∀ e ∈ left, e.tag ≠ tag)
               ∧ exec (.offers p payload) s = .next { s' with traps :=
                   ⟨left ++ [⟨tag, p, .offers, .hold, payload, s.time, .armed, false, .queued, false⟩], tag + 1⟩ }
               ∧ exec (.resheet p payload) s = .next { s' with traps :=
                   ⟨left ++ [⟨tag, p, .resheet, .hold, payload, s.time, .armed, false, .queued, false⟩], tag + 1⟩ })
           ∧ (payload.length % 9 = 0 → payload.length ≤ 63 → s.modeInForce p .offers = .hold →
               (TrapUnit.mk left s.traps.nextTag).hasRoom p = true →
             ∃ tag : Byte, (∀ e ∈ left, e.tag ≠ tag)
               ∧ ((s.port p).state = .contract → (s.port p).contract.isSome = true →
                 ∃ w : Ev, exec (.offers p payload) s = .next (closeEvent w) ∧ w.trig = true
                   ∧ (w.port p).sheet = decodeSheet payload ∧ w.link.noticeSet .sheetChanged = true
                   ∧ w.link.noticeSet .contractChanged = true ∧ (w.port p).state ∈ [.claiming, .held]
                   ∧ w.traps = ⟨left ++ [⟨tag, p, .offers, .hold, payload, s.time, .armed, true, .queued, false⟩], tag + 1⟩)
               ∧ (∀ c, (s.port p).state = .claiming → (s.port p).claim = some c → c.contractHeld = true →
                   (s.port p).contract.isSome = true →
                 ∃ w : Ev, exec (.offers p payload) s = .next (closeEvent w) ∧ w.trig = true
                   ∧ (w.port p).sheet = decodeSheet payload ∧ w.link.noticeSet .sheetChanged = true
                   ∧ w.link.noticeSet .contractChanged = true ∧ (w.port p).state ∈ [.claiming, .held]
                   ∧ (s.exchangeOn p = true → w.link.noticeSet .stepFailed = true ∧ (w.port p).lastFailure = .superseded)
                   ∧ w.traps = ⟨left ++ [⟨tag, p, .offers, .hold, payload, s.time, .armed, true, .queued, false⟩], tag + 1⟩)
               ∧ (∀ c, (s.port p).state = .claiming → (s.port p).claim = some c → c.contractHeld = false →
                 ∃ w : Ev, exec (.offers p payload) s = .next (closeEvent w) ∧ (w.port p).state = .held
                   ∧ (w.port p).claim = none ∧ (w.port p).timer = .stopped ∧ (w.port p).sheet = (s.port p).sheet
                   ∧ (s.exchangeOn p = true → w.link.noticeSet .stepFailed = true ∧ (w.port p).lastFailure = .superseded)
                   ∧ w.traps = ⟨left ++ [⟨tag, p, .offers, .hold, payload, s.time, .armed, false, .queued, false⟩], tag + 1⟩)
               ∧ ((s.port p).state = .settling →
                 ∃ w : Ev, exec (.offers p payload) s = .next (closeEvent w) ∧ w.trig = true
                   ∧ (w.port p).state = .recovery ∧ (w.port p).order = [.restart]
                   ∧ w.traps = ⟨left ++ [⟨tag, p, .offers, .hold, payload, s.time, .armed, false, .queued, false⟩], tag + 1⟩)))
    ∧ (∀ (p : Port) (payload : List Byte) (s : State) (k : RxKind) (kind : TrapKind), s.running = true →
         (s.port p).tx = none → (s.port p).state ∉ [.detached, .debounce, .disabled, .recovery] →
         (k, kind) ∈ [(.announce, .announce), (.offers, .offers), (.resheet, .resheet), (.draw, .draw)] →
         lengthPermitted k payload.length = true →
         let left := s.traps.queue.filter (fun e => !(e.port == p
           && ((e.isHeldSheet && (kind == .offers || kind == .resheet)) || (e.isHeldDraw && kind == .draw))))
         let room := (TrapUnit.mk left s.traps.nextTag).hasRoom p
         let taken (t : TrapUnit) : State := { s.withPort p (fun r => { r with rxBusy := false }) with traps := t }
         (s.modeInForce p kind = .pass →
             exec (chargeCommand p payload k) s =
               .next (closeEvent (deliverReceived p kind payload (Ev.start (taken ⟨left, s.traps.nextTag⟩)))))
           ∧ (s.modeInForce p kind = .copy → room = true →
             ∃ tag : Byte, (∀ e ∈ left, e.tag ≠ tag)
               ∧ exec (chargeCommand p payload k) s =
                 .next (closeEvent (deliverReceived p kind payload (Ev.start (taken
                   ⟨left ++ [⟨tag, p, kind, .copy, payload, s.time, .stopped, false, .queued, false⟩], tag + 1⟩)))))
           ∧ (s.modeInForce p kind ≠ .pass → room = false →
             exec (chargeCommand p payload k) s =
               .next (closeEvent (deliverReceived p kind payload (Ev.start
                 ((taken ⟨left, s.traps.nextTag⟩).withLink (fun l =>
                   { l with notices := l.notices ||| noticeMask .trapOverflow })))))))

/-! ## Feeds -/

/-- R128: the window of a CLOSE_CHECK: at 4375 mV or more the drive closes and the feed enters BASE at the base level;
below, the drive opens, the port restarts and the CLOSE step fails VOLTAGE_OUT. The base level at the entry is read as
in log 20. -/
def Obligations.CloseCheckClosesOrFails : Prop :=
  ∀ (f : Feed) (p : Port) (s : State), s.running = true → feedOf p = f → (s.feed f).state = .idle →
    (s.feed f).check = .close p (.running 0) → (s.port p).state = .held →
    (4375 ≤ s.avgVoltage f →
        ∃ w : Ev, exec (.closeCheckExpiry f) s = .next (closeEvent w) ∧ (w.feed f).state = .base
          ∧ (w.feed f).selected = some p ∧ (w.feed f).drive p = .closed ∧ (w.feed f).check = .idle
          ∧ ((s.feed f).stepCap = none → s.control.trim.get f = none → (w.feed f).output = 900 ∧ (w.feed f).target = 900)
          ∧ w.ports = s.ports
          ∧ (∀ st, s.inFlight = some st → s.closeStepOn p = true → w.ended = some { st with status := .done }))
      ∧ (s.avgVoltage f < 4375 →
        ∃ w : Ev, exec (.closeCheckExpiry f) s = .next (closeEvent w) ∧ w.trig = true ∧ (w.feed f).state = .idle
          ∧ (w.feed f).selected = none ∧ (w.feed f).drive p = .opened ∧ (w.feed f).check = .idle
          ∧ w.control.trim.get f = none ∧ (w.port p).state = .recovery ∧ (w.port p).lastFailure = .voltageOut
          ∧ (w.port p).order = [.restart]
          ∧ (∀ st, s.inFlight = some st → s.closeStepOn p = true →
              w.link.noticeSet .stepFailed = true ∧ w.ended = some { st with status := .failed .voltageOut }))

/-- R41, R133: the window of a CONTRACT_CHECK: within V less and plus floor(V / 16) the contract is entered as claimed and
told to the feed; outside, the port restarts with reason VOLTAGE_OUT. -/
def Obligations.ContractCheckEntersOrFails : Prop :=
  ∀ (f : Feed) (p : Port) (v : Nat) (c : Claim) (t : Time) (s : State), s.running = true → feedOf p = f →
    (s.feed f).check = .contract p v (.running 0) → (s.port p).state = .settling → (s.port p).claim = some c →
    c.grantTime = some t → s.outlet.hasEntry p = false →
    (v - v / 16 ≤ s.avgVoltage f → s.avgVoltage f ≤ v + v / 16 →
        ∃ w : Ev, exec (.contractCheckExpiry f) s = .next (closeEvent w)
          ∧ w.port p = { s.port p with
              state := .contract, claim := none, repeatCount := 0
              contract := some ⟨c.line, c.voltage, c.current, c.voltage * c.current / 1000, t⟩ }
          ∧ w.link.noticeSet .contractChanged = true ∧ (w.feed f).check = .idle
          ∧ (s.closedOn p = true → (w.feed f).state = .contract ∧ (w.feed f).view = some ⟨c.voltage, c.current⟩
              ∧ (w.feed f).output ≤ c.current)
          ∧ (c.origin = .protective → w.trig = true)
          ∧ (∀ st, s.inFlight = some st → s.exchangeOn p = true → c.origin ≠ .protective →
              w.ended = some { st with status := .done }))
      ∧ (s.avgVoltage f < v - v / 16 ∨ v + v / 16 < s.avgVoltage f →
        ∃ w : Ev, exec (.contractCheckExpiry f) s = .next (closeEvent w) ∧ w.trig = true
          ∧ (w.port p).state = .recovery ∧ (w.port p).lastFailure = .voltageOut ∧ (w.port p).claim = none
          ∧ (w.port p).contract = none ∧ (w.port p).order = [.restart] ∧ (w.feed f).check = .idle
          ∧ (s.exchangeOn p = true → w.link.noticeSet .stepFailed = true))

/-- R114, R127, R129, R130, R136: the gap timer's expiry takes the feed to IDLE and starts the check of a held close whose port
has stayed in HELD; one whose port has left HELD since (by its own RESTART or ANNOUNCE, for two) ends FAILED SUPERSEDED,
also where the port is back in HELD (log 43). A ramp expiry raises the output by at most the lead port's ramp step and
reloads the timer below the target. -/
def Obligations.GapAndRampTimersAct : Prop :=
  ∀ (f : Feed) (s : State), s.running = true →
    ((s.feed f).gap = .running 0 → (s.feed f).state = .gap → (s.feed f).heldClose = none →
        exec (.gapTimerExpiry f) s = .next (s.withFeed f (fun r => { r with state := .idle, gap := .stopped })))
      ∧ (∀ p, (s.feed f).gap = .running 0 → (s.feed f).state = .gap → (s.feed f).heldClose = some p → feedOf p = f →
          (s.port p).state = .held → (s.feed f).heldLost = false →
        exec (.gapTimerExpiry f) s = .next (s.withFeed f (fun r =>
          { r.setDrive p .softStart with
            state := .idle, gap := .stopped, heldClose := none, selected := some p, check := .close p .armed
            output := 0, target := 0 })))
      ∧ (∀ p, (s.feed f).gap = .running 0 → (s.feed f).state = .gap → (s.feed f).heldClose = some p →
          (s.port p).state ≠ .held ∨ (s.feed f).heldLost = true →
        ∃ w : Ev, exec (.gapTimerExpiry f) s = .next (closeEvent w)
          ∧ w.feed f = { s.feed f with
              state := .idle, gap := .stopped, heldClose := none, heldLost := false, selected := none }
          ∧ (∀ st, s.inFlight = some st → s.closeStepOn p = true →
              w.trig = true ∧ w.link.noticeSet .stepFailed = true ∧ (w.port p).lastFailure = .superseded))
      ∧ (∀ p i, (s.feed f).state = .gap → (s.feed f).heldClose = some p → feedOf p = f → (s.port p).state = .held →
          (s.port p).tx = none →
          i = .restart p ∨ (∃ payload : List Byte, i = .announce p payload ∧ payload.length = 6
            ∧ s.modeInForce p .announce = .pass) →
        ∃ w : Ev, exec i s = .next (closeEvent w) ∧ (w.port p).state ≠ .held ∧ (w.feed f).state = .gap
          ∧ (w.feed f).heldClose = some p ∧ (w.feed f).heldLost = true ∧ (w.feed f).gap = (s.feed f).gap)
      ∧ ((s.feed f).ramp = .running 0 →
        exec (.rampTimerExpiry f) s = .next (s.withFeed f (fun r =>
          let out := r.output + min (s.tables.port.get (leadPort f)).rampStep (r.target - r.output)
          { r with output := out, ramp := if out < r.target then .running s.tables.timing.ramp else .stopped })))

/-- R139, R140, R155: what the monitors do when their periods expire: an under-voltage restarts the port and ends its
contract, a feed over-draw puts the feed in FAULT with its record, an outlet over-draw removes the entry and restarts the
port. Where the under-voltage and the over-draw period of a feed have both expired, either order leaves the feed in FAULT, the
port in RECOVERY and neither period; that the under-voltage's event takes the over-draw with it is the model's reading (log
46). -/
def Obligations.ExpiredPeriodsAct : Prop :=
  ∀ s : State, s.running = true →
    (∀ f p, (s.feed f).state = .contract → (s.feed f).selected = some p → feedOf p = f →
        (s.feed f).underVolt.expired = true → (s.port p).state = .contract → (s.port p).contract.isSome = true →
      ∃ w : Ev, exec (.underVoltageExpiry f) s = .next (closeEvent w) ∧ w.trig = true ∧ (w.port p).state = .recovery
        ∧ (w.port p).lastFailure = .voltageOut ∧ (w.port p).contract = none ∧ (w.port p).order = [.restart]
        ∧ (w.feed f).view = none ∧ (w.feed f).output ≤ 900 ∧ (w.feed f).underVolt = .off
        ∧ w.link.noticeSet .contractChanged = true
        ∧ (if (s.feed f).overdraw.expired then
            (w.feed f).state = .fault ∧ (w.feed f).output = 0 ∧ (w.feed f).target = 0 ∧ (w.feed f).selected = none
              ∧ (w.feed f).driveLead = .opened ∧ (w.feed f).driveOther = .opened ∧ (w.feed f).overdraw = .off
              ∧ (w.feed f).faultReason = .overdraw ∧ (w.feed f).faultPort = some p ∧ (w.feed f).faultTime = some s.time
              ∧ w.link.noticeSet .feedFault = true ∧ w.control.trim.get f = none
          else (w.feed f).state = .base ∧ (w.feed f).selected = some p ∧ (w.feed f).overdraw = (s.feed f).overdraw))
      ∧ (∀ f p, (s.feed f).incumbent = some p → (s.feed f).overdraw.expired = true →
        ∃ w : Ev, exec (.overdrawExpiry f) s = .next (closeEvent w) ∧ w.trig = true
          ∧ w.link.noticeSet .feedFault = true ∧ w.control.trim.get f = none
          ∧ (w.feed f).state = .fault ∧ (w.feed f).output = 0 ∧ (w.feed f).target = 0 ∧ (w.feed f).selected = none
          ∧ (w.feed f).driveLead = .opened ∧ (w.feed f).driveOther = .opened ∧ (w.feed f).view = none
          ∧ (w.feed f).overdraw = .off ∧ (w.feed f).underVolt = .off
          ∧ (w.feed f).faultReason = .overdraw ∧ (w.feed f).faultPort = some p ∧ (w.feed f).faultTime = some s.time
          ∧ ((s.port p).contract.isSome ∨ (s.port p).state ∈ [.claiming, .settling, .releasing] →
              (s.port p).state ≠ .recovery →
              (w.port p).state = .recovery ∧ (w.port p).contract = none ∧ (w.port p).order = [.restart]))
      ∧ (∀ p g, g ∈ s.outlet.grants → g.port = p → g.period.expired = true →
          (s.port p).state ∈ [.outletBase, .outletGranted] →
        ∃ w : Ev, exec (.outletOverdrawExpiry p) s = .next (closeEvent w) ∧ w.trig = true ∧ w.readmit = true
          ∧ (w.port p).state = .recovery ∧ (w.port p).order = [.restart] ∧ (w.port p).partner = none
          ∧ w.outlet.hasEntry p = false ∧ w.outlet.drives.get p = .opened ∧ w.link.noticeSet .outletCut = true)

/-! ## Limits, power and the outlet supply -/

/-- R118, R120: below the committed total, the trim lowers each powered feed's output to its share of the ceiling, exactly to
the lower of the two where outputs were within R134, and keeps it as the trim value; the powers that the trimmed feeds can
then draw sum to the ceiling at most. -/
def Obligations.CeilingTrimSharesTheCeiling : Prop :=
  ∀ w : Ev,
    let c := w.effectiveCeiling
    let sum := w.committed .F0 + w.committed .F1
    let t := trimForCeiling w
    (sum ≤ c → t = w)
      ∧ (c < sum →
        (∀ f, (w.feed f).powered = true →
            let i := min (w.feed f).output (c * w.committed f * 1000 / (sum * (w.feed f).trimVoltage) / 10 * 10)
            (t.feed f).output ≤ i ∧ t.control.trim.get f = some i
              ∧ (w.limitsHold = true → (t.feed f).output = i ∧ (t.feed f).target = i))
          ∧ (∀ f, (w.feed f).powered = false → t.feed f = w.feed f)
          ∧ ((w.feed .F0).powered = true → (w.feed .F1).powered = true →
            (t.feed .F0).output * (w.feed .F0).trimVoltage / 1000 + (t.feed .F1).output * (w.feed .F1).trimVoltage / 1000
              ≤ c)
          ∧ t.ports = w.ports ∧ t.control.plan = w.control.plan ∧ t.outlet = w.outlet ∧ t.link = w.link)

/-- R34, R35, R42, R107 to R114, R127: an increase step starts exactly when it keeps the sum of the committed powers at the
ceiling or below; a step never starts that raises the sum above both the ceiling and what it was; a skipped step ends the
plan with no step in flight and the sum unchanged. A step that starts is IN_FLIGHT with its command issued: a CLAIM opens
its exchange under a cap of its current, a RELEASE is decided under a cap of 900 mA, a CLOSE starts its check or is held in
the gap, an OPEN ends DONE at once; a CLAIM, RELEASE or CLOSE that its port or feed cannot take ends FAILED SUPERSEDED. -/
def Obligations.IncreasesStartWithinTheCeiling : Prop :=
  ∀ (w : Ev) (st : PlanStep), w.inFlight = none → w.control.nextStep = some st → feedOf st.port = st.feed →
    (∀ n, st.increase = some n →
        (w.ceilingAllows st = true ↔ w.committedTotal - w.committed st.feed + n ≤ w.effectiveCeiling)
          ∧ (startStep st w).committedTotal ≤ max w.committedTotal w.effectiveCeiling)
      ∧ (st.increase = none → w.ceilingAllows st = true)
      ∧ (w.ceilingAllows st = false →
        startStep st w = skipStep w ∧ (skipStep w).control.reeval = true ∧ (skipStep w).control.nextStep = none
          ∧ (skipStep w).inFlight = none ∧ (skipStep w).committedTotal = w.committedTotal ∧ (skipStep w).link = w.link)
      ∧ (w.ceilingAllows st = true →
        let p := st.port
        let t := startStep st w
        let going : PlanStep := { st with status := .inFlight, base := w.committed st.feed }
        let refused : Prop := t.inFlight = none ∧ t.ended = some { going with status := .failed .superseded }
          ∧ t.trig = true ∧ t.link.noticeSet .stepFailed = true
        (∀ l v i pw m, st.kind = .claim l v i pw m →
            (t.feed st.feed).stepCap = some i ∧ (t.feed st.feed).output ≤ i
              ∧ ((t.feed st.feed).output = min (w.feed st.feed).output i ∨ w.limitsHold = false)
              ∧ ((w.port p).state ∈ [.held, .contract] →
                t.inFlight = some going ∧ (t.port p).state = .claiming ∧ (t.port p).repeatCount = 0
                  ∧ (t.port p).claim = some ⟨l, v, i, if m = .raise then .raise else .lower,
                      decide ((w.port p).state = .contract), w.tables.timing.repeatLimit, none⟩
                  ∧ (t.port p).contract = (w.port p).contract
                  ∧ ((w.port p).restartOwed = false → OutFrame.claim l v i ∈ (t.port p).order))
              ∧ ((w.port p).state ∉ [.held, .contract] → refused ∧ (t.port p).state = (w.port p).state))
          ∧ (st.kind = .release →
            (t.feed st.feed).stepCap = some 900 ∧ (t.feed st.feed).output ≤ 900
              ∧ ((t.feed st.feed).output = min (w.feed st.feed).output 900 ∨ w.limitsHold = false)
              ∧ ((w.port p).state = .contract →
                t.inFlight = some going ∧ (t.port p).state = .releasing ∧ (t.port p).contract = (w.port p).contract
                  ∧ ((w.port p).restartOwed = false → OutFrame.release ∈ (t.port p).order))
              ∧ ((w.port p).state ≠ .contract → refused ∧ (t.port p).state = (w.port p).state))
          ∧ (st.kind = .closeSwitch →
            ((w.port p).state = .held → (w.feed st.feed).state = .idle →
                t.inFlight = some going ∧ (t.feed st.feed).check = .close p .armed ∧ (t.feed st.feed).drive p = .softStart
                  ∧ (t.feed st.feed).selected = some p ∧ (t.feed st.feed).output = 0)
              ∧ ((w.port p).state = .held → (w.feed st.feed).state = .gap →
                t.inFlight = some going
                  ∧ t.feed st.feed = { w.feed st.feed with heldClose := some p, heldLost := false, selected := some p })
              ∧ ((w.port p).state ≠ .held ∨ (w.feed st.feed).state ∉ [.idle, .gap] →
                refused ∧ t.feeds = w.feeds))
          ∧ (st.kind = .openSwitch →
            t.inFlight = none ∧ t.ended = some { going with status := .done } ∧ t.control.trim.get st.feed = none
              ∧ ((w.feed st.feed).powered = true →
                (t.feed st.feed).state = .gap ∧ (t.feed st.feed).gap = .armed ∧ (t.feed st.feed).output = 0
                  ∧ (t.feed st.feed).driveLead = .opened ∧ (t.feed st.feed).driveOther = .opened
                  ∧ (t.feed st.feed).selected = none)
              ∧ ((w.feed st.feed).powered = false → t.feeds = w.feeds)))

/-- R104 to R106: the steps each feed needs, by the table of R104 with the marks of R105, over the feed's state, the port its
switch is closed on and its target; a plan holds at most eight steps, all WAITING: feed 0's and feed 1's decreases come
first, then the increases, those of the feed whose target has the higher score before the other's. -/
def Obligations.PlansPlaceDecreasesFirst : Prop :=
  ∀ (s : State) (ts : PerFeed FeedTarget),
    ((s.buildPlan ts).length ≤ 8 ∧ (∀ st ∈ s.buildPlan ts, st.status = .waiting)
      ∧ ∃ d0 d1 u0 u1 : List PlanStep,
        s.buildPlan ts = d0 ++ d1 ++ (if ts.f0.score < ts.f1.score then u1 ++ u0 else u0 ++ u1)
          ∧ s.stepsFor .F0 ts.f0 = (d0, u0) ∧ s.stepsFor .F1 ts.f1 = (d1, u1)
          ∧ (∀ st ∈ d0, st.feed = .F0 ∧ st.increase = none) ∧ (∀ st ∈ d1, st.feed = .F1 ∧ st.increase = none)
          ∧ (∀ st ∈ u0, st.feed = .F0 ∧ st.increase.isSome = true) ∧ (∀ st ∈ u1, st.feed = .F1 ∧ st.increase.isSome = true))
      ∧ ∀ (f : Feed) (t : FeedTarget),
        let go (q : Port) (k : StepKind) : PlanStep := ⟨k, f, q, .waiting, 0⟩
        let claim (q : Port) (n : Nat) (m : StepMark) : PlanStep := go q (.claim n t.voltage t.current t.power m)
        ((s.feed f).incumbent = none →
            (t.kind = .nothing → s.stepsFor f t = ([], []))
              ∧ (∀ q, t.kind = .base → t.port = some q → s.stepsFor f t = ([], [go q .closeSwitch]))
              ∧ (∀ q n, t.kind = .line → t.port = some q → t.line = some n →
                s.stepsFor f t = ([], [go q .closeSwitch, claim q n .raise])))
          ∧ (∀ p, (s.feed f).incumbent = some p →
            let leave : List PlanStep :=
              if (s.feed f).state = .contract then [go p .release, go p .openSwitch] else [go p .openSwitch]
            (t.kind = .nothing → s.stepsFor f t = (leave, []))
              ∧ (∀ q, t.kind = .base → t.port = some q → q ≠ p → s.stepsFor f t = (leave, [go q .closeSwitch]))
              ∧ (∀ q n, t.kind = .line → t.port = some q → t.line = some n → q ≠ p →
                s.stepsFor f t = (leave, [go q .closeSwitch, claim q n .raise]))
              ∧ (t.kind = .base → t.port = some p →
                s.stepsFor f t = (if (s.feed f).state = .contract then [go p .release] else [], []))
              ∧ (∀ n, t.kind = .line → t.port = some p → t.line = some n →
                s.stepsFor f t =
                  if t.frozen = true ∨ ((s.feed f).state = .contract ∧ (s.port p).contract.any (fun k =>
                      k.line == n && k.voltage == t.voltage && k.current == t.current) = true) then ([], [])
                  else if t.power < s.committed f then ([claim p n .lower], []) else ([], [claim p n .raise])))

/-- R91, R95: the best line option has the highest S, then the highest P, then the lowest V, then the lowest index; the
option of the contracted line is kept where its S is the highest; a base option wins over lines of S at most 2250 and loses
to any above; a challenger wins only by more than the changeover margin. -/
def Obligations.BestOptionsAndWinners : Prop :=
  (∀ cs c, bestLine cs = some c →
      ∃ before after, cs = before ++ c :: after
        ∧ (∀ d ∈ before, d.score < c.score ∨ (d.score = c.score ∧ (d.power < c.power
            ∨ (d.power = c.power ∧ c.voltage < d.voltage))))
        ∧ (∀ d ∈ after, d.score < c.score ∨ (d.score = c.score ∧ (d.power < c.power
            ∨ (d.power = c.power ∧ c.voltage ≤ d.voltage)))))
    ∧ (∀ cs, bestLine cs = none → cs = [])
    ∧ (∀ r cs c k, r.state = .contract → r.contract = some k → c ∈ cs → c.kind = .line k.line →
        (∀ d ∈ cs, d.kind = c.kind → d = c) → (∀ d ∈ cs, d.score ≤ c.score) → pickOption r cs none = some c)
    ∧ (∀ r cs, r.state ≠ .contract → pickOption r cs none = bestLine cs)
    ∧ (∀ r cs, (∀ c ∈ cs, c.score ≤ 2250) → pickOption r cs (some baseChoice) = some baseChoice)
    ∧ (∀ r cs c, c ∈ cs → 2250 < c.score → pickOption r cs (some baseChoice) = pickOption r cs none)
    ∧ (∀ (s : State) (f : Feed) (a b : Choice),
        s.bestOption (leadPort f) = some a → s.bestOption (secondPort f) = some b →
        ((s.feed f).incumbent = none →
            s.contest f = if b.score ≤ a.score then some (leadPort f, a) else some (secondPort f, b))
          ∧ ((s.feed f).incumbent = some (leadPort f) →
            s.contest f = if a.score + s.changeoverMargin < b.score then some (secondPort f, b) else some (leadPort f, a))
          ∧ ((s.feed f).incumbent = some (secondPort f) →
            s.contest f = if b.score + s.changeoverMargin < a.score then some (leadPort f, a) else some (secondPort f, b)))

/-- R81, R84 to R87, R96 to R98: the claim current is the largest whole multiple of 10 mA at which V gives no more than
the allocation, at most the line's bound, and a current of 0 or a power below the floor gives no target. A line target,
the frozen ones aside, keeps the factory ceilings of voltage and current, its feed's effective limit and the floor;
without a frozen target the powers of both feeds sum to the effective ceiling at most. -/
def Obligations.TargetsKeepTheCeilings : Prop :=
  (∀ (s : State) (alloc : Nat) (p : Port) (c : Choice) (n : Nat), c.kind = .line n → alloc ≠ 0 → 0 < c.voltage →
     let ic := alloc * 1000 / (10 * c.voltage) * 10
     let i := min ic c.current
     let pw := c.voltage * i / 1000
     c.voltage * ic ≤ alloc * 1000 ∧ (∀ j, j % 10 = 0 → c.voltage * j ≤ alloc * 1000 → j ≤ ic)
       ∧ s.targetOf alloc (some (p, c)) =
           (if i = 0 ∨ pw < s.usefulFloor then .nothing else ⟨.line, some p, some n, c.voltage, i, pw, c.score, false⟩))
    ∧ (∀ s : State, 5000 ≤ s.factoryValues.maxVoltage →
         (∀ f, (s.evaluate.get f).kind = .line → (s.evaluate.get f).frozen = false →
             (s.evaluate.get f).voltage ≤ s.factoryValues.maxVoltage ∧ (s.evaluate.get f).current ≤ s.factoryValues.portCurrent
               ∧ (s.evaluate.get f).power = (s.evaluate.get f).voltage * (s.evaluate.get f).current / 1000
               ∧ (s.evaluate.get f).power ≤ s.effectiveFeedLimit f ∧ s.usefulFloor ≤ (s.evaluate.get f).power)
           ∧ (s.evaluate.f0.frozen = false → s.evaluate.f1.frozen = false →
               s.evaluate.f0.power + s.evaluate.f1.power ≤ s.effectiveCeiling))

/-- R149, R150, R180, R185: a DRAW in an outlet state is granted the least of what it asks, the port's cap and the room the
other entries leave, at 500 mA or more; below, it is declined and the entry stands; held, it is answered DEFER, and its
verdict then decides the received or the amended request so, or declines it. -/
def Obligations.DrawIsGrantedDeclinedOrDeferred : Prop :=
  ∀ (p : Port) (payload : List Byte) (s : State), (s.port p).state ∈ [.outletBase, .outletGranted] →
    let grant (i : Nat) := min (min i (s.tables.port.get p).outletCap)
      (s.outlet.pool - sumCurrents (s.outlet.grants.filter (·.port != p)))
    let decided (f : OutFrame) : List OutFrame :=
      if (s.port p).restartOwed then (s.port p).order else placeFrame f (s.port p).order
    let entered (g : Nat) : Outlet := { s.outlet with
      grants := s.outlet.grants.map (fun x => if x.port = p then { x with kind := .granted, current := g } else x) }
    (s.running = true → (s.port p).tx = none → payload.length = 2 →
      let g := grant (field payload 0 2 * 10)
      let left := s.traps.queue.filter (fun e => !(e.port == p && e.isHeldDraw))
      (s.modeInForce p .draw = .pass → 500 ≤ g →
          ∃ w : Ev, exec (.draw p payload) s = .next (closeEvent w)
            ∧ w.port p = { s.port p with rxBusy := false, state := .outletGranted, order := decided (.grant g) }
            ∧ w.outlet = entered g
            ∧ (w.readmit = true ↔ g < s.outlet.currentOf p) ∧ w.trig = false ∧ w.traps = { s.traps with queue := left }
            ∧ (∀ q, q ≠ p → w.port q = s.port q) ∧ w.link = s.link)
        ∧ (s.modeInForce p .draw = .pass → g < 500 →
          exec (.draw p payload) s = .next { s.withPort p (fun r => { r with rxBusy := false, order := decided .decline })
            with traps := { s.traps with queue := left } })
        ∧ (s.modeInForce p .draw = .hold → (TrapUnit.mk left s.traps.nextTag).hasRoom p = true →
          ∃ tag : Byte, (∀ e ∈ left, e.tag ≠ tag)
            ∧ exec (.draw p payload) s = .next { s.withPort p (fun r =>
                { r with rxBusy := false, order := decided .defer }) with traps :=
                ⟨left ++ [⟨tag, p, .draw, .hold, payload, s.time, .armed, false, .queued, false⟩], tag + 1⟩ }))
      ∧ (∀ (e : TrapEntry) (d : Byte) (content : List Byte) (i : Nat) (clamped : Bool), s.takes = true →
          content.length ≤ 126 → s.traps.heldTag e.tag = some e → e.kind = .draw → e.port = p → e.payload = payload →
        let left : TrapUnit := { s.traps with queue := s.traps.queue.filter (·.tag != e.tag) }
        let answered := s.answered 0x92#8 (if clamped then .doneClamped else .done) []
        ((d = 0 ∧ i = field payload 0 2 * 10 ∧ clamped = false)
            ∨ (d = 2 ∧ amendDecision e content = some (.amendDraw i, clamped)) →
          (500 ≤ grant i →
            ∃ w : Ev, exec (.verdict (e.tag :: d :: content)) s = .next (closeEvent w) ∧ w.link = answered.link
              ∧ w.port p = { s.port p with state := .outletGranted, order := decided (.grant (grant i)) }
              ∧ w.outlet = entered (grant i) ∧ (w.readmit = true ↔ grant i < s.outlet.currentOf p) ∧ w.traps = left)
            ∧ (grant i < 500 →
              exec (.verdict (e.tag :: d :: content)) s =
                .next { answered.withPort p (fun r => { r with order := decided .decline }) with traps := left }))
          ∧ (d = 1 → clamped = false →
            exec (.verdict (e.tag :: d :: content)) s =
              .next { answered.withPort p (fun r => { r with order := decided .decline }) with traps := left }))

/-- R152, R153: the shrink brings the sum within the pool in two passes, newest entry first. Cutting: a GRANTED entry above
500 mA gives up the lesser of the excess that is left and what it holds above 500; an entry is cut only when no newer one
can give more, and CUT is decided with its new current (also for one that pass 2 then removes, the model's reading: log 37).
Removal: the fewest of the newest entries that bring the sum within the pool go, each port parked with reason POOL, its
drive open. Any change sets OUTLET_CUT. The re-admission pass admits ports parked with reason POOL, oldest park time first
and then by port letter, while the free room is at least 500 mA. -/
def Obligations.ShrinkKeepsTheOldestWithinThePool : Prop :=
  (∀ w : Ev,
    let t := shrinkPool w
    sumCurrents t.outlet.grants ≤ w.outlet.pool ∧ t.outlet.pool = w.outlet.pool
      ∧ t.outlet.grants.map (·.port) <+: w.outlet.grants.map (·.port)
      ∧ (∀ q ∈ t.outlet.grants.zip w.outlet.grants,
          q.1.kind = q.2.kind ∧ q.1.admitted = q.2.admitted ∧ q.1.current ≤ q.2.current ∧ min q.2.current 500 ≤ q.1.current
            ∧ (q.2.kind = .base → q.1.current = q.2.current))
      ∧ (∀ g ∈ w.outlet.grants, t.outlet.hasEntry g.port = false →
          (t.port g.port).state = .parked ∧ (t.port g.port).parkReason = some .pool
            ∧ t.outlet.drives.get g.port = .opened ∧ t.outlet.parkTime.get g.port = some w.time)
      ∧ (t.outlet.grants ≠ w.outlet.grants → t.link.noticeSet .outletCut = true)
      ∧ t.feeds = w.feeds ∧ t.tables = w.tables ∧ t.traps = w.traps
      ∧ ∃ (cut : List GrantEntry) (gone : Nat),
        cut.length = w.outlet.grants.length ∧ t.outlet.grants = (cut.drop gone).reverse
          ∧ (∀ k < gone, w.outlet.pool < sumCurrents (cut.drop k))
          ∧ (∀ (n : Nat) (g h : GrantEntry), w.outlet.grants.reverse[n]? = some g → cut[n]? = some h →
            let excess := sumCurrents (cut.take n) + sumCurrents (w.outlet.grants.reverse.drop n) - w.outlet.pool
            h = { g with current := g.current - (if g.kind = .granted then min excess (g.current - 500) else 0) }
              ∧ (h.current < g.current → (w.outlet.grants.map (·.port)).Nodup → (w.port g.port).restartOwed = false →
                OutFrame.cut h.current ∈ (t.port g.port).order)))
    ∧ ∀ w : Ev, (∀ p, w.outlet.hasEntry p = true → (w.port p).state ≠ .parked) →
      let t := readmissionPass w
      let waits (p : Port) : Prop := (w.port p).state = .parked ∧ (w.port p).parkReason = some .pool
        ∧ (w.outlet.parkTime.get p).isSome = true
      let age (p : Port) : Nat := (w.time - (w.outlet.parkTime.get p).getD 0).toNat
      ∃ admitted : List Port, (∀ p ∈ admitted, waits p)
        ∧ admitted.Pairwise (fun p q => age q < age p ∨ (age q = age p ∧ portCode p < portCode q))
        ∧ t.outlet.grants = w.outlet.grants ++ admitted.map (fun p => ⟨p, .base, 500, w.time, .off⟩)
        ∧ (admitted ≠ [] → sumCurrents t.outlet.grants ≤ w.outlet.pool)
        ∧ (∀ p, waits p → p ∉ admitted → t.outlet.freeRoom < 500
            ∧ ∀ q ∈ admitted, age p < age q ∨ (age p = age q ∧ portCode q < portCode p))
        ∧ (∀ p ∈ admitted, (t.port p).state = .outletBase ∧ (t.port p).parkReason = none
            ∧ t.outlet.drives.get p = .closed ∧ t.outlet.parkTime.get p = none
            ∧ ((w.port p).restartOwed = false → OutFrame.welcome .outlet 5000 ∈ (t.port p).order))
        ∧ (∀ p, p ∉ admitted → t.port p = w.port p) ∧ t.feeds = w.feeds ∧ t.link = w.link

/-! ## Time, samples and watches -/

/-- R157, R158, R219: every tick raises the time base by one, wrapping at 32 bits, and joins one sample of each
quantity, held to its range, to the last eight; an average is 0 until eight are held. That a tick samples the receive
buffer is the model's choice: log 6. -/
def Obligations.TickCountsTimeAndSamples : Prop :=
  (∀ (i : TickInputs) (s : State), s.running = true →
      ∃ t, exec (.tick i) s = .next t ∧ t.time = s.time + 1 ∧ t.sense = s.sense.sample i ∧ t.link.rxBuffer = i.sysRx
        ∧ t.cause = s.cause ∧ t.pending = s.pending
        ∧ (s.factory.burn = none → t.tables = s.tables ∧ t.factory = s.factory))
    ∧ (∀ (xs : List Nat) (x : Nat), xs.length ≤ 8 →
        (pushSample xs x).length = min (xs.length + 1) 8 ∧ (pushSample xs x).getLast? = some x
          ∧ (xs.length = 8 → pushSample xs x = xs.tail ++ [x])
          ∧ average xs = if xs.length = 8 then xs.sum / 8 else 0)
    ∧ (∀ (top : Nat) (r : Int), (sampleOf top r : Int) = max 0 (min r top))

/-- R1 to R4, R24, R119, R136, R138, R140, R155, R164, R166, R168, R169, R213: what a tick does to ports, feeds, outlet
entries, watches, trap deadlines, the liveness timer and a burn's countdown, from the state left when the expiries still due have been taken;
WATCH_FIRED is set exactly where an entry of hold time 0 enters ACTIVE at the tick, and no other notice; a feed whose derate level rises is trimmed where its committed power is above its new limit. The model's choices: the order of
the expiries (log 3); the line is sampled at the tick (log 6) and a port that transmits hears nothing (log 7); levels wait
where a hold has ended (log 8); a count that stands at 10 raises no second detach (log 12); the debounce timer is loaded on its
entry, every other timer on the tick after its start from the record in force then (logs 38, 44); outside
DISABLED the presence indication stands (log 39). -/
def Obligations.TickActsOnTheDrainedState : Prop :=
  ∀ (i : TickInputs) (s : State), s.running = true →
    let d := drainExpiries s
    let present (p : Port) : Bool := (i.wires.get p).frame || (d.port p).tx.isSome || (i.wires.get p).level == .presentBand
    ∃ w : Ev, exec (.tick i) s = .next (closeEvent w)
      ∧ (∀ p, w.port p =
          let r := { d.port p with
            timer := (d.port p).timer.tick d.tables.timing
            rxBusy := (i.wires.get p).frame && (d.port p).tx.isNone }
          match r.state with
          | .detached => if present p then { r with state := .debounce, timer := .running .debounce d.tables.timing.debounce } else r
          | .debounce => if present p then r else { r with state := .detached, timer := .stopped }
          | _ =>
            if present p then { r with detachCount := 0, presence := r.presence || r.state == .disabled }
            else { r with
              detachCount := min (r.detachCount + 1) 10
              detachRaised := decide (r.detachCount < 10) && min (r.detachCount + 1) 10 == 10 })
      ∧ (∀ f,
          let waits := w.watches.any (·.holdExpired)
          let level := if waits then (d.feed f).derate else derateLevel w.watches f
          let ticked := { d.feed f with
            overdraw := (d.feed f).overdraw.tick d.tables.timing.overdraw
              ((d.feed f).powered && (d.feed f).output * (16 + (d.tables.port.get (leadPort f)).margin) / 16
                < average (w.sense.feedI.get f))
            underVolt := (d.feed f).underVolt.tick d.tables.timing.overdraw
              ((d.feed f).underVoltage (d.contracted f) (average (w.sense.feedV.get f)))
            gap := (d.feed f).gap.tick d.tables.timing.gap
            check := (d.feed f).check.tick d.tables.timing.checkWindow
            ramp := (d.feed f).ramp.tick d.tables.timing.ramp
            derate := level
            shed := if waits then (d.feed f).shed else shedFlag w.watches f }
          ticked.trimmed (d.control.trim.get f)
            (if (d.feed f).derate < level then d.derateTrim (d.feedLimit f * (16 - level) / 16) f else none)
            (w.feed f) (w.control.trim.get f))
      ∧ (w.trig = true ↔ ∃ f, (w.feed f).derate ≠ (d.feed f).derate ∨ (w.feed f).shed ≠ (d.feed f).shed)
      ∧ w.control = { d.control with trim := w.control.trim }
      ∧ w.outlet = { d.outlet with
        grants := d.outlet.grants.map (fun g => { g with
          period := g.period.tick d.tables.timing.overdraw (g.current * 18 / 16 < average (w.sense.outletI.get g.port)) }) }
      ∧ w.watches = d.watches.map (fun x => x.tick w.time (w.quantityValue x.entry.quantity))
      ∧ w.traps = { d.traps with
          queue := d.traps.queue.map (fun e => { e with deadline := e.deadline.tick d.tables.timing.trap }) }
      ∧ w.link = { d.link with
          rxBuffer := i.sysRx
          liveness := d.link.liveness.tick d.tables.timing.liveness
          notices := if d.watches.any (fun x => x.state == some .clear && x.entry.hold == 0
              && x.entry.holds (w.quantityValue x.entry.quantity)) then d.link.notices ||| noticeMask .watchFired
            else d.link.notices }
      ∧ w.tables = d.tables
      ∧ w.factory = { d.factory with burn := d.factory.burn.map (fun b => { b with timer := b.timer.tick 12 }) }

/-- R162, R164 to R166: the condition and the release of a watch entry on a value, never both, and what a tick then makes of
its watch state: a value that neither holds nor releases leaves BLOCKED and ACTIVE where they are and ends a hold. An ABOVE
entry has a margin of its threshold at most (R161). That a hold counted to 0 stays HOLDING until its expiry is taken as an
event of its own is the model's choice: log 8. -/
def Obligations.WatchConditionsAndReleases : Prop :=
  ∀ (x : WatchSlot) (v : Nat) (now : Time),
    (x.entry.direction = .above → x.entry.margin ≤ x.entry.threshold →
        (x.entry.holds v = true ↔ v > x.entry.threshold)
          ∧ (x.entry.released v = true ↔ v ≤ x.entry.threshold - x.entry.margin))
      ∧ (x.entry.direction = .below →
        (x.entry.holds v = true ↔ v < x.entry.threshold)
          ∧ (x.entry.released v = true ↔ v ≥ x.entry.threshold + x.entry.margin))
      ∧ ¬ (x.entry.holds v = true ∧ x.entry.released v = true)
      ∧ (x.state = some .clear →
        x.tick now v =
          if x.entry.holds v = false then x
          else if x.entry.hold = 0 then { x with state := some .active, hold := none, fired := some now }
          else { x with state := some .holding, hold := some x.entry.hold })
      ∧ (x.state = some .blocked ∨ x.state = some .active →
        x.tick now v = if x.entry.released v = true then { x with state := some .clear } else x)
      ∧ (∀ n, x.state = some .holding → x.hold = some n →
        x.tick now v =
          if x.entry.holds v = true then { x with hold := some (n - 1) } else { x with state := some .clear, hold := none })

/-! ## Factory record, resets -/

/-- R212: BURN FACTORY by its checks in their order; the last starts the burn of exactly the content given. -/
def Obligations.BurnFactoryByItsChecks : Prop :=
  ∀ (params : List Byte) (s : State), s.takes = true → params.length ≤ 128 →
    exec (.burnFactory params) s = .next
      (if params.length ≠ 29 then s.answered 0x9D#8 .badForm []
       else if s.tables.lock = true then s.answered 0x9D#8 .locked []
       else if s.factory.record ≠ .blank then s.answered 0x9D#8 .written []
       else if contentInRange (parseContent params) = false then s.answered 0x9D#8 .badForm []
       else { s.answered 0x9D#8 .done [] with
         factory := { s.factory with burn := some ⟨parseContent params, .armed⟩ } })

/-- R63, R118, R211, R213, R214: a burn read back: DAMAGED cells change the record alone; a good record is WRITTEN, puts every
stored field under its ceilings, restarts the ports whose current stands above the new one, trims the feeds where the ceiling
then in force lies below the committed total then left, and raises a trigger where a value that selection reads differs. Which
five values those are, and that the ceiling need not have fallen for the trim, are the model's readings: logs 24 and 23. -/
def Obligations.BurnReadBackPutsTheRecordInForce : Prop :=
  ∀ (c : FactoryContent) (s : State), s.running = true → s.factory.burn = some ⟨c, .running 0⟩ →
    exec (.burnReadBack true) s = .next { s with factory := ⟨.damaged, .damaged, none⟩ }
      ∧ ∃ w : Ev, exec (.burnReadBack false) s = .next (closeEvent w)
        ∧ w.factory = ⟨.written, .holding c (crc8 (contentBytes c)), none⟩ ∧ w.factoryValues = c
        ∧ w.tables = s.tables.under c
        ∧ (∀ p, (s.port p).contract.any (fun k => c.portCurrent < k.current)
              || (s.port p).claim.any (fun k => c.portCurrent < k.current) → (s.port p).state ≠ .recovery →
            (w.port p).state = .recovery ∧ (w.port p).contract = none ∧ (w.port p).claim = none ∧ w.trig = true)
        ∧ (s.factoryValues.selectionDiffers c = true → w.trig = true)
        ∧ (∃ v : State, v.ports = w.ports ∧ v.control.trim = s.control.trim
          ∧ v.trimsTo (v.ceilingTrim
              (if s.link.mode = .attended then w.tables.budget.ceiling else c.fallbackCeiling)) w.toState
          ∧ (∀ f, (∀ p, feedOf p = f → (s.port p).aboveCeiling c.portCurrent = false) → v.feed f = s.feed f)
          ∧ ((∀ p, (s.port p).aboveCeiling c.portCurrent = false) → v.control = s.control)
          ∧ (∀ p, (s.port p).aboveCeiling c.portCurrent = true → (s.port p).state ≠ .recovery →
              ((s.port p).contract.isSome = true → s.closedOn p = true → (v.feed (feedOf p)).state = .base
                ∧ w.link.noticeSet .contractChanged = true)
              ∧ (s.exchangeOn p = true → w.link.noticeSet .stepFailed = true ∧ (w.port p).lastFailure = .commanded)))
        ∧ w.time = s.time ∧ w.sense = s.sense ∧ w.watches = s.watches

/-- R118, R171, R189, R191, R203, R208, R218: a policy restart returns the tables to their clamped defaults, empties the trap queue, the
relay slots, the mask and, before what follows, the notices, ends every watch action, leaves the part unattended, enables
disabled ports, and owes one trigger and one re-admission pass. First the HOLD entries are decided as LivenessExpiryUnattends
says of flushTraps; a port that holds a place in no list and is neither PARKED nor DISABLED then loses its relay slot alone. A part that was attended is trimmed where the fallback ceiling
lies below the committed total left by the default verdicts; that it need not have fallen is the model's reading: log 23. -/
def Obligations.PolicyRestartRestoresThePolicy : Prop :=
  ∀ s : State, s.takes = true → s.tables.lock = false →
    ∃ w : Ev, exec (.policyRestart []) s = .next (closeEvent w)
      ∧ w.tables = Tables.default.under s.factoryValues ∧ w.watches = List.replicate 8 .reset
      ∧ w.traps = { s.traps with queue := [] } ∧ (∀ p, (w.port p).relay = none ∧ (w.port p).state ≠ .disabled)
      ∧ (∀ n, w.link.noticeSet n = true → n = .outletCut) ∧ w.link.mask = 0 ∧ w.link.mode = .unattended
      ∧ w.link.liveness = .stopped ∧ w.link.pendingResult = some ⟨0x9C#8, .done, []⟩
      ∧ (∀ f, (w.feed f).derate = 0 ∧ (w.feed f).shed = false)
      ∧ w.trig = true ∧ w.readmit = true ∧ w.time = s.time ∧ w.sense = s.sense ∧ w.cause = s.cause
      ∧ w.factory = s.factory
      ∧ (let v := flushTraps (Ev.start (s.holding 0x9C#8))
        let x := v.toState.withLevels []
        (∀ p, (v.port p).state ∉ [.parked, .disabled, .outletBase, .outletGranted] → v.outlet.hasEntry p = false →
          w.port p = { v.port p with
            relay := none
            tx := match (v.port p).tx with
              | some (.relayed f _) => some (.relayed f false)
              | t => t })
        ∧ ∀ f, (v.feed f).state ≠ .fault →
          (∀ p, feedOf p = f → (v.port p).state ∈ [.parked, .disabled] → v.closedOn p = false) →
          (x.feed f).trimmed (x.control.trim.get f)
            (if s.link.mode = .attended then x.ceilingTrim s.factoryValues.fallbackCeiling f else none)
            (w.feed f) (w.control.trim.get f))

/-- R211, R213, R216, R217: a full reset puts every block at its reset values, keeps the cause record and the factory
record, cuts a burn short and gathers its causes, the alert line released (that the values stand while it lasts is the
model's choice: log 5). At its end the record state is fixed from the cells, the cause flags are gathered, and the
tables are clamped to the values in force. That the loss of content is told by the command, that a content lost or cut short
is DAMAGED with no bytes, and that unwritten cells have none to lose, are the model's choices: log 19. -/
def Obligations.FullResetTakesTheResetValues : Prop :=
  (∀ (c : Instr) (s : State), c ∈ [.powerUp, .resetInput, .supplyDip] →
     let k := s.resetting.getD ⟨false, false, false⟩
     let f := if s.factory.burn.isSome then { s.factory with cells := .damaged, burn := none } else s.factory
     ∃ t, exec c s = .next t ∧ t.alertAsserted = false
       ∧ t = { State.reset with
         factory := f
         tables := Tables.default.under f.values
         cause := s.cause
         pending := s.pending
         resetting := some
           (if c = .powerUp then { k with powerUp := true }
            else if c = .resetInput then { k with pin := true } else { k with dip := true }) })
    ∧ (∀ (lost : Bool) (c : ResetCauses) (s : State), s.resetting = some c →
         let cells := if lost = true then
             (match s.factory.cells with
              | .unwritten => Cells.unwritten
              | _ => .damaged)
           else s.factory.cells
         ∃ t, exec (.fullResetEnd lost) s = .next t ∧ t.factory.cells = cells ∧ t.factory.burn = none
           ∧ (t.factory.record = .blank ↔ cells = .unwritten)
           ∧ (t.factory.record = .written ↔ ∃ k, cells = .holding k (crc8 (contentBytes k)))
           ∧ t.cause.getLsbD 0 = (c.powerUp || s.cause.getLsbD 0)
           ∧ t.cause.getLsbD 1 = (c.pin || (!c.powerUp && s.cause.getLsbD 1))
           ∧ t.cause.getLsbD 2 = (c.dip || (!c.powerUp && s.cause.getLsbD 2))
           ∧ t.cause.getLsbD 3 = (t.factory.record == .damaged || (!c.powerUp && s.cause.getLsbD 3))
           ∧ t = { State.reset with
               factory := t.factory, tables := Tables.default.under t.factory.values, cause := t.cause, pending := s.pending })

/-! ## Invariants that every step keeps -/

/-- R25, R62, R78, R125, R134, R144, R173, R192, R216: what a full reset leaves, and that it meets the invariants below.
That State.reset is the end of a first power-up of an unburned part is the model's choice: log 4. -/
def Obligations.ResetMeetsTheInvariants : Prop :=
  State.reset.limitsHold = true ∧ State.reset.outlet.withinPool = true ∧ State.reset.traps.bounded = true
    ∧ State.reset.link.consistent = true ∧ State.reset.tables.within State.reset.factoryValues = true
    ∧ State.reset.sense.within = true ∧ State.reset.sized = true
    ∧ (∀ p, (State.reset.port p).state = .detached) ∧ (∀ f, (State.reset.feed f).state = .idle)
    ∧ State.reset.link.mode = .unattended ∧ (∀ n, State.reset.link.noticeSet n = true ↔ n = .restarted)
    ∧ State.reset.tables.lock = false ∧ State.reset.control.plan = [] ∧ State.reset.time = 0

/-- R134 to R136: in every step, each feed's output stays at most its target, and its target at most the limit its state,
contract view, trim value and step cap give. -/
def Obligations.LimitOutputsStayWithinTheirTargets : Prop :=
  ∀ s s' : State, s.limitsHold = true → step s = .next s' → s'.limitsHold = true

/-- R144, R152: in every step, the outlet grant list holds at most one entry for a port and sums to the pool in force at
most. -/
def Obligations.OutletGrantsStayWithinThePool : Prop :=
  ∀ s s' : State, s.outlet.withinPool = true → step s = .next s' → s'.outlet.withinPool = true

/-- R178, R179, R193, R194, R206: in every step, the trap queue keeps its capacities and unique tags, and the link one RESULT
for a held request, at most four owed codes, and a stopped liveness timer when unattended. -/
def Obligations.TrapQueueAndLinkStayConsistent : Prop :=
  ∀ s s' : State, s.traps.bounded = true → s.link.consistent = true → step s = .next s' →
    s'.traps.bounded = true ∧ s'.link.consistent = true

/-- R60, R62, R63, R157, R158, R213: in every step, every stored field stays under the ceilings in force, a burn runs only
on a BLANK record, the samples stay within their number and ranges, and the tables keep their sizes. -/
def Obligations.TablesAndSamplesStayWithinBounds : Prop :=
  ∀ s s' : State, s.tables.within s.factoryValues = true → (s.factory.burn.isSome = true → s.factory.record = .blank) →
    s.sense.within = true → s.sized = true → step s = .next s' →
    s'.tables.within s'.factoryValues = true ∧ (s'.factory.burn.isSome = true → s'.factory.record = .blank)
      ∧ s'.sense.within = true ∧ s'.sized = true
end

