-- ==== Sys2Proof/Laws/Bytes.lean ====
section
/-! SUPPORT. Numbers, frames and levels (R4, R6, R21, R22): what is written reads back. -/
namespace Sys2Proof.Machine

@[simp] theorem toBytes_length (n v : Nat) : (toBytes n v).length = n := by
  induction n with
  | zero => rfl
  | succ n ih => simp [toBytes, ih]

theorem fromBytes_append (xs ys : List Byte) : fromBytes (xs ++ ys) = fromBytes xs * 256 ^ ys.length + fromBytes ys := by
  have key : ∀ (ys : List Byte) (a : Nat),
      ys.foldl (fun acc b => acc * 256 + b.toNat) a = a * 256 ^ ys.length + fromBytes ys := by
    intro ys
    induction ys with
    | nil => simp [fromBytes]
    | cons y ys ih =>
      intro a
      simp only [List.foldl_cons, List.length_cons, fromBytes]
      rw [ih, ih (0 * 256 + y.toNat)]
      ring
  rw [fromBytes, List.foldl_append, key]
  rfl

theorem fromBytes_cons (b : Byte) (ys : List Byte) : fromBytes (b :: ys) = b.toNat * 256 ^ ys.length + fromBytes ys := by
  simpa [fromBytes] using fromBytes_append [b] ys

/-- The low `n` bytes of a number spell it modulo 256 to the `n`. -/
theorem fromBytes_toBytes (n v : Nat) : fromBytes (toBytes n v) = v % 256 ^ n := by
  induction n with
  | zero => simp [toBytes, fromBytes, Nat.mod_one]
  | succ n ih =>
    simp only [toBytes, fromBytes_cons, toBytes_length, ih, BitVec.toNat_ofNat]
    rw [Nat.pow_succ 256 n, Nat.mod_mul, show (2 : Nat) ^ 8 = 256 from rfl]
    ring

theorem fromBytes_toBytes_of_lt {n v : Nat} (h : v < 256 ^ n) : fromBytes (toBytes n v) = v := by
  rw [fromBytes_toBytes, Nat.mod_eq_of_lt h]

theorem fromBytes_lt (bs : List Byte) : fromBytes bs < 256 ^ bs.length := by
  induction bs with
  | nil => simp [fromBytes]
  | cons b bs ih =>
    rw [fromBytes_cons, List.length_cons, Nat.pow_succ]
    have hb : b.toNat ≤ 255 := by have := b.isLt; omega
    calc b.toNat * 256 ^ bs.length + fromBytes bs < b.toNat * 256 ^ bs.length + 256 ^ bs.length := by omega
      _ = (b.toNat + 1) * 256 ^ bs.length := by ring
      _ ≤ 256 * 256 ^ bs.length := Nat.mul_le_mul_right _ (by omega)
      _ = 256 ^ bs.length * 256 := by ring

/-- A field that begins after a known front is the field of what follows. -/
theorem field_append_right (xs ys : List Byte) (k n : Nat) : field (xs ++ ys) (xs.length + k) n = field ys k n := by
  simp [field, List.drop_append, List.drop_of_length_le (show xs.length ≤ xs.length + k by omega)]

/-- A field at the start of bytes written with its size is the number written. -/
theorem field_toBytes (n v : Nat) (ys : List Byte) (h : v < 256 ^ n) : field (toBytes n v ++ ys) 0 n = v := by
  have : (toBytes n v ++ ys).take n = toBytes n v := by
    rw [List.take_append_of_le_length (by simp)]
    exact List.take_of_length_le (by simp)
  simp [field, this, fromBytes_toBytes_of_lt h]

theorem envelope_length (k : Byte) (p : List Byte) : (envelope k p).length = p.length + 3 := by
  simp [envelope]

/-- A frame written with an allowed length opens to its kind and payload (R6, R8, R21). -/
theorem openEnvelope_envelope {limit : Nat} (k : Byte) (p : List Byte) (h : p.length ≤ limit) (h' : limit ≤ 255) :
    openEnvelope limit (envelope k p) = some (k, p) := by
  have hn : p.length % 256 = p.length := Nat.mod_eq_of_lt (by omega)
  simp [openEnvelope, envelope, hn, h]

/-- What opens was written so: its kind, length, payload and check. -/
theorem envelope_of_openEnvelope {limit : Nat} {raw p : List Byte} {k : Byte} (h : openEnvelope limit raw = some (k, p)) :
    raw = envelope k p ∧ p.length ≤ limit := by
  match raw with
  | [] => simp [openEnvelope] at h
  | [_] => simp [openEnvelope] at h
  | kind :: len :: rest =>
    simp only [openEnvelope] at h
    split at h
    · rename_i hc
      obtain ⟨hl, hr, hd⟩ := hc
      simp only [Option.some.injEq, Prod.mk.injEq] at h
      obtain ⟨rfl, rfl⟩ := h
      have hlen : (rest.take len.toNat).length = len.toNat := by simp; omega
      refine ⟨?_, by omega⟩
      simp only [envelope, hlen, BitVec.ofNat_toNat, BitVec.setWidth_eq, List.cons_append]
      rw [← hd, List.take_append_drop]
    · cases h

/-! ## Levels on a wire (R4) -/

/-- The eight data bits of a byte spell it. -/
theorem byteOfLevels_bits (b : Byte) :
    byteOfLevels (b.getLsbD 7) (b.getLsbD 6) (b.getLsbD 5) (b.getLsbD 4) (b.getLsbD 3) (b.getLsbD 2) (b.getLsbD 1)
      (b.getLsbD 0) = b := by
  revert b
  decide +kernel

/-- Bytes sent as levels are read back. -/
theorem bytesOfLevels_levelsOf (bs : List Byte) : bytesOfLevels (levelsOf bs) = some bs := by
  induction bs with
  | nil => rfl
  | cons b bs ih =>
    have : levelsOf (b :: bs) = byteLevels b ++ levelsOf bs := by simp [levelsOf]
    rw [this]
    simp only [byteLevels, List.cons_append, List.nil_append, bytesOfLevels, ih, Option.map_some, byteOfLevels_bits]

/-- A frame sent as levels is read back from its kind byte on (R4). -/
theorem rawOfLevels_frameLevels (raw : List Byte) : rawOfLevels (frameLevels raw) = some raw := by
  simp [rawOfLevels, frameLevels, bytesOfLevels_levelsOf]

end Sys2Proof.Machine
end

