-- ==== Sys2Proof/Laws/State.lean ====
section
/-! SUPPORT. One lemma per field of the state for each record update, and what a record of ports or feeds reads after one of
its entries is set. -/
namespace Sys2Proof

/-! ## One value for each port or feed -/

@[simp] theorem PerPort.get_set_self {α : Type} (t : PerPort α) (p : Port) (v : α) : (t.set p v).get p = v := by
  cases p <;> rfl

@[simp] theorem PerPort.get_set_of_ne {α : Type} (t : PerPort α) {p q : Port} (v : α) (h : q ≠ p) :
    (t.set p v).get q = t.get q := by
  cases p <;> cases q <;> first | rfl | exact absurd rfl h

theorem PerPort.get_set {α : Type} (t : PerPort α) (p q : Port) (v : α) :
    (t.set p v).get q = if q = p then v else t.get q := by
  cases p <;> cases q <;> rfl

@[simp] theorem PerPort.set_set {α : Type} (t : PerPort α) (p : Port) (u v : α) : (t.set p u).set p v = t.set p v := by
  cases p <;> rfl

@[simp] theorem PerPort.set_get {α : Type} (t : PerPort α) (p : Port) : t.set p (t.get p) = t := by
  cases p <;> rfl

@[simp] theorem PerPort.get_all {α : Type} (v : α) (p : Port) : (PerPort.all v).get p = v := by
  cases p <;> rfl

@[simp] theorem PerFeed.get_set_self {α : Type} (t : PerFeed α) (f : Feed) (v : α) : (t.set f v).get f = v := by
  cases f <;> rfl

@[simp] theorem PerFeed.get_set_of_ne {α : Type} (t : PerFeed α) {f g : Feed} (v : α) (h : g ≠ f) :
    (t.set f v).get g = t.get g := by
  cases f <;> cases g <;> first | rfl | exact absurd rfl h

theorem PerFeed.get_set {α : Type} (t : PerFeed α) (f g : Feed) (v : α) :
    (t.set f v).get g = if g = f then v else t.get g := by
  cases f <;> cases g <;> rfl

@[simp] theorem PerFeed.set_set {α : Type} (t : PerFeed α) (f : Feed) (u v : α) : (t.set f u).set f v = t.set f v := by
  cases f <;> rfl

@[simp] theorem PerFeed.set_get {α : Type} (t : PerFeed α) (f : Feed) : t.set f (t.get f) = t := by
  cases f <;> rfl

@[simp] theorem PerFeed.get_all {α : Type} (v : α) (f : Feed) : (PerFeed.all v).get f = v := by
  cases f <;> rfl

namespace Machine

/-! ## The start of an event -/

@[simp] theorem start_toState (s : State) : (Ev.start s).toState = s := rfl
@[simp] theorem start_trig (s : State) : (Ev.start s).trig = false := rfl
@[simp] theorem start_ended (s : State) : (Ev.start s).ended = none := rfl
@[simp] theorem start_readmit (s : State) : (Ev.start s).readmit = false := rfl

/-! ## `updPort` -/

@[simp] theorem updPort_ports (p : Port) (g : PortRec → PortRec) (w : Ev) :
    (updPort p g w).ports = w.ports.set p (g (w.ports.get p)) := rfl
@[simp] theorem updPort_feeds (p : Port) (g : PortRec → PortRec) (w : Ev) : (updPort p g w).feeds = w.feeds := rfl
@[simp] theorem updPort_control (p : Port) (g : PortRec → PortRec) (w : Ev) :
    (updPort p g w).control = w.control := rfl
@[simp] theorem updPort_tables (p : Port) (g : PortRec → PortRec) (w : Ev) : (updPort p g w).tables = w.tables := rfl
@[simp] theorem updPort_watches (p : Port) (g : PortRec → PortRec) (w : Ev) :
    (updPort p g w).watches = w.watches := rfl
@[simp] theorem updPort_outlet (p : Port) (g : PortRec → PortRec) (w : Ev) : (updPort p g w).outlet = w.outlet := rfl
@[simp] theorem updPort_sense (p : Port) (g : PortRec → PortRec) (w : Ev) : (updPort p g w).sense = w.sense := rfl
@[simp] theorem updPort_traps (p : Port) (g : PortRec → PortRec) (w : Ev) : (updPort p g w).traps = w.traps := rfl
@[simp] theorem updPort_link (p : Port) (g : PortRec → PortRec) (w : Ev) : (updPort p g w).link = w.link := rfl
@[simp] theorem updPort_factory (p : Port) (g : PortRec → PortRec) (w : Ev) :
    (updPort p g w).factory = w.factory := rfl
@[simp] theorem updPort_time (p : Port) (g : PortRec → PortRec) (w : Ev) : (updPort p g w).time = w.time := rfl
@[simp] theorem updPort_cause (p : Port) (g : PortRec → PortRec) (w : Ev) : (updPort p g w).cause = w.cause := rfl
@[simp] theorem updPort_resetting (p : Port) (g : PortRec → PortRec) (w : Ev) :
    (updPort p g w).resetting = w.resetting := rfl
@[simp] theorem updPort_pending (p : Port) (g : PortRec → PortRec) (w : Ev) :
    (updPort p g w).pending = w.pending := rfl
@[simp] theorem updPort_trig (p : Port) (g : PortRec → PortRec) (w : Ev) : (updPort p g w).trig = w.trig := rfl
@[simp] theorem updPort_ended (p : Port) (g : PortRec → PortRec) (w : Ev) : (updPort p g w).ended = w.ended := rfl
@[simp] theorem updPort_readmit (p : Port) (g : PortRec → PortRec) (w : Ev) :
    (updPort p g w).readmit = w.readmit := rfl

/-! ## `updFeed` -/

@[simp] theorem updFeed_ports (f : Feed) (g : FeedRec → FeedRec) (w : Ev) : (updFeed f g w).ports = w.ports := rfl
@[simp] theorem updFeed_feeds (f : Feed) (g : FeedRec → FeedRec) (w : Ev) :
    (updFeed f g w).feeds = w.feeds.set f (g (w.feeds.get f)) := rfl
@[simp] theorem updFeed_control (f : Feed) (g : FeedRec → FeedRec) (w : Ev) :
    (updFeed f g w).control = w.control := rfl
@[simp] theorem updFeed_tables (f : Feed) (g : FeedRec → FeedRec) (w : Ev) : (updFeed f g w).tables = w.tables := rfl
@[simp] theorem updFeed_watches (f : Feed) (g : FeedRec → FeedRec) (w : Ev) :
    (updFeed f g w).watches = w.watches := rfl
@[simp] theorem updFeed_outlet (f : Feed) (g : FeedRec → FeedRec) (w : Ev) : (updFeed f g w).outlet = w.outlet := rfl
@[simp] theorem updFeed_sense (f : Feed) (g : FeedRec → FeedRec) (w : Ev) : (updFeed f g w).sense = w.sense := rfl
@[simp] theorem updFeed_traps (f : Feed) (g : FeedRec → FeedRec) (w : Ev) : (updFeed f g w).traps = w.traps := rfl
@[simp] theorem updFeed_link (f : Feed) (g : FeedRec → FeedRec) (w : Ev) : (updFeed f g w).link = w.link := rfl
@[simp] theorem updFeed_factory (f : Feed) (g : FeedRec → FeedRec) (w : Ev) :
    (updFeed f g w).factory = w.factory := rfl
@[simp] theorem updFeed_time (f : Feed) (g : FeedRec → FeedRec) (w : Ev) : (updFeed f g w).time = w.time := rfl
@[simp] theorem updFeed_cause (f : Feed) (g : FeedRec → FeedRec) (w : Ev) : (updFeed f g w).cause = w.cause := rfl
@[simp] theorem updFeed_resetting (f : Feed) (g : FeedRec → FeedRec) (w : Ev) :
    (updFeed f g w).resetting = w.resetting := rfl
@[simp] theorem updFeed_pending (f : Feed) (g : FeedRec → FeedRec) (w : Ev) :
    (updFeed f g w).pending = w.pending := rfl
@[simp] theorem updFeed_trig (f : Feed) (g : FeedRec → FeedRec) (w : Ev) : (updFeed f g w).trig = w.trig := rfl
@[simp] theorem updFeed_ended (f : Feed) (g : FeedRec → FeedRec) (w : Ev) : (updFeed f g w).ended = w.ended := rfl
@[simp] theorem updFeed_readmit (f : Feed) (g : FeedRec → FeedRec) (w : Ev) :
    (updFeed f g w).readmit = w.readmit := rfl

/-! ## `updLink` -/

@[simp] theorem updLink_ports (g : Link → Link) (w : Ev) : (updLink g w).ports = w.ports := rfl
@[simp] theorem updLink_feeds (g : Link → Link) (w : Ev) : (updLink g w).feeds = w.feeds := rfl
@[simp] theorem updLink_control (g : Link → Link) (w : Ev) : (updLink g w).control = w.control := rfl
@[simp] theorem updLink_tables (g : Link → Link) (w : Ev) : (updLink g w).tables = w.tables := rfl
@[simp] theorem updLink_watches (g : Link → Link) (w : Ev) : (updLink g w).watches = w.watches := rfl
@[simp] theorem updLink_outlet (g : Link → Link) (w : Ev) : (updLink g w).outlet = w.outlet := rfl
@[simp] theorem updLink_sense (g : Link → Link) (w : Ev) : (updLink g w).sense = w.sense := rfl
@[simp] theorem updLink_traps (g : Link → Link) (w : Ev) : (updLink g w).traps = w.traps := rfl
@[simp] theorem updLink_link (g : Link → Link) (w : Ev) : (updLink g w).link = g w.link := rfl
@[simp] theorem updLink_factory (g : Link → Link) (w : Ev) : (updLink g w).factory = w.factory := rfl
@[simp] theorem updLink_time (g : Link → Link) (w : Ev) : (updLink g w).time = w.time := rfl
@[simp] theorem updLink_cause (g : Link → Link) (w : Ev) : (updLink g w).cause = w.cause := rfl
@[simp] theorem updLink_resetting (g : Link → Link) (w : Ev) : (updLink g w).resetting = w.resetting := rfl
@[simp] theorem updLink_pending (g : Link → Link) (w : Ev) : (updLink g w).pending = w.pending := rfl
@[simp] theorem updLink_trig (g : Link → Link) (w : Ev) : (updLink g w).trig = w.trig := rfl
@[simp] theorem updLink_ended (g : Link → Link) (w : Ev) : (updLink g w).ended = w.ended := rfl
@[simp] theorem updLink_readmit (g : Link → Link) (w : Ev) : (updLink g w).readmit = w.readmit := rfl

/-! ## `updOutlet` -/

@[simp] theorem updOutlet_ports (g : Outlet → Outlet) (w : Ev) : (updOutlet g w).ports = w.ports := rfl
@[simp] theorem updOutlet_feeds (g : Outlet → Outlet) (w : Ev) : (updOutlet g w).feeds = w.feeds := rfl
@[simp] theorem updOutlet_control (g : Outlet → Outlet) (w : Ev) : (updOutlet g w).control = w.control := rfl
@[simp] theorem updOutlet_tables (g : Outlet → Outlet) (w : Ev) : (updOutlet g w).tables = w.tables := rfl
@[simp] theorem updOutlet_watches (g : Outlet → Outlet) (w : Ev) : (updOutlet g w).watches = w.watches := rfl
@[simp] theorem updOutlet_outlet (g : Outlet → Outlet) (w : Ev) : (updOutlet g w).outlet = g w.outlet := rfl
@[simp] theorem updOutlet_sense (g : Outlet → Outlet) (w : Ev) : (updOutlet g w).sense = w.sense := rfl
@[simp] theorem updOutlet_traps (g : Outlet → Outlet) (w : Ev) : (updOutlet g w).traps = w.traps := rfl
@[simp] theorem updOutlet_link (g : Outlet → Outlet) (w : Ev) : (updOutlet g w).link = w.link := rfl
@[simp] theorem updOutlet_factory (g : Outlet → Outlet) (w : Ev) : (updOutlet g w).factory = w.factory := rfl
@[simp] theorem updOutlet_time (g : Outlet → Outlet) (w : Ev) : (updOutlet g w).time = w.time := rfl
@[simp] theorem updOutlet_cause (g : Outlet → Outlet) (w : Ev) : (updOutlet g w).cause = w.cause := rfl
@[simp] theorem updOutlet_resetting (g : Outlet → Outlet) (w : Ev) : (updOutlet g w).resetting = w.resetting := rfl
@[simp] theorem updOutlet_pending (g : Outlet → Outlet) (w : Ev) : (updOutlet g w).pending = w.pending := rfl
@[simp] theorem updOutlet_trig (g : Outlet → Outlet) (w : Ev) : (updOutlet g w).trig = w.trig := rfl
@[simp] theorem updOutlet_ended (g : Outlet → Outlet) (w : Ev) : (updOutlet g w).ended = w.ended := rfl
@[simp] theorem updOutlet_readmit (g : Outlet → Outlet) (w : Ev) : (updOutlet g w).readmit = w.readmit := rfl

/-! ## `raiseTrigger` -/

@[simp] theorem raiseTrigger_ports (w : Ev) : (raiseTrigger w).ports = w.ports := rfl
@[simp] theorem raiseTrigger_feeds (w : Ev) : (raiseTrigger w).feeds = w.feeds := rfl
@[simp] theorem raiseTrigger_control (w : Ev) : (raiseTrigger w).control = w.control := rfl
@[simp] theorem raiseTrigger_tables (w : Ev) : (raiseTrigger w).tables = w.tables := rfl
@[simp] theorem raiseTrigger_watches (w : Ev) : (raiseTrigger w).watches = w.watches := rfl
@[simp] theorem raiseTrigger_outlet (w : Ev) : (raiseTrigger w).outlet = w.outlet := rfl
@[simp] theorem raiseTrigger_sense (w : Ev) : (raiseTrigger w).sense = w.sense := rfl
@[simp] theorem raiseTrigger_traps (w : Ev) : (raiseTrigger w).traps = w.traps := rfl
@[simp] theorem raiseTrigger_link (w : Ev) : (raiseTrigger w).link = w.link := rfl
@[simp] theorem raiseTrigger_factory (w : Ev) : (raiseTrigger w).factory = w.factory := rfl
@[simp] theorem raiseTrigger_time (w : Ev) : (raiseTrigger w).time = w.time := rfl
@[simp] theorem raiseTrigger_cause (w : Ev) : (raiseTrigger w).cause = w.cause := rfl
@[simp] theorem raiseTrigger_resetting (w : Ev) : (raiseTrigger w).resetting = w.resetting := rfl
@[simp] theorem raiseTrigger_pending (w : Ev) : (raiseTrigger w).pending = w.pending := rfl
@[simp] theorem raiseTrigger_trig (w : Ev) : (raiseTrigger w).trig = true := rfl
@[simp] theorem raiseTrigger_ended (w : Ev) : (raiseTrigger w).ended = w.ended := rfl
@[simp] theorem raiseTrigger_readmit (w : Ev) : (raiseTrigger w).readmit = w.readmit := rfl

/-! ## `setNotice` -/

@[simp] theorem setNotice_ports (n : Notice) (w : Ev) : (setNotice n w).ports = w.ports := rfl
@[simp] theorem setNotice_feeds (n : Notice) (w : Ev) : (setNotice n w).feeds = w.feeds := rfl
@[simp] theorem setNotice_control (n : Notice) (w : Ev) : (setNotice n w).control = w.control := rfl
@[simp] theorem setNotice_tables (n : Notice) (w : Ev) : (setNotice n w).tables = w.tables := rfl
@[simp] theorem setNotice_watches (n : Notice) (w : Ev) : (setNotice n w).watches = w.watches := rfl
@[simp] theorem setNotice_outlet (n : Notice) (w : Ev) : (setNotice n w).outlet = w.outlet := rfl
@[simp] theorem setNotice_sense (n : Notice) (w : Ev) : (setNotice n w).sense = w.sense := rfl
@[simp] theorem setNotice_traps (n : Notice) (w : Ev) : (setNotice n w).traps = w.traps := rfl
@[simp] theorem setNotice_link (n : Notice) (w : Ev) :
    (setNotice n w).link = { w.link with notices := w.link.notices ||| noticeMask n } := rfl
@[simp] theorem setNotice_factory (n : Notice) (w : Ev) : (setNotice n w).factory = w.factory := rfl
@[simp] theorem setNotice_time (n : Notice) (w : Ev) : (setNotice n w).time = w.time := rfl
@[simp] theorem setNotice_cause (n : Notice) (w : Ev) : (setNotice n w).cause = w.cause := rfl
@[simp] theorem setNotice_resetting (n : Notice) (w : Ev) : (setNotice n w).resetting = w.resetting := rfl
@[simp] theorem setNotice_pending (n : Notice) (w : Ev) : (setNotice n w).pending = w.pending := rfl
@[simp] theorem setNotice_trig (n : Notice) (w : Ev) : (setNotice n w).trig = w.trig := rfl
@[simp] theorem setNotice_ended (n : Notice) (w : Ev) : (setNotice n w).ended = w.ended := rfl
@[simp] theorem setNotice_readmit (n : Notice) (w : Ev) : (setNotice n w).readmit = w.readmit := rfl

/-! ## `setTrim` -/

@[simp] theorem setTrim_ports (f : Feed) (t : Option Nat) (w : Ev) : (setTrim f t w).ports = w.ports := rfl
@[simp] theorem setTrim_feeds (f : Feed) (t : Option Nat) (w : Ev) : (setTrim f t w).feeds = w.feeds := rfl
@[simp] theorem setTrim_control (f : Feed) (t : Option Nat) (w : Ev) :
    (setTrim f t w).control = { w.control with trim := w.control.trim.set f t } := rfl
@[simp] theorem setTrim_tables (f : Feed) (t : Option Nat) (w : Ev) : (setTrim f t w).tables = w.tables := rfl
@[simp] theorem setTrim_watches (f : Feed) (t : Option Nat) (w : Ev) : (setTrim f t w).watches = w.watches := rfl
@[simp] theorem setTrim_outlet (f : Feed) (t : Option Nat) (w : Ev) : (setTrim f t w).outlet = w.outlet := rfl
@[simp] theorem setTrim_sense (f : Feed) (t : Option Nat) (w : Ev) : (setTrim f t w).sense = w.sense := rfl
@[simp] theorem setTrim_traps (f : Feed) (t : Option Nat) (w : Ev) : (setTrim f t w).traps = w.traps := rfl
@[simp] theorem setTrim_link (f : Feed) (t : Option Nat) (w : Ev) : (setTrim f t w).link = w.link := rfl
@[simp] theorem setTrim_factory (f : Feed) (t : Option Nat) (w : Ev) : (setTrim f t w).factory = w.factory := rfl
@[simp] theorem setTrim_time (f : Feed) (t : Option Nat) (w : Ev) : (setTrim f t w).time = w.time := rfl
@[simp] theorem setTrim_cause (f : Feed) (t : Option Nat) (w : Ev) : (setTrim f t w).cause = w.cause := rfl
@[simp] theorem setTrim_resetting (f : Feed) (t : Option Nat) (w : Ev) : (setTrim f t w).resetting = w.resetting := rfl
@[simp] theorem setTrim_pending (f : Feed) (t : Option Nat) (w : Ev) : (setTrim f t w).pending = w.pending := rfl
@[simp] theorem setTrim_trig (f : Feed) (t : Option Nat) (w : Ev) : (setTrim f t w).trig = w.trig := rfl
@[simp] theorem setTrim_ended (f : Feed) (t : Option Nat) (w : Ev) : (setTrim f t w).ended = w.ended := rfl
@[simp] theorem setTrim_readmit (f : Feed) (t : Option Nat) (w : Ev) : (setTrim f t w).readmit = w.readmit := rfl

/-! ## `State.withPort` -/

@[simp] theorem State.withPort_ports (s : State) (p : Port) (g : PortRec → PortRec) :
    (s.withPort p g).ports = s.ports.set p (g (s.ports.get p)) := rfl
@[simp] theorem State.withPort_feeds (s : State) (p : Port) (g : PortRec → PortRec) :
    (s.withPort p g).feeds = s.feeds := rfl
@[simp] theorem State.withPort_control (s : State) (p : Port) (g : PortRec → PortRec) :
    (s.withPort p g).control = s.control := rfl
@[simp] theorem State.withPort_tables (s : State) (p : Port) (g : PortRec → PortRec) :
    (s.withPort p g).tables = s.tables := rfl
@[simp] theorem State.withPort_watches (s : State) (p : Port) (g : PortRec → PortRec) :
    (s.withPort p g).watches = s.watches := rfl
@[simp] theorem State.withPort_outlet (s : State) (p : Port) (g : PortRec → PortRec) :
    (s.withPort p g).outlet = s.outlet := rfl
@[simp] theorem State.withPort_sense (s : State) (p : Port) (g : PortRec → PortRec) :
    (s.withPort p g).sense = s.sense := rfl
@[simp] theorem State.withPort_traps (s : State) (p : Port) (g : PortRec → PortRec) :
    (s.withPort p g).traps = s.traps := rfl
@[simp] theorem State.withPort_link (s : State) (p : Port) (g : PortRec → PortRec) :
    (s.withPort p g).link = s.link := rfl
@[simp] theorem State.withPort_factory (s : State) (p : Port) (g : PortRec → PortRec) :
    (s.withPort p g).factory = s.factory := rfl
@[simp] theorem State.withPort_time (s : State) (p : Port) (g : PortRec → PortRec) :
    (s.withPort p g).time = s.time := rfl
@[simp] theorem State.withPort_cause (s : State) (p : Port) (g : PortRec → PortRec) :
    (s.withPort p g).cause = s.cause := rfl
@[simp] theorem State.withPort_resetting (s : State) (p : Port) (g : PortRec → PortRec) :
    (s.withPort p g).resetting = s.resetting := rfl
@[simp] theorem State.withPort_pending (s : State) (p : Port) (g : PortRec → PortRec) :
    (s.withPort p g).pending = s.pending := rfl

/-! ## `State.withFeed` -/

@[simp] theorem State.withFeed_ports (s : State) (f : Feed) (g : FeedRec → FeedRec) :
    (s.withFeed f g).ports = s.ports := rfl
@[simp] theorem State.withFeed_feeds (s : State) (f : Feed) (g : FeedRec → FeedRec) :
    (s.withFeed f g).feeds = s.feeds.set f (g (s.feeds.get f)) := rfl
@[simp] theorem State.withFeed_control (s : State) (f : Feed) (g : FeedRec → FeedRec) :
    (s.withFeed f g).control = s.control := rfl
@[simp] theorem State.withFeed_tables (s : State) (f : Feed) (g : FeedRec → FeedRec) :
    (s.withFeed f g).tables = s.tables := rfl
@[simp] theorem State.withFeed_watches (s : State) (f : Feed) (g : FeedRec → FeedRec) :
    (s.withFeed f g).watches = s.watches := rfl
@[simp] theorem State.withFeed_outlet (s : State) (f : Feed) (g : FeedRec → FeedRec) :
    (s.withFeed f g).outlet = s.outlet := rfl
@[simp] theorem State.withFeed_sense (s : State) (f : Feed) (g : FeedRec → FeedRec) :
    (s.withFeed f g).sense = s.sense := rfl
@[simp] theorem State.withFeed_traps (s : State) (f : Feed) (g : FeedRec → FeedRec) :
    (s.withFeed f g).traps = s.traps := rfl
@[simp] theorem State.withFeed_link (s : State) (f : Feed) (g : FeedRec → FeedRec) :
    (s.withFeed f g).link = s.link := rfl
@[simp] theorem State.withFeed_factory (s : State) (f : Feed) (g : FeedRec → FeedRec) :
    (s.withFeed f g).factory = s.factory := rfl
@[simp] theorem State.withFeed_time (s : State) (f : Feed) (g : FeedRec → FeedRec) :
    (s.withFeed f g).time = s.time := rfl
@[simp] theorem State.withFeed_cause (s : State) (f : Feed) (g : FeedRec → FeedRec) :
    (s.withFeed f g).cause = s.cause := rfl
@[simp] theorem State.withFeed_resetting (s : State) (f : Feed) (g : FeedRec → FeedRec) :
    (s.withFeed f g).resetting = s.resetting := rfl
@[simp] theorem State.withFeed_pending (s : State) (f : Feed) (g : FeedRec → FeedRec) :
    (s.withFeed f g).pending = s.pending := rfl

/-! ## `State.withLink` -/

@[simp] theorem State.withLink_ports (s : State) (g : Link → Link) : (s.withLink g).ports = s.ports := rfl
@[simp] theorem State.withLink_feeds (s : State) (g : Link → Link) : (s.withLink g).feeds = s.feeds := rfl
@[simp] theorem State.withLink_control (s : State) (g : Link → Link) : (s.withLink g).control = s.control := rfl
@[simp] theorem State.withLink_tables (s : State) (g : Link → Link) : (s.withLink g).tables = s.tables := rfl
@[simp] theorem State.withLink_watches (s : State) (g : Link → Link) : (s.withLink g).watches = s.watches := rfl
@[simp] theorem State.withLink_outlet (s : State) (g : Link → Link) : (s.withLink g).outlet = s.outlet := rfl
@[simp] theorem State.withLink_sense (s : State) (g : Link → Link) : (s.withLink g).sense = s.sense := rfl
@[simp] theorem State.withLink_traps (s : State) (g : Link → Link) : (s.withLink g).traps = s.traps := rfl
@[simp] theorem State.withLink_link (s : State) (g : Link → Link) : (s.withLink g).link = g s.link := rfl
@[simp] theorem State.withLink_factory (s : State) (g : Link → Link) : (s.withLink g).factory = s.factory := rfl
@[simp] theorem State.withLink_time (s : State) (g : Link → Link) : (s.withLink g).time = s.time := rfl
@[simp] theorem State.withLink_cause (s : State) (g : Link → Link) : (s.withLink g).cause = s.cause := rfl
@[simp] theorem State.withLink_resetting (s : State) (g : Link → Link) : (s.withLink g).resetting = s.resetting := rfl
@[simp] theorem State.withLink_pending (s : State) (g : Link → Link) : (s.withLink g).pending = s.pending := rfl

/-! ## `State.answered` -/

@[simp] theorem State.answered_ports (s : State) (c : Byte) (r : ResultCode) (d : List Field) :
    (s.answered c r d).ports = s.ports := rfl
@[simp] theorem State.answered_feeds (s : State) (c : Byte) (r : ResultCode) (d : List Field) :
    (s.answered c r d).feeds = s.feeds := rfl
@[simp] theorem State.answered_control (s : State) (c : Byte) (r : ResultCode) (d : List Field) :
    (s.answered c r d).control = s.control := rfl
@[simp] theorem State.answered_tables (s : State) (c : Byte) (r : ResultCode) (d : List Field) :
    (s.answered c r d).tables = s.tables := rfl
@[simp] theorem State.answered_watches (s : State) (c : Byte) (r : ResultCode) (d : List Field) :
    (s.answered c r d).watches = s.watches := rfl
@[simp] theorem State.answered_outlet (s : State) (c : Byte) (r : ResultCode) (d : List Field) :
    (s.answered c r d).outlet = s.outlet := rfl
@[simp] theorem State.answered_sense (s : State) (c : Byte) (r : ResultCode) (d : List Field) :
    (s.answered c r d).sense = s.sense := rfl
@[simp] theorem State.answered_traps (s : State) (c : Byte) (r : ResultCode) (d : List Field) :
    (s.answered c r d).traps = s.traps := rfl
@[simp] theorem State.answered_link (s : State) (c : Byte) (r : ResultCode) (d : List Field) :
    (s.answered c r d).link = { s.link with rxBuffer := [], held := some c, markArmed := false, pendingResult := some ⟨c, r, d⟩ } := rfl
@[simp] theorem State.answered_factory (s : State) (c : Byte) (r : ResultCode) (d : List Field) :
    (s.answered c r d).factory = s.factory := rfl
@[simp] theorem State.answered_time (s : State) (c : Byte) (r : ResultCode) (d : List Field) :
    (s.answered c r d).time = s.time := rfl
@[simp] theorem State.answered_cause (s : State) (c : Byte) (r : ResultCode) (d : List Field) :
    (s.answered c r d).cause = s.cause := rfl
@[simp] theorem State.answered_resetting (s : State) (c : Byte) (r : ResultCode) (d : List Field) :
    (s.answered c r d).resetting = s.resetting := rfl
@[simp] theorem State.answered_pending (s : State) (c : Byte) (r : ResultCode) (d : List Field) :
    (s.answered c r d).pending = s.pending := rfl

/-! ## `State.withPending` -/

@[simp] theorem State.withPending_ports (s : State) (cs : List Instr) : (s.withPending cs).ports = s.ports := rfl
@[simp] theorem State.withPending_feeds (s : State) (cs : List Instr) : (s.withPending cs).feeds = s.feeds := rfl
@[simp] theorem State.withPending_control (s : State) (cs : List Instr) : (s.withPending cs).control = s.control := rfl
@[simp] theorem State.withPending_tables (s : State) (cs : List Instr) : (s.withPending cs).tables = s.tables := rfl
@[simp] theorem State.withPending_watches (s : State) (cs : List Instr) : (s.withPending cs).watches = s.watches := rfl
@[simp] theorem State.withPending_outlet (s : State) (cs : List Instr) : (s.withPending cs).outlet = s.outlet := rfl
@[simp] theorem State.withPending_sense (s : State) (cs : List Instr) : (s.withPending cs).sense = s.sense := rfl
@[simp] theorem State.withPending_traps (s : State) (cs : List Instr) : (s.withPending cs).traps = s.traps := rfl
@[simp] theorem State.withPending_link (s : State) (cs : List Instr) : (s.withPending cs).link = s.link := rfl
@[simp] theorem State.withPending_factory (s : State) (cs : List Instr) : (s.withPending cs).factory = s.factory := rfl
@[simp] theorem State.withPending_time (s : State) (cs : List Instr) : (s.withPending cs).time = s.time := rfl
@[simp] theorem State.withPending_cause (s : State) (cs : List Instr) : (s.withPending cs).cause = s.cause := rfl
@[simp] theorem State.withPending_resetting (s : State) (cs : List Instr) :
    (s.withPending cs).resetting = s.resetting := rfl
@[simp] theorem State.withPending_pending (s : State) (cs : List Instr) : (s.withPending cs).pending = cs := rfl

/-! ## Reading a port or a feed -/

@[simp] theorem updPort_port_self (p : Port) (g : PortRec → PortRec) (w : Ev) : (updPort p g w).port p = g (w.port p) := by
  simp [State.port]

@[simp] theorem updPort_port_of_ne {p q : Port} (g : PortRec → PortRec) (w : Ev) (h : q ≠ p) :
    (updPort p g w).port q = w.port q := by
  simp [State.port, h]

@[simp] theorem updFeed_feed_self (f : Feed) (g : FeedRec → FeedRec) (w : Ev) : (updFeed f g w).feed f = g (w.feed f) := by
  simp [State.feed]

@[simp] theorem updFeed_feed_of_ne {f k : Feed} (g : FeedRec → FeedRec) (w : Ev) (h : k ≠ f) :
    (updFeed f g w).feed k = w.feed k := by
  simp [State.feed, h]

@[simp] theorem State.withPort_port_self (s : State) (p : Port) (g : PortRec → PortRec) :
    (s.withPort p g).port p = g (s.port p) := by
  simp [State.port]

@[simp] theorem State.withPort_port_of_ne (s : State) {p q : Port} (g : PortRec → PortRec) (h : q ≠ p) :
    (s.withPort p g).port q = s.port q := by
  simp [State.port, h]

@[simp] theorem State.withFeed_feed_self (s : State) (f : Feed) (g : FeedRec → FeedRec) :
    (s.withFeed f g).feed f = g (s.feed f) := by
  simp [State.feed]

@[simp] theorem updFeed_port (f : Feed) (g : FeedRec → FeedRec) (w : Ev) (p : Port) : (updFeed f g w).port p = w.port p := rfl
@[simp] theorem updLink_port (g : Link → Link) (w : Ev) (p : Port) : (updLink g w).port p = w.port p := rfl
@[simp] theorem updOutlet_port (g : Outlet → Outlet) (w : Ev) (p : Port) : (updOutlet g w).port p = w.port p := rfl
@[simp] theorem raiseTrigger_port (w : Ev) (p : Port) : (raiseTrigger w).port p = w.port p := rfl
@[simp] theorem setNotice_port (n : Notice) (w : Ev) (p : Port) : (setNotice n w).port p = w.port p := rfl
@[simp] theorem setTrim_port (f : Feed) (t : Option Nat) (w : Ev) (p : Port) : (setTrim f t w).port p = w.port p := rfl
@[simp] theorem updPort_feed (p : Port) (g : PortRec → PortRec) (w : Ev) (f : Feed) : (updPort p g w).feed f = w.feed f := rfl
@[simp] theorem updLink_feed (g : Link → Link) (w : Ev) (f : Feed) : (updLink g w).feed f = w.feed f := rfl
@[simp] theorem updOutlet_feed (g : Outlet → Outlet) (w : Ev) (f : Feed) : (updOutlet g w).feed f = w.feed f := rfl
@[simp] theorem raiseTrigger_feed (w : Ev) (f : Feed) : (raiseTrigger w).feed f = w.feed f := rfl
@[simp] theorem setNotice_feed (n : Notice) (w : Ev) (f : Feed) : (setNotice n w).feed f = w.feed f := rfl
@[simp] theorem setTrim_feed (k : Feed) (t : Option Nat) (w : Ev) (f : Feed) : (setTrim k t w).feed f = w.feed f := rfl

/-! ## The state an update leaves -/

theorem updPort_toState (p : Port) (g : PortRec → PortRec) (w : Ev) : (updPort p g w).toState = w.toState.withPort p g := rfl
theorem updFeed_toState (f : Feed) (g : FeedRec → FeedRec) (w : Ev) : (updFeed f g w).toState = w.toState.withFeed f g := rfl
theorem updLink_toState (g : Link → Link) (w : Ev) : (updLink g w).toState = w.toState.withLink g := rfl
theorem raiseTrigger_toState (w : Ev) : (raiseTrigger w).toState = w.toState := rfl

theorem State.withPort_withPort (s : State) (p : Port) (g h : PortRec → PortRec) :
    (s.withPort p g).withPort p h = s.withPort p (fun r => h (g r)) := by
  simp [State.withPort]

theorem State.withLink_withLink (s : State) (g h : Link → Link) :
    (s.withLink g).withLink h = s.withLink (fun l => h (g l)) := rfl

end Machine
end Sys2Proof
end

