-- ==== Sys2Proof/Laws/Events.lean ====
section
/-! SUPPORT. What an event comes to: outside a full reset it acts and closes; the close of an event that owes nothing is
the state it left. -/
namespace Sys2Proof.Machine

theorem resetting_of_running {s : State} (h : s.running = true) : s.resetting = none := by
  simpa [State.running] using h

theorem running_of_takes {s : State} (h : s.takes = true) : s.running = true := by
  simp [State.takes] at h; exact h.1.1

theorem held_of_takes {s : State} (h : s.takes = true) : s.link.held = none := by
  simp [State.takes] at h; exact h.1.2

theorem burn_of_takes {s : State} (h : s.takes = true) : s.factory.burn = none := by
  simp [State.takes] at h; exact h.2

/-- Outside a full reset an event acts and closes (R216). -/
theorem takeEvent_running {s : State} (h : s.running = true) (act : Ev → Ev) :
    takeEvent act s = .next (closeEvent (act (Ev.start s))) := by
  simp [takeEvent, runEvent, resetting_of_running h]

/-- While a full reset lasts an event changes nothing (R216; log 5). -/
theorem takeEvent_resetting {s : State} (h : s.running = false) (act : Ev → Ev) : takeEvent act s = .next s := by
  cases hr : s.resetting with
  | none => simp [State.running, hr] at h
  | some c => simp [takeEvent, runEvent, hr]

/-- The controller does nothing at the close of an event that owes it nothing. -/
theorem settleController_quiet {w : Ev} (n : Nat) (ht : w.trig = false) (he : w.ended = none) :
    settleController (n + 1) w = w := by
  simp [settleController, ht, he]

/-- The close of an event that owes nothing leaves its state. -/
theorem closeEvent_quiet {w : Ev} (ht : w.trig = false) (he : w.ended = none) (hr : w.readmit = false) :
    closeEvent w = w.toState := by
  simp [closeEvent, settleBound, settleController_quiet, ht, he, hr]

/-- An event that leaves nothing owed comes to the state it left. -/
theorem takeEvent_quiet {s : State} (h : s.running = true) (act : Ev → Ev) (ht : (act (Ev.start s)).trig = false)
    (he : (act (Ev.start s)).ended = none) (hr : (act (Ev.start s)).readmit = false) :
    takeEvent act s = .next (act (Ev.start s)).toState := by
  rw [takeEvent_running h, closeEvent_quiet ht he hr]

/-- A request that is acted on: the request is held, its mark cleared, and the answer decided from the mark as it stood
(R193, R204). -/
theorem requestEvent_takes {s : State} (h : s.takes = true) (code : Byte) (params : List Byte)
    (hl : params.length ≤ 128) (dec : Bool → Ev → Answer) :
    requestEvent code params dec s =
      .next (closeEvent (placeResult code (dec s.link.markArmed
        (updLink (fun l => { l with held := some code, markArmed := false })
          (updLink (fun l => { l with rxBuffer := [] }) (Ev.start s)))))) := by
  rw [requestEvent, takeEvent_running (running_of_takes h)]
  simp [takeRequest, held_of_takes h, burn_of_takes h, Config.maxSystemPayload, Nat.not_lt.mpr hl]

/-- A request answered with a result code alone, which does nothing else. -/
theorem requestEvent_refused {s : State} (h : s.takes = true) (code : Byte) (params : List Byte)
    (hl : params.length ≤ 128) (dec : Bool → Ev → Answer) (r : ResultCode) (data : List Field)
    (hd : ∀ w : Ev, w = updLink (fun l => { l with held := some code, markArmed := false })
      (updLink (fun l => { l with rxBuffer := [] }) (Ev.start s)) → dec s.link.markArmed w = ⟨w, r, data⟩) :
    requestEvent code params dec s = .next (s.answered code r data) := by
  rw [requestEvent_takes h code params hl, hd _ rfl, closeEvent_quiet] <;> simp [placeResult]
  rfl

end Sys2Proof.Machine
end

