-- ==== Sys2Proof/Laws/Outlet.lean ====
section
/-! SUPPORT. The outlet allocator (chapter 7): sums of entries, and what the two passes of a shrink do to a grant list
(R152). -/
namespace Sys2Proof.Machine

@[simp] theorem sumCurrents_nil : sumCurrents [] = 0 := rfl

@[simp] theorem sumCurrents_cons (g : GrantEntry) (gs : List GrantEntry) :
    sumCurrents (g :: gs) = g.current + sumCurrents gs := by
  simp [sumCurrents]

@[simp] theorem sumCurrents_append (xs ys : List GrantEntry) :
    sumCurrents (xs ++ ys) = sumCurrents xs + sumCurrents ys := by
  simp [sumCurrents]

@[simp] theorem sumCurrents_reverse (gs : List GrantEntry) : sumCurrents gs.reverse = sumCurrents gs := by
  simp [sumCurrents]

theorem sumCurrents_filter_le (q : GrantEntry → Bool) (gs : List GrantEntry) : sumCurrents (gs.filter q) ≤ sumCurrents gs := by
  induction gs with
  | nil => simp
  | cons g gs ih =>
    rw [List.filter_cons]
    split <;> simp <;> omega

/-- Pass 2 keeps what fits the pool. -/
theorem keptEntries_sum (pool : Nat) (gs : List GrantEntry) : sumCurrents (keptEntries pool gs) ≤ pool := by
  induction gs with
  | nil => simp [keptEntries]
  | cons g gs ih =>
    unfold keptEntries
    split
    · exact ih
    · omega

/-- Pass 2 removes the newest entries and keeps the rest, in order. -/
theorem removed_append_kept (pool : Nat) (gs : List GrantEntry) :
    removedEntries pool gs ++ keptEntries pool gs = gs := by
  induction gs with
  | nil => simp [keptEntries, removedEntries]
  | cons g gs ih =>
    unfold keptEntries removedEntries
    split
    · simpa using ih
    · simp

/-- Pass 2 removes nothing where the sum fits the pool. -/
theorem keptEntries_of_fits {pool : Nat} {gs : List GrantEntry} (h : sumCurrents gs ≤ pool) : keptEntries pool gs = gs := by
  cases gs with
  | nil => rfl
  | cons g gs =>
    unfold keptEntries
    rw [if_neg (by omega)]

@[simp] theorem cutEntries_length (e : Nat) (gs : List GrantEntry) : (cutEntries e gs).length = gs.length := by
  induction gs generalizing e with
  | nil => rfl
  | cons g gs ih => simp [cutEntries, ih]

/-- Pass 1 keeps the entries' ports, in order. -/
theorem cutEntries_ports (e : Nat) (gs : List GrantEntry) : (cutEntries e gs).map (·.port) = gs.map (·.port) := by
  induction gs generalizing e with
  | nil => rfl
  | cons g gs ih => simp [cutEntries, ih]

/-- Pass 1 changes nothing of an entry but its current, which falls to 500 mA at the least, and only in GRANTED entries. -/
theorem cutEntries_spec (e : Nat) (gs : List GrantEntry) :
    ∀ q ∈ (cutEntries e gs).zip gs, q.1 = { q.2 with current := q.1.current } ∧ q.1.current ≤ q.2.current
      ∧ min q.2.current 500 ≤ q.1.current ∧ (q.2.kind = .base → q.1.current = q.2.current) := by
  induction gs generalizing e with
  | nil => simp [cutEntries]
  | cons g gs ih =>
    intro q hq
    simp only [cutEntries, List.zip_cons_cons, List.mem_cons] at hq
    rcases hq with rfl | hq
    · refine ⟨rfl, by dsimp only; omega, ?_, ?_⟩
      · dsimp only [Config.defaultAllowance]
        split <;> omega
      · intro hb
        rw [if_neg (by rw [show g.kind = .base from hb]; decide)]
        rfl
    · exact ih _ q hq

/-- Pass 1 lowers the sum and never by more than the excess. -/
theorem cutEntries_sum (e : Nat) (gs : List GrantEntry) :
    sumCurrents (cutEntries e gs) ≤ sumCurrents gs ∧ sumCurrents gs ≤ sumCurrents (cutEntries e gs) + e := by
  induction gs generalizing e with
  | nil => simp [cutEntries]
  | cons g gs ih =>
    unfold cutEntries
    dsimp only
    generalize hd : (if g.kind = .granted then min e (g.current - Config.defaultAllowance) else 0) = d
    have h := ih (e - d)
    rw [sumCurrents_cons, sumCurrents_cons]
    dsimp only
    have hle : d ≤ e ∧ d ≤ g.current := by
      subst hd
      split <;> omega
    omega

/-- The entry a port is admitted with fits the free room (R147). -/
theorem admit_fits {o : Outlet} (h : Config.defaultAllowance ≤ o.freeRoom) : sumCurrents o.grants + 500 ≤ o.pool := by
  simp only [Outlet.freeRoom, Config.defaultAllowance] at h
  omega

/-- The grant of R149 leaves the sum with the other entries within the pool. -/
theorem drawGrant_fits (s : State) (p : Port) (asked : Nat)
    (h : sumCurrents (s.outlet.grants.filter (·.port != p)) ≤ s.outlet.pool) :
    sumCurrents (s.outlet.grants.filter (·.port != p)) + s.drawGrant p asked ≤ s.outlet.pool := by
  have : s.drawGrant p asked ≤ s.outlet.pool - sumCurrents (s.outlet.grants.filter (·.port != p)) :=
    Nat.min_le_right _ _
  omega

/-! ## The feeds stand while the pool is computed -/

theorem foldl_feeds {α : Type} (g : Ev → α → Ev) (h : ∀ w x, (g w x).feeds = w.feeds) (xs : List α) (w : Ev) :
    (xs.foldl g w).feeds = w.feeds := by
  induction xs generalizing w with
  | nil => rfl
  | cons x xs ih => rw [List.foldl_cons, ih, h]

theorem announceCut_feeds (w : Ev) (c : Port × Nat) : (announceCut w c).feeds = w.feeds := by
  simp only [announceCut, decideFrame, setNotice_feeds]
  repeat' split
  all_goals simp

theorem expelPort_feeds (w : Ev) (g : GrantEntry) : (expelPort w g).feeds = w.feeds := by
  simp [expelPort, parkForPool]

@[simp] theorem shrinkPool_feeds (w : Ev) : (shrinkPool w).feeds = w.feeds := by
  simp only [shrinkPool]
  rw [foldl_feeds _ expelPort_feeds, foldl_feeds _ announceCut_feeds]
  simp

/-- The pool's computation writes ports and outlet, and no feed (R146, R152). -/
@[simp] theorem recomputePool_feeds (w : Ev) : (recomputePool w).feeds = w.feeds := by
  simp only [recomputePool]
  repeat' split
  all_goals simp

end Sys2Proof.Machine
end

