-- ==== Sys2Proof/Laws/Feeds.lean ====
section
/-! SUPPORT. Limit targets and outputs (R134 to R137): what a target computation, a ramp expiry and an opening do. -/
namespace Sys2Proof.Machine

theorem capBy_le (x : Nat) (o : Option Nat) : capBy x o ≤ x := by
  cases o <;> simp [capBy]

theorem capBy_some_le (x y : Nat) : capBy x (some y) ≤ y := by
  simp [capBy]

theorem capBy_mono {x y : Nat} (h : x ≤ y) (o : Option Nat) : capBy x o ≤ capBy y o := by
  cases o <;> simp [capBy] <;> omega

/-- Removing a trim value never lowers a limit target. -/
theorem limitTarget_le_none (r : FeedRec) (t : Option Nat) : limitTarget r t ≤ limitTarget r none := by
  unfold limitTarget
  split <;> try exact Nat.le_refl _
  · exact capBy_mono (capBy_le _ _) _
  · split
    · exact Nat.le_refl _
    · exact capBy_mono (capBy_le _ _) _

/-- A limit target is at most the trim value (R120). -/
theorem limitTarget_le_trim (r : FeedRec) (i : Nat) : limitTarget r (some i) ≤ i := by
  unfold limitTarget
  split <;> try exact Nat.zero_le _
  · exact (capBy_le _ _).trans (capBy_some_le _ _)
  · split
    · exact Nat.zero_le _
    · exact (capBy_le _ _).trans (capBy_some_le _ _)

/-- Outside BASE and CONTRACT the limit target is 0 (R134). -/
theorem limitTarget_of_not_powered {r : FeedRec} (h : r.powered = false) (t : Option Nat) : limitTarget r t = 0 := by
  unfold limitTarget
  unfold FeedRec.powered at h
  split <;> simp_all

/-- All that a target computation does (R134 to R136): the target is the limit target, the output falls to it or stands,
and only target, output and ramp timer change. -/
theorem retarget_spec (t : Option Nat) (r : FeedRec) :
    ∃ ramp, FeedRec.retarget t r
      = { r with target := limitTarget r t, output := min r.output (limitTarget r t), ramp := ramp } := by
  by_cases h : limitTarget r t ≤ r.output
  · exact ⟨.stopped, by simp [FeedRec.retarget, h]⟩
  · exact ⟨if r.ramp = .stopped then .armed else r.ramp, by
      simp [FeedRec.retarget, h, Nat.min_eq_left (Nat.le_of_lt (Nat.lt_of_not_le h))]⟩

@[simp] theorem retarget_state (t : Option Nat) (r : FeedRec) : (FeedRec.retarget t r).state = r.state := by
  obtain ⟨_, h⟩ := retarget_spec t r; rw [h]
@[simp] theorem retarget_view (t : Option Nat) (r : FeedRec) : (FeedRec.retarget t r).view = r.view := by
  obtain ⟨_, h⟩ := retarget_spec t r; rw [h]
@[simp] theorem retarget_stepCap (t : Option Nat) (r : FeedRec) : (FeedRec.retarget t r).stepCap = r.stepCap := by
  obtain ⟨_, h⟩ := retarget_spec t r; rw [h]
@[simp] theorem retarget_selected (t : Option Nat) (r : FeedRec) : (FeedRec.retarget t r).selected = r.selected := by
  obtain ⟨_, h⟩ := retarget_spec t r; rw [h]
@[simp] theorem retarget_target (t : Option Nat) (r : FeedRec) : (FeedRec.retarget t r).target = limitTarget r t := by
  obtain ⟨_, h⟩ := retarget_spec t r; rw [h]
@[simp] theorem retarget_output (t : Option Nat) (r : FeedRec) :
    (FeedRec.retarget t r).output = min r.output (limitTarget r t) := by
  obtain ⟨_, h⟩ := retarget_spec t r; rw [h]

theorem retarget_output_le_target (t : Option Nat) (r : FeedRec) :
    (FeedRec.retarget t r).output ≤ (FeedRec.retarget t r).target := by
  simp

/-- The limit target reads a feed's state, view and step cap alone. -/
theorem limitTarget_congr {r q : FeedRec} (hs : q.state = r.state) (hv : q.view = r.view) (hc : q.stepCap = r.stepCap)
    (t : Option Nat) : limitTarget q t = limitTarget r t := by
  simp [limitTarget, hs, hv, hc]

/-- After a target computation the feed is within R134. -/
theorem retarget_limitHolds (t : Option Nat) (r : FeedRec) : (FeedRec.retarget t r).limitHolds t = true := by
  have h := limitTarget_congr (r := r) (q := FeedRec.retarget t r) (by simp) (by simp) (by simp) t
  simp [FeedRec.limitHolds, h]

/-- A feed stays within R134 where its output and target stand and its limit target does not fall. -/
theorem limitHolds_mono {r q : FeedRec} {t u : Option Nat} (h : r.limitHolds t = true) (ho : q.output = r.output)
    (hg : q.target = r.target) (hl : limitTarget r t ≤ limitTarget q u) : q.limitHolds u = true := by
  simp [FeedRec.limitHolds] at h ⊢
  omega

/-- An output and a target of 0 are within R134. -/
theorem limitHolds_of_zero {r : FeedRec} (ho : r.output = 0) (hg : r.target = 0) (t : Option Nat) :
    r.limitHolds t = true := by
  simp [FeedRec.limitHolds, ho, hg]

/-- A ramp expiry raises the output by at most the ramp step, and never above the target (R136). -/
theorem climb_output (step interval : Nat) (r : FeedRec) :
    (r.climb step interval).output = r.output + min step (r.target - r.output)
      ∧ (r.output ≤ r.target → (r.climb step interval).output ≤ r.target)
      ∧ (r.climb step interval).target = r.target := by
  refine ⟨rfl, fun h => ?_, rfl⟩
  show r.output + min step (r.target - r.output) ≤ r.target
  omega

/-- All that an opening does to output, target and switches (R130, R131, R140). -/
theorem openSwitch_spec (r : FeedRec) :
    r.openSwitch.output = 0 ∧ r.openSwitch.target = 0 ∧ r.openSwitch.selected = none ∧ r.openSwitch.driveLead = .opened
      ∧ r.openSwitch.driveOther = .opened ∧ r.openSwitch.view = none ∧ r.openSwitch.stepCap = none
      ∧ r.openSwitch.check = .idle ∧ r.openSwitch.overdraw = .off ∧ r.openSwitch.underVolt = .off
      ∧ r.openSwitch.heldClose = r.heldClose ∧ r.openSwitch.heldLost = r.heldLost ∧ r.openSwitch.gap = r.gap ∧ r.openSwitch.derate = r.derate
      ∧ r.openSwitch.shed = r.shed := by
  simp [FeedRec.openSwitch]

/-- An opening writes the feed's record by `openSwitch` and the state it opens into (R130, R131, R140). -/
theorem openInto_feed (st : FeedState) (f : Feed) (w : Ev) :
    (openInto st f w).feed f = { (w.feed f).openSwitch with state := st } := by
  simp only [openInto]
  split <;> simp [State.feed]

theorem openInto_feed_of_ne {f g : Feed} (h : g ≠ f) (st : FeedState) (w : Ev) : (openInto st f w).feed g = w.feed g := by
  simp only [openInto]
  split <;> simp [State.feed, h]

/-- All that entering a port state does to the port record (chapter 2). -/
theorem enter_port (p : Port) (st : PortState) (w : Ev) : (enter p st w).port p = { w.port p with state := st } := by
  simp only [enter]
  split <;> simp

/-- All that entering DEBOUNCE does to the port record: the timer is loaded at once (R2). -/
theorem enterDebounce_port (p : Port) (w : Ev) :
    (enterDebounce p w).port p =
      { w.port p with state := .debounce, timer := .running .debounce w.tables.timing.debounce } := by
  simp [enterDebounce, enter_port]

/-- All that abandoning a port's frames does (R3, R5). -/
theorem abandonFrames_port (p q : Port) (w : Ev) :
    (abandonFrames p w).port q =
      if q = p then { w.port p with order := [], tx := none, rxBusy := false } else w.port q := by
  by_cases h : q = p
  · subst h
    simp [abandonFrames]
  · simp [abandonFrames, h]

/-- All that leaving HELD does to a feed: a CLOSE_CHECK of the port ends in a failed CLOSE, else a held close of the port is
marked as lost, else nothing (R129). -/
theorem leaveHeld_spec (p : Port) (w : Ev) :
    (w.closeChecking p = true → leaveHeld p w = failClose p .superseded (dropCloseCheck p w))
      ∧ (w.closeChecking p = false → w.closeHeld p = true →
        leaveHeld p w = updFeed (feedOf p) (fun r => { r with heldLost := true }) w)
      ∧ (w.closeChecking p = false → w.closeHeld p = false → leaveHeld p w = w) := by
  refine ⟨fun h => ?_, fun h k => ?_, fun h k => ?_⟩
  · simp [leaveHeld, h]
  · simp [leaveHeld, h, k]
  · simp [leaveHeld, h, k]

/-- All that a fault does to its feed: the switch opened, nothing in progress left, the fault recorded, a trigger raised
(R140). -/
theorem faultFeed_spec (f : Feed) (p : Port) (w : Ev) :
    (faultFeed f p w).feed f = { (w.feed f).openSwitch with
        state := .fault, faultReason := .overdraw, faultPort := some p, faultTime := some w.time }
      ∧ (faultFeed f p w).trig = true ∧ (∀ g, g ≠ f → (faultFeed f p w).feed g = w.feed g) := by
  refine ⟨?_, rfl, fun g h => ?_⟩
  · simp [faultFeed, openInto_feed]
  · simp [faultFeed, openInto_feed_of_ne h, h]

/-- What a target computation under a trim value of at most the output makes of a feed (R118 to R120). -/
theorem retarget_trimmed (r : FeedRec) (t : Option Nat) (i : Nat) :
    r.trimmed t (some (min r.output i)) (FeedRec.retarget (some (min r.output i)) r) (some (min r.output i)) := by
  have hle := limitTarget_le_trim r (min r.output i)
  have ht : limitTarget r (some (min r.output i)) ≤ r.output := by omega
  refine ⟨rfl, by simp [FeedRec.retarget, ht], by simp [FeedRec.retarget, ht, hle], fun h => ?_⟩
  have hlow : min r.output i ≤ limitTarget r (some (min r.output i)) := by
    have hn := limitTarget_le_none r t
    simp only [FeedRec.limitHolds, Bool.and_eq_true, decide_eq_true_eq] at h
    have ho : r.output ≤ limitTarget r none := by omega
    unfold limitTarget at ho ⊢
    split at ho <;> try (split at ho)
    all_goals simp_all [capBy]
    all_goals (try split at ho) <;> simp_all <;> omega
  have heq : limitTarget r (some (min r.output i)) = min r.output i := by omega
  simp [FeedRec.retarget, heq]

/-- A trim of one feed leaves the other feed and its trim value alone. -/
theorem trimTo_other {f g : Feed} (h : g ≠ f) (i : Nat) (w : Ev) :
    (trimTo f i w).feed g = w.feed g ∧ (trimTo f i w).control.trim.get g = w.control.trim.get g := by
  cases f <;> cases g <;> simp_all [trimTo, retarget, setTrim, updFeed, State.feed, PerFeed.get, PerFeed.set]

/-- A trim stores the lower of output and `i` as the feed's trim value and computes its target again under it (R118, R120). -/
theorem trimTo_same (f : Feed) (i : Nat) (w : Ev) :
    (trimTo f i w).feed f = FeedRec.retarget (some (min (w.feed f).output i)) (w.feed f)
      ∧ (trimTo f i w).control.trim.get f = some (min (w.feed f).output i) := by
  cases f <;> simp [trimTo, retarget, setTrim, updFeed, State.feed, PerFeed.get, PerFeed.set]

/-- All that the trim for a lowered ceiling does to feeds and controller (R118, R120). -/
theorem trimForCeiling_trimsTo (w : Ev) :
    w.toState.trimsTo (w.ceilingTrim w.effectiveCeiling) (trimForCeiling w).toState := by
  by_cases hc : w.effectiveCeiling < w.committed .F0 + w.committed .F1
  · refine ⟨fun f => ?_, by simp only [trimForCeiling, hc, if_true]; split <;> split <;> rfl⟩
    have h01 := trimTo_other (f := .F0) (g := .F1) (by decide)
    have h10 := trimTo_other (f := .F1) (g := .F0) (by decide)
    simp only [trimForCeiling, State.ceilingTrim, State.committedTotal, hc, if_true, true_and]
    by_cases h0 : (w.feed .F0).powered = true <;> by_cases h1 : (w.feed .F1).powered = true <;>
      cases f <;> simp only [h0, h1, h01, h10, trimTo_same, trimShare, if_true, if_false, Bool.false_eq_true]
    all_goals first | exact retarget_trimmed _ _ _ | exact ⟨rfl, rfl⟩
  · simp only [trimForCeiling, hc, if_false]
    exact ⟨fun f => by simp [State.ceilingTrim, State.committedTotal, hc, FeedRec.trimmed], rfl⟩

/-- The trim of a feed: its output comes to at most `i`, and the trim value is the lower of the two (R118, R120). -/
theorem trimTo_spec (f : Feed) (i : Nat) (w : Ev) :
    ((trimTo f i w).feed f).output ≤ min (w.feed f).output i
      ∧ (trimTo f i w).control.trim.get f = some (min (w.feed f).output i)
      ∧ (trimTo f i w).ports = w.ports ∧ (trimTo f i w).control.plan = w.control.plan := by
  refine ⟨?_, by simp [trimTo, retarget], by simp [trimTo, retarget], by simp [trimTo, retarget]⟩
  have h := limitTarget_le_trim (w.feed f) (min (w.feed f).output i)
  simp [trimTo, retarget]
  omega

end Sys2Proof.Machine
end

