-- ==== Sys2Proof/Laws/Frames.lean ====
section
/-! SUPPORT. What the operations of the blocks leave alone: `State.rest` (tables, watches, samples, traps, link but for its
notices, factory record, time base, queue) of every operation that is no operation of those parts. -/
namespace Sys2Proof.Machine

/-! ## Record updates -/

@[simp] theorem updPort_rest (p : Port) (g : PortRec → PortRec) (w : Ev) : (updPort p g w).rest = w.rest := rfl
@[simp] theorem updFeed_rest (f : Feed) (g : FeedRec → FeedRec) (w : Ev) : (updFeed f g w).rest = w.rest := rfl
@[simp] theorem updOutlet_rest (g : Outlet → Outlet) (w : Ev) : (updOutlet g w).rest = w.rest := rfl
@[simp] theorem raiseTrigger_rest (w : Ev) : (raiseTrigger w).rest = w.rest := rfl
@[simp] theorem setNotice_rest (n : Notice) (w : Ev) : (setNotice n w).rest = w.rest := rfl
@[simp] theorem setTrim_rest (f : Feed) (t : Option Nat) (w : Ev) : (setTrim f t w).rest = w.rest := rfl

/-! ## Shared operations -/

@[simp] theorem decideFrame_rest (p : Port) (f : OutFrame) (w : Ev) : (decideFrame p f w).rest = w.rest := by simp [decideFrame]

@[simp] theorem discardClaims_rest (p : Port) (w : Ev) : (discardClaims p w).rest = w.rest := by simp [discardClaims]

@[simp] theorem stopTimer_rest (p : Port) (w : Ev) : (stopTimer p w).rest = w.rest := by simp [stopTimer]

@[simp] theorem startTimer_rest (p : Port) (u : TimerUse) (w : Ev) : (startTimer p u w).rest = w.rest := by simp [startTimer]

@[simp] theorem recordFailure_rest (p : Port) (r : FailReason) (w : Ev) : (recordFailure p r w).rest = w.rest := by simp [recordFailure]

@[simp] theorem endStep_rest (status : StepStatus) (w : Ev) : (endStep status w).rest = w.rest := by
  unfold endStep
  split <;> rfl

@[simp] theorem failStep_rest (r : FailReason) (w : Ev) : (failStep r w).rest = w.rest := by
  simp only [failStep]
  repeat' split
  all_goals simp

@[simp] theorem failExchange_rest (p : Port) (r : FailReason) (w : Ev) : (failExchange p r w).rest = w.rest := by
  simp only [failExchange]
  repeat' split
  all_goals simp

@[simp] theorem doneExchange_rest (p : Port) (w : Ev) : (doneExchange p w).rest = w.rest := by
  simp only [doneExchange]
  repeat' split
  all_goals simp

@[simp] theorem failClose_rest (p : Port) (r : FailReason) (w : Ev) : (failClose p r w).rest = w.rest := by
  simp only [failClose]
  repeat' split
  all_goals simp

/-! ## The outlet allocator -/

@[simp] theorem removeEntry_rest (p : Port) (w : Ev) : (removeEntry p w).rest = w.rest := by
  unfold removeEntry
  split <;> rfl

@[simp] theorem forgetParkTime_rest (p : Port) (w : Ev) : (forgetParkTime p w).rest = w.rest := by simp [forgetParkTime]

@[simp] theorem parkForPool_rest (p : Port) (w : Ev) : (parkForPool p w).rest = w.rest := by simp [parkForPool]

@[simp] theorem admitPort_rest (p : Port) (w : Ev) : (admitPort p w).rest = w.rest := by simp [admitPort]

@[simp] theorem requestAdmission_rest (p : Port) (w : Ev) : (requestAdmission p w).rest = w.rest := by
  simp only [requestAdmission]
  repeat' split
  all_goals simp

@[simp] theorem announceCut_rest (w : Ev) (c : Port × Nat) : (announceCut w c).rest = w.rest := by simp [announceCut]

@[simp] theorem expelPort_rest (w : Ev) (g : GrantEntry) : (expelPort w g).rest = w.rest := by simp [expelPort]

theorem foldl_rest {α : Type} (g : Ev → α → Ev) (h : ∀ w x, (g w x).rest = w.rest) (xs : List α) (w : Ev) :
    (xs.foldl g w).rest = w.rest := by
  induction xs generalizing w with
  | nil => rfl
  | cons x xs ih => rw [List.foldl_cons, ih, h]

@[simp] theorem shrinkPool_rest (w : Ev) : (shrinkPool w).rest = w.rest := by
  simp only [shrinkPool]
  rw [foldl_rest _ expelPort_rest, foldl_rest _ announceCut_rest]
  simp

@[simp] theorem recomputePool_rest (w : Ev) : (recomputePool w).rest = w.rest := by
  simp only [recomputePool]
  repeat' split
  all_goals simp

@[simp] theorem setGrant_rest (p : Port) (current : Nat) (w : Ev) : (setGrant p current w).rest = w.rest := by simp [setGrant]

@[simp] theorem decideDraw_rest (p : Port) (requested : Nat) (w : Ev) : (decideDraw p requested w).rest = w.rest := by
  simp only [decideDraw]
  repeat' split
  all_goals simp

@[simp] theorem applyCap_rest (p : Port) (cap : Nat) (w : Ev) : (applyCap p cap w).rest = w.rest := by
  simp only [applyCap]
  repeat' split
  all_goals simp

@[simp] theorem admitInOrder_rest (ps : List Port) (w : Ev) : (admitInOrder ps w).rest = w.rest := by
  induction ps generalizing w with
  | nil => rfl
  | cons p ps ih =>
    simp only [admitInOrder]
    split
    · rw [ih]; simp
    · rfl

@[simp] theorem readmissionPass_rest (w : Ev) : (readmissionPass w).rest = w.rest := by simp [readmissionPass]

/-! ## The feed controllers -/

@[simp] theorem retarget_rest (f : Feed) (w : Ev) : (retarget f w).rest = w.rest := by simp [retarget]

@[simp] theorem setStepCap_rest (f : Feed) (c : Option Nat) (w : Ev) : (setStepCap f c w).rest = w.rest := by simp [setStepCap]

@[simp] theorem openInto_rest (st : FeedState) (f : Feed) (w : Ev) : (openInto st f w).rest = w.rest := by
  simp only [openInto]
  repeat' split
  all_goals simp

@[simp] theorem openWithGap_rest (f : Feed) (w : Ev) : (openWithGap f w).rest = w.rest := by
  simp only [openWithGap]
  repeat' split
  all_goals simp

@[simp] theorem openIfClosedOn_rest (p : Port) (w : Ev) : (openIfClosedOn p w).rest = w.rest := by
  simp only [openIfClosedOn]
  repeat' split
  all_goals simp

@[simp] theorem openForDetach_rest (p : Port) (w : Ev) : (openForDetach p w).rest = w.rest := by
  simp only [openForDetach]
  repeat' split
  all_goals simp

@[simp] theorem startCloseCheck_rest (p : Port) (w : Ev) : (startCloseCheck p w).rest = w.rest := by simp [startCloseCheck]

@[simp] theorem dropCloseCheck_rest (p : Port) (w : Ev) : (dropCloseCheck p w).rest = w.rest := by simp [dropCloseCheck]

@[simp] theorem leaveHeld_rest (p : Port) (w : Ev) : (leaveHeld p w).rest = w.rest := by
  simp only [leaveHeld]
  repeat' split
  all_goals simp

@[simp] theorem detachClose_rest (p : Port) (w : Ev) : (detachClose p w).rest = w.rest := by
  simp only [detachClose]
  repeat' split
  all_goals simp

@[simp] theorem abandonCheck_rest (p : Port) (w : Ev) : (abandonCheck p w).rest = w.rest := by
  simp only [abandonCheck]
  repeat' split
  all_goals simp

@[simp] theorem reportEntered_rest (p : Port) (v i : Nat) (w : Ev) : (reportEntered p v i w).rest = w.rest := by
  simp only [reportEntered]
  repeat' split
  all_goals simp

@[simp] theorem reportRewritten_rest (p : Port) (i : Nat) (w : Ev) : (reportRewritten p i w).rest = w.rest := by
  simp only [reportRewritten]
  repeat' split
  all_goals simp

@[simp] theorem reportRemoved_rest (p : Port) (w : Ev) : (reportRemoved p w).rest = w.rest := by
  simp only [reportRemoved]
  repeat' split
  all_goals simp

@[simp] theorem faultExit_rest (f : Feed) (w : Ev) : (faultExit f w).rest = w.rest := by
  simp only [faultExit]
  repeat' split
  all_goals simp

@[simp] theorem trimTo_rest (f : Feed) (i : Nat) (w : Ev) : (trimTo f i w).rest = w.rest := by simp [trimTo]

@[simp] theorem trimForCeiling_rest (w : Ev) : (trimForCeiling w).rest = w.rest := by
  simp only [trimForCeiling]
  repeat' split
  all_goals simp

@[simp] theorem trimForDerate_rest (f : Feed) (w : Ev) : (trimForDerate f w).rest = w.rest := by
  simp only [trimForDerate]
  repeat' split
  all_goals simp

/-! ## The port units -/

@[simp] theorem enter_rest (p : Port) (st : PortState) (w : Ev) : (enter p st w).rest = w.rest := by
  simp only [enter]
  repeat' split
  all_goals simp

@[simp] theorem dropContract_rest (p : Port) (w : Ev) : (dropContract p w).rest = w.rest := by
  simp only [dropContract]
  repeat' split
  all_goals simp

@[simp] theorem dropClaim_rest (p : Port) (w : Ev) : (dropClaim p w).rest = w.rest := by simp [dropClaim]

@[simp] theorem unpark_rest (p : Port) (w : Ev) : (unpark p w).rest = w.rest := by simp [unpark]

@[simp] theorem clearNegotiation_rest (p : Port) (w : Ev) : (clearNegotiation p w).rest = w.rest := by simp [clearNegotiation]

@[simp] theorem decideRestart_rest (p : Port) (w : Ev) : (decideRestart p w).rest = w.rest := by
  simp only [decideRestart]
  repeat' split
  all_goals simp

@[simp] theorem partnerSendsRestart_rest (p : Port) (w : Ev) : (partnerSendsRestart p w).rest = w.rest := by simp [partnerSendsRestart]

@[simp] theorem setRole_rest (p : Port) (role : Role) (w : Ev) : (setRole p role w).rest = w.rest := by simp [setRole]

@[simp] theorem decideWelcome_rest (p : Port) (role : Role) (w : Ev) : (decideWelcome p role w).rest = w.rest := by simp [decideWelcome]

@[simp] theorem park_rest (p : Port) (reason : ParkReason) (w : Ev) : (park p reason w).rest = w.rest := by simp [park]

@[simp] theorem welcomePartner_rest (p : Port) (cls : PartnerClass) (w : Ev) :
    (welcomePartner p cls w).rest = w.rest := by
  simp only [welcomePartner]
  repeat' split
  all_goals simp

@[simp] theorem greetPartner_rest (p : Port) (a : Announcement) (d : Decision) (w : Ev) :
    (greetPartner p a d w).rest = w.rest := by
  simp only [greetPartner]
  repeat' split
  all_goals simp

@[simp] theorem clearOldPartner_rest (p : Port) (w : Ev) : (clearOldPartner p w).rest = w.rest := by simp [clearOldPartner]

@[simp] theorem deliverAnnounce_rest (p : Port) (a : Announcement) (d : Decision) (w : Ev) :
    (deliverAnnounce p a d w).rest = w.rest := by
  simp only [deliverAnnounce]
  repeat' split
  all_goals simp

@[simp] theorem silentPartner_rest (p : Port) (w : Ev) : (silentPartner p w).rest = w.rest := by
  simp only [silentPartner]
  repeat' split
  all_goals simp

@[simp] theorem storeSheet_rest (p : Port) (lines : List Line) (w : Ev) : (storeSheet p lines w).rest = w.rest := by simp [storeSheet]

@[simp] theorem openClaim_rest (p : Port) (line v i : Nat) (origin : Origin) (held : Bool) (w : Ev) :
    (openClaim p line v i origin held w).rest = w.rest := by simp [openClaim]

@[simp] theorem rewriteContract_rest (p : Port) (line current : Nat) (w : Ev) :
    (rewriteContract p line current w).rest = w.rest := by simp [rewriteContract]

@[simp] theorem protectiveReaction_rest (p : Port) (w : Ev) : (protectiveReaction p w).rest = w.rest := by
  simp only [protectiveReaction]
  repeat' split
  all_goals simp

@[simp] theorem endClaimBySheet_rest (p : Port) (w : Ev) : (endClaimBySheet p w).rest = w.rest := by
  simp only [endClaimBySheet]
  repeat' split
  all_goals simp

@[simp] theorem endSettlingBySheet_rest (p : Port) (w : Ev) : (endSettlingBySheet p w).rest = w.rest := by simp [endSettlingBySheet]

@[simp] theorem deliverSheet_rest (p : Port) (lines : List Line) (w : Ev) : (deliverSheet p lines w).rest = w.rest := by
  simp only [deliverSheet]
  repeat' split
  all_goals simp

@[simp] theorem acceptHeldSheet_rest (p : Port) (lines : List Line) (w : Ev) :
    (acceptHeldSheet p lines w).rest = w.rest := by
  simp only [acceptHeldSheet]
  repeat' split
  all_goals simp

@[simp] theorem deliverDraw_rest (p : Port) (current : Nat) (w : Ev) : (deliverDraw p current w).rest = w.rest := by
  simp only [deliverDraw]
  repeat' split
  all_goals simp

@[simp] theorem denyDraw_rest (p : Port) (w : Ev) : (denyDraw p w).rest = w.rest := by
  simp only [denyDraw]
  repeat' split
  all_goals simp

@[simp] theorem claimGranted_rest (p : Port) (w : Ev) : (claimGranted p w).rest = w.rest := by simp [claimGranted]

@[simp] theorem claimDeclined_rest (p : Port) (w : Ev) : (claimDeclined p w).rest = w.rest := by
  simp only [claimDeclined]
  repeat' split
  all_goals simp

@[simp] theorem exchangeFails_rest (p : Port) (r : FailReason) (w : Ev) : (exchangeFails p r w).rest = w.rest := by simp [exchangeFails]

@[simp] theorem repeatClaim_rest (p : Port) (w : Ev) : (repeatClaim p w).rest = w.rest := by
  simp only [repeatClaim]
  repeat' split
  all_goals simp

@[simp] theorem countRepeat_rest (p : Port) (w : Ev) : (countRepeat p w).rest = w.rest := by simp [countRepeat]

@[simp] theorem claimDeferred_rest (p : Port) (w : Ev) : (claimDeferred p w).rest = w.rest := by
  simp only [claimDeferred]
  repeat' split
  all_goals simp

@[simp] theorem answerMissed_rest (p : Port) (w : Ev) : (answerMissed p w).rest = w.rest := by
  simp only [answerMissed]
  repeat' split
  all_goals simp

@[simp] theorem enterContract_rest (p : Port) (w : Ev) : (enterContract p w).rest = w.rest := by
  simp only [enterContract]
  repeat' split
  all_goals simp

@[simp] theorem askSettleCheck_rest (p : Port) (w : Ev) : (askSettleCheck p w).rest = w.rest := by
  simp only [askSettleCheck]
  repeat' split
  all_goals simp

@[simp] theorem releaseSettled_rest (p : Port) (w : Ev) : (releaseSettled p w).rest = w.rest := by simp [releaseSettled]

@[simp] theorem releaseTimedOut_rest (p : Port) (w : Ev) : (releaseTimedOut p w).rest = w.rest := by simp [releaseTimedOut]

@[simp] theorem commandClaim_rest (p : Port) (line v i : Nat) (mark : StepMark) (w : Ev) :
    (commandClaim p line v i mark w).rest = w.rest := by
  simp only [commandClaim]
  repeat' split
  all_goals simp

@[simp] theorem commandRelease_rest (p : Port) (w : Ev) : (commandRelease p w).rest = w.rest := by
  simp only [commandRelease]
  repeat' split
  all_goals simp

@[simp] theorem withdrawRole_rest (p : Port) (w : Ev) : (withdrawRole p w).rest = w.rest := by
  simp only [withdrawRole]
  repeat' split
  all_goals simp

@[simp] theorem leaveParkedRole_rest (p : Port) (w : Ev) : (leaveParkedRole p w).rest = w.rest := by
  simp only [leaveParkedRole]
  repeat' split
  all_goals simp

@[simp] theorem emptySlot_rest (p : Port) (w : Ev) : (emptySlot p w).rest = w.rest := by simp [emptySlot]

@[simp] theorem abandonFrames_rest (p : Port) (w : Ev) : (abandonFrames p w).rest = w.rest := rfl

@[simp] theorem enterDebounce_rest (p : Port) (w : Ev) : (enterDebounce p w).rest = w.rest := by simp [enterDebounce]

@[simp] theorem enablePort_rest (p : Port) (w : Ev) : (enablePort p w).rest = w.rest := by
  simp only [enablePort]
  repeat' split
  all_goals simp

@[simp] theorem enterGreeting_rest (p : Port) (w : Ev) : (enterGreeting p w).rest = w.rest := by simp [enterGreeting]

/-! ## The transition controller -/

@[simp] theorem skipStep_rest (w : Ev) : (skipStep w).rest = w.rest := rfl

@[simp] theorem commandClose_rest (f : Feed) (p : Port) (w : Ev) : (commandClose f p w).rest = w.rest := by
  simp only [commandClose]
  repeat' split
  all_goals simp

@[simp] theorem commandOpen_rest (f : Feed) (w : Ev) : (commandOpen f w).rest = w.rest := by simp [commandOpen]

@[simp] theorem lowerForStep_rest (st : PlanStep) (w : Ev) : (lowerForStep st w).rest = w.rest := by
  simp only [lowerForStep]
  repeat' split
  all_goals simp

@[simp] theorem issueStep_rest (st : PlanStep) (w : Ev) : (issueStep st w).rest = w.rest := by
  simp only [issueStep]
  repeat' split
  all_goals simp

@[simp] theorem startStep_rest (st : PlanStep) (w : Ev) : (startStep st w).rest = w.rest := by
  simp only [startStep]
  split
  · exact (issueStep_rest _ _).trans (lowerForStep_rest st w)
  · simp

@[simp] theorem liftTrims_rest (w : Ev) : (liftTrims w).rest = w.rest := by
  simp only [liftTrims]
  repeat' split
  all_goals simp

@[simp] theorem endPlan_rest (w : Ev) : (endPlan w).rest = w.rest := by simp [endPlan]

@[simp] theorem replan_rest (w : Ev) : (replan w).rest = w.rest := rfl

@[simp] theorem startPlan_rest (w : Ev) : (startPlan w).rest = w.rest := by
  simp only [startPlan]
  repeat' split
  all_goals simp

@[simp] theorem afterStep_rest (st : PlanStep) (w : Ev) : (afterStep st w).rest = w.rest := by
  unfold afterStep
  dsimp only
  split
  · rw [startPlan_rest, replan_rest, setStepCap_rest]
  · split
    · rw [startStep_rest, setStepCap_rest]
    · rw [endPlan_rest, setStepCap_rest]

end Sys2Proof.Machine
end

