-- ==== Sys2Proof/Laws/PerInstr.lean ====
section
/-! SUPPORT. One fact of every command as syntax: a well-formed command that is a frame on a wire spells bytes of a length
the link allows, whose envelope opens (R6, R7, R21). -/
namespace Sys2Proof.Laws.WireForm
open Sys2Proof.Machine

/-- The bytes of a well-formed command's frame fit its link and open as a frame. -/
def Statement (i : Instr) : Prop :=
  i.wellFormed = true →
    (∀ p raw, i.chargeFrame = some (p, raw) → raw.length ≤ 67 ∧ (openEnvelope 64 raw).isSome = true)
      ∧ (∀ raw, i.systemFrame = some raw → raw.length ≤ 131 ∧ (openEnvelope 128 raw).isSome = true)

/-- A command that is no frame. -/
theorem of_none {i : Instr} (hc : i.chargeFrame = none) (hr : i.request = none) : Statement i := by
  intro _
  simp [hc, Instr.systemFrame, hr]

/-- A frame of a partner. -/
theorem of_charge {i : Instr} {p : Port} {k : Byte} {payload : List Byte} (hc : i.chargeFrame = some (p, envelope k payload))
    (hr : i.request = none) (hl : i.wellFormed = true → payload.length ≤ 64) : Statement i := by
  intro hw
  refine ⟨?_, by simp [Instr.systemFrame, hr]⟩
  intro q raw h
  rw [hc] at h
  simp only [Option.some.injEq, Prod.mk.injEq] at h
  obtain ⟨rfl, rfl⟩ := h
  rw [envelope_length, openEnvelope_envelope k payload (hl hw) (by omega)]
  have := hl hw
  exact ⟨by omega, rfl⟩

/-- A request. -/
theorem of_request {i : Instr} {code : Byte} {params : List Byte} (hc : i.chargeFrame = none)
    (hr : i.request = some (code, params)) (hl : i.wellFormed = true → params.length ≤ 128) : Statement i := by
  intro hw
  refine ⟨by simp [hc], ?_⟩
  intro raw h
  simp only [Instr.systemFrame, hr, Option.map_some, Option.some.injEq] at h
  subst h
  rw [envelope_length, openEnvelope_envelope code params (hl hw) (by omega)]
  have := hl hw
  exact ⟨by omega, rfl⟩

/-- Parameters that fit a frame are at most 128 bytes. -/
theorem fit {params : List Byte} (h : paramsFit params = true) : params.length ≤ 128 := of_decide_eq_true h

theorem tick (inputs : TickInputs) : Statement (.tick inputs) := of_none rfl rfl
theorem attachConfirmed (p : Port) : Statement (.attachConfirmed p) := of_none rfl rfl
theorem detach (p : Port) : Statement (.detach p) := of_none rfl rfl
theorem frameTruncated (p : Port) : Statement (.frameTruncated p) := of_none rfl rfl
theorem frameDropped (p : Port) (raw : List Byte) : Statement (.frameDropped p raw) := of_none rfl rfl
theorem announce (p : Port) (payload : List Byte) : Statement (.announce p payload) :=
  of_charge rfl rfl (fun h => by simp [Instr.wellFormed, lengthPermitted] at h; omega)
theorem offers (p : Port) (payload : List Byte) : Statement (.offers p payload) :=
  of_charge rfl rfl (fun h => by simp [Instr.wellFormed, lengthPermitted] at h; omega)
theorem resheet (p : Port) (payload : List Byte) : Statement (.resheet p payload) :=
  of_charge rfl rfl (fun h => by simp [Instr.wellFormed, lengthPermitted] at h; omega)
theorem settled (p : Port) : Statement (.settled p) := of_charge (payload := []) rfl rfl (fun _ => Nat.zero_le _)
theorem draw (p : Port) (payload : List Byte) : Statement (.draw p payload) :=
  of_charge rfl rfl (fun h => by simp [Instr.wellFormed, lengthPermitted] at h; omega)
theorem grant (p : Port) : Statement (.grant p) := of_charge (payload := []) rfl rfl (fun _ => Nat.zero_le _)
theorem decline (p : Port) : Statement (.decline p) := of_charge (payload := []) rfl rfl (fun _ => Nat.zero_le _)
theorem defer (p : Port) : Statement (.defer p) := of_charge (payload := []) rfl rfl (fun _ => Nat.zero_le _)
theorem restart (p : Port) : Statement (.restart p) := of_charge (payload := []) rfl rfl (fun _ => Nat.zero_le _)
theorem openRangeFrame (p : Port) (kind : Byte) (payload : List Byte) : Statement (.openRangeFrame p kind payload) :=
  of_charge rfl rfl (fun h => by
    simp only [Instr.wellFormed, Bool.and_eq_true] at h
    exact of_decide_eq_true h.2)
theorem frameTxStart (p : Port) : Statement (.frameTxStart p) := of_none rfl rfl
theorem frameSent (p : Port) : Statement (.frameSent p) := of_none rfl rfl
theorem relayFrameSend (p : Port) : Statement (.relayFrameSend p) := of_none rfl rfl
theorem greetingDeadlineExpiry (p : Port) : Statement (.greetingDeadlineExpiry p) := of_none rfl rfl
theorem answerDeadlineExpiry (p : Port) : Statement (.answerDeadlineExpiry p) := of_none rfl rfl
theorem deferIntervalExpiry (p : Port) : Statement (.deferIntervalExpiry p) := of_none rfl rfl
theorem settleDeadlineExpiry (p : Port) : Statement (.settleDeadlineExpiry p) := of_none rfl rfl
theorem recoveryHoldOffExpiry (p : Port) : Statement (.recoveryHoldOffExpiry p) := of_none rfl rfl
theorem closeCheckExpiry (f : Feed) : Statement (.closeCheckExpiry f) := of_none rfl rfl
theorem contractCheckExpiry (f : Feed) : Statement (.contractCheckExpiry f) := of_none rfl rfl
theorem gapTimerExpiry (f : Feed) : Statement (.gapTimerExpiry f) := of_none rfl rfl
theorem rampTimerExpiry (f : Feed) : Statement (.rampTimerExpiry f) := of_none rfl rfl
theorem underVoltageExpiry (f : Feed) : Statement (.underVoltageExpiry f) := of_none rfl rfl
theorem overdrawExpiry (f : Feed) : Statement (.overdrawExpiry f) := of_none rfl rfl
theorem outletOverdrawExpiry (p : Port) : Statement (.outletOverdrawExpiry p) := of_none rfl rfl
theorem watchHoldExpiry : Statement .watchHoldExpiry := of_none rfl rfl
theorem trapDeadlineExpiry : Statement .trapDeadlineExpiry := of_none rfl rfl
theorem sysFrameTruncated : Statement .sysFrameTruncated := of_none rfl rfl
theorem sysFrameDropped (raw : List Byte) : Statement (.sysFrameDropped raw) := of_none rfl rfl
theorem requestOwedBusy (code : Byte) : Statement (.requestOwedBusy code) := of_none rfl rfl
theorem unknownRequest (code : Byte) (params : List Byte) : Statement (.unknownRequest code params) :=
  of_request rfl rfl (fun h => by
    simp only [Instr.wellFormed, Bool.and_eq_true] at h
    exact fit h.2)
theorem sysTxStart : Statement .sysTxStart := of_none rfl rfl
theorem resultSent : Statement .resultSent := of_none rfl rfl
theorem forwardSent : Statement .forwardSent := of_none rfl rfl
theorem loadPolicy (params : List Byte) : Statement (.loadPolicy params) := of_request rfl rfl fit
theorem loadPort (params : List Byte) : Statement (.loadPort params) := of_request rfl rfl fit
theorem loadWatch (params : List Byte) : Statement (.loadWatch params) := of_request rfl rfl fit
theorem loadBudget (params : List Byte) : Statement (.loadBudget params) := of_request rfl rfl fit
theorem loadTiming (params : List Byte) : Statement (.loadTiming params) := of_request rfl rfl fit
theorem readEntry (params : List Byte) : Statement (.readEntry params) := of_request rfl rfl fit
theorem readState (params : List Byte) : Statement (.readState params) := of_request rfl rfl fit
theorem readFactory (params : List Byte) : Statement (.readFactory params) := of_request rfl rfl fit
theorem readCause (params : List Byte) : Statement (.readCause params) := of_request rfl rfl fit
theorem liveMark (params : List Byte) : Statement (.liveMark params) := of_request rfl rfl fit
theorem liveConfirm (params : List Byte) : Statement (.liveConfirm params) := of_request rfl rfl fit
theorem livenessTimerExpiry : Statement .livenessTimerExpiry := of_none rfl rfl
theorem verdict (params : List Byte) : Statement (.verdict params) := of_request rfl rfl fit
theorem relay (params : List Byte) : Statement (.relay params) := of_request rfl rfl fit
theorem evaluate (params : List Byte) : Statement (.evaluate params) := of_request rfl rfl fit
theorem portRestart (params : List Byte) : Statement (.portRestart params) := of_request rfl rfl fit
theorem clearFault (params : List Byte) : Statement (.clearFault params) := of_request rfl rfl fit
theorem clearNotices (params : List Byte) : Statement (.clearNotices params) := of_request rfl rfl fit
theorem setMask (params : List Byte) : Statement (.setMask params) := of_request rfl rfl fit
theorem clearCause (params : List Byte) : Statement (.clearCause params) := of_request rfl rfl fit
theorem lockPolicy (params : List Byte) : Statement (.lockPolicy params) := of_request rfl rfl fit
theorem policyRestart (params : List Byte) : Statement (.policyRestart params) := of_request rfl rfl fit
theorem burnFactory (params : List Byte) : Statement (.burnFactory params) := of_request rfl rfl fit
theorem burnReadBack (cellsBad : Bool) : Statement (.burnReadBack cellsBad) := of_none rfl rfl
theorem powerUp : Statement .powerUp := of_none rfl rfl
theorem resetInput : Statement .resetInput := of_none rfl rfl
theorem supplyDip : Statement .supplyDip := of_none rfl rfl
theorem fullResetEnd (cellsLost : Bool) : Statement (.fullResetEnd cellsLost) := of_none rfl rfl

end Sys2Proof.Laws.WireForm
end

