-- ==== Sys2Proof/Laws/Selection.lean ====
section
/-! SUPPORT. The selection computation and the plan (chapters 4 and 5): bounds that the shared operations keep. -/
namespace Sys2Proof.Machine

/-- A line's power is at most its effective feed limit (R87). -/
theorem linePower_le_limit (v i : Nat) (cap : Option Nat) (limit : Nat) : linePower v i cap limit ≤ limit :=
  Nat.min_le_right _ _

/-- An allocation is at most the share of the ceiling left, the frozen option aside (R96, R97). -/
theorem allocation_le_left (s : State) (left : Nat) (w : Option (Port × Choice))
    (h : ∀ p c, w = some (p, c) → c.kind.isFrozen = false) : s.allocation left w ≤ left := by
  cases w with
  | none => simp [State.allocation]
  | some x =>
    obtain ⟨p, c⟩ := x
    have hc := h p c rfl
    simp only [State.allocation]
    split
    · rename_i hk; rw [hk] at hc; cases hc
    · split
      · omega
      · simp only [Config.basePower] at *; omega
    · split
      · omega
      · exact Nat.min_le_right _ _

/-- An allocation is at most the winning option's power, the base option's 4500 mW aside (R96, R97). -/
theorem allocation_le_power (s : State) (left : Nat) (p : Port) (c : Choice) (h : c.kind ≠ .base) :
    s.allocation left (some (p, c)) ≤ c.power := by
  simp only [State.allocation]
  split
  · exact Nat.le_refl _
  · rename_i hk; exact absurd hk h
  · split
    · omega
    · exact Nat.min_le_left _ _

/-- A feed needs at most four steps, each WAITING and of that feed (R104). -/
theorem stepsFor_length (s : State) (f : Feed) (t : FeedTarget) :
    (s.stepsFor f t).1.length + (s.stepsFor f t).2.length ≤ 4 := by
  have hgo : ∀ (a : TargetKind) (b : Option Port), (match a, b with
      | .base, some q => [newStep f q .closeSwitch]
      | .line, some q => [newStep f q .closeSwitch, newStep f q (claimOf t .raise)]
      | _, _ => ([] : List PlanStep)).length ≤ 2 := by
    intro a b
    split <;> simp
  have h2 := hgo t.kind t.port
  simp only [State.stepsFor]
  repeat' split
  all_goals simp at *

/-- A claim that carries a voltage was found among the usable-valid lines that carry it (R43). -/
theorem carryingLine_mem {v i j : Nat} {ls : List Line} {l : Line} (h : carryingLine v i ls = some (j, l)) :
    l ∈ ls ∧ l.usableValid = true ∧ l.carries v = true := by
  induction ls generalizing i j l with
  | nil => simp [carryingLine] at h
  | cons m ms ih =>
    simp only [carryingLine] at h
    split at h
    · rename_i hu
      simp only [Bool.and_eq_true] at hu
      split at h
      · rename_i k q hrest
        split at h
        · simp only [Option.some.injEq, Prod.mk.injEq] at h
          obtain ⟨rfl, rfl⟩ := h
          obtain ⟨h1, h2⟩ := ih hrest
          exact ⟨List.mem_cons_of_mem _ h1, h2⟩
        · simp only [Option.some.injEq, Prod.mk.injEq] at h
          obtain ⟨rfl, rfl⟩ := h
          exact ⟨List.mem_cons_self, hu⟩
      · simp only [Option.some.injEq, Prod.mk.injEq] at h
        obtain ⟨rfl, rfl⟩ := h
        exact ⟨List.mem_cons_self, hu⟩
    · obtain ⟨h1, h2⟩ := ih h
      exact ⟨List.mem_cons_of_mem _ h1, h2⟩

/-- Ending the step in flight leaves no step in flight (R102). -/
theorem endStep_inFlight {st : StepStatus} (h : st ≠ .inFlight) (w : Ev) : (endStep st w).inFlight = none := by
  unfold endStep
  split
  · assumption
  · simp only [State.inFlight, Controller.inFlight, List.find?_eq_none, List.mem_map]
    rintro x ⟨y, _, rfl⟩
    split <;> simp_all

end Sys2Proof.Machine
end

