-- ==== Sys2Proof/Laws/Tables.lean ====
section
/-! SUPPORT. Clamping (R62, R63): what a clamp gives, that the ceilings put over the tables hold afterwards, and that tables
keep their sizes. -/
namespace Sys2Proof.Machine

/-- All that clamping into a range does (R62). -/
theorem clampRange_spec {lo hi : Nat} (h : lo ≤ hi) (v : Nat) :
    lo ≤ (clampRange lo hi v).value ∧ (clampRange lo hi v).value ≤ hi
      ∧ (lo ≤ v → v ≤ hi → clampRange lo hi v = ⟨v, false⟩)
      ∧ ((clampRange lo hi v).changed = false ↔ lo ≤ v ∧ v ≤ hi) := by
  refine ⟨?_, ?_, ?_, ?_⟩
  · simp only [clampRange]; omega
  · simp only [clampRange]; omega
  · intro h1 h2
    simp [clampRange, Nat.max_eq_left h1, Nat.min_eq_left h2]
  · simp only [clampRange, bne_eq_false_iff_eq]; omega

/-- A field with a ceiling is stored at no more than the ceiling (R62). -/
theorem clampCeiling_le (lo hi c v : Nat) : (clampCeiling lo hi c v).value ≤ c := Nat.min_le_right _ _

theorem clampCeiling_spec {lo hi c : Nat} (v : Nat) :
    (clampCeiling lo hi c v).value ≤ hi ∧ (v ≤ c → lo ≤ v → v ≤ hi → clampCeiling lo hi c v = ⟨v, false⟩)
      ∧ ((clampCeiling lo hi c v).changed = false ↔ (clampCeiling lo hi c v).value = v) := by
  refine ⟨?_, ?_, ?_⟩
  · simp only [clampCeiling]; omega
  · intro h0 h1 h2
    simp [clampCeiling, Nat.max_eq_left h1, Nat.min_eq_left h2, Nat.min_eq_left h0]
  · simp only [clampCeiling, bne_eq_false_iff_eq]

@[simp] theorem policyEntry_under_under (c : FactoryContent) (e : PolicyEntry) : (e.under c).under c = e.under c := by
  simp [PolicyEntry.under]

@[simp] theorem portEntry_under_under (c : FactoryContent) (e : PortEntry) : (e.under c).under c = e.under c := by
  simp [PortEntry.under]

@[simp] theorem budget_under_under (c : FactoryContent) (b : Budget) : (b.under c).under c = b.under c := by
  simp [Budget.under]

/-- Tables under the ceilings stay as they are under the same ceilings (R63). -/
@[simp] theorem tables_under_under (c : FactoryContent) (t : Tables) : (t.under c).under c = t.under c := by
  simp [Tables.under]

theorem tables_under_within (c : FactoryContent) (t : Tables) : (t.under c).within c = true := by
  simp [Tables.within]

@[simp] theorem tables_under_timing (c : FactoryContent) (t : Tables) : (t.under c).timing = t.timing := rfl
@[simp] theorem tables_under_lock (c : FactoryContent) (t : Tables) : (t.under c).lock = t.lock := rfl
@[simp] theorem tables_under_policy_length (c : FactoryContent) (t : Tables) :
    (t.under c).policy.length = t.policy.length := by
  simp [Tables.under]

/-- A clamped policy entry is under the ceilings (R62). -/
theorem clampPolicy_under (c : FactoryContent) (e : PolicyEntry) : ((clampPolicy c e).1).under c = (clampPolicy c e).1 := by
  simp [clampPolicy, PolicyEntry.under, clampCeiling]

theorem clampPort_under (c : FactoryContent) (e : PortEntry) : ((clampPort c e).1).under c = (clampPort c e).1 := by
  simp [clampPort, PortEntry.under, clampCeiling]

theorem clampBudget_under (c : FactoryContent) (b : Budget) : ((clampBudget c b).1).under c = (clampBudget c b).1 := by
  simp [clampBudget, Budget.under, clampCeiling]

/-- Samples stay at most eight (R158). -/
theorem pushSample_length_le (xs : List Nat) (x : Nat) : (pushSample xs x).length ≤ 8 := by
  simp [pushSample]
  omega

/-- A sample lies within its range (R157). -/
theorem sampleOf_le (top : Nat) (r : Int) : sampleOf top r ≤ top := Nat.min_le_right _ _

/-- Every sample after a new one is the new one or was held (R158). -/
theorem mem_pushSample {xs : List Nat} {x y : Nat} (h : y ∈ pushSample xs x) : y ∈ xs ∨ y = x := by
  have := List.mem_of_mem_drop h
  simpa using this

end Sys2Proof.Machine
end

