-- ==== Sys2Proof/Laws/Traps.lean ====
section
/-! SUPPORT. The trap queue (R178 to R181): tags, room, and what the queue holds after each operation. -/
namespace Sys2Proof.Machine

/-- The search of R178 ends at a value no entry holds, or has met a held value at every move. -/
theorem freeTag_or (q : List TrapEntry) (n : Nat) (t : Byte) :
    (∀ e ∈ q, e.tag ≠ freeTag q n t) ∨ ∀ i < n, t + BitVec.ofNat 8 i ∈ q.map (·.tag) := by
  induction n generalizing t with
  | zero => right; intro i h; omega
  | succ n ih =>
    unfold freeTag
    split
    · rename_i hany
      rcases ih (t + 1) with h | h
      · exact .inl h
      · right
        intro i hi
        cases i with
        | zero =>
          simp only [List.any_eq_true, beq_iff_eq] at hany
          obtain ⟨e, he, ht⟩ := hany
          simpa using ⟨e, he, ht⟩
        | succ i =>
          have := h i (by omega)
          have heq : t + BitVec.ofNat 8 (i + 1) = t + 1 + BitVec.ofNat 8 i := by
            rw [BitVec.add_assoc, BitVec.add_comm 1, BitVec.ofNat_add]
            rfl
          rw [heq]
          exact this
    · rename_i hany
      left
      intro e he ht
      exact hany (by simp only [List.any_eq_true, beq_iff_eq]; exact ⟨e, he, ht⟩)

/-- With fewer entries than moves the tag found is free (R178). -/
theorem freeTag_fresh {q : List TrapEntry} {n : Nat} (h : q.length < n) (hn : n ≤ 256) (t : Byte) :
    ∀ e ∈ q, e.tag ≠ freeTag q n t := by
  rcases freeTag_or q n t with hf | hall
  · exact hf
  · exfalso
    have hsub : ((List.range n).map (fun i => t + BitVec.ofNat 8 i)) ⊆ q.map (·.tag) := by
      intro x hx
      simp only [List.mem_map, List.mem_range] at hx
      obtain ⟨i, hi, rfl⟩ := hx
      exact hall i hi
    have hnd : ((List.range n).map (fun i => t + BitVec.ofNat 8 i)).Nodup := by
      refine List.Nodup.map_on ?_ List.nodup_range
      intro a ha b hb hab
      simp only [List.mem_range] at ha hb
      have h2 : BitVec.ofNat 8 a = BitVec.ofNat 8 b := by
        have := congrArg (fun x => -t + x) hab
        simpa [← BitVec.add_assoc, BitVec.add_left_neg] using this
      have h3 := congrArg BitVec.toNat h2
      simp only [BitVec.toNat_ofNat] at h3
      omega
    have hle := (hnd.subperm hsub).length_le
    simp at hle
    omega

/-- Room in the queue is room for the whole queue and for the port's share (R179). -/
theorem hasRoom_iff (t : TrapUnit) (p : Port) :
    t.hasRoom p = true ↔ t.queue.length < 8 ∧ (t.queue.filter (·.port == p)).length < 3 := by
  simp only [TrapUnit.hasRoom, Config.trapCapacity, Config.trapPerPort, Bool.and_eq_true]
  exact and_congr decide_eq_true_iff decide_eq_true_iff

/-- All that adding an entry does: it stands at the end of the queue with the tag found, and the next tag follows it. -/
theorem addEntry_spec (p : Port) (k : TrapKind) (m : EntryMode) (pl : List Byte) (early : Bool) (w : Ev) :
    ∃ e : TrapEntry, (addEntry p k m pl early w).traps = ⟨w.traps.queue ++ [e], e.tag + 1⟩
      ∧ e.tag = freeTag w.traps.queue 9 w.traps.nextTag ∧ e.port = p ∧ e.kind = k ∧ e.mode = m ∧ e.payload = pl
      ∧ e.arrival = w.time ∧ e.early = early ∧ e.state = .queued ∧ e.onWire = false
      ∧ (m = .hold → e.deadline = .armed) ∧ (m = .copy → e.deadline = .stopped) := by
  refine ⟨_, rfl, rfl, rfl, rfl, rfl, rfl, rfl, rfl, rfl, rfl, ?_, ?_⟩ <;> rintro rfl <;> rfl

/-- Marking the entry on the wire keeps the tags and ports, in order. -/
theorem markForward_tags (q : List TrapEntry) : (markForward q).map (·.tag) = q.map (·.tag) := by
  induction q with
  | nil => rfl
  | cons e es ih =>
    unfold markForward
    split <;> simp [ih]

theorem markForward_ports (q : List TrapEntry) : (markForward q).map (·.port) = q.map (·.port) := by
  induction q with
  | nil => rfl
  | cons e es ih =>
    unfold markForward
    split <;> simp [ih]

/-- After a FORWARD the tags that stay are those of the entries that are not the COPY entry sent. -/
theorem queueAfterForward_tags (q : List TrapEntry) :
    (queueAfterForward q).map (·.tag) = (q.filter (fun e => !(e.onWire && e.mode == .copy))).map (·.tag) := by
  simp only [queueAfterForward, List.map_map]
  refine List.map_congr_left fun e _ => ?_
  simp only [Function.comp]
  split <;> rfl

end Sys2Proof.Machine
end

