-- ==== Sys2Proof/Tests/Slice0.lean ====
section
/-! SUPPORT. The package's own tests: ill-formed commands refused by each check of WellFormed, frames and loads from their
bytes, the spec's worked cases, one step on a small state, and a state that meets the hypotheses of each statement. Numbers
come from the rules and worked cases cited. -/
namespace Sys2Proof.Tests
set_option Elab.async false
open Sys2Proof.Machine

/-! ## Helpers -/

/-- The state that a command leaves. -/
def after (i : Instr) (s : State) : State :=
  match exec i s with
  | .next t => t
  | _ => s

/-- The state after reset with one port in a state, its exchange timer as given. -/
def portAt (p : Port) (st : PortState) (t : ExchangeTimer) : State :=
  State.reset.withPort p (fun r => { r with state := st, timer := t })

/-- A served adapter with a cable of 5000 mA. -/
def adapter : Partner := ⟨.intake, .adapter, 5000, 0x1234, 1, false⟩

/-- A contract of 20000 mV and 3250 mA on line 4 (04, first worked case). -/
def contract : Contract := ⟨4, 20000, 3250, 65000, 0⟩

/-- A claim of the same, of the origin given. -/
def claim (o : Origin) (held : Bool) : Claim := ⟨4, 20000, 3250, o, held, 2, none⟩

def fixedLine (v i : Nat) : Line := ⟨.fixed, v, v, i, none, false, false⟩

/-- Port A in a state with its adapter, a contract and a claim as given, its feed's switch closed on it. -/
def onFeed0 (st : PortState) (c : Option Contract) (k : Option Claim) (t : ExchangeTimer) (fs : FeedState) : State :=
  (State.reset.withPort .A (fun r => { r with
      state := st, partner := some adapter, sheet := [fixedLine 20000 3250], contract := c, claim := k, timer := t })).withFeed .F0
    (fun r => { r with
      state := fs, selected := some .A, driveLead := .closed, output := 900, target := 900
      view := if fs == .contract then c.map (fun x => ⟨x.voltage, x.current⟩) else none })

/-- The same with a step of feed 0 and port A in flight. -/
def inFlightOn (k : StepKind) (s : State) : State :=
  { s with control := { s.control with plan := [⟨k, .F0, .A, .inFlight, 0⟩] } }

def attendedState (s : State) : State := s.withLink (fun l => { l with mode := .attended, liveness := .running 3000 })

/-- Averages of feed 0's voltage at a value. -/
def voltage0 (v : Nat) (s : State) : State :=
  { s with sense := { s.sense with feedV := { s.sense.feedV with f0 := List.replicate 8 v } } }

/-- A HOLD entry of port A with a tag, its deadline as given. -/
def heldEntry (tag : Byte) (k : TrapKind) (payload : List Byte) (deadline : Timer) : TrapEntry :=
  ⟨tag, .A, k, .hold, payload, 0, deadline, false, .queued, false⟩

def withQueue (q : List TrapEntry) (s : State) : State := { s with traps := ⟨q, 9⟩ }

/-- One FIXED line of 9000 mV and 3000 mA as received (R12, R13, R22): 450, 450 and 300 units. -/
def linePayload : List Byte := [0x00, 0x01, 0xC2, 0x01, 0xC2, 0x01, 0x2C, 0x00, 0x00]

/-- ANNOUNCE payloads (R10): an adapter, a dock and an accessory with a 5 A cable and tag 1234h. -/
def announcePayload (cls : Byte) : List Byte := [cls, 0x01, 0xF4, 0x12, 0x34, 0x00]

/-- Trap modes HOLD for every kind on port A, attended (R174). -/
def holding : State :=
  attendedState { State.reset with tables := { State.reset.tables with
    port := State.reset.tables.port.set .A { PortEntry.default with
      trapAnnounce := .hold, trapSheet := .hold, trapDraw := .hold } } }

/-- The tick inputs of a part with nothing attached. -/
def quiet : TickInputs :=
  ⟨.all ⟨.absentBand, false⟩, .all 0, .all 0, .all 0, 0, []⟩

/-! ## WellFormed: an ill-formed command for each check (R7, R21, R194, R195) -/

theorem test_wf_announce : (Instr.announce .A [1, 2, 3, 4, 5]).wellFormed = false := by decide +kernel
theorem test_wf_offers : (Instr.offers .A (List.replicate 10 0)).wellFormed = false := by decide +kernel
theorem test_wf_offers_long : (Instr.offers .A (List.replicate 72 0)).wellFormed = false := by decide +kernel
theorem test_wf_resheet : (Instr.resheet .B (List.replicate 8 0)).wellFormed = false := by decide +kernel
theorem test_wf_draw : (Instr.draw .A [1]).wellFormed = false := by decide +kernel
theorem test_wf_open_range_kind : (Instr.openRangeFrame .A 0x3F []).wellFormed = false := by decide +kernel
theorem test_wf_open_range_length : (Instr.openRangeFrame .A 0x40 (List.replicate 65 0)).wellFormed = false := by decide +kernel
theorem test_wf_dropped : (Instr.frameDropped .A (List.replicate 259 0)).wellFormed = false := by decide +kernel
theorem test_wf_system_dropped : (Instr.sysFrameDropped (List.replicate 259 0)).wellFormed = false := by decide +kernel
theorem test_wf_tick : (Instr.tick { quiet with sysRx := List.replicate 259 0 }).wellFormed = false := by decide +kernel
theorem test_wf_owed : (Instr.requestOwedBusy 0x7F).wellFormed = false := by decide +kernel
theorem test_wf_unknown_range : (Instr.unknownRequest 0xA0 []).wellFormed = false := by decide +kernel
theorem test_wf_unknown_assigned : (Instr.unknownRequest 0x80 []).wellFormed = false := by decide +kernel
theorem test_wf_params :
    ∀ i ∈ [Instr.unknownRequest 0x85 (List.replicate 129 0), .loadPolicy (List.replicate 129 0),
      .loadPort (List.replicate 129 0), .loadWatch (List.replicate 129 0), .loadBudget (List.replicate 129 0),
      .loadTiming (List.replicate 129 0), .readEntry (List.replicate 129 0), .readState (List.replicate 129 0),
      .readFactory (List.replicate 129 0), .readCause (List.replicate 129 0), .liveMark (List.replicate 129 0),
      .liveConfirm (List.replicate 129 0), .verdict (List.replicate 129 0), .relay (List.replicate 129 0),
      .evaluate (List.replicate 129 0), .portRestart (List.replicate 129 0), .clearFault (List.replicate 129 0),
      .clearNotices (List.replicate 129 0), .setMask (List.replicate 129 0), .clearCause (List.replicate 129 0),
      .lockPolicy (List.replicate 129 0), .policyRestart (List.replicate 129 0), .burnFactory (List.replicate 129 0)],
      i.wellFormed = false := by decide +kernel

/-! ## Frames and requests from their bytes -/

/-- 01, note to R6: RELEASE is the three bytes 06h, 00h, 90h. -/
theorem test_release_bytes : (TxFrame.ordered .release).bytes = [0x06, 0x00, 0x90] := by decide +kernel

/-- R14, R22: CLAIM of line 4 at 20000 mV (1000 units) and 3250 mA (325 units), before its CRC. -/
theorem test_claim_bytes :
    (TxFrame.ordered (.claim 4 20000 3250)).bytes.take 7 = [0x04, 0x05, 0x04, 0x03, 0xE8, 0x01, 0x45] := by decide +kernel

/-- R8: the bytes of RELEASE with its check value are a frame the part sends, and are dropped; so is a wrong CRC. -/
theorem test_release_dropped :
    decodeChargeFrame .B [0x06, 0x00, 0x90] = .frameDropped .B [0x06, 0x00, 0x90]
      ∧ decodeChargeFrame .B [0x08, 0x00, 0x00] = .frameDropped .B [0x08, 0x00, 0x00] := by decide +kernel

/-- R7: SETTLED, DRAW of 1500 mA (150 units) and an open-range frame from their kind, length and payload. -/
theorem test_frames_decode :
    decodeChargeFrame .A ([0x08, 0x00] ++ [crc8 [0x08, 0x00]]) = .settled .A
      ∧ decodeChargeFrame .D ([0x09, 0x02, 0x00, 0x96] ++ [crc8 [0x09, 0x02, 0x00, 0x96]]) = .draw .D [0x00, 0x96]
      ∧ decodeChargeFrame .C ([0x40, 0x01, 0xAA] ++ [crc8 [0x40, 0x01, 0xAA]]) = .openRangeFrame .C 0x40 [0xAA] := by
  decide +kernel

/-- R195: CLEAR NOTICES of two bytes; R8's limit of 64 bytes is the charge link's alone (R21). -/
theorem test_requests_decode :
    decodeSystemFrame ([0x98, 0x02, 0x0F, 0xFF] ++ [crc8 [0x98, 0x02, 0x0F, 0xFF]]) = .clearNotices [0x0F, 0xFF]
      ∧ decodeSystemFrame ([0x85, 0x00] ++ [crc8 [0x85, 0x00]]) = .unknownRequest 0x85 []
      ∧ decodeSystemFrame ([0x20, 0x00] ++ [crc8 [0x20, 0x00]])
          = .sysFrameDropped ([0x20, 0x00] ++ [crc8 [0x20, 0x00]]) := by decide +kernel

/-- R4: the bytes 55h, 55h, D5h before the kind, each byte a low start bit, its bits from bit 7 down, and a high stop bit;
RELEASE on a wire, and SETTLED read from its levels. -/
theorem test_levels :
    (frameLevels [0x06, 0x00, 0x90]).length = 60
      ∧ (frameLevels [0x06, 0x00, 0x90]).take 10
        = [false, false, true, false, true, false, true, false, true, true]
      ∧ ((frameLevels [0x06, 0x00, 0x90]).drop 20).take 10
        = [false, true, true, false, true, false, true, false, true, true]
      ∧ decodeChargeLevels .A (frameLevels [0x08, 0x00, crc8 [0x08, 0x00]]) = .settled .A := by decide +kernel

/-- 01, worked example of a dock's sheet: lines 2, 3, 5 and 7 as stored, and lines 4 and 6 not usable. -/
theorem test_sheet_lines :
    decodeSheet [0x04, 0x02, 0xEE, 0x02, 0xF8, 0x02, 0xBC, 0x00, 0x00] = [⟨.fixed, 15000, 15000, 6000, none, true, false⟩]
      ∧ decodeSheet [0x07, 0x00, 0xFA, 0x04, 0x1A, 0x01, 0x2C, 0x01, 0xC2]
          = [⟨.window, 5000, 21000, 3000, some 45000, true, false⟩]
      ∧ (decodeSheet [0x01, 0x03, 0xE8, 0x02, 0x58, 0x00, 0xC8, 0x00, 0x00]).map (·.usableValid) = [false]
      ∧ (decodeSheet [0x00, 0x03, 0xE8, 0x03, 0xE8, 0x00, 0x00, 0x00, 0x00]).map (·.usableValid) = [false]
      ∧ (decodeSheet [0x00, 0x05, 0xDC, 0x05, 0xDC, 0x00, 0xC8, 0x00, 0x00]).map (·.usableValid) = [false]
      ∧ decodeSheet [0x00, 0x01, 0xC2, 0x01, 0xC2, 0x01, 0x2C, 0x00, 0xC8] = [fixedLine 9000 3000] := by decide +kernel

/-- R161: the two refused watches of 08, section 8.3; the first is an ABOVE watch on THERMAL, 100 and 150. -/
theorem test_watch_refused :
    parseWatch [1, 6, 0, 0, 0, 0, 100, 0, 0, 0, 150, 0, 0, 0, 2, 1] = none
      ∧ parseWatch [1, 0, 1, 0, 0, 0x75, 0x30, 0, 0, 0x07, 0xD0, 0, 0, 0, 2, 1] = none := by decide +kernel

/-! ## Numbers of the worked cases -/

/-- R82: the derated limits of 04's third case, at levels 4 and 5. -/
theorem test_derated : derated 90000 4 = 67500 ∧ derated 90000 5 = 61875 := by decide +kernel

/-- R98: the claim currents of 04's cases. -/
theorem test_claim_currents :
    claimCurrent 65000 20000 3250 = 3250 ∧ claimCurrent 35000 19000 3000 = 1840 ∧ claimCurrent 27000 9000 3000 = 3000
      ∧ claimCurrent 67500 20000 4000 = 3370 ∧ claimCurrent 61875 20000 3250 = 3090 := by decide +kernel

/-- R158: 08's averages 3270 and, the head dropped, 3314. -/
theorem test_averages :
    average [3250, 3260, 3240, 3300, 3310, 3290, 3250, 3262] = 3270
      ∧ average (pushSample [3250, 3260, 3240, 3300, 3310, 3290, 3250, 3262] 3600) = 3314 := by decide +kernel

/-- R138: 06's over-draw bound of 3656 mA at 3250 mA and margin 2. -/
theorem test_overdraw_bound :
    ({ FeedRec.reset with state := .contract, output := 3250 } : FeedRec).overdrawn 2 3656 = false
      ∧ ({ FeedRec.reset with state := .contract, output := 3250 } : FeedRec).overdrawn 2 3700 = true := by decide +kernel

/-- The state of 04's first worked case. -/
def firstCase : State :=
  let dock : PolicyEntry :=
    ⟨true, true, false, false, true, 0, .dock, .window, 5000, 5000, .use, 12, 19000, 400, 3000⟩
  let fixed : PolicyEntry :=
    ⟨true, true, true, false, false, 0, .adapter, .fixed, 9000, 20000, .use, 14, 20000, 300, 5000⟩
  let exclude : PolicyEntry := { PolicyEntry.default with valid := true }
  let record : FactoryContent := ⟨5000, 100000, 130000, 28000, 27000, 15000, 27000, 1500, 1, 1⟩
  let s := attendedState ({ State.reset with
    factory := ⟨.written, .holding record (crc8 (contentBytes record)), none⟩
    tables := { State.reset.tables with
      policy := [dock, fixed, exclude] ++ List.replicate 21 .default
      port := (State.reset.tables.port.set .A { PortEntry.default with feedLimit := 90000 }).set .C
        { PortEntry.default with feedLimit := 60000 }
      budget := { Budget.default with ceiling := 100000 } } })
  (s.withPort .A (fun r => { r with
      state := .held, partner := some adapter
      sheet := [fixedLine 5000 3000, fixedLine 9000 3000, fixedLine 15000 3000, fixedLine 20000 3250] })).withPort .C
    (fun r => { r with
      state := .held, partner := some ⟨.intake, .dock, 5000, 7, 1, false⟩
      sheet := [fixedLine 5000 3000, ⟨.window, 5000, 21000, 3000, some 45000, true, false⟩] })

/-- 04, first worked case: the target set. -/
theorem test_first_case :
    firstCase.evaluate = ⟨⟨.line, some .A, some 4, 20000, 3250, 65000, 56875, false⟩,
      ⟨.line, some .C, some 2, 19000, 1840, 34960, 33750, false⟩⟩ := by decide +kernel

/-- 04, second worked case: the same sources, unattended, both contracts held. -/
theorem test_second_case :
    (((firstCase.withLink (fun l => { l with mode := .unattended, liveness := .stopped })).withPort .A (fun r =>
        { r with state := .contract, contract := some contract })).withFeed .F0 (fun r =>
        { r with state := .contract, selected := some .A })).evaluate
      = ⟨⟨.line, some .A, some 2, 9000, 3000, 27000, 27000, false⟩, .nothing⟩ := by decide +kernel

/-- 04, third worked case, and the plan of 05's worked example. -/
def thirdCase : State :=
  (((firstCase.withPort .A (fun r => { r with state := .contract, contract := some contract })).withPort .B (fun r =>
      { r with state := .held, partner := some adapter, sheet := [fixedLine 5000 3000, fixedLine 20000 4000] })).withPort .C
      (fun _ => .reset)).withPort .D (fun r =>
      { r with state := .held, partner := some ⟨.intake, .unknown, 3000, 0, 1, true⟩ })
    |>.withFeed .F0 (fun r => { r with state := .contract, selected := some .A, derate := 4 })

theorem test_third_case :
    thirdCase.evaluate = ⟨⟨.line, some .B, some 2, 20000, 3370, 67400, 59062, false⟩,
      ⟨.base, some .D, none, 5000, 900, 4500, 2250, false⟩⟩ := by decide +kernel

theorem test_changeover_plan :
    (thirdCase.buildPlan thirdCase.evaluate).map (fun st => (st.kind, st.feed, st.port))
      = [(.release, .F0, .A), (.openSwitch, .F0, .A), (.closeSwitch, .F0, .B), (.claim 2 20000 3370 67400 .raise, .F0, .B),
        (.closeSwitch, .F1, .D)] := by decide +kernel

/-- 04, third case at level 5: the incumbent wins at 3090 mA. -/
theorem test_third_case_level_five :
    ((thirdCase.withFeed .F0 (fun r => { r with derate := 5 })).evaluate.f0.current,
      (thirdCase.withFeed .F0 (fun r => { r with derate := 5 })).evaluate.f0.power) = (3090, 61800) := by decide +kernel

/-- The first case with A's contract in force, feed 1 as given. -/
def bothFeeds (g : FeedRec → FeedRec) (s : State) : State :=
  ((s.withPort .A (fun r => { r with state := .contract, contract := some contract })).withFeed .F0 (fun r =>
    { r with state := .contract, selected := some .A, driveLead := .closed, view := some ⟨20000, 3250⟩,
             output := 3250, target := 3250 })).withFeed .F1 g

/-- 05, worked sequence, at 8030: liveness is lost with a CLAIM of 34960 mW in flight on feed 1 at base. -/
def livenessLost : State :=
  let s := bothFeeds (fun r => { r with
    state := .base, selected := some .C, driveLead := .closed, output := 900, target := 900 }) firstCase
  { s with
    link := { s.link with liveness := .running 0 }
    control := { s.control with plan := [⟨.claim 2 19000 1840 34960 .raise, .F1, .C, .inFlight, 4500⟩] } }

theorem test_liveness_trim :
    let t := after .livenessTimerExpiry livenessLost
    livenessLost.committedTotal = 99960
      ∧ ((t.feed .F0).output, (t.feed .F1).output, t.control.trim, t.control.reeval)
        = (870, 900, ⟨some 870, some 900⟩, true) := by decide +kernel

/-- 08, worked example, at 12800: both derate levels rise to 8. -/
def derated8 : State :=
  let k : Contract := ⟨2, 19000, 1840, 34960, 0⟩
  let s := (bothFeeds (fun r => { r with
    state := .contract, selected := some .C, driveLead := .closed, view := some ⟨19000, 1840⟩, output := 1840,
    target := 1840 }) firstCase).withPort .C (fun r => { r with state := .contract, contract := some k })
  { s with watches := ⟨⟨true, .thermal, .above, 3000, 200, 500, .derate, .both, 8⟩, some .holding, some 0, none⟩
      :: List.replicate 7 .reset }

theorem test_derate_trim :
    let t := after .watchHoldExpiry derated8
    ((t.feed .F0).derate, (t.feed .F1).derate) = (8, 8)
      ∧ ((t.feed .F0).output, (t.feed .F1).output, t.control.trim) = (2250, 1570, ⟨some 2250, some 1570⟩) := by
  decide +kernel

/-- 07, worked example: the pool falls from 3000 to 1500 with B and D GRANTED at 1500. -/
theorem test_pool_shrinks :
    (shrinkPool (Ev.start { State.reset with outlet := { State.reset.outlet with
      grants := [⟨.B, .granted, 1500, 1000, .off⟩, ⟨.D, .granted, 1500, 1200, .off⟩] } })).outlet.grants
      = [⟨.B, .granted, 1000, 1000, .off⟩, ⟨.D, .granted, 500, 1200, .off⟩] := by decide +kernel

/-! ## One step -/

/-- R26: an attach confirmed on A after the debounce time; R199: ATTACH is bit 0. -/
theorem test_attach :
    ((after (.attachConfirmed .A) (portAt .A .debounce (.running .debounce 0))).port .A).state = .greeting
      ∧ (after (.attachConfirmed .A) (portAt .A .debounce (.running .debounce 0))).link.noticeSet .attach = true := by
  decide +kernel

/-- R2: a present sample on A takes it to DEBOUNCE, the default of 20 ms loaded on that entry. -/
theorem test_debounce_loads :
    ((after (.tick { quiet with wires := .all ⟨.presentBand, false⟩ }) State.reset).port .A).timer
      = .running .debounce 20 := by decide +kernel

/-- R140: both periods of a feed expire at one tick; whichever is taken first, the feed ends in FAULT and the port in
RECOVERY. -/
theorem test_both_periods :
    let s := (onFeed0 .contract (some contract) none .stopped .contract).withFeed .F0 (fun r =>
      { r with underVolt := .counting 20 20, overdraw := .counting 20 20 })
    let u := after (.overdrawExpiry .F0) (after (.underVoltageExpiry .F0) s)
    let o := after (.underVoltageExpiry .F0) (after (.overdrawExpiry .F0) s)
    ((u.feed .F0).state, (u.port .A).state, (o.feed .F0).state, (o.port .A).state)
      = (.fault, .recovery, .fault, .recovery) := by decide +kernel

/-- R58: a detach in DISABLED clears the presence indication and does nothing else. -/
theorem test_detach_disabled :
    let t := after (.detach .A) (State.reset.withPort .A (fun r => { r with
      state := .disabled, presence := true, detachRaised := true, order := [.release], tx := some (.ordered .decline) }))
    ((t.port .A).order, (t.port .A).tx, (t.port .A).presence) = ([.release], some (.ordered .decline), false) := by
  decide +kernel

/-- R166, R199: an entry of hold time 0 that becomes ACTIVE at a tick sets WATCH_FIRED, flag 7. -/
theorem test_watch_fires_at_the_tick :
    let s := { State.reset with
      watches := ⟨⟨true, .thermal, .above, 3000, 200, 0, .notice, .both, 1⟩, some .clear, none, none⟩
        :: List.replicate 7 .reset
      sense := { State.reset.sense with thermal := List.replicate 8 3100 } }
    (after (.tick { quiet with thermal := 3100 }) s).link.notices.getLsbD 7 = true
      ∧ (after (.tick { quiet with thermal := 2900 }) { s with sense := State.reset.sense }).link.notices.getLsbD 7 = false := by
  decide +kernel

/-- R27, R28: an accessory on C is admitted as OUTLET with 500 mA. -/
theorem test_accessory :
    (after (.announce .C (announcePayload 3)) (portAt .C .greeting .stopped)).outlet.grants
      = [⟨.C, .base, 500, 0, .off⟩] := by decide +kernel

/-- R37: a DECLINE of a RAISE without contract returns the port to HELD. -/
theorem test_decline :
    ((after (.decline .A) (onFeed0 .claiming none (some (claim .raise false)) .stopped .base)).port .A).state = .held := by
  decide +kernel

/-- 02, worked example of a dock that shrinks its offer: the protective claim, on port A in C's place. -/
theorem test_protective :
    let s := onFeed0 .contract (some ⟨2, 19000, 1840, 34960, 0⟩) none .stopped .contract
    let t := after (.resheet .A [0x00, 0x00, 0xFA, 0x00, 0xFA, 0x01, 0x2C, 0x00, 0x00,
      0x03, 0x00, 0xFA, 0x03, 0xE8, 0x00, 0x96, 0x01, 0x2C]) s
    (t.port .A).contract.map (fun c => (c.line, c.current, c.power)) = some (2, 1500, 28500) := by decide +kernel

/-- 07, worked example: a DRAW of 2000 mA with a cap of 1500 and a pool of 3000 holding another 1500 is granted 1500. -/
theorem test_draw :
    let s := { portAt .D .outletBase .stopped with outlet := { State.reset.outlet with
      pool := 3000, grants := [⟨.B, .granted, 1500, 1000, .off⟩, ⟨.D, .base, 500, 1200, .off⟩] } }
    (after (.draw .D [0x00, 0xC8]) s).outlet.currentOf .D = 1500 := by decide +kernel

/-- R127, R128: a CLOSE_CHECK passes at 4375 mV and fails at 4374. -/
theorem test_close_check :
    let s (v : Nat) := (voltage0 v (portAt .A .held .stopped)).withFeed .F0 (fun r => { r with
      selected := some .A, driveLead := .softStart, check := .close .A (.running 0) })
    ((after (.closeCheckExpiry .F0) (s 4375)).feed .F0).driveLead = .closed
      ∧ ((after (.closeCheckExpiry .F0) (s 4374)).port .A).lastFailure = .voltageOut := by decide +kernel

/-- 06, worked example of a ramp: a step of 100 mA from 900, and 3150 + min(250, 100). -/
theorem test_ramp :
    ((after (.rampTimerExpiry .F0) (State.reset.withFeed .F0 (fun r =>
        { r with output := 900, target := 3250, ramp := .running 0 }))).feed .F0).output = 1000
      ∧ ((after (.rampTimerExpiry .F0) (State.reset.withFeed .F0 (fun r =>
        { r with output := 3240, target := 3250, ramp := .running 0 }))).feed .F0).output = 3250 := by decide +kernel

/-- 06, worked example of an over-draw: FAULT with its port, the port in RECOVERY. -/
theorem test_overdraw :
    let s := (onFeed0 .contract (some contract) none .stopped .contract).withFeed .F0 (fun r =>
      { r with overdraw := .counting 20 20 })
    let t := after (.overdrawExpiry .F0) s
    ((t.feed .F0).state, (t.feed .F0).faultPort, (t.port .A).state) = (.fault, some .A, .recovery) := by decide +kernel

/-- R202: a notice set under a mark asserts the alert line; RESTARTED is bit 11 (R199). -/
theorem test_set_mask :
    (after (.setMask [0x08, 0x00]) State.reset).alertAsserted = true
      ∧ (after (.setMask [0x07, 0xFF]) State.reset).alertAsserted = false := by decide +kernel

/-- R217: READ CAUSE after power-up reports POWER_UP, bit 0. -/
theorem test_read_cause :
    (after (.readCause []) State.reset).link.pendingResult = some ⟨0x8B, .done, [.num 1 1]⟩ := by decide +kernel

/-- R47, R114, R129: a port with a held close that leaves HELD and is back when the gap ends: its close has ended. -/
theorem test_held_close_lost :
    let s := (portAt .A .held .stopped).withFeed .F0 (fun r => { r with
      state := .gap, gap := .running 0, heldClose := some .A, selected := some .A })
    let t := (after (.announce .A (announcePayload 1)) s).withPort .A (fun r => { r with state := .held })
    ((after (.gapTimerExpiry .F0) s).feed .F0).check = .close .A .armed
      ∧ ((after (.gapTimerExpiry .F0) t).feed .F0).check = .idle := by decide +kernel

/-- R184 compares after the decoding of R13: a FIXED line sent back as it was forwarded, its V high apart from its V low
and its current above 6000 mA, is not clamped. -/
theorem test_amend_unchanged :
    let line : List Byte := [0x00, 0x01, 0xC2, 0x02, 0x58, 0x02, 0xBC, 0x00, 0x00]
    (amendDecision (heldEntry 3 .offers line .armed) line).map (·.2) = some false := by decide +kernel

/-- R212, R213: a blank record burns, and reads back WRITTEN after its countdown. -/
theorem test_burn :
    let s := { State.reset with factory := ⟨.blank, .unwritten, some ⟨FactoryContent.blank, .running 0⟩⟩ }
    (after (.burnReadBack false) s).factory.record = .written
      ∧ (after (.burnReadBack true) s).factory.record = .damaged := by decide +kernel

/-- R219: a tick counts one millisecond, wrapping at 32 bits. -/
theorem test_tick :
    (after (.tick quiet) State.reset).time = 1
      ∧ (after (.tick quiet) { State.reset with time := 0xFFFFFFFF }).time = 0 := by decide +kernel

/-- R204: a request between LIVE MARK and LIVE CONFIRM is REFUSED the confirmation; RESULT codes as R23. -/
theorem test_live_confirm :
    (after (.liveConfirm []) State.reset).link.pendingResult.map (·.result) = some .refused
      ∧ (after (.liveConfirm []) (State.reset.withLink (fun l => { l with markArmed := true }))).link.mode = .attended := by
  decide +kernel

/-- The step takes the front command (log 1). -/
theorem test_step :
    (match step (State.reset.withPending [.lockPolicy [], .evaluate []]) with
      | .next t => t.tables.lock == true && t.pending == [.evaluate []]
      | _ => false) = true := by decide +kernel

/-! ## Hypotheses met -/

/-- Commands queued; an empty queue. -/
theorem witness_StepTakesTheFrontCommand : State.reset.pending = [] := by decide +kernel

theorem witness_CommandsCompleteAndAwaitAFullReset :
    (after .powerUp State.reset).running = false ∧ isReset (.evaluate []) = false := by decide +kernel

/-- A notice that is set. -/
theorem witness_CloseOfEventFrame : (Ev.start State.reset).link.noticeSet .restarted = true := by decide +kernel

theorem witness_FramesDecodeToTheirCommands :
    ((Instr.offers .B (List.replicate 63 0)).wellFormed = true ∧ (Instr.offers .B linePayload).wellFormed = true
        ∧ (Instr.offers .B linePayload).chargeFrame = some (.B, envelope 0x03 linePayload))
      ∧ (Instr.relay (List.replicate 128 0)).wellFormed = true ∧ (Instr.relay [3, 0x40]).wellFormed = true
      ∧ (Instr.relay [3, 0x40]).systemFrame = some (envelope 0x93 [3, 0x40]) := by decide +kernel

theorem witness_EntriesReadBackAsLoaded :
    let c := FactoryContent.blank
    (c.maxVoltage % 20 = 0 ∧ c.portCurrent % 10 = 0 ∧ c.outletCeiling % 10 = 0)
      ∧ loadedPolicy c (policyBytes .default) = .stored .default false
      ∧ loadedPort c (portBytes { PortEntry.default with outletCap := 3000 }) = .stored .default true
      ∧ loadedWatch (watchBytes .default) = .stored .default false
      ∧ loadedBudget c (budgetBytes { Budget.default with ceiling := 65001 })
          = .stored { Budget.default with ceiling := 65000 } true
      ∧ loadedTiming (timingBytes .default) = .stored .default false
      ∧ loadedPolicy c [1, 15, 15, 3, 1, 0, 0, 0, 0, 0, 0, 0, 0, 255, 255, 255, 255] = .stored
          ⟨true, true, true, true, true, 15, .unknown, .window, 5000, 5000, .use, 1, 5000, 4095, 3000⟩ true
      ∧ loadedWatch [1, 6, 1, 0, 0, 0x0F, 0xFF, 0, 0, 0, 0, 0xFF, 0xFF, 2, 1, 0] = .stored
          ⟨true, .thermal, .below, 4095, 0, 1000, .shed, .feed1, 1⟩ true := by decide +kernel

theorem witness_DroppedFramesHaveNoEffect :
    State.reset.running = true ∧ (State.reset.port .A).drops [0x06, 0x00, 0x90] = true ∧ systemDrops [0x20, 0x00] = true := by
  decide +kernel

/-- A held request with three and with four owed codes, and its RESULT on the wire. -/
theorem witness_OwedCodesAreAnsweredInTheirOrder :
    ∀ n ∈ [0, 3, 4],
      let s := State.reset.withLink (fun l => { l with
        held := some 0x94, pendingResult := some ⟨0x94, .done, []⟩, owed := List.replicate n 0x88, tx := some .result })
      s.running = true ∧ s.link.held.isSome = true ∧ s.link.owed.length = n ∧ s.link.tx = some .result
        ∧ (Instr.evaluate []).request = some (0x94, []) ∧ (Instr.evaluate []).wellFormed = true
        ∧ requestRange 0x80 = true ∧ requestRange 0x9F = true := by decide +kernel

theorem witness_IllFormedRequestsAreBadForm :
    State.reset.takes = true ∧ (Instr.setMask [1]).request = some (0x99, [1]) ∧ (Instr.setMask [1]).wellFormed = true
      ∧ requestLength 0x99 = some 2 ∧ [(1 : Byte)].length ≠ 2
      ∧ (Instr.unknownRequest 0x9E []).wellFormed = true := by decide +kernel

theorem witness_LockAndBurnRefuseRequests :
    (let s := { State.reset with tables := { State.reset.tables with lock := true } }
     s.takes = true ∧ s.tables.lock = true ∧ (List.replicate 29 (0 : Byte)).length = 29)
      ∧ (let s := { State.reset with factory := ⟨.blank, .unwritten, some ⟨.blank, .armed⟩⟩ }
         s.running = true ∧ s.link.held = none ∧ s.factory.burn.isSome = true
           ∧ (Instr.readCause []).request = some (0x8B, []) ∧ (Instr.readCause []).wellFormed = true
           ∧ (after (.readState [0, 0]) s).link.pendingResult.map (·.result) = some .done) := by
  decide +kernel

/-- The last index of each table and section, and the first beyond. -/
theorem witness_ReadsAnswerTheStateAtTheEvent :
    State.reset.takes = true ∧ State.reset.sized = true
      ∧ ([(0, 23), (0, 24), (1, 3), (1, 4), (2, 7), (2, 8), (3, 9), (4, 9), (5, 0)].map
          (fun q => (readStored State.reset q.1 q.2).1))
        = [.done, .badIndex, .done, .badIndex, .done, .badIndex, .done, .done, .badForm]
      ∧ ([(0, 9), (1, 3), (1, 4), (2, 3), (3, 1), (3, 2), (5, 7), (5, 8), (8, 7), (8, 8), (9, 0)].map
          (fun q => (readSection State.reset q.1 q.2).1))
        = [.done, .done, .badIndex, .done, .done, .badIndex, .done, .badIndex, .done, .badIndex, .badForm]
      ∧ State.reset.tables.policy[23]? = some .default ∧ portOfCode 3 = some .D
      ∧ State.reset.watches[7]? = some .reset := by
  decide +kernel

/-- The greatest set of bits, 4095, and the first bit above 11, 4096. -/
theorem witness_ClearNoticesAndSetMask :
    State.reset.takes = true ∧ State.reset.running = true ∧ (after .resetInput State.reset).resetting.isSome = true
      ∧ (after (.setMask [0x0F, 0xFF]) State.reset).link.mask = 0xFFF
      ∧ (after (.setMask [0x10, 0x00]) State.reset).link.pendingResult.map (·.result) = some .badForm
      ∧ (after (.clearNotices [0x0F, 0xFF]) State.reset).link.notices = 0
      ∧ (after (.clearNotices [0x10, 0x00]) State.reset).link.notices = 0x800 := by decide +kernel

/-- The greatest set of flags, 15, and the first bit above 3. -/
theorem witness_ClearCauseAndLockPolicyDoNoMore :
    State.reset.takes = true ∧ (after (.clearCause [15]) State.reset).cause = 0
      ∧ (after (.clearCause [16]) State.reset).cause = 1 := by decide +kernel

/-- An older entry that is SENT before the one to go, a newer after it; the one on the wire HOLD and COPY; one removed
meanwhile. -/
theorem witness_ForwardsFollowTheResult :
    let e := heldEntry 3 .announce (announcePayload 1) (.running 9)
    let o := { heldEntry 1 .draw [0, 50] .armed with state := .sent }
    let n := heldEntry 5 .offers linePayload .armed
    let s := withQueue ([o] ++ e :: [n]) State.reset
    let r := s.withLink (fun l => { l with held := some 0x94, pendingResult := some ⟨0x94, .done, []⟩ })
    let f (m : EntryMode) := (withQueue ([o] ++ { e with onWire := true, mode := m } :: [n]) State.reset).withLink (fun l =>
      { l with tx := some (.forward { e with mode := m }) })
    let g := (withQueue [o, n] State.reset).withLink (fun l => { l with tx := some (.forward e) })
    (r.running = true ∧ r.link.tx = none ∧ r.link.pendingResult.isSome = true)
      ∧ (s.running = true ∧ s.link.tx = none ∧ s.link.pendingResult = none ∧ s.traps.queue = [o] ++ e :: [n]
        ∧ e.state = .queued ∧ ∀ x ∈ [o], x.state = .sent)
      ∧ (∀ m ∈ [EntryMode.hold, .copy], (f m).running = true ∧ (f m).link.tx = some (.forward { e with mode := m })
        ∧ (f m).traps.queue = [o] ++ { e with onWire := true, mode := m } :: [n] ∧ ∀ x ∈ [o] ++ [n], x.onWire = false)
      ∧ g.running = true ∧ g.link.tx = some (.forward e) ∧ ∀ x ∈ g.traps.queue, x.onWire = false := by decide +kernel

theorem witness_LiveConfirmNeedsTheMark :
    State.reset.takes = true ∧ State.reset.link.markArmed = false
      ∧ (let s := State.reset.withLink (fun l => { l with markArmed := true })
         s.takes = true ∧ s.link.markArmed = true ∧ s.link.mode = .unattended)
      ∧ (let s := { onFeed0 .contract (some contract) none .stopped .contract with
           tables := { State.reset.tables with budget := { Budget.default with ceiling := 9000 } } }
         s.link.mode = .unattended ∧ s.limitsHold = true ∧ s.ceilingTrim s.tables.budget.ceiling .F0 = some 450)
      ∧ (let s := (attendedState State.reset).withLink (fun l => { l with markArmed := true })
         s.takes = true ∧ s.link.markArmed = true ∧ s.link.mode = .attended) := by decide +kernel

theorem witness_LivenessExpiryUnattends :
    let s := State.reset.withLink (fun l => { l with mode := .attended, liveness := .running 0 })
    (s.running = true ∧ s.link.mode = .attended ∧ s.link.liveness = .running 0)
      ∧ livenessLost.running = true ∧ livenessLost.link.mode = .attended ∧ livenessLost.link.liveness = .running 0
      ∧ (∀ e ∈ livenessLost.traps.queue, e.mode = .copy)
      ∧ livenessLost.ceilingTrim livenessLost.factoryValues.fallbackCeiling .F1 = some 900
      ∧ (let e := heldEntry 3 .offers linePayload (.running 0)
         let o := { heldEntry 1 (.openRange 0x41) [0] .stopped with mode := .copy }
         let n := heldEntry 5 .announce (announcePayload 1) .armed
         let s := withQueue ([o] ++ e :: [n]) State.reset
         s.traps.queue = [o] ++ e :: [n] ∧ (∀ x ∈ [o], x.mode = .copy) ∧ e.mode = .hold
           ∧ (s.traps.queue.map (·.tag)).Nodup ∧ s.running = true ∧ s.traps.dueEntry = some e) := by decide +kernel

/-- Parameters of one byte; decision bytes 2 and 3; an entry and none; amendments of each kind, refused, taken and clamped,
one to the value received and one beyond it. -/
theorem witness_VerdictsAreDecidedByTheirChecks :
    let e := heldEntry 3 .draw [0x00, 0x96] (.running 9)
    let s := withQueue [e] State.reset
    s.takes = true ∧ ([3] : List Byte).length < 2 ∧ ([] : List Byte).length ≤ 126 ∧ 2 < (3 : Byte).toNat
      ∧ (2 : Byte).toNat ≤ 2 ∧ (∀ e ∈ s.traps.queue, e.tag = 4 → e.mode = .copy) ∧ s.traps.heldTag 3 = some e
      ∧ amendDecision e [0x01] = none ∧ amendDecision e [0x00, 0x97] = some (.amendDraw 1500, true)
      ∧ amendDecision e [0x00, 0x96] = some (.amendDraw 1500, false)
      ∧ amendDecision (heldEntry 3 .announce (announcePayload 1) .armed) [0x02, 0x01, 0x2C]
          = some (.amendAnnounce .dock 3000, false)
      ∧ amendDecision (heldEntry 3 .offers linePayload .armed) linePayload
          = some (.amendSheet [fixedLine 9000 3000], false)
      ∧ amendDecision (heldEntry 3 .offers linePayload .armed) [0x00, 0x01, 0xC2, 0x01, 0xC2, 0x01, 0x2D, 0x00, 0x00]
          = some (.amendSheet [fixedLine 9000 3000], true) := by decide +kernel

/-- A received sheet and an early one; an amendment to 2000 mA; each default verdict at the deadline. -/
theorem witness_HeldSheetsAreDeliveredByTheirVerdict :
    (∀ early ∈ [true, false], ∀ v ∈ [DefaultVerdict.allow, .deny],
      let e := { heldEntry 3 .offers linePayload (.running 0) with early := early }
      ∀ st ∈ [PortState.held, .releasing, .contract, .greeting],
      let base := (portAt .A st .stopped).withPort .A (fun r => { r with partner := some adapter, contract := some contract })
      let s := withQueue [e] { base with tables := { base.tables with
        port := base.tables.port.set .A { PortEntry.default with verdict := v } } }
      e.kind = .offers ∧ e.early = early ∧ (s.port e.port).state = st ∧ s.takes = true
        ∧ s.traps.heldTag e.tag = some e ∧ s.running = true ∧ s.traps.dueEntry = some e
        ∧ (s.tables.port.get e.port).verdict = v ∧ (s.port .A).contract = some contract ∧ (s.port .A).claim = none
        ∧ (s.port .A).partner = some adapter)
      ∧ amendDecision (heldEntry 3 .offers linePayload (.running 0)) [0x00, 0x01, 0xC2, 0x01, 0xC2, 0x00, 0xC8, 0x00, 0x00]
          = some (.amendSheet [fixedLine 9000 2000], false) := by decide +kernel

/-- Port codes 3 and 4, payloads of 64 and 65 bytes, kinds 40h and 7Fh; a slot empty and filled. -/
theorem witness_RelaysWaitInTheirSlot :
    let s := portAt .D .held .stopped
    let t := s.withPort .D (fun r => { r with relay := some ⟨0x40, []⟩ })
    let u := t.withPort .D (fun r => { r with tx := some (.relayed ⟨0x40, []⟩ true) })
    (s.takes = true ∧ ([3] : List Byte).length < 2 ∧ 3 < (4 : Byte).toNat ∧ portOfCode (3 : Byte).toNat = some .D)
      ∧ ((after (.relay (3 :: 0x7F :: List.replicate 64 0)) s).port .D).relay = some ⟨0x7F, List.replicate 64 0⟩
      ∧ ((after (.relay (3 :: 0x40 :: List.replicate 65 0)) s).port .D).relay = none
      ∧ ((after (.relay [3, 0x80]) s).port .D).relay = none
      ∧ (t.running = true ∧ (t.port .D).relay = some ⟨0x40, []⟩ ∧ (t.port .D).order = [] ∧ (t.port .D).tx = none
        ∧ (t.port .D).rxBusy = false)
      ∧ u.running = true ∧ (u.port .D).tx = some (.relayed ⟨0x40, []⟩ true) := by decide +kernel

/-- No step in flight, one in flight, and one that has ended with and without a further one waiting; no step waiting; the
conditions of R121 met and, with a contract of 65000 mW under the fallback ceiling, not met. -/
theorem witness_TriggersRunOrWait :
    let s := onFeed0 .held none none .stopped .base
    let w : Ev := { Ev.start { s with control := { s.control with effLimit := ⟨27000, 27000⟩ } } with trig := true }
    let v : Ev := { Ev.start (inFlightOn .release s) with trig := true }
    let done : PlanStep := ⟨.openSwitch, .F0, .A, .done, 0⟩
    let next : PlanStep := ⟨.closeSwitch, .F0, .B, .waiting, 0⟩
    let x : Ev := { Ev.start { s with control := { s.control with plan := [done, next] } } with ended := some done }
    let y : Ev := { Ev.start { s with control := { s.control with plan := [done] } } with ended := some done }
    let high := Ev.start (onFeed0 .contract (some contract) none .stopped .contract)
    s.takes = true ∧ (w.trig = true ∧ w.ended = none ∧ w.inFlight = none)
      ∧ (v.trig = true ∧ v.ended = none ∧ v.inFlight = some ⟨.release, .F0, .A, .inFlight, 0⟩ ∧ v.readmit = false)
      ∧ (x.ended = some done ∧ x.control.nextStep = some next) ∧ (y.ended = some done ∧ y.control.nextStep = none)
      ∧ (w.control.nextStep = none ∧ w.committed .F0 + w.committed .F1 ≤ w.effectiveCeiling
        ∧ w.committed .F0 ≤ w.control.effLimit.f0 ∧ w.committed .F1 ≤ w.control.effLimit.f1)
      ∧ high.effectiveCeiling < high.committed .F0 + high.committed .F1 := by decide +kernel

/-- Port codes 3 and 4, feed codes 1 and 2. -/
theorem witness_PortRestartAndClearFaultByState :
    State.reset.takes = true ∧ 3 < (4 : Byte).toNat ∧ portOfCode (3 : Byte).toNat = some .D
      ∧ (State.reset.port .D).state ∈ [.detached, .debounce, .disabled]
      ∧ (portAt .D .parked .stopped).takes = true
      ∧ ((portAt .D .parked .stopped).port .D).state ∉ [.detached, .debounce, .disabled, .recovery]
      ∧ (let s := inFlightOn .release (onFeed0 .releasing (some contract) none .stopped .contract)
         s.takes = true ∧ (s.port .A).contract.isSome = true ∧ s.closedOn .A = true ∧ s.exchangeOn .A = true
           ∧ s.inFlight = some ⟨.release, .F0, .A, .inFlight, 0⟩ ∧ (s.feed (feedOf .A)).state = .contract)
      ∧ (let s := { portAt .A .outletBase .stopped with outlet := { State.reset.outlet with
           grants := [⟨.A, .base, 500, 3, .off⟩] } }
         s.outlet.hasEntry .A = true)
      ∧ 1 < (2 : Byte).toNat ∧ feedOfCode (1 : Byte).toNat = some .F1 ∧ (State.reset.feed .F1).state ≠ .fault
      ∧ ((State.reset.withFeed .F1 (fun r => { r with state := .fault })).feed .F1).state = .fault := by decide +kernel

/-! ### Loads and watches -/

/-- Indices 24, 4 and 8 and the last of each table; a body of a wrong length, and at each bound of the forms: a port beyond D,
V low above V high, an open-range mode of HOLD, an ABOVE margin above its threshold, a BELOW release point above 4095. -/
theorem witness_RefusedLoadsChangeNothing :
    State.reset.takes = true ∧ State.reset.tables.lock = false ∧ 23 < (24 : Byte).toNat ∧ 3 < (4 : Byte).toNat
      ∧ 7 < (8 : Byte).toNat ∧ (23 : Byte).toNat ≤ 23 ∧ (3 : Byte).toNat ≤ 3 ∧ (7 : Byte).toNat ≤ 7
      ∧ parsePolicy (List.replicate 16 0) = none ∧ parsePort (List.replicate 16 0) = none
      ∧ parseWatch (List.replicate 15 0) = none
      ∧ (parsePolicy [0, 0, 15, 0, 0, 0, 1, 0, 1, 0, 0, 0, 0, 0, 0, 0, 0]).isSome = true
      ∧ parsePolicy [0, 0, 16, 0, 0, 0, 1, 0, 1, 0, 0, 0, 0, 0, 0, 0, 0] = none
      ∧ parsePolicy [0, 0, 15, 0, 0, 0, 2, 0, 1, 0, 0, 0, 0, 0, 0, 0, 0] = none
      ∧ (parsePort [1, 3, 0, 0, 2, 2, 2, 3, 1, 0, 0, 0, 0, 0, 0, 0]).isSome = true
      ∧ parsePort [1, 3, 0, 0, 2, 2, 2, 2, 1, 0, 0, 0, 0, 0, 0, 0] = none
      ∧ (parseWatch [0, 6, 0, 0, 0, 0, 100, 0, 0, 0, 100, 0, 0, 0, 0, 1]).isSome = true
      ∧ parseWatch [0, 6, 0, 0, 0, 0, 100, 0, 0, 0, 101, 0, 0, 0, 0, 1] = none
      ∧ (parseWatch [0, 6, 1, 0, 0, 0x0F, 0xFE, 0, 0, 0, 1, 0, 0, 0, 0, 1]).isSome = true
      ∧ parseWatch [0, 6, 1, 0, 0, 0x0F, 0xFE, 0, 0, 0, 2, 0, 0, 0, 0, 1] = none := by decide +kernel

theorem witness_LoadPolicyAndTimingReplaceTheirEntry :
    State.reset.takes = true ∧ State.reset.tables.lock = false ∧ (23 : Byte).toNat ≤ 23
      ∧ loadedPolicy State.reset.factoryValues (policyBytes { PolicyEntry.default with valid := true })
          = .stored { PolicyEntry.default with valid := true } false
      ∧ loadedTiming (timingBytes { Timing.default with repeatLimit := 4 })
          = .stored { Timing.default with repeatLimit := 3 } true := by decide +kernel

theorem witness_LoadBudgetReplacesTheRecord :
    State.reset.takes = true ∧ State.reset.tables.lock = false
      ∧ loadedBudget State.reset.factoryValues (budgetBytes { Budget.default with ceiling := 60000 })
          = .stored { Budget.default with ceiling := 60000 } false
      ∧ (let s := attendedState (onFeed0 .contract (some contract) none .stopped .contract)
         s.takes = true ∧ s.tables.lock = false ∧ s.link.mode = .attended ∧ 9000 < s.tables.budget.ceiling
           ∧ s.ceilingTrim 9000 .F0 = some 450 ∧ s.limitsHold = true
           ∧ loadedBudget s.factoryValues (budgetBytes { Budget.default with ceiling := 9000 })
             = .stored { Budget.default with ceiling := 9000 } false) := by decide +kernel

theorem witness_WatchesStartAndFire :
    let e : WatchEntry := ⟨true, .thermal, .above, 100, 10, 5, .derate, .both, 4⟩
    let s := { State.reset with watches := ⟨e, some .holding, some 0, none⟩ :: List.replicate 7 .reset }
    (s.takes = true ∧ s.tables.lock = false ∧ (7 : Byte).toNat ≤ 7 ∧ loadedWatch (watchBytes e) = .stored e false)
      ∧ (s.running = true ∧ ∃ x ∈ s.watches, x.state = some .holding ∧ x.hold = some 0)
      ∧ derated8.running = true ∧ (∃ x ∈ derated8.watches, x.state = some .holding ∧ x.hold = some 0)
      ∧ derated8.derateTrim (derated8.feedLimit .F1 * (16 - 8) / 16) .F1 = some 1570 ∧ derated8.limitsHold = true := by decide +kernel

/-- A port disabled in DETACHED and in CONTRACT; one enabled with and without its presence indication; a role withdrawn from
a served partner, and one permitted to a parked one, silent, an adapter, an accessory with room and without; a cap lowered
below a grant of 1500 mA, to it, and below one of 500. -/
theorem witness_LoadPortStoresAndActsOnItsEntry :
    let e := { PortEntry.default with enabled := false }
    let g := { PortEntry.default with roles := .outlet }
    let s := onFeed0 .contract (some contract) none .stopped .contract
    (s.takes = true ∧ s.tables.lock = false ∧ portOfCode (0 : Byte).toNat = some .A
        ∧ loadedPort s.factoryValues (portBytes e) = .stored e false ∧ e.enabled = false
        ∧ (s.port .A).state ≠ .disabled ∧ s.closedOn .A = true ∧ (s.port .A).state ∉ [.detached, .debounce])
      ∧ (State.reset.port .A).state ≠ .disabled
      ∧ loadedPort s.factoryValues (portBytes g) = .stored g false ∧ g.enabled = true
      ∧ (s.port .A).servedRole = some .intake ∧ g.roles.allows .intake = false ∧ (s.port .A).restartOwed = false
      ∧ loadedPort s.factoryValues (portBytes .default) = .stored .default false ∧ PortEntry.default.enabled = true
      ∧ (∀ b ∈ [true, false], let d := State.reset.withPort .A (fun r => { r with state := .disabled, presence := b })
          d.takes = true ∧ d.tables.lock = false ∧ (d.port .A).state = .disabled ∧ (d.port .A).presence = b)
      ∧ (∀ q ∈ [(⟨.refused, .unknown, 3000, 0, 1, true⟩ : Partner), ⟨.refused, .adapter, 5000, 7, 1, false⟩,
            ⟨.refused, .accessory, 5000, 7, 1, false⟩], ∀ pool ∈ [500, 490],
          let d := { State.reset.withPort .A (fun r =>
              { r with state := .parked, parkReason := some .role, partner := some q }) with
            outlet := { State.reset.outlet with pool := pool } }
          d.takes = true ∧ (d.port .A).state = .parked ∧ (d.port .A).parkReason = some .role
            ∧ (d.port .A).partner = some q ∧ PortEntry.default.roles.allows (roleAsked q.cls) = true
            ∧ d.closedOn .A = false ∧ d.outlet.hasEntry .A = false ∧ d.outlet.freeRoom = pool)
      ∧ (∀ i ∈ [1500, 1000, 500],
          let x : GrantEntry := ⟨.A, .granted, i, 3, .off⟩
          let c := { PortEntry.default with outletCap := 1000 }
          let d := { portAt .A .outletGranted .stopped with outlet := { State.reset.outlet with grants := [x] } }
          d.takes = true ∧ (d.port .A).state = .outletGranted ∧ c.roles.allows .outlet = true
            ∧ loadedPort d.factoryValues (portBytes c) = .stored c false
            ∧ d.outlet.grants.find? (fun y => y.port == .A) = some x ∧ x.kind = .granted
            ∧ c.outletCap < (d.tables.port.get .A).outletCap) := by
  decide +kernel

/-- An entry of A, B and C with another feed limit, and the same entry. -/
theorem witness_LoadPortStoresAndActsOnItsEntry_feedLimit :
    ∀ x ∈ [(0, Port.A), (1, .B), (2, .C)], ∀ limit ∈ [45000, 27000],
      let e := { PortEntry.default with feedLimit := limit }
      let d := { portAt x.2 .held .stopped with tables := { State.reset.tables with
        port := .all { PortEntry.default with feedLimit := 27000 } } }
      d.takes = true ∧ d.tables.lock = false ∧ portOfCode x.1 = some x.2
        ∧ loadedPort d.factoryValues (portBytes e) = .stored e false ∧ e.enabled = true
        ∧ (d.port x.2).state ≠ .disabled ∧ (d.port x.2).state ≠ .parked
        ∧ (d.port x.2).servedRole = some .intake ∧ e.roles.allows .intake = true
        ∧ (d.tables.port.get x.2).outletCap ≤ e.outletCap := by
  decide +kernel

/-! ### Ports -/

theorem witness_AttachAndHoldOffEnterGreeting :
    let s := portAt .A .debounce (.running .debounce 0)
    let t := portAt .A .recovery (.running .holdOff 0)
    (s.running = true ∧ (s.port .A).state = .debounce ∧ (s.port .A).timer = .running .debounce 0)
      ∧ t.running = true ∧ (t.port .A).state = .recovery ∧ (t.port .A).timer = .running .holdOff 0 := by decide +kernel

theorem witness_DetachCleansThePort :
    let s := (onFeed0 .contract (some contract) none .stopped .contract).withPort .A (fun r =>
      { r with detachCount := 10, detachRaised := true })
    let t := State.reset.withPort .A (fun r => { r with
      state := .disabled, presence := true, detachRaised := true, order := [.release], tx := some (.ordered .decline) })
    (s.running = true ∧ (s.port .A).detachRaised = true ∧ (s.port .A).state ∉ [.detached, .debounce, .disabled]
        ∧ s.closedOn .A = true)
      ∧ t.running = true ∧ (t.port .A).detachRaised = true ∧ (t.port .A).state = .disabled := by decide +kernel

/-- A switch open and closed on the port; a port that permits no role of intake; AWAIT_SHEET. -/
theorem witness_GreetingDeadlineTakesThePartnerAsSilent :
    let s := portAt .A .greeting (.running .greeting 0)
    let t := { s with tables := { s.tables with port := .all { PortEntry.default with roles := .outlet } } }
    let u := portAt .A .awaitSheet (.running .greeting 0)
    let c := onFeed0 .greeting none none (.running .greeting 0) .base
    (∀ x ∈ [s, c], x.running = true ∧ (x.port .A).timer = .running .greeting 0 ∧ (x.port .A).state = .greeting
        ∧ (x.tables.port.get .A).roles.allows .intake = true ∧ x.outlet.hasEntry .A = false)
      ∧ s.closedOn .A = false ∧ c.closedOn .A = true
      ∧ (t.port .A).state = .greeting ∧ (t.tables.port.get .A).roles.allows .intake = false
      ∧ u.running = true ∧ (u.port .A).timer = .running .greeting 0 ∧ (u.port .A).state = .awaitSheet := by decide +kernel

/-- An adapter, and an accessory with room of exactly 500 mA and of 490, on a port that permits both roles; an accessory
where only the role of intake is permitted; an adapter after greeting, in a contract that a step is ending; a held ANNOUNCE,
allowed and amended from an accessory to an adapter of 3000 mA. -/
theorem witness_AnnounceIsWelcomedByRole :
    let at' (pool : Nat) := { portAt .A .greeting .stopped with outlet := { State.reset.outlet with pool := pool } }
    let s := at' 500
    let t := { s with tables := { s.tables with port := .all { PortEntry.default with roles := .intake } } }
    let c := inFlightOn .release (onFeed0 .releasing (some contract) none .stopped .contract)
    let e := heldEntry 3 .announce (announcePayload 3) .armed
    let h := withQueue [e] s
    (s.running = true ∧ (s.port .A).state = .greeting ∧ (s.port .A).tx = none ∧ (announcePayload 1).length = 6
        ∧ s.modeInForce .A .announce = .pass)
      ∧ (roleAsked (decodeAnnounce (announcePayload 1)).cls = .intake
        ∧ (s.tables.port.get .A).roles.allows .intake = true)
      ∧ (roleAsked (decodeAnnounce (announcePayload 3)).cls = .outlet
        ∧ (s.tables.port.get .A).roles.allows .outlet = true ∧ s.closedOn .A = false ∧ s.outlet.freeRoom = 500
        ∧ (at' 490).outlet.freeRoom = 490)
      ∧ (t.tables.port.get .A).roles.allows .outlet = false
      ∧ (c.running = true ∧ (c.port .A).tx = none ∧ c.modeInForce .A .announce = .pass ∧ (c.port .A).state = .releasing
        ∧ (c.tables.port.get .A).roles.allows .intake = true ∧ (c.tables.port.get .A).roles.allows .outlet = true ∧ (c.port .A).restartOwed = false
        ∧ c.closedOn .A = true ∧ (c.port .A).contract.isSome = true ∧ c.exchangeOn .A = true)
      ∧ (h.takes = true ∧ h.traps.heldTag e.tag = some e ∧ e.kind = .announce ∧ e.port = .A
        ∧ e.payload = announcePayload 3 ∧ (h.port .A).state = .greeting
        ∧ amendDecision e [0x01, 0x01, 0x2C] = some (.amendAnnounce .adapter 3000, false)
        ∧ (withQueue [heldEntry 3 .announce (announcePayload 1) .armed] s).traps.heldTag 3
          = some (heldEntry 3 .announce (announcePayload 1) .armed)) := by decide +kernel

theorem witness_PartnerRestartEntersRecovery :
    let s := inFlightOn .release (onFeed0 .releasing (some contract) none .stopped .contract)
    let t := portAt .A .recovery (.running .holdOff 7)
    (s.running = true ∧ (s.port .A).tx = none ∧ (s.port .A).state ∉ [.detached, .debounce, .disabled, .recovery]
        ∧ (s.port .A).contract.isSome = true ∧ s.closedOn .A = true ∧ (s.feed (feedOf .A)).state = .contract
        ∧ s.exchangeOn .A = true ∧ s.inFlight = some ⟨.release, .F0, .A, .inFlight, 0⟩)
      ∧ t.running = true ∧ (t.port .A).tx = none ∧ (t.port .A).state = .recovery := by decide +kernel

/-- Each state of the statement; a claim in flight, with no contract held. -/
theorem witness_OffersTakeThePortToHeld :
    (∀ st ∈ [PortState.awaitSheet, .held, .releasing, .settling, .greeting, .outletBase, .outletGranted, .parked, .claiming],
      let s := portAt .A st .stopped
      s.running = true ∧ (s.port .A).state = st ∧ (s.port .A).tx = none ∧ s.modeInForce .A .offers = .pass)
      ∧ linePayload.length % 9 = 0 ∧ (List.replicate 63 (0 : Byte)).length ≤ 63
      ∧ (∀ st ∈ [PortState.claiming, .settling],
        let c := inFlightOn (.claim 4 20000 3250 65000 .raise) (onFeed0 st none (some (claim .raise false)) .stopped .base)
        c.running = true ∧ (c.port .A).tx = none ∧ c.modeInForce .A .offers = .pass ∧ (c.port .A).state = st
          ∧ (c.port .A).claim = some (claim .raise false) ∧ c.exchangeOn .A = true)
      ∧ (let c := inFlightOn (.claim 4 20000 3250 65000 .raise)
           (onFeed0 .claiming (some contract) (some (claim .raise true)) .stopped .contract)
         c.running = true ∧ (c.port .A).tx = none ∧ c.modeInForce .A .offers = .pass ∧ (c.port .A).state = .claiming
           ∧ (c.port .A).claim = some (claim .raise true) ∧ (c.port .A).contract = some contract
           ∧ (c.port .A).partner = some adapter ∧ c.exchangeOn .A = true
           ∧ carryingLine 20000 1 (decodeSheet linePayload) = none
           ∧ carryingLine 9000 1 (decodeSheet linePayload) = some (1, fixedLine 9000 3000)) := by decide +kernel

theorem witness_ResheetBoundsOrEndsTheContract :
    let s := onFeed0 .contract (some contract) none .stopped .contract
    s.running = true ∧ (s.port .A).state = .contract ∧ (s.port .A).tx = none ∧ s.modeInForce .A .resheet = .pass
      ∧ linePayload.length % 9 = 0 ∧ linePayload.length ≤ 63 ∧ (s.port .A).contract = some contract ∧ (s.port .A).partner = some adapter
      ∧ (let sheet : List Byte := [0x00, 0x03, 0xE8, 0x03, 0xE8, 0x00, 0x64, 0x00, 0x00]
         carryingLine contract.voltage 1 (decodeSheet sheet) = some (1, fixedLine 20000 1000))
      ∧ carryingLine contract.voltage 1 (decodeSheet linePayload) = none ∧ (s.port .A).restartOwed = false
      ∧ s.closedOn .A = true ∧ (s.feed (feedOf .A)).state = .contract ∧ (s.feed (feedOf .A)).view.isSome = true := by
  decide +kernel

/-- Each origin; a claim in flight; a sheet of two lines, its second marked; a port in HELD. -/
theorem witness_GrantAndDeclineAnswerTheClaim :
    (∀ k ∈ [claim .raise true, claim .raise false, claim .lower true, claim .protective true],
      let s := onFeed0 .claiming (some contract) (some k) (.running .answer 5) .contract
      s.running = true ∧ (s.port .A).state = .claiming ∧ (s.port .A).tx = none ∧ (s.port .A).claim = some k
        ∧ s.closeChecking .A = false ∧ (s.port .A).contract.isSome = true ∧ s.closedOn .A = true)
      ∧ (inFlightOn (.claim 4 20000 3250 65000 .raise)
          (onFeed0 .claiming none (some (claim .raise false)) .stopped .base)).exchangeOn .A = true
      ∧ markDeclined 2 [fixedLine 5000 3000, fixedLine 9000 3000]
          = [fixedLine 5000 3000, { fixedLine 9000 3000 with declined := true }]
      ∧ (portAt .A .held .stopped).running = true ∧ ((portAt .A .held .stopped).port .A).state ≠ .claiming
      ∧ ((portAt .A .held .stopped).port .A).tx = none := by decide +kernel

/-- A repeat count below the limit and at it. -/
theorem witness_ClaimsRepeatUpToTheirLimit :
    (∀ n ∈ [0, 1, 2], ∀ u ∈ [TimerUse.answer, .deferral],
      let s := (onFeed0 .claiming none (some (claim .raise false)) (.running u 0) .base).withPort .A (fun r =>
        { r with repeatCount := n })
      s.running = true ∧ (s.port .A).state = .claiming ∧ (s.port .A).claim = some (claim .raise false)
        ∧ (s.port .A).tx = none ∧ (s.port .A).timer = .running u 0 ∧ (s.port .A).repeatCount = n
        ∧ s.closeChecking .A = false)
      ∧ (claim .raise false).repeatLimit = 2
      ∧ (portAt .A .held .stopped).running = true ∧ ((portAt .A .held .stopped).port .A).state ≠ .claiming
      ∧ ((portAt .A .held .stopped).port .A).tx = none := by decide +kernel

/-- SETTLING with the switch closed, open, and its check running; RELEASING with its step in flight; CONTRACT. -/
theorem witness_SettledAndItsDeadlineEndTheExchange :
    let k := claim .raise false
    let step : StepKind := .claim 4 20000 3250 65000 .raise
    let s := inFlightOn step (onFeed0 .settling none (some k) (.running .settle 0) .base)
    let o := inFlightOn step ((portAt .A .settling .stopped).withPort .A (fun r => { r with claim := some k }))
    let c := s.withFeed .F0 (fun r => { r with check := .contract .A 20000 (.running 3) })
    let t := inFlightOn .release (onFeed0 .releasing (some contract) none (.running .settle 0) .contract)
    (s.running = true ∧ (s.port .A).tx = none ∧ (s.port .A).state = .settling
        ∧ (s.port .A).claim = some k ∧ s.closedOn .A = true ∧ s.contractChecking .A = false
        ∧ (s.port .A).timer = .running .settle 0 ∧ s.closeChecking .A = false ∧ s.exchangeOn .A = true
        ∧ s.inFlight = some ⟨step, .F0, .A, .inFlight, 0⟩)
      ∧ (o.running = true ∧ (o.port .A).tx = none ∧ (o.port .A).state = .settling ∧ (o.port .A).claim = some k
        ∧ o.closedOn .A = false ∧ o.contractChecking .A = false ∧ o.closeChecking .A = false ∧ o.exchangeOn .A = true)
      ∧ ((c.port .A).state = .settling ∧ c.contractChecking .A = true)
      ∧ t.running = true ∧ (t.port .A).tx = none ∧ (t.port .A).state = .releasing ∧ (t.port .A).contract.isSome = true
      ∧ t.closedOn .A = true ∧ t.exchangeOn .A = true ∧ t.inFlight = some ⟨.release, .F0, .A, .inFlight, 0⟩
      ∧ (t.port .A).timer = .running .settle 0 ∧ t.closeChecking .A = false
      ∧ ((portAt .A .contract .stopped).port .A).state ∉ [.settling, .releasing] := by decide +kernel

theorem witness_SentFramesStartTheirDeadlines :
    let s := (portAt .A .recovery .stopped).withPort .A (fun r => { r with order := [.restart] })
    let t := s.withPort .A (fun r => { r with order := [], tx := some (.ordered .restart) })
    s.running = true ∧ (s.port .A).order = [.restart] ∧ (s.port .A).tx = none ∧ (s.port .A).rxBusy = false
      ∧ (s.port .A).state ∉ [.detached, .debounce]
      ∧ t.running = true ∧ (t.port .A).tx = some (.ordered .restart) := by decide +kernel

/-- Kinds 40h and 7Fh; room and, with three entries of the port, none; each open-range mode; PASS, COPY and HOLD of the
other kinds; a sheet held in CONTRACT, in CLAIMING with and without the contract-held mark, and in SETTLING. -/
theorem witness_TrappedFramesJoinTheQueue :
    let held := portAt .A .held .stopped
    let drop := { held with tables := { held.tables with port := .all { PortEntry.default with openRange := .drop } } }
    let three := List.replicate 3 (heldEntry 1 .announce [] .armed)
    let full := withQueue three held
    let trap := holding.withPort .A (fun r => { r with state := .awaitSheet })
    (held.running = true ∧ (held.port .A).state ∉ [.detached, .debounce, .disabled, .recovery] ∧ (held.port .A).tx = none
        ∧ 0x40 ≤ (0x40 : Byte).toNat ∧ (0x7F : Byte).toNat ≤ 0x7F ∧ (held.tables.port.get .A).openRange = .copy
        ∧ held.traps.hasRoom .A = true)
      ∧ (drop.tables.port.get .A).openRange = .drop ∧ full.traps.hasRoom .A = false
      ∧ (trap.running = true ∧ (trap.port .A).tx = none
        ∧ (trap.port .A).state ∉ [.detached, .debounce, .disabled, .recovery, .claiming, .settling, .contract]
        ∧ trap.modeInForce .A .announce = .hold ∧ trap.modeInForce .A .offers = .hold ∧ trap.traps.hasRoom .A = true
        ∧ (TrapUnit.mk [] trap.traps.nextTag).hasRoom .A = true)
      ∧ (∀ st ∈ [PortState.contract, .claiming, .settling], ∀ mark ∈ [true, false],
        let s := holding.withPort .A (fun r => { r with
          state := st, partner := some adapter, contract := some contract, claim := some (claim .raise mark) })
        s.running = true ∧ (s.port .A).tx = none ∧ (s.port .A).state = st ∧ s.modeInForce .A .offers = .hold
          ∧ (s.port .A).contract.isSome = true ∧ (s.port .A).claim = some (claim .raise mark)
          ∧ (TrapUnit.mk [] s.traps.nextTag).hasRoom .A = true)
      ∧ (∀ m ∈ [TrapMode.pass, .copy, .hold],
        ∀ k ∈ [(RxKind.announce, TrapKind.announce, 6), (.offers, .offers, 63), (.resheet, .resheet, 0), (.draw, .draw, 2)],
        let s := { attendedState held with tables := { held.tables with port := .all { PortEntry.default with
          trapAnnounce := m, trapSheet := m, trapDraw := m } } }
        s.running = true ∧ s.modeInForce .A k.2.1 = m ∧ lengthPermitted k.1 k.2.2 = true
          ∧ (TrapUnit.mk three 9).hasRoom .A = false) := by decide +kernel

/-! ### Feeds, limits, outlet -/

/-- Averages of 4375 and 4374 mV. -/
theorem witness_CloseCheckClosesOrFails :
    ∀ v ∈ [4375, 4374],
      let s := inFlightOn .closeSwitch ((voltage0 v (portAt .A .held .stopped)).withFeed .F0 (fun r => { r with
        selected := some .A, driveLead := .softStart, check := .close .A (.running 0) }))
      s.running = true ∧ feedOf .A = .F0 ∧ (s.feed .F0).state = .idle ∧ (s.feed .F0).check = .close .A (.running 0)
        ∧ (s.port .A).state = .held ∧ s.avgVoltage .F0 = v ∧ s.closeStepOn .A = true
        ∧ (s.feed .F0).stepCap = none ∧ s.control.trim.get .F0 = none
        ∧ s.inFlight = some ⟨.closeSwitch, .F0, .A, .inFlight, 0⟩ := by decide +kernel

/-- 20000 mV: the bounds 18750 and 21250, and one beyond each. -/
theorem witness_ContractCheckEntersOrFails :
    (∀ v ∈ [18750, 21250, 18749, 21251],
      let k := { claim .raise false with grantTime := some 7 }
      let s := inFlightOn (.claim 4 20000 3250 65000 .raise) ((voltage0 v
        (onFeed0 .settling none (some k) .stopped .base)).withFeed .F0 (fun r =>
          { r with check := .contract .A 20000 (.running 0) }))
      s.running = true ∧ feedOf .A = .F0 ∧ (s.feed .F0).check = .contract .A 20000 (.running 0)
        ∧ (s.port .A).state = .settling ∧ (s.port .A).claim = some k ∧ k.grantTime = some 7
        ∧ s.outlet.hasEntry .A = false ∧ s.avgVoltage .F0 = v ∧ s.closedOn .A = true ∧ s.exchangeOn .A = true)
      ∧ 20000 - 20000 / 16 = 18750 ∧ 20000 + 20000 / 16 = 21250 := by decide +kernel

/-- No held close; one whose port has stayed in HELD; one whose port is elsewhere, and one whose port is back in HELD. -/
theorem witness_GapAndRampTimersAct :
    let gap (c : Option Port) (lost : Bool) (s : State) := s.withFeed .F0 (fun r => { r with
      state := .gap, gap := .running 0, heldClose := c, heldLost := lost, ramp := .running 0, target := 900 })
    let a := gap none false State.reset
    let b := gap (some .A) false (portAt .A .held .stopped)
    let c := inFlightOn .closeSwitch (gap (some .A) true (portAt .A .parked .stopped))
    let d := inFlightOn .closeSwitch (gap (some .A) true (portAt .A .held .stopped))
    (a.running = true ∧ (a.feed .F0).gap = .running 0 ∧ (a.feed .F0).state = .gap ∧ (a.feed .F0).heldClose = none
        ∧ (a.feed .F0).ramp = .running 0)
      ∧ (b.running = true ∧ (b.feed .F0).gap = .running 0 ∧ (b.feed .F0).state = .gap ∧ (b.feed .F0).heldClose = some .A
        ∧ feedOf .A = .F0 ∧ (b.port .A).state = .held ∧ (b.feed .F0).heldLost = false ∧ (b.port .A).tx = none
        ∧ (announcePayload 1).length = 6 ∧ b.modeInForce .A .announce = .pass)
      ∧ (c.running = true ∧ (c.feed .F0).heldClose = some .A ∧ (c.port .A).state ≠ .held ∧ c.closeStepOn .A = true)
      ∧ (d.port .A).state = .held ∧ (d.feed .F0).heldLost = true ∧ d.closeStepOn .A = true
      ∧ d.inFlight = some ⟨.closeSwitch, .F0, .A, .inFlight, 0⟩ := by
  decide +kernel

/-- Periods at their latched length, and one short of it, which has not expired; the under-voltage period alone. -/
theorem witness_ExpiredPeriodsAct :
    let s := (onFeed0 .contract (some contract) none .stopped .contract).withFeed .F0 (fun r =>
      { r with underVolt := .counting 20 20, overdraw := .counting 20 20 })
    let u := s.withFeed .F0 (fun r => { r with overdraw := .counting 19 20 })
    let t := { portAt .B .outletGranted .stopped with outlet := { State.reset.outlet with
      grants := [⟨.B, .granted, 1500, 3, .counting 20 20⟩] } }
    (s.running = true ∧ (s.feed .F0).state = .contract ∧ (s.feed .F0).selected = some .A ∧ feedOf .A = .F0
        ∧ (s.feed .F0).underVolt.expired = true ∧ (s.port .A).state = .contract ∧ (s.port .A).contract.isSome = true
        ∧ (s.feed .F0).incumbent = some .A ∧ (s.feed .F0).overdraw.expired = true)
      ∧ (u.running = true ∧ (u.feed .F0).underVolt.expired = true ∧ (u.feed .F0).overdraw.expired = false)
      ∧ (t.running = true ∧ ∃ g ∈ t.outlet.grants, g.port = .B ∧ g.period.expired = true)
      ∧ (t.port .B).state ∈ [.outletBase, .outletGranted] ∧ (Period.counting 19 20).expired = false := by decide +kernel

/-- A committed total above the ceiling, at it, and below. -/
theorem witness_CeilingTrimSharesTheCeiling :
    let s (c : Nat) := attendedState { onFeed0 .contract (some contract) none .stopped .contract with
      tables := { State.reset.tables with budget := { Budget.default with ceiling := c } } }
    let sum (c : Nat) := (s c).committed .F0 + (s c).committed .F1
    sum 9000 = 65000 ∧ (s 64999).effectiveCeiling < sum 64999 ∧ sum 65000 ≤ (s 65000).effectiveCeiling
      ∧ ((s 64999).feed .F0).powered = true ∧ ((s 64999).feed .F1).powered = false
      ∧ (s 64999).limitsHold = true
      ∧ (let t := (((s 60000).withPort .C (fun r => { r with state := .held })).withFeed .F1 (fun r =>
            { r with state := .base, selected := some .C }))
         (t.feed .F0).powered = true ∧ (t.feed .F1).powered = true) := by decide +kernel

/-- The fallback ceiling of 27000 mW against claims of 27000 and 27001; a step of each kind that its port and feed can take,
and one that they cannot. -/
theorem witness_IncreasesStartWithinTheCeiling :
    let at' (k : StepKind) (s : State) : Ev :=
      Ev.start { s with control := { s.control with plan := [⟨k, .F0, .A, .waiting, 0⟩] } }
    let ready (k : StepKind) (w : Ev) : Bool := decide (w.inFlight = none)
      && decide (w.control.nextStep = some ⟨k, .F0, .A, .waiting, 0⟩) && decide (feedOf .A = .F0) && w.limitsHold
    let claims (n : Nat) : StepKind := .claim 2 9000 3000 n .raise
    let held := onFeed0 .held none none .stopped .base
    let inContract := onFeed0 .contract (some contract) none .stopped .contract
    let free := portAt .A .held .stopped
    let gap := free.withFeed .F0 (fun r => { r with state := .gap, gap := .running 4 })
    (∀ n ∈ [27000, 27001], ready (claims n) (at' (claims n) held) = true
        ∧ (at' (claims n) held).ceilingAllows ⟨claims n, .F0, .A, .waiting, 0⟩ = decide (n ≤ 27000))
      ∧ (∀ x ∈ [(claims 27000, held), (.release, inContract), (.closeSwitch, free), (.closeSwitch, gap),
            (.openSwitch, held), (.openSwitch, free), (claims 27000, portAt .A .parked .stopped), (.release, held),
            (.closeSwitch, portAt .A .parked .stopped)],
        ready x.1 (at' x.1 x.2) = true ∧ (at' x.1 x.2).ceilingAllows ⟨x.1, .F0, .A, .waiting, 0⟩ = true)
      ∧ (held.feed .F0).powered = true ∧ (free.feed .F0).powered = false ∧ (free.feed .F0).state = .idle
      ∧ (held.port .A).restartOwed = false ∧ (inContract.port .A).state = .contract := by decide +kernel

/-- A switch open, and closed at base and at contract; a target of nothing, a base target and a line target, on the same
port and on another, frozen, matching the contract and lower than it. -/
theorem witness_PlansPlaceDecreasesFirst :
    let free := portAt .A .held .stopped
    let base := onFeed0 .held none none .stopped .base
    let inContract := onFeed0 .contract (some contract) none .stopped .contract
    let line (i pw : Nat) (fr : Bool) : FeedTarget := ⟨.line, some .A, some 4, 20000, i, pw, 56875, fr⟩
    (free.feed .F0).incumbent = none ∧ (base.feed .F0).incumbent = some .A ∧ (inContract.feed .F0).incumbent = some .A
      ∧ (inContract.stepsFor .F0 (line 3250 65000 false)) = ([], [])
      ∧ (inContract.stepsFor .F0 (line 3000 60000 true)) = ([], [])
      ∧ (inContract.stepsFor .F0 (line 3000 60000 false)).1.length = 1
      ∧ (base.stepsFor .F0 (line 3250 65000 false)).2.length = 1
      ∧ (inContract.stepsFor .F0 .nothing).1.length = 2 ∧ (base.stepsFor .F0 .nothing).1.length = 1
      ∧ (free.stepsFor .F0 (line 3250 65000 false)).2.length = 2 := by decide +kernel

theorem witness_BestOptionsAndWinners :
    bestLine [⟨.line 1, 9000, 3000, 27000, 20325⟩, ⟨.line 2, 15000, 3000, 45000, 37875⟩]
        = some ⟨.line 2, 15000, 3000, 45000, 37875⟩
      ∧ (let r := { PortRec.reset with state := .contract, contract := some contract }
         let x : Choice := ⟨.line 4, 20000, 3250, 65000, 56875⟩
         let y : Choice := ⟨.line 2, 9000, 3000, 27000, 56875⟩
         r.state = .contract ∧ r.contract = some contract ∧ x ∈ [y, x] ∧ x.kind = .line contract.line
           ∧ (∀ d ∈ [y, x], d.kind = x.kind → d = x) ∧ (∀ d ∈ [y, x], d.score ≤ x.score)
           ∧ PortRec.reset.state ≠ .contract)
      ∧ bestLine [] = none
      ∧ (⟨.line 1, 5000, 900, 4500, 2250⟩ : Choice).score ≤ 2250
      ∧ 2250 < (⟨.line 1, 5000, 900, 4500, 2251⟩ : Choice).score
      ∧ (thirdCase.feed .F0).incumbent = some (leadPort .F0)
      ∧ thirdCase.bestOption (leadPort .F0) = some ⟨.line 4, 20000, 3250, 65000, 56875⟩
      ∧ thirdCase.bestOption (secondPort .F0) = some ⟨.line 2, 20000, 4000, 67500, 59062⟩
      ∧ (thirdCase.feed .F1).incumbent = none := by decide +kernel

/-- 04's first case; a claim of 0 mA, and of the floor and one milliwatt below. -/
theorem witness_TargetsKeepTheCeilings :
    5000 ≤ firstCase.factoryValues.maxVoltage
      ∧ (∀ f ∈ allFeeds, (firstCase.evaluate.get f).kind = .line ∧ (firstCase.evaluate.get f).frozen = false)
      ∧ firstCase.targetOf 49 (some (.A, ⟨.line 1, 5000, 3000, 15000, 1⟩)) = .nothing
      ∧ (firstCase.targetOf 4500 (some (.A, ⟨.line 1, 5000, 3000, 15000, 1⟩))).power = 4500
      ∧ firstCase.targetOf 4499 (some (.A, ⟨.line 1, 5000, 3000, 15000, 1⟩)) = .nothing := by decide +kernel

/-- Requests of 500 and 490 mA; PASS and HOLD; a held request, as received and amended. -/
theorem witness_DrawIsGrantedDeclinedOrDeferred :
    let s := { portAt .A .outletBase .stopped with outlet := { State.reset.outlet with
      grants := [⟨.A, .base, 500, 0, .off⟩] } }
    let h := holding.withPort .A (fun r => { r with state := .outletBase })
    (s.running = true ∧ (s.port .A).tx = none ∧ [(0 : Byte), 50].length = 2
        ∧ (s.port .A).state ∈ [.outletBase, .outletGranted] ∧ s.modeInForce .A .draw = .pass)
      ∧ min (min (field [0x00, 0x32] 0 2 * 10) (s.tables.port.get .A).outletCap)
          (s.outlet.pool - sumCurrents (s.outlet.grants.filter (·.port != .A))) = 500
      ∧ min (min (field [0x00, 0x31] 0 2 * 10) (s.tables.port.get .A).outletCap)
          (s.outlet.pool - sumCurrents (s.outlet.grants.filter (·.port != .A))) = 490
      ∧ h.running = true ∧ (h.port .A).tx = none ∧ (h.port .A).state ∈ [.outletBase, .outletGranted]
      ∧ h.modeInForce .A .draw = .hold ∧ (TrapUnit.mk [] h.traps.nextTag).hasRoom .A = true
      ∧ (let e := heldEntry 3 .draw [0x00, 0x32] .armed
         let v := withQueue [e] s
         v.takes = true ∧ v.traps.heldTag e.tag = some e ∧ e.kind = .draw ∧ e.port = .A ∧ e.payload = [0x00, 0x32]
           ∧ amendDecision e [0x00, 0x31] = some (.amendDraw 490, false)
           ∧ amendDecision e [0x00, 0x33] = some (.amendDraw 500, true)) := by decide +kernel

/-- R152: with 1500 mA in force, entries of 1500, 1000 and a base entry are cut to 500 each and kept; with 500, the newest
two go. Two ports parked with reason POOL and room for one: the older park time is admitted. -/
theorem witness_ShrinkKeepsTheOldestWithinThePool :
    let gs : List GrantEntry := [⟨.B, .granted, 1500, 1, .off⟩, ⟨.C, .base, 500, 2, .off⟩, ⟨.D, .granted, 1000, 3, .off⟩]
    let w (pool : Nat) := Ev.start { State.reset with outlet := { State.reset.outlet with pool := pool, grants := gs } }
    let parked (r : PortRec) : PortRec := { r with state := .parked, parkReason := some .pool, partner := some adapter }
    let v := Ev.start ({ State.reset with
      time := 9, outlet := { State.reset.outlet with pool := 999, parkTime := ⟨some 7, some 5, none, none⟩ } }
        |>.withPort .A parked |>.withPort .B parked)
    (gs.map (·.port)).Nodup
      ∧ (shrinkPool (w 1500)).outlet.grants.map (·.current) = [500, 500, 500]
      ∧ (shrinkPool (w 500)).outlet.grants.map (·.port) = [.B]
      ∧ (∀ p ∈ [Port.A, .B, .C, .D], v.outlet.hasEntry p = true → (v.port p).state ≠ .parked)
      ∧ (readmissionPass v).outlet.grants.map (·.port) = [.B] := by decide +kernel

/-! ### Time, watches, record, reset, invariants -/

theorem witness_TickCountsTimeAndSamples :
    State.reset.running = true ∧ State.reset.factory.burn = none ∧ (List.replicate 7 (1 : Nat)).length ≤ 8
      ∧ (List.replicate 8 (1 : Nat)).length = 8 := by decide +kernel

theorem witness_TickActsOnTheDrainedState :
    State.reset.running = true
      ∧ (let s := { derated8 with
           watches := ⟨⟨true, .thermal, .above, 3000, 200, 0, .derate, .both, 8⟩, some .clear, none, none⟩
             :: List.replicate 7 .reset
           sense := { derated8.sense with thermal := List.replicate 8 3100 } }
         let t := after (.tick { quiet with thermal := 3100 }) s
         s.running = true ∧ (t.feed .F0).derate = 8 ∧ (t.feed .F0).output = 2250
           ∧ t.link.noticeSet .watchFired = true) := by decide +kernel

/-- Values at the threshold and beside it, an ABOVE entry whose margin is its threshold, a BELOW entry whose margin is above it. -/
theorem witness_WatchConditionsAndReleases :
    let a : WatchEntry := ⟨true, .thermal, .above, 100, 100, 5, .notice, .both, 1⟩
    let b : WatchEntry := { a with direction := .below, margin := 200 }
    let x (s : WatchState) : WatchSlot := ⟨a, some s, some 0, none⟩
    (a.direction = .above ∧ a.margin ≤ a.threshold ∧ a.holds 101 = true ∧ a.holds 100 = false ∧ a.released 0 = true
        ∧ a.released 1 = false)
      ∧ (b.direction = .below ∧ b.holds 99 = true ∧ b.holds 100 = false ∧ b.released 300 = true ∧ b.released 299 = false)
      ∧ (x .clear).state = some .clear ∧ (x .blocked).state = some .blocked ∧ (x .active).state = some .active
      ∧ (x .holding).state = some .holding ∧ (x .holding).hold = some 0 := by decide +kernel

/-- Contents of 28, 29 and 30 bytes; the lock; a written record; the blank defaults, in range. -/
theorem witness_BurnFactoryByItsChecks :
    State.reset.takes = true ∧ (contentBytes .blank).length = 29 ∧ contentInRange (parseContent (contentBytes .blank)) = true
      ∧ contentInRange (parseContent (List.replicate 29 0)) = false
      ∧ [28, 29, 30].map (fun n => ((after (.burnFactory (List.replicate n 0)) State.reset).link.pendingResult.map (·.result)))
        = [some .badForm, some .badForm, some .badForm]
      ∧ (after (.burnFactory (contentBytes .blank)) State.reset).factory.burn = some ⟨.blank, .armed⟩ := by decide +kernel

/-- A content whose port current ceiling lies below a contract's current. -/
theorem witness_BurnReadBackPutsTheRecordInForce :
    let c := { FactoryContent.blank with portCurrent := 2000 }
    let s := { onFeed0 .contract (some contract) none .stopped .contract with
      factory := ⟨.blank, .unwritten, some ⟨c, .running 0⟩⟩ }
    s.running = true ∧ s.factory.burn = some ⟨c, .running 0⟩
      ∧ ((s.port .A).contract.any (fun k => c.portCurrent < k.current)
          || (s.port .A).claim.any (fun k => c.portCurrent < k.current)) = true
      ∧ (s.port .A).state ≠ .recovery ∧ s.factoryValues.selectionDiffers c = true
      ∧ s.closedOn .A = true ∧ (s.port .A).contract.isSome = true
      ∧ (inFlightOn .release s).exchangeOn .A = true
      ∧ (let k := { FactoryContent.blank with portCurrent := 5000, fallbackCeiling := 9000 }
         let u := { onFeed0 .contract (some contract) none .stopped .contract with
           factory := ⟨.blank, .unwritten, some ⟨k, .running 0⟩⟩ }
         (∀ p ∈ allPorts, (u.port p).aboveCeiling k.portCurrent = false) ∧ u.ceilingTrim 9000 .F0 = some 450) := by decide +kernel

theorem witness_PolicyRestartRestoresThePolicy :
    State.reset.takes = true ∧ State.reset.tables.lock = false
      ∧ (let s := attendedState (onFeed0 .contract (some contract) none .stopped .contract)
         let v := flushTraps (Ev.start (s.holding 0x9C#8))
         s.takes = true ∧ s.tables.lock = false ∧ s.link.mode = .attended ∧ (v.feed .F0).state ≠ .fault
           ∧ (∀ p ∈ [Port.A, .B], (v.port p).state ∈ [.parked, .disabled] → v.closedOn p = false)
           ∧ ((v.toState.withLevels []).ceilingTrim s.factoryValues.fallbackCeiling .F0).isSome = true
           ∧ (v.port .A).state ∉ [.parked, .disabled, .outletBase, .outletGranted]
           ∧ v.outlet.hasEntry .A = false) := by decide +kernel

/-- Each cause of a full reset, and its end with cells unwritten, held, damaged and lost. -/
theorem witness_FullResetTakesTheResetValues :
    (∀ c ∈ [Instr.powerUp, .resetInput, .supplyDip], (after c State.reset).resetting.isSome = true)
      ∧ (∀ k ∈ [Cells.unwritten, .holding .blank (crc8 (contentBytes .blank)), .damaged], ∀ lost ∈ [true, false],
          (after (.fullResetEnd lost) { State.reset with
            factory := ⟨.blank, k, none⟩, resetting := some ⟨true, false, false⟩ }).running = true) := by decide +kernel

/-- The premises of the invariants hold after reset (the statement about reset says so), and in a state of a run: a
contract in force, an outlet entry, an attended link with a held request, samples and a queue. -/
theorem witness_Invariants :
    let s := onFeed0 .contract (some contract) none .stopped .contract
    let t := { (attendedState (withQueue [heldEntry 3 .announce [] .armed] (voltage0 20000 s))).withLink (fun l =>
        { l with held := some 0x94, pendingResult := some ⟨0x94, .done, []⟩, owed := [0x88, 0x88, 0x88, 0x88] }) with
      outlet := { State.reset.outlet with grants := [⟨.C, .granted, 1500, 4, .off⟩] }, pending := [.evaluate []] }
    t.limitsHold = true ∧ t.outlet.withinPool = true ∧ t.traps.bounded = true ∧ t.link.consistent = true
      ∧ t.tables.within t.factoryValues = true ∧ (t.factory.burn.isSome = true → t.factory.record = .blank)
      ∧ t.sense.within = true ∧ t.sized = true
      ∧ (match step t with
        | .next _ => true
        | _ => false) = true := by decide +kernel

end Sys2Proof.Tests
end

