-- ==== Sys2Proof/Proofs/LinkRequests.lean ====
section
/-! PROOFS. How the system link takes a request (chapter 10): every request row is one request event; such an event while a
request is held owes BUSY (R194), and one that is acted on and touches the link alone leaves a state written out here. -/
namespace Sys2Proof.Machine

/-! ## Events that touch the link alone -/

/-- Outside a full reset, an event that only changes the link comes to the state with the link changed. -/
theorem takeEvent_updLink {s : State} (h : s.running = true) {act : Ev → Ev} {g : Link → Link}
    (hact : act (Ev.start s) = updLink g (Ev.start s)) : takeEvent act s = .next (s.withLink g) := by
  rw [takeEvent_quiet h act] <;> rw [hact] <;> rfl

/-- A request that is acted on, with a decision that changes the link alone: the change is made with the request held and its
mark cleared, and the RESULT placed (R193, R204). -/
theorem requestEvent_updLink {s : State} (h : s.takes = true) {code : Byte} {params : List Byte}
    (hl : params.length ≤ 128) {dec : Bool → Ev → Answer} (g : Link → Link) (r : ResultCode) (data : List Field)
    (hd : ∀ w : Ev, w.toState = s.holding code → dec s.link.markArmed w = ⟨updLink g w, r, data⟩) :
    requestEvent code params dec s =
      .next ((s.holding code).withLink (fun l => { g l with pendingResult := some ⟨code, r, data⟩ })) := by
  rw [requestEvent_takes h code params hl, hd _ rfl, closeEvent_quiet rfl rfl rfl]
  rfl

/-! ## Every request is one request event -/

/-- A code of the request range that names no request is taken as one (R193). -/
theorem takeUnknown_eq_takeRequest {code : Byte} (hr : requestRange code = true) (ha : assignedCode code = false)
    (params : List Byte) : takeUnknown code params = takeRequest code params (fun _ w => answer w .badForm) := by
  funext w
  simp [takeUnknown, hr, ha]

/-- A well-formed request command is the event of a request frame with its code and its parameters, which fit a frame
(R21, R193). -/
theorem exec_request {i : Instr} {code : Byte} {params : List Byte} (hr : i.request = some (code, params))
    (hw : i.wellFormed = true) :
    params.length ≤ 128 ∧ ∃ dec, ∀ s, exec i s = requestEvent code params dec s := by
  cases i
  case unknownRequest c ps =>
    obtain ⟨rfl, rfl⟩ : c = code ∧ ps = params := by simpa [Instr.request] using hr
    obtain ⟨⟨hrange, hfree⟩, hfit⟩ :
        (requestRange c = true ∧ assignedCode c = false) ∧ paramsFit ps = true := by
      simpa [Instr.wellFormed] using hw
    exact ⟨Laws.WireForm.fit hfit, fun _ w => answer w .badForm,
      fun s => congrArg (takeEvent · s) (takeUnknown_eq_takeRequest hrange hfree ps)⟩
  all_goals simp only [Instr.request, Option.some.injEq, Prod.mk.injEq, reduceCtorEq] at hr
  all_goals
    obtain ⟨rfl, rfl⟩ := hr
    exact ⟨Laws.WireForm.fit hw, _, fun s => rfl⟩

/-! ## The owed BUSY list (R194) -/

/-- A link whose receive buffer is emptied and whose owed BUSY list takes a code at its end, or loses it when full (R194). -/
def Link.owing (code : Byte) (l : Link) : Link :=
  { l with rxBuffer := [], owed := if l.owed.length < 4 then l.owed ++ [code] else l.owed }

theorem oweBusy_emptyBuffer (code : Byte) (w : Ev) : oweBusy code (emptyBuffer w) = updLink (Link.owing code) w := by
  by_cases h : w.link.owed.length < 4 <;> simp [oweBusy, emptyBuffer, updLink, Link.owing, Config.owedCapacity, h]

/-- A request that completes while one is held is owed BUSY, whatever it would decide (R194). -/
theorem requestEvent_held {s : State} (h : s.running = true) (hh : s.link.held.isSome = true) {code : Byte}
    {params : List Byte} (hl : params.length ≤ 128) (dec : Bool → Ev → Answer) :
    requestEvent code params dec s = .next (s.withLink (Link.owing code)) := by
  have htake : takeRequest code params dec (Ev.start s) = oweBusy code (emptyBuffer (Ev.start s)) := by
    simp [takeRequest, Config.maxSystemPayload, Nat.not_lt.mpr hl, hh, emptyBuffer]
  exact takeEvent_updLink h (htake.trans (oweBusy_emptyBuffer code _))

theorem exec_requestOwedBusy {s : State} (h : s.running = true) (hh : s.link.held.isSome = true) {code : Byte}
    (hr : requestRange code = true) : exec (.requestOwedBusy code) s = .next (s.withLink (Link.owing code)) := by
  have hrefuse : refuseBusy code (Ev.start s) = oweBusy code (emptyBuffer (Ev.start s)) := by simp [refuseBusy, hh, hr]
  exact takeEvent_updLink h (hrefuse.trans (oweBusy_emptyBuffer code _))

/-- When the RESULT's last byte is out the wire is idle and the held request ends (R193). -/
theorem exec_resultSent {s : State} (h : s.running = true) (ht : s.link.tx = some .result) :
    exec .resultSent s = .next (s.withLink (fun l => endHeld { l with tx := none })) :=
  takeEvent_updLink h (by simp [endResult, ht])

/-- Settles O7: a request event while one is held owes BUSY, and the end of the held one takes the list's head. -/
theorem owedCodesAreAnsweredInTheirOrder : Obligations.OwedCodesAreAnsweredInTheirOrder := by
  intro s hs
  refine ⟨fun i code params hr hw hh => ?_, fun code hr hh => exec_requestOwedBusy hs hh hr, fun ht => ?_⟩
  · obtain ⟨hl, dec, hexec⟩ := exec_request hr hw
    rw [hexec, requestEvent_held hs hh hl]
    rfl
  · rw [exec_resultSent hs ht]
    cases hq : s.link.owed <;> simp [State.withLink, endHeld, hq]

end Sys2Proof.Machine
end

