-- ==== Sys2Proof/Proofs/Notices.lean ====
section
/-! PROOFS. The notice flags, their mask and the alert line (R199 to R202, R216). -/
namespace Sys2Proof.Machine

/-! ## Flag sets of two bytes -/

theorem fromBytes_pair (a b : Byte) : fromBytes [a, b] = a.toNat * 256 + b.toNat := by
  simp [fromBytes]

theorem parseFlagSet_pair_badForm {a b : Byte} (h : 4096 ≤ a.toNat * 256 + b.toNat) : parseFlagSet [a, b] = none := by
  simp only [parseFlagSet, fromBytes_pair, if_neg (Nat.not_lt.mpr h)]

theorem parseFlagSet_pair {a b : Byte} (h : ¬ 4096 ≤ a.toNat * 256 + b.toNat) :
    parseFlagSet [a, b] = some (BitVec.ofNat 12 (a.toNat * 256 + b.toNat)) := by
  simp only [parseFlagSet, fromBytes_pair, if_pos (Nat.not_le.mp h)]

/-! ## The alert line (R202) -/

/-- Every bit of a flag set is the place of a notice (R199). -/
theorem exists_noticeBit_eq {k : Nat} (h : k < 12) : ∃ n : Notice, noticeBit n = k := by
  interval_cases k
  exacts [⟨.attach, rfl⟩, ⟨.detach, rfl⟩, ⟨.sheetChanged, rfl⟩, ⟨.contractChanged, rfl⟩, ⟨.planDone, rfl⟩,
    ⟨.stepFailed, rfl⟩, ⟨.feedFault, rfl⟩, ⟨.watchFired, rfl⟩, ⟨.trapOverflow, rfl⟩, ⟨.livenessLost, rfl⟩,
    ⟨.outletCut, rfl⟩, ⟨.restarted, rfl⟩]

/-- Two flag sets meet exactly when some notice stands in both. -/
theorem and_ne_zero_iff_exists_notice (x y : BitVec 12) :
    x &&& y ≠ 0#12 ↔ ∃ n : Notice, x.getLsbD (noticeBit n) = true ∧ y.getLsbD (noticeBit n) = true := by
  constructor
  · intro h
    by_contra hnone
    refine h (BitVec.eq_of_getLsbD_eq fun k hk => ?_)
    obtain ⟨n, rfl⟩ := exists_noticeBit_eq hk
    have hnot : x.getLsbD (noticeBit n) = true → y.getLsbD (noticeBit n) = false :=
      fun hx => Bool.eq_false_iff.mpr fun hy => hnone ⟨n, hx, hy⟩
    simpa using hnot
  · rintro ⟨n, hx, hy⟩ h
    have hbit : (x &&& y).getLsbD (noticeBit n) = true := by simp [hx, hy]
    simp [h] at hbit

/-- Outside a full reset the alert line is asserted exactly while a set flag is marked in the mask (R202). -/
theorem alertAsserted_iff {s : State} (h : s.running = true) :
    s.alertAsserted = true ↔
      ∃ n : Notice, s.link.noticeSet n = true ∧ s.link.mask.getLsbD (noticeBit n) = true := by
  simpa [State.alertAsserted, Link.noticeSet, resetting_of_running h]
    using and_ne_zero_iff_exists_notice s.link.notices s.link.mask

/-! ## CLEAR NOTICES and SET MASK (R201, R202) -/

theorem exec_clearNotices {s : State} (h : s.takes = true) (a b : Byte) :
    exec (.clearNotices [a, b]) s = .next
      (if 4096 ≤ a.toNat * 256 + b.toNat then s.answered 0x98#8 .badForm []
       else
         let left := s.link.notices &&& ~~~(BitVec.ofNat 12 (a.toNat * 256 + b.toNat))
         (s.answered 0x98#8 .done [.num 2 left.toNat]).withLink (fun l => { l with notices := left })) := by
  split
  case isTrue hbad =>
    exact requestEvent_refused h _ _ (by simp) _ _ _ fun w _ => by
      simp [withLength, parseFlagSet_pair_badForm hbad, answer]
  case isFalse hgood =>
    exact requestEvent_updLink h (by simp)
      (fun l => { l with
        notices := s.link.notices &&& ~~~(BitVec.ofNat 12 (a.toNat * 256 + b.toNat)) }) .done _ fun w hw => by
        simp [withLength, parseFlagSet_pair hgood, clearNotices, hw, State.holding]

theorem exec_setMask {s : State} (h : s.takes = true) (a b : Byte) :
    exec (.setMask [a, b]) s = .next
      (if 4096 ≤ a.toNat * 256 + b.toNat then s.answered 0x99#8 .badForm []
       else (s.answered 0x99#8 .done []).withLink (fun l =>
         { l with mask := BitVec.ofNat 12 (a.toNat * 256 + b.toNat) })) := by
  split
  case isTrue hbad =>
    exact requestEvent_refused h _ _ (by simp) _ _ _ fun w _ => by
      simp [withLength, parseFlagSet_pair_badForm hbad, answer]
  case isFalse hgood =>
    exact requestEvent_updLink h (by simp)
      (fun l => { l with mask := BitVec.ofNat 12 (a.toNat * 256 + b.toNat) }) .done [] fun w _ => by
        simp [withLength, parseFlagSet_pair hgood, answer]

/-! ## The end of a full reset -/

/-- A full reset ends with the link at its reset values (R192, R216). -/
theorem endReset_link {s : State} (h : s.resetting.isSome = true) (lost : Bool) : (s.endReset lost).link = Link.reset := by
  obtain ⟨c, hc⟩ := Option.isSome_iff_exists.mp h
  simp [State.endReset, hc, State.reset]

/-- RESTARTED alone is set after a full reset (R192). -/
theorem reset_noticeSet_iff (n : Notice) : Link.reset.noticeSet n = true ↔ n = .restarted := by
  cases n <;> decide

/-- Settles O11: the two requests by their exact next states, the alert line by the bits of the flags and the mask. -/
theorem clearNoticesAndSetMask : Obligations.ClearNoticesAndSetMask := by
  refine ⟨fun a b s hs => ⟨_, exec_clearNotices hs a b, rfl, alertAsserted_iff ?_⟩,
    fun a b s hs => exec_setMask hs a b, fun s hs => ⟨alertAsserted_iff hs, fun lost u hu => ?_⟩⟩
  · have hrun := running_of_takes hs
    split <;> exact hrun
  · have hlink := endReset_link hu lost
    refine ⟨u.endReset lost, rfl, ?_, ?_, fun n => ?_⟩
    · simp [State.alertAsserted, hlink, Link.reset]
    · simp [hlink, Link.reset]
    · rw [hlink]
      exact reset_noticeSet_iff n

end Sys2Proof.Machine
end

