-- ==== Sys2Proof/Proofs/FactoryRecord.lean ====
section
/-! PROOFS. BURN FACTORY and the factory record (R212). -/
namespace Sys2Proof.Machine

/-! ## The checks of a burn, each where those before it do not apply -/

theorem withLength_ne {n : Nat} {params : List Byte} (h : params.length ≠ n) (dec : Ev → Answer) (w : Ev) :
    withLength n params dec w = answer w .badForm := if_neg h

theorem withLength_eq {n : Nat} {params : List Byte} (h : params.length = n) (dec : Ev → Answer) (w : Ev) :
    withLength n params dec w = dec w := if_pos h

theorem decideBurn_locked {w : Ev} (h : w.tables.lock = true) (params : List Byte) :
    decideBurn params w = answer w .locked := if_pos h

theorem decideBurn_written {w : Ev} (hlock : ¬ w.tables.lock = true) (h : w.factory.record ≠ .blank)
    (params : List Byte) : decideBurn params w = answer w .written := by
  rw [decideBurn, if_neg hlock, if_pos h]

theorem decideBurn_outOfRange {w : Ev} (hlock : ¬ w.tables.lock = true) (hblank : ¬ w.factory.record ≠ .blank)
    {params : List Byte} (h : contentInRange (parseContent params) = false) :
    decideBurn params w = answer w .badForm := by
  rw [decideBurn, if_neg hlock, if_neg hblank, if_neg (Bool.eq_false_iff.mp h)]

theorem decideBurn_done {w : Ev} (hlock : ¬ w.tables.lock = true) (hblank : ¬ w.factory.record ≠ .blank)
    {params : List Byte} (h : ¬ contentInRange (parseContent params) = false) :
    decideBurn params w =
      answer { w with factory := { w.factory with burn := some ⟨parseContent params, .armed⟩ } } .done := by
  rw [decideBurn, if_neg hlock, if_neg hblank, if_pos (eq_true_of_ne_false h)]

/-! ## BURN FACTORY as a request -/

/-- A BURN FACTORY refused by a check on the tables and the factory part, which taking a request leaves alone. -/
theorem exec_burnFactory_refused {s : State} (h : s.takes = true) {params : List Byte} (hl : params.length ≤ 128)
    (r : ResultCode)
    (hd : ∀ w : Ev, w.tables = s.tables → w.factory = s.factory →
      withLength 29 params (decideBurn params) w = answer w r) :
    exec (.burnFactory params) s = .next (s.answered 0x9D#8 r []) :=
  requestEvent_refused h _ _ hl _ r [] fun w hw => hd w (by rw [hw]; rfl) (by rw [hw]; rfl)

/-- A BURN FACTORY that passes every check arms the burn of the content as it was given, and closes with nothing owed. -/
theorem exec_burnFactory_done {s : State} (h : s.takes = true) {params : List Byte} (hlen : params.length = 29)
    (hlock : ¬ s.tables.lock = true) (hblank : ¬ s.factory.record ≠ .blank)
    (hrange : ¬ contentInRange (parseContent params) = false) :
    exec (.burnFactory params) s = .next { s.answered 0x9D#8 .done [] with
      factory := { s.factory with burn := some ⟨parseContent params, .armed⟩ } } := by
  have hrequest : exec (.burnFactory params) s =
      requestEvent 0x9D#8 params (fun _ w => withLength 29 params (decideBurn params) w) s := rfl
  rw [hrequest, requestEvent_takes h _ _ (by omega), withLength_eq hlen, decideBurn_done hlock hblank hrange,
    closeEvent_quiet rfl rfl rfl]
  rfl

/-- Settles O52: one case for each check of R212 in its order, and the burn where none applies. -/
theorem burnFactoryByItsChecks : Obligations.BurnFactoryByItsChecks := by
  intro params s hs hl
  split_ifs with hlen hlock hrecord hrange
  · exact exec_burnFactory_refused hs hl .badForm fun w _ _ => withLength_ne hlen _ w
  all_goals have hlen := not_not.mp hlen
  · exact exec_burnFactory_refused hs hl .locked fun w ht _ =>
      (withLength_eq hlen _ w).trans (decideBurn_locked (by rwa [ht]) params)
  · exact exec_burnFactory_refused hs hl .written fun w ht hf =>
      (withLength_eq hlen _ w).trans (decideBurn_written (by rwa [ht]) (by rwa [hf]) params)
  · exact exec_burnFactory_refused hs hl .badForm fun w ht hf =>
      (withLength_eq hlen _ w).trans (decideBurn_outOfRange (by rwa [ht]) (by rwa [hf]) hrange)
  · exact exec_burnFactory_done hs hlen hlock hrecord hrange

end Sys2Proof.Machine
end

