-- ==== Sys2Proof/Proofs/Keeps.lean ====
section
/-! PROOFS. What every shared operation keeps (R134, R144, R152, R178, R179, R192, R206, R62): one relation between the event
before and after an operation, one lemma for each operation, in the order of the model's definitions. The invariants that every
step keeps are read off it. -/
namespace Sys2Proof.Machine

/-! ## The relation -/

/-- The parts of the link that a request and its RESULT hold (R193, R194, R182). -/
def Link.exchange (l : Link) : Option Byte × Option Result × List Byte × Option SysTx :=
  (l.held, l.pendingResult, l.owed, l.tx)

/-- The liveness timer is stopped while the part is unattended (R206). -/
def Link.livenessFits (l : Link) : Bool := l.mode == .attended || l.liveness == .stopped

/-- Stored fields under the ceilings in force, a burn on a BLANK record alone, samples in range, tables of their size (R60,
R62, R157, R158, R213). -/
def State.storesHold (s : State) : Prop :=
  s.tables.within s.factoryValues = true ∧ (s.factory.burn.isSome = true → s.factory.record = .blank)
    ∧ s.sense.within = true ∧ s.sized = true

/-- An operation that makes `v` of `w` keeps the invariants of the block; of the link it may write the notices, the mask, the
receive buffer, the mark, the mode and the liveness timer. -/
structure Keeps (w v : Ev) : Prop where
  limits : w.limitsHold = true → v.limitsHold = true
  pool : w.outlet.withinPool = true → v.outlet.withinPool = true
  traps : w.traps.bounded = true → v.traps.bounded = true
  exchange : v.link.exchange = w.link.exchange
  liveness : w.link.livenessFits = true → v.link.livenessFits = true
  stores : w.storesHold → v.storesHold

theorem Keeps.refl (w : Ev) : Keeps w w := ⟨id, id, id, rfl, id, id⟩

theorem Keeps.trans {w v u : Ev} (h : Keeps w v) (k : Keeps v u) : Keeps w u :=
  ⟨k.limits ∘ h.limits, k.pool ∘ h.pool, k.traps ∘ h.traps, k.exchange.trans h.exchange, k.liveness ∘ h.liveness,
    k.stores ∘ h.stores⟩

/-- An operation of ports, feeds, controller and outlet leaves traps, link, tables, samples and record alone, so that limits and
pool are all there is to show. -/
theorem Keeps.of_rest {w v : Ev} (hr : v.rest = w.rest) (hl : w.limitsHold = true → v.limitsHold = true)
    (hp : w.outlet.withinPool = true → v.outlet.withinPool = true) : Keeps w v := by
  simp only [State.rest, Rest.mk.injEq] at hr
  obtain ⟨ht, hw, hs, htr, hlink, hf, -, -, -, -⟩ := hr
  have hx : v.link.exchange = w.link.exchange := by
    simpa only [Link.exchange] using congrArg Link.exchange hlink
  have hv : v.link.livenessFits = w.link.livenessFits := by
    simpa only [Link.livenessFits] using congrArg Link.livenessFits hlink
  refine ⟨hl, hp, fun h => by rwa [htr], hx, fun h => by rwa [hv], fun h => ?_⟩
  rwa [State.storesHold, State.sized, State.factoryValues, ht, hf, hs, hw]

section
variable {w v : Ev}

/-! ## Limits: one feed at a time -/

theorem limitsHold_iff (s : State) :
    s.limitsHold = true ↔ ∀ f, (s.feed f).limitHolds (s.control.trim.get f) = true := by
  simp only [State.limitsHold, Bool.and_eq_true]
  exact ⟨fun h f => by cases f; exacts [h.1, h.2], fun h => ⟨h .F0, h .F1⟩⟩

/-- Where a feed's record and trim value are written, the other feed's stand. -/
theorem limitsHold_of_one (f : Feed) (hf : (w.feed f).limitHolds (w.control.trim.get f) = true →
      (v.feed f).limitHolds (v.control.trim.get f) = true)
    (ho : ∀ g, g ≠ f → v.feed g = w.feed g ∧ v.control.trim.get g = w.control.trim.get g) :
    w.limitsHold = true → v.limitsHold = true := by
  simp only [limitsHold_iff]
  intro h g
  by_cases hg : g = f
  · subst hg
    exact hf (h g)
  · obtain ⟨h1, h2⟩ := ho g hg
    rw [h1, h2]
    exact h g

/-! ## The operations over the records -/

theorem keeps_updPort {p : Port} {g : PortRec → PortRec} (h : Keeps w v) : Keeps w (updPort p g v) :=
  h.trans ⟨id, id, id, rfl, id, id⟩

theorem keeps_raiseTrigger (h : Keeps w v) : Keeps w (raiseTrigger v) := h.trans ⟨id, id, id, rfl, id, id⟩

theorem keeps_setNotice {n : Notice} (h : Keeps w v) : Keeps w (setNotice n v) := h.trans ⟨id, id, id, rfl, id, id⟩

theorem keeps_readmit {b : Bool} (h : Keeps w v) : Keeps w { v with readmit := b } := h.trans ⟨id, id, id, rfl, id, id⟩

/-- Marks of the controller's work and its plan, its trim values as they are. -/
theorem keeps_control {c : Controller} {trig readmit : Bool} {ended : Option PlanStep} (hc : c.trim = v.control.trim)
    (h : Keeps w v) : Keeps w { v with control := c, trig := trig, ended := ended, readmit := readmit } :=
  h.trans ⟨fun hl => by
    rw [limitsHold_iff] at hl ⊢
    intro f
    show (v.feed f).limitHolds (c.trim.get f) = true
    rw [hc]
    exact hl f, id, id, rfl, id, id⟩

/-- A feed record written so that it stays within R134 under any trim value. -/
theorem keeps_updFeed {f : Feed} {g : FeedRec → FeedRec} (hg : ∀ r t, r.limitHolds t = true → (g r).limitHolds t = true)
    (h : Keeps w v) : Keeps w (updFeed f g v) :=
  h.trans (.of_rest (by simp) (limitsHold_of_one f (by simpa using hg _ _) (fun k hk => by simp [hk])) id)

theorem keeps_updOutlet {g : Outlet → Outlet} (hg : v.outlet.withinPool = true → (g v.outlet).withinPool = true)
    (h : Keeps w v) : Keeps w (updOutlet g v) := h.trans ⟨id, hg, id, rfl, id, id⟩

/-- The link written but for what a request holds. -/
theorem keeps_updLink {g : Link → Link} (hx : (g v.link).exchange = v.link.exchange)
    (hl : v.link.livenessFits = true → (g v.link).livenessFits = true) (h : Keeps w v) : Keeps w (updLink g v) :=
  h.trans ⟨id, id, id, hx, hl, id⟩

theorem keeps_traps {t : TrapUnit} (ht : v.traps.bounded = true → t.bounded = true) (h : Keeps w v) :
    Keeps w { v with traps := t } := h.trans ⟨id, id, ht, rfl, id, id⟩

theorem keeps_decideFrame {p : Port} {f : OutFrame} (h : Keeps w v) : Keeps w (decideFrame p f v) := keeps_updPort h
theorem keeps_discardClaims {p : Port} (h : Keeps w v) : Keeps w (discardClaims p v) := keeps_updPort h
theorem keeps_stopTimer {p : Port} (h : Keeps w v) : Keeps w (stopTimer p v) := keeps_updPort h
theorem keeps_startTimer {p : Port} {u : TimerUse} (h : Keeps w v) : Keeps w (startTimer p u v) := keeps_updPort h
theorem keeps_recordFailure {p : Port} {r : FailReason} (h : Keeps w v) : Keeps w (recordFailure p r v) := keeps_updPort h

theorem keeps_endStep {st : StepStatus} (h : Keeps w v) : Keeps w (endStep st v) := by
  unfold endStep
  split
  · exact h
  · exact keeps_control rfl h

theorem keeps_failStep {r : FailReason} (h : Keeps w v) : Keeps w (failStep r v) := by
  unfold failStep
  split
  · exact h
  · exact keeps_raiseTrigger (keeps_setNotice (keeps_recordFailure (keeps_endStep h)))

theorem keeps_ite {c : Prop} [Decidable c] {a b : Ev} (ha : Keeps w a) (hb : Keeps w b) : Keeps w (if c then a else b) := by
  split
  exacts [ha, hb]

theorem keeps_failExchange {p : Port} {r : FailReason} (h : Keeps w v) : Keeps w (failExchange p r v) :=
  keeps_ite (keeps_failStep h) h
theorem keeps_doneExchange {p : Port} (h : Keeps w v) : Keeps w (doneExchange p v) := keeps_ite (keeps_endStep h) h
theorem keeps_failClose {p : Port} {r : FailReason} (h : Keeps w v) : Keeps w (failClose p r v) :=
  keeps_ite (keeps_failStep h) h

/-! ## The outlet allocator -/

theorem withinPool_iff (o : Outlet) :
    o.withinPool = true ↔ (o.grants.map (·.port)).Nodup ∧ sumCurrents o.grants ≤ o.pool := by
  simp [Outlet.withinPool]

theorem keeps_removeEntry {p : Port} (h : Keeps w v) : Keeps w (removeEntry p v) := by
  unfold removeEntry
  split
  · refine h.trans (.of_rest rfl id fun hp => ?_)
    rw [withinPool_iff] at hp ⊢
    exact ⟨hp.1.sublist (List.filter_sublist.map _), (sumCurrents_filter_le _ _).trans hp.2⟩
  · exact h

theorem keeps_forgetParkTime {p : Port} (h : Keeps w v) : Keeps w (forgetParkTime p v) := keeps_updOutlet id h

theorem keeps_parkForPool {p : Port} (h : Keeps w v) : Keeps w (parkForPool p v) := keeps_updOutlet id (keeps_updPort h)

/-- A port is admitted where its entry fits the free room (R144, R147). -/
theorem keeps_admitPort {p : Port} (hroom : Config.defaultAllowance ≤ v.outlet.freeRoom) (h : Keeps w v) :
    Keeps w (admitPort p v) := by
  refine keeps_updOutlet (fun hp => ?_) (keeps_updPort h)
  rw [withinPool_iff] at hp ⊢
  have hsum := sumCurrents_filter_le (·.port != p) v.outlet.grants
  have hfit := admit_fits hroom
  refine ⟨?_, ?_⟩
  · rw [List.map_append, List.nodup_append]
    refine ⟨hp.1.sublist (List.filter_sublist.map _), by simp, ?_⟩
    simp only [List.mem_map, List.mem_filter]
    rintro q ⟨g, ⟨-, hne⟩, rfl⟩ q' hq' rfl
    simp_all
  · simp only [sumCurrents_append, sumCurrents_cons, sumCurrents_nil, updPort_outlet, Config.defaultAllowance]
    omega

theorem keeps_requestAdmission {p : Port} (h : Keeps w v) : Keeps w (requestAdmission p v) := by
  unfold requestAdmission
  split
  · exact keeps_admitPort (by assumption) h
  · exact keeps_parkForPool h

theorem keeps_foldl {α : Type} {g : Ev → α → Ev} (hg : ∀ {w v : Ev} {x}, Keeps w v → Keeps w (g v x)) (xs : List α)
    (h : Keeps w v) : Keeps w (xs.foldl g v) := by
  induction xs generalizing v with
  | nil => exact h
  | cons x xs ih => exact ih (hg h)

theorem keeps_announceCut {c : Port × Nat} (h : Keeps w v) : Keeps w (announceCut v c) :=
  keeps_setNotice (keeps_decideFrame h)

theorem keeps_expelPort {g : GrantEntry} (h : Keeps w v) : Keeps w (expelPort v g) :=
  keeps_setNotice (keeps_updOutlet id (keeps_parkForPool h))

/-- What a shrink leaves of a list without double entries fits the pool (R144, R152). -/
theorem shrunk_withinPool (o : Outlet) (hn : (o.grants.map (·.port)).Nodup) (e : Nat) :
    ({ o with grants := (keptEntries o.pool (cutEntries e o.grants.reverse)).reverse } : Outlet).withinPool = true := by
  rw [withinPool_iff]
  refine ⟨?_, by simpa using keptEntries_sum _ _⟩
  have hsub : (keptEntries o.pool (cutEntries e o.grants.reverse)).Sublist (cutEntries e o.grants.reverse) := by
    have := List.sublist_append_right (removedEntries o.pool (cutEntries e o.grants.reverse))
      (keptEntries o.pool (cutEntries e o.grants.reverse))
    rwa [removed_append_kept] at this
  have := hsub.map (·.port)
  rw [cutEntries_ports] at this
  simp only [List.map_reverse, List.nodup_reverse] at this ⊢
  exact (List.nodup_reverse.mpr hn).sublist this

/-- The shrink brings any list without double entries within the pool (R152). -/
theorem shrinkPool_withinPool (hn : (w.outlet.grants.map (·.port)).Nodup) : (shrinkPool w).outlet.withinPool = true := by
  unfold shrinkPool
  exact (keeps_foldl keeps_expelPort _ (keeps_foldl keeps_announceCut _ (Keeps.refl _))).pool
    (shrunk_withinPool w.outlet hn _)

theorem shrinkPool_limits (h : w.limitsHold = true) : (shrinkPool w).limitsHold = true := by
  unfold shrinkPool
  exact (keeps_foldl keeps_expelPort _ (keeps_foldl keeps_announceCut _ (Keeps.refl _))).limits h

theorem keeps_recomputePool (h : Keeps w v) : Keeps w (recomputePool v) := by
  refine h.trans (.of_rest (by simp) ?_ fun hp => ?_)
  · unfold recomputePool
    dsimp only
    split_ifs
    exacts [fun hl => shrinkPool_limits hl, id, id]
  · rw [withinPool_iff] at hp
    unfold recomputePool
    dsimp only
    split_ifs with h1 h2
    · exact shrinkPool_withinPool hp.1
    · exact (withinPool_iff _).mpr ⟨hp.1, Nat.le_of_not_lt h1⟩
    · exact (withinPool_iff _).mpr ⟨hp.1, Nat.le_of_not_lt h1⟩

theorem setGrant_ports (p : Port) (i : Nat) (gs : List GrantEntry) :
    (gs.map (fun g => if g.port = p then { g with kind := .granted, current := i } else g)).map (·.port)
      = gs.map (·.port) := by
  rw [List.map_map]
  refine List.map_congr_left fun g _ => ?_
  simp only [Function.comp]
  split <;> rfl

/-- The sum of a list whose entries of a port take a current: the other entries, and that current once at most. -/
theorem sumCurrents_setGrant (p : Port) (i : Nat) {gs : List GrantEntry} (hn : (gs.map (·.port)).Nodup) :
    sumCurrents (gs.map (fun g => if g.port = p then { g with kind := .granted, current := i } else g))
      = sumCurrents (gs.filter (·.port != p)) + if gs.any (·.port == p) then i else 0 := by
  induction gs with
  | nil => rfl
  | cons g gs ih =>
    simp only [List.map_cons, List.nodup_cons, List.mem_map, not_exists, not_and] at hn
    rw [List.map_cons, sumCurrents_cons, ih hn.2, List.filter_cons, List.any_cons]
    by_cases hg : g.port = p
    · have hrest : gs.any (·.port == p) = false := by
        simp only [List.any_eq_false, beq_iff_eq]
        exact fun x hx hxp => hn.1 x hx (hxp.trans hg.symm)
      simp [hg, hrest, Nat.add_comm]
    · simp [hg, Nat.add_assoc]

/-- A granted current that the pool has room for beside the other entries (R149). -/
theorem keeps_setGrant {p : Port} {i : Nat} (hfit : sumCurrents (v.outlet.grants.filter (·.port != p)) + i ≤ v.outlet.pool
      ∨ v.outlet.hasEntry p = false) (h : Keeps w v) : Keeps w (setGrant p i v) := by
  refine keeps_updOutlet (fun hp => ?_) h
  rw [withinPool_iff] at hp ⊢
  refine ⟨by simpa only [setGrant_ports] using hp.1, ?_⟩
  have hsum := sumCurrents_setGrant p i hp.1
  have hle := sumCurrents_filter_le (·.port != p) v.outlet.grants
  simp only [Outlet.hasEntry] at hfit
  dsimp only at hsum ⊢
  rw [hsum]
  split_ifs with hany
  · rw [hany] at hfit
    exact hfit.resolve_right (by simp)
  · omega

/-- The pool's room beside a port's own entry bounds the others (R149). -/
theorem others_le_pool {o : Outlet} (h : o.withinPool = true) (p : Port) :
    sumCurrents (o.grants.filter (·.port != p)) ≤ o.pool :=
  (sumCurrents_filter_le _ _).trans ((withinPool_iff o).mp h).2

theorem keeps_decideDraw {p : Port} {i : Nat} (h : Keeps w v) : Keeps w (decideDraw p i v) := by
  unfold decideDraw
  dsimp only
  split
  · have hset : Keeps v (setGrant p (v.drawGrant p i) (decideFrame p (.grant (v.drawGrant p i)) v)) := by
      refine .of_rest (by simp) id fun hp => ?_
      exact (keeps_setGrant (v := decideFrame p (.grant (v.drawGrant p i)) v)
        (.inl (drawGrant_fits _ p i (others_le_pool hp p))) (.refl _)).pool hp
    exact keeps_ite (keeps_readmit (keeps_updPort (h.trans hset))) (keeps_updPort (h.trans hset))
  · exact keeps_decideFrame h

theorem sumCurrents_find {p : Port} {g : GrantEntry} {gs : List GrantEntry} (hn : (gs.map (·.port)).Nodup)
    (hg : gs.find? (·.port == p) = some g) : sumCurrents (gs.filter (·.port != p)) + g.current = sumCurrents gs := by
  induction gs with
  | nil => simp at hg
  | cons x xs ih =>
    simp only [List.map_cons, List.nodup_cons, List.mem_map, not_exists, not_and] at hn
    rw [List.find?_cons] at hg
    rw [List.filter_cons, sumCurrents_cons]
    by_cases hx : x.port = p
    · simp only [hx, beq_self_eq_true, Option.some.injEq] at hg
      subst hg
      have hall : xs.filter (·.port != p) = xs :=
        List.filter_eq_self.mpr fun y hy => by simpa using fun hyp => hn.1 y hy (hyp.trans hx.symm)
      simp [hx, hall, Nat.add_comm]
    · have hb : (x.port == p) = false := by simpa using hx
      have := ih hn.2 (by simpa [hb] using hg)
      simp [hx]
      omega

theorem keeps_applyCap {p : Port} {cap : Nat} (h : Keeps w v) : Keeps w (applyCap p cap v) := by
  unfold applyCap
  split
  · exact h
  · rename_i g hg
    split
    · rename_i hc
      obtain ⟨-, hcap, hall⟩ := hc
      have hset : Keeps v (setGrant p (max Config.defaultAllowance cap) v) := by
        refine .of_rest (by simp) id fun hp => ?_
        have hfind := sumCurrents_find ((withinPool_iff _).mp hp).1 hg
        have hfits := ((withinPool_iff _).mp hp).2
        exact (keeps_setGrant (.inl (by omega)) (.refl v)).pool hp
      exact keeps_readmit (keeps_announceCut (h.trans hset))
    · exact h

theorem keeps_admitInOrder (ps : List Port) (h : Keeps w v) : Keeps w (admitInOrder ps v) := by
  induction ps generalizing v with
  | nil => exact h
  | cons p ps ih =>
    unfold admitInOrder
    split
    · exact ih (keeps_decideFrame (keeps_admitPort (by assumption) h))
    · exact h

theorem keeps_readmissionPass (h : Keeps w v) : Keeps w (readmissionPass v) := keeps_admitInOrder _ h

/-! ## The feed controllers -/

/-- A target computation brings the feed within R134, whatever was written to it before (R135, R136). -/
theorem keeps_retarget_updFeed {f : Feed} {g : FeedRec → FeedRec} (h : Keeps w v) :
    Keeps w (retarget f (updFeed f g v)) :=
  h.trans (.of_rest (by simp) (limitsHold_of_one f (fun _ => by simpa [retarget] using retarget_limitHolds _ _)
    (fun k hk => by simp [retarget, hk])) id)

theorem keeps_retarget {f : Feed} (h : Keeps w v) : Keeps w (retarget f v) := by
  have hid : updFeed f id v = v := by simp [updFeed]
  simpa [hid] using keeps_retarget_updFeed (f := f) (g := id) h

theorem keeps_setTrim_none {f : Feed} (h : Keeps w v) : Keeps w (setTrim f none v) := by
  refine h.trans (.of_rest (by simp) (limitsHold_of_one f (fun hf => ?_) (fun k hk => by simp [hk])) id)
  rw [setTrim_feed, setTrim_control, PerFeed.get_set_self]
  exact limitHolds_mono hf rfl rfl (limitTarget_le_none _ _)

theorem keeps_setStepCap {f : Feed} {c : Option Nat} (h : Keeps w v) : Keeps w (setStepCap f c v) :=
  keeps_retarget_updFeed h

theorem keeps_openInto {st : FeedState} {f : Feed} (h : Keeps w v) : Keeps w (openInto st f v) := by
  have hopen : Keeps w (setTrim f none (updFeed f (fun r => { r.openSwitch with state := st }) v)) :=
    keeps_setTrim_none (keeps_updFeed (fun _ t _ => limitHolds_of_zero rfl rfl t) h)
  unfold openInto
  exact keeps_ite (keeps_recomputePool hopen) hopen

theorem keeps_openWithGap {f : Feed} (h : Keeps w v) : Keeps w (openWithGap f v) :=
  keeps_ite (keeps_updFeed (fun _ _ => id) (keeps_openInto h)) h
theorem keeps_openIfClosedOn {p : Port} (h : Keeps w v) : Keeps w (openIfClosedOn p v) := keeps_ite (keeps_openWithGap h) h
theorem keeps_openForDetach {p : Port} (h : Keeps w v) : Keeps w (openForDetach p v) := keeps_ite (keeps_openInto h) h

theorem keeps_startCloseCheck {p : Port} (h : Keeps w v) : Keeps w (startCloseCheck p v) :=
  keeps_updFeed (fun r t _ => by cases p <;> exact limitHolds_of_zero rfl rfl t) h
theorem keeps_dropCloseCheck {p : Port} (h : Keeps w v) : Keeps w (dropCloseCheck p v) :=
  keeps_updFeed (fun r t hr => by cases p <;> exact hr) h
theorem keeps_leaveHeld {p : Port} (h : Keeps w v) : Keeps w (leaveHeld p v) :=
  keeps_ite (keeps_failClose (keeps_dropCloseCheck h)) (keeps_ite (keeps_updFeed (fun _ _ => id) h) h)
theorem keeps_detachClose {p : Port} (h : Keeps w v) : Keeps w (detachClose p v) := by
  have hdrop : Keeps w (if v.closeChecking p then dropCloseCheck p v else v) := keeps_ite (keeps_dropCloseCheck h) h
  exact keeps_ite (keeps_updFeed (fun _ _ => id) hdrop) hdrop
theorem keeps_abandonCheck {p : Port} (h : Keeps w v) : Keeps w (abandonCheck p v) :=
  keeps_ite (keeps_updFeed (fun _ _ => id) h) h

theorem keeps_reportEntered {p : Port} {u i : Nat} (h : Keeps w v) : Keeps w (reportEntered p u i v) :=
  keeps_ite (keeps_ite (keeps_recomputePool (keeps_retarget_updFeed h)) (keeps_retarget_updFeed h)) h
theorem keeps_reportRewritten {p : Port} {i : Nat} (h : Keeps w v) : Keeps w (reportRewritten p i v) :=
  keeps_ite (keeps_retarget_updFeed h) h
theorem keeps_reportRemoved {p : Port} (h : Keeps w v) : Keeps w (reportRemoved p v) := by
  have hoff : Keeps w (updFeed (feedOf p) (fun r => { r with underVolt := .off }) v) := keeps_updFeed (fun _ _ => id) h
  exact keeps_ite (keeps_ite (keeps_recomputePool (keeps_retarget_updFeed hoff)) hoff) h

/-- Between states whose limit is 0 a feed stays within R134 (R134, R142). -/
theorem limitHolds_idle {r : FeedRec} {t : Option Nat} (hs : r.state = .fault ∨ r.state = .gap) (h : r.limitHolds t = true) :
    ({ r with state := .idle } : FeedRec).limitHolds t = true :=
  limitHolds_mono h rfl rfl (by rcases hs with hs | hs <;> simp [limitTarget, hs])

/-- A feed in FAULT or GAP enters IDLE (R130, R142). -/
theorem keeps_enterIdle {f : Feed} {g : FeedRec → FeedRec} (hs : (v.feed f).state = .fault ∨ (v.feed f).state = .gap)
    (hg : ∀ r t, ({ r with state := .idle } : FeedRec).limitHolds t = true → (g r).limitHolds t = true) (h : Keeps w v) :
    Keeps w (updFeed f g v) :=
  h.trans (.of_rest (by simp) (limitsHold_of_one f (fun hf => by
    simpa using hg _ _ (limitHolds_idle hs hf)) (fun k hk => by simp [hk])) id)

theorem keeps_faultExit {f : Feed} (h : Keeps w v) : Keeps w (faultExit f v) := by
  unfold faultExit
  split
  · rename_i hc
    exact keeps_raiseTrigger (keeps_enterIdle (.inl hc.1) (fun _ _ => id) h)
  · exact h

theorem keeps_trimTo {f : Feed} {i : Nat} (h : Keeps w v) : Keeps w (trimTo f i v) :=
  h.trans (.of_rest (by simp) (limitsHold_of_one f
    (fun _ => by rw [(trimTo_same f i v).1, (trimTo_same f i v).2]; exact retarget_limitHolds _ _)
    (fun _ hk => trimTo_other hk i v)) id)

theorem keeps_trimForCeiling (h : Keeps w v) : Keeps w (trimForCeiling v) := by
  unfold trimForCeiling
  dsimp only
  split
  · exact keeps_ite (keeps_trimTo (keeps_ite (keeps_trimTo h) h)) (keeps_ite (keeps_trimTo h) h)
  · exact h

theorem keeps_trimForDerate {f : Feed} (h : Keeps w v) : Keeps w (trimForDerate f v) := keeps_ite (keeps_trimTo h) h

/-! ## The port units -/

theorem keeps_enter {p : Port} {st : PortState} (h : Keeps w v) : Keeps w (enter p st v) :=
  keeps_ite (keeps_updFeed (fun _ _ => id) (keeps_updPort h)) (keeps_updPort h)
theorem keeps_enterDebounce {p : Port} (h : Keeps w v) : Keeps w (enterDebounce p v) := keeps_enter (keeps_updPort h)
theorem keeps_dropContract {p : Port} (h : Keeps w v) : Keeps w (dropContract p v) :=
  keeps_ite (keeps_reportRemoved (keeps_setNotice (keeps_updPort h))) h
theorem keeps_dropClaim {p : Port} (h : Keeps w v) : Keeps w (dropClaim p v) := keeps_abandonCheck (keeps_updPort h)
theorem keeps_unpark {p : Port} (h : Keeps w v) : Keeps w (unpark p v) := keeps_forgetParkTime (keeps_updPort h)
theorem keeps_clearNegotiation {p : Port} (h : Keeps w v) : Keeps w (clearNegotiation p v) :=
  keeps_removeEntry (keeps_unpark (keeps_updPort (keeps_dropContract (keeps_dropClaim h))))
theorem keeps_decideRestart {p : Port} (h : Keeps w v) : Keeps w (decideRestart p v) :=
  keeps_ite (keeps_raiseTrigger (keeps_updPort h))
    (keeps_raiseTrigger (keeps_enter (keeps_updPort (keeps_clearNegotiation (keeps_leaveHeld h)))))
theorem keeps_partnerSendsRestart {p : Port} (h : Keeps w v) : Keeps w (partnerSendsRestart p v) :=
  keeps_raiseTrigger (keeps_enter (keeps_updPort (keeps_clearNegotiation (keeps_leaveHeld (keeps_failExchange h)))))
theorem keeps_setRole {p : Port} {role : Role} (h : Keeps w v) : Keeps w (setRole p role v) := keeps_updPort h
theorem keeps_decideWelcome {p : Port} {role : Role} (h : Keeps w v) : Keeps w (decideWelcome p role v) :=
  keeps_stopTimer (keeps_decideFrame (keeps_setRole h))
theorem keeps_park {p : Port} {reason : ParkReason} (h : Keeps w v) : Keeps w (park p reason v) :=
  keeps_raiseTrigger (keeps_enter (keeps_updPort h))

theorem keeps_welcomePartner {p : Port} {cls : PartnerClass} (h : Keeps w v) : Keeps w (welcomePartner p cls v) := by
  unfold welcomePartner
  dsimp only
  split
  · split
    · exact keeps_requestAdmission (keeps_openIfClosedOn (keeps_decideWelcome h))
    · exact keeps_enter (keeps_decideWelcome h)
  · exact keeps_park (keeps_openIfClosedOn (keeps_decideWelcome h))

theorem keeps_greetPartner {p : Port} {a : Announcement} {d : Decision} (h : Keeps w v) : Keeps w (greetPartner p a d v) := by
  unfold greetPartner
  dsimp only
  split
  · exact keeps_park (keeps_openIfClosedOn (keeps_decideWelcome (keeps_updPort h)))
  · exact keeps_welcomePartner (keeps_updPort h)

theorem keeps_clearOldPartner {p : Port} (h : Keeps w v) : Keeps w (clearOldPartner p v) :=
  keeps_raiseTrigger (keeps_updPort (keeps_clearNegotiation (keeps_leaveHeld (keeps_failExchange h))))

theorem keeps_deliverAnnounce {p : Port} {a : Announcement} {d : Decision} (h : Keeps w v) :
    Keeps w (deliverAnnounce p a d v) := by
  unfold deliverAnnounce
  split
  · exact keeps_greetPartner h
  iterate 9 exact keeps_greetPartner (keeps_clearOldPartner h)
  all_goals exact h

theorem keeps_silentPartner {p : Port} (h : Keeps w v) : Keeps w (silentPartner p v) :=
  keeps_ite (keeps_raiseTrigger (keeps_enter (keeps_openIfClosedOn (keeps_updPort h))))
    (keeps_park (keeps_openIfClosedOn (keeps_updPort h)))

theorem keeps_storeSheet {p : Port} {ls : List Line} (h : Keeps w v) : Keeps w (storeSheet p ls v) :=
  keeps_raiseTrigger (keeps_setNotice (keeps_updPort h))
theorem keeps_openClaim {p : Port} {line u i : Nat} {origin : Origin} {held : Bool} (h : Keeps w v) :
    Keeps w (openClaim p line u i origin held v) := keeps_enter (keeps_decideFrame (keeps_updPort h))
theorem keeps_rewriteContract {p : Port} {line i : Nat} (h : Keeps w v) : Keeps w (rewriteContract p line i v) :=
  keeps_updPort h

theorem keeps_protectiveReaction {p : Port} (h : Keeps w v) : Keeps w (protectiveReaction p v) := by
  unfold protectiveReaction
  split
  · exact h
  · split
    · exact keeps_raiseTrigger (keeps_enter (keeps_dropContract h))
    · exact keeps_raiseTrigger (keeps_openClaim (keeps_setNotice (keeps_reportRewritten (keeps_rewriteContract h))))

theorem keeps_endClaimBySheet {p : Port} (h : Keeps w v) : Keeps w (endClaimBySheet p v) :=
  keeps_enter (keeps_discardClaims (keeps_stopTimer (keeps_dropClaim (keeps_failExchange h))))
theorem keeps_endSettlingBySheet {p : Port} (h : Keeps w v) : Keeps w (endSettlingBySheet p v) :=
  keeps_decideRestart (keeps_failExchange h)

theorem keeps_deliverSheet {p : Port} {ls : List Line} (h : Keeps w v) : Keeps w (deliverSheet p ls v) := by
  unfold deliverSheet
  split
  · exact keeps_enter (keeps_stopTimer (keeps_storeSheet h))
  · exact keeps_storeSheet h
  · exact keeps_storeSheet h
  · have hstore : Keeps w (storeSheet p ls (endClaimBySheet p v)) := keeps_storeSheet (keeps_endClaimBySheet h)
    exact keeps_ite (keeps_protectiveReaction hstore) hstore
  · exact keeps_endSettlingBySheet h
  · exact keeps_protectiveReaction (keeps_storeSheet h)
  all_goals exact h

theorem keeps_acceptHeldSheet {p : Port} {ls : List Line} (h : Keeps w v) : Keeps w (acceptHeldSheet p ls v) := by
  unfold acceptHeldSheet
  split
  · exact keeps_deliverSheet h
  · exact keeps_ite (keeps_deliverSheet h) (keeps_endClaimBySheet h)
  · exact keeps_endSettlingBySheet h
  · exact h

theorem keeps_deliverDraw {p : Port} {i : Nat} (h : Keeps w v) : Keeps w (deliverDraw p i v) :=
  keeps_ite (keeps_decideDraw h) h
theorem keeps_denyDraw {p : Port} (h : Keeps w v) : Keeps w (denyDraw p v) := keeps_ite (keeps_decideFrame h) h
theorem keeps_claimGranted {p : Port} (h : Keeps w v) : Keeps w (claimGranted p v) :=
  keeps_enter (keeps_discardClaims (keeps_updPort h))

theorem keeps_claimDeclined {p : Port} (h : Keeps w v) : Keeps w (claimDeclined p v) := by
  unfold claimDeclined
  split
  · exact h
  · dsimp only
    split
    · exact keeps_enter (keeps_failExchange (keeps_recordFailure (keeps_dropClaim (keeps_stopTimer (keeps_updPort h)))))
    · exact keeps_decideRestart
        (keeps_failExchange (keeps_recordFailure (keeps_dropClaim (keeps_stopTimer (keeps_updPort h)))))
    · exact keeps_raiseTrigger (keeps_enter
        (keeps_dropContract (keeps_recordFailure (keeps_dropClaim (keeps_stopTimer (keeps_updPort h))))))

theorem keeps_exchangeFails {p : Port} {r : FailReason} (h : Keeps w v) : Keeps w (exchangeFails p r v) :=
  keeps_decideRestart (keeps_failExchange (keeps_recordFailure (keeps_dropClaim h)))

theorem keeps_repeatClaim {p : Port} (h : Keeps w v) : Keeps w (repeatClaim p v) := by
  unfold repeatClaim
  split
  exacts [h, keeps_decideFrame h]

theorem keeps_claimDeferred {p : Port} (h : Keeps w v) : Keeps w (claimDeferred p v) :=
  keeps_ite (keeps_startTimer (keeps_updPort h)) (keeps_exchangeFails h)
theorem keeps_answerMissed {p : Port} (h : Keeps w v) : Keeps w (answerMissed p v) :=
  keeps_ite (keeps_repeatClaim (keeps_updPort (keeps_stopTimer h))) (keeps_exchangeFails h)

theorem keeps_enterContract {p : Port} (h : Keeps w v) : Keeps w (enterContract p v) := by
  unfold enterContract
  split
  · exact h
  · dsimp only
    split
    · exact keeps_raiseTrigger (keeps_reportEntered (keeps_enter (keeps_setNotice (keeps_updPort h))))
    all_goals exact keeps_doneExchange (keeps_reportEntered (keeps_enter (keeps_setNotice (keeps_updPort h))))

theorem keeps_askSettleCheck {p : Port} (h : Keeps w v) : Keeps w (askSettleCheck p v) := by
  unfold askSettleCheck
  split
  · exact h
  · exact keeps_ite (keeps_updFeed (fun _ _ => id) (keeps_stopTimer h)) (keeps_exchangeFails (keeps_stopTimer h))

theorem keeps_releaseSettled {p : Port} (h : Keeps w v) : Keeps w (releaseSettled p v) :=
  keeps_doneExchange (keeps_enter (keeps_dropContract (keeps_stopTimer h)))
theorem keeps_releaseTimedOut {p : Port} (h : Keeps w v) : Keeps w (releaseTimedOut p v) :=
  keeps_decideRestart (keeps_doneExchange (keeps_dropContract h))

theorem keeps_commandClaim {p : Port} {line u i : Nat} {m : StepMark} (h : Keeps w v) :
    Keeps w (commandClaim p line u i m v) := by
  unfold commandClaim
  dsimp only
  split
  exacts [keeps_openClaim h, keeps_openClaim h, keeps_failStep h]

theorem keeps_commandRelease {p : Port} (h : Keeps w v) : Keeps w (commandRelease p v) := by
  unfold commandRelease
  split
  exacts [keeps_enter (keeps_stopTimer (keeps_decideFrame h)), keeps_failStep h]

theorem keeps_withdrawRole {p : Port} (h : Keeps w v) : Keeps w (withdrawRole p v) := by
  have hleave : Keeps w (leaveHeld p (failExchange p .commanded v)) := keeps_leaveHeld (keeps_failExchange h)
  exact keeps_park (keeps_decideWelcome (keeps_unpark (keeps_removeEntry (keeps_openIfClosedOn (keeps_updPort
    (keeps_dropContract (keeps_dropClaim (keeps_ite (keeps_decideFrame hleave) hleave))))))))

theorem keeps_leaveParkedRole {p : Port} (h : Keeps w v) : Keeps w (leaveParkedRole p v) := by
  unfold leaveParkedRole
  split
  · exact h
  · exact keeps_ite (keeps_raiseTrigger (keeps_ite (keeps_enter (keeps_setRole (keeps_updPort h)))
      (keeps_welcomePartner (keeps_updPort h)))) h

theorem keeps_emptySlot {p : Port} (h : Keeps w v) : Keeps w (emptySlot p v) := keeps_updPort h

theorem bounded_iff (t : TrapUnit) : t.bounded = true ↔ t.queue.length ≤ 8
    ∧ (∀ p, (t.queue.filter (·.port == p)).length ≤ 3) ∧ (t.queue.map (·.tag)).Nodup := by
  simp only [TrapUnit.bounded, allPorts, Bool.and_eq_true, decide_eq_true_eq, List.all_cons, List.all_nil, Bool.and_true,
    and_assoc]
  constructor
  · rintro ⟨h, ha, hb, hc, hd, hn⟩
    exact ⟨h, fun p => by cases p <;> assumption, hn⟩
  · rintro ⟨h, hp, hn⟩
    exact ⟨h, hp .A, hp .B, hp .C, hp .D, hn⟩

/-- Entries that go leave the queue within its capacities, its tags unique. -/
theorem bounded_of_sublist {q q' : List TrapEntry} {n n' : Byte} (hs : q'.Sublist q)
    (h : TrapUnit.bounded ⟨q, n⟩ = true) : TrapUnit.bounded ⟨q', n'⟩ = true := by
  rw [bounded_iff] at h ⊢
  obtain ⟨hlen, hport, htag⟩ := h
  exact ⟨hs.length_le.trans hlen, fun p => ((hs.filter _).length_le).trans (hport p), htag.sublist (hs.map _)⟩

/-- Entries rewritten but for port and tag leave the queue within its capacities. -/
theorem bounded_of_map {q : List TrapEntry} {n n' : Byte} {g : TrapEntry → TrapEntry} (hp : ∀ e, (g e).port = e.port)
    (ht : ∀ e, (g e).tag = e.tag) (h : TrapUnit.bounded ⟨q, n⟩ = true) : TrapUnit.bounded ⟨q.map g, n'⟩ = true := by
  rw [bounded_iff] at h ⊢
  obtain ⟨hlen, hport, htag⟩ := h
  refine ⟨by simpa using hlen, fun p => ?_, ?_⟩
  · have : (fun e => (g e).port == p) = fun e : TrapEntry => e.port == p := by funext e; rw [hp]
    simpa [List.filter_map, Function.comp_def, this] using hport p
  · simpa [Function.comp_def, ht] using htag

theorem keeps_filterTraps {c : TrapEntry → Bool} (h : Keeps w v) :
    Keeps w { v with traps := { v.traps with queue := v.traps.queue.filter c } } :=
  keeps_traps (bounded_of_sublist List.filter_sublist) h

theorem keeps_purgeTraps {p : Port} (h : Keeps w v) : Keeps w (purgeTraps p v) := keeps_filterTraps h

theorem keeps_disablePort {p : Port} (h : Keeps w v) : Keeps w (disablePort p v) := by
  have hdis := keeps_faultExit (f := feedOf p) (keeps_enter (p := p) (st := .disabled) (keeps_stopTimer (p := p)
    (keeps_purgeTraps (p := p) (keeps_emptySlot (p := p) (keeps_unpark (p := p) (keeps_updPort (p := p)
    (g := fun r => { r with partner := none, sheet := [] })
    (keeps_dropContract (p := p) (keeps_dropClaim (p := p) (keeps_openIfClosedOn (p := p) (keeps_removeEntry (p := p)
    (keeps_updPort (p := p) (g := fun r => { r with
      order := if (v.port p).owesRelease then [.release] else [], presence := (v.port p).state != .detached })
    (keeps_leaveHeld (p := p) (keeps_failExchange (p := p) (r := .commanded) h)))))))))))))
  exact keeps_ite hdis (keeps_raiseTrigger hdis)

theorem keeps_enablePort {p : Port} (h : Keeps w v) : Keeps w (enablePort p v) :=
  keeps_faultExit (keeps_raiseTrigger (keeps_ite (keeps_enterDebounce h) (keeps_enter h)))

theorem keeps_applyPortEntry {p : Port} (h : Keeps w v) : Keeps w (applyPortEntry p v) := by
  unfold applyPortEntry
  dsimp only
  split
  · exact keeps_ite (keeps_enablePort h) h
  · split
    · exact keeps_disablePort h
    · split
      · exact keeps_ite h (keeps_withdrawRole h)
      · exact keeps_leaveParkedRole h

theorem keeps_abandonFrames {p : Port} (h : Keeps w v) : Keeps w (abandonFrames p v) := keeps_updPort h

theorem keeps_detachPort {p : Port} (h : Keeps w v) : Keeps w (detachPort p v) :=
  keeps_faultExit (keeps_raiseTrigger (keeps_setNotice (keeps_enter (keeps_openForDetach (keeps_removeEntry (keeps_purgeTraps
    (keeps_unpark (keeps_abandonFrames (keeps_updPort (keeps_dropContract (keeps_dropClaim (keeps_detachClose
    (keeps_failClose (keeps_failExchange h))))))))))))))

theorem keeps_takeDetach {p : Port} (h : Keeps w v) : Keeps w (takeDetach p v) := by
  unfold takeDetach
  dsimp only
  split
  · exact keeps_updPort h
  · exact keeps_updPort h
  · exact keeps_faultExit (keeps_updPort (keeps_updPort h))
  · exact keeps_detachPort (keeps_updPort h)

theorem keeps_enterGreeting {p : Port} (h : Keeps w v) : Keeps w (enterGreeting p v) :=
  keeps_startTimer (keeps_enter (keeps_updPort h))

/-! ## The transition controller -/

theorem keeps_skipStep (h : Keeps w v) : Keeps w (skipStep v) := keeps_control rfl h

theorem keeps_commandClose {f : Feed} {p : Port} (h : Keeps w v) : Keeps w (commandClose f p v) :=
  keeps_ite (keeps_startCloseCheck h) (keeps_ite (keeps_updFeed (fun _ _ => id) h) (keeps_failStep h))
theorem keeps_commandOpen {f : Feed} (h : Keeps w v) : Keeps w (commandOpen f v) :=
  keeps_endStep (keeps_setTrim_none (keeps_openWithGap h))

theorem keeps_lowerForStep {st : PlanStep} (h : Keeps w v) : Keeps w (lowerForStep st v) := by
  unfold lowerForStep
  split
  exacts [keeps_setStepCap h, keeps_setStepCap h, h, h]

theorem keeps_issueStep {st : PlanStep} (h : Keeps w v) : Keeps w (issueStep st v) := by
  unfold issueStep
  split
  exacts [keeps_commandRelease h, keeps_commandOpen h, keeps_commandClose h, keeps_commandClaim h]

theorem keeps_startStep {st : PlanStep} (h : Keeps w v) : Keeps w (startStep st v) :=
  keeps_ite (keeps_issueStep (keeps_control rfl (keeps_lowerForStep h))) (keeps_skipStep h)

theorem keeps_liftTrims (h : Keeps w v) : Keeps w (liftTrims v) :=
  keeps_ite (keeps_retarget (keeps_retarget (keeps_setTrim_none (keeps_setTrim_none h)))) h
theorem keeps_endPlan (h : Keeps w v) : Keeps w (endPlan v) := keeps_liftTrims (keeps_setNotice h)
theorem keeps_replan (h : Keeps w v) : Keeps w (replan v) := keeps_control rfl h

theorem keeps_startPlan (h : Keeps w v) : Keeps w (startPlan v) := by
  unfold startPlan
  split
  exacts [keeps_liftTrims h, keeps_startStep h]

theorem keeps_afterStep {st : PlanStep} (h : Keeps w v) : Keeps w (afterStep st v) := by
  unfold afterStep
  dsimp only
  have hcap : Keeps w (setStepCap st.feed none { v with ended := none }) := keeps_setStepCap (keeps_control rfl h)
  split
  · exact keeps_startPlan (keeps_replan hcap)
  · split
    exacts [keeps_startStep hcap, keeps_endPlan hcap]

theorem keeps_settleController (n : Nat) (h : Keeps w v) : Keeps w (settleController n v) := by
  induction n generalizing v with
  | zero => exact keeps_control rfl h
  | succ n ih =>
    unfold settleController
    split
    · exact ih (keeps_afterStep h)
    · split
      · split
        · exact keeps_control rfl h
        · exact ih (keeps_startPlan (keeps_replan h))
      · exact h

/-- What the controller and the re-admission pass do at the close of an event (R102, R153), as an event. -/
def closing (w : Ev) : Ev :=
  let v := settleController settleBound w
  if v.readmit then readmissionPass v else v

theorem closeEvent_eq_closing (w : Ev) : closeEvent w = (closing w).toState := rfl

theorem keeps_closing (h : Keeps w v) : Keeps w (closing v) := by
  have hs := keeps_settleController settleBound h
  exact keeps_ite (keeps_readmissionPass hs) hs

end
end Sys2Proof.Machine
end

