-- ==== Sys2Proof/Proofs/Invariants.lean ====
section
/-! PROOFS. The invariants that every step keeps (R60, R62, R134, R144, R152, R157, R158, R178, R179, R192 to R194, R206, R213):
the operations of traps, watches, link, tables, record, timers and tick, then one step. -/
namespace Sys2Proof.Machine
section
variable {w v : Ev}

/-! ## Traps -/

/-- An entry added where there is room (R178, R179). -/
theorem keeps_addEntry {p : Port} {k : TrapKind} {m : EntryMode} {pl : List Byte} {early : Bool}
    (hroom : v.traps.hasRoom p = true) (h : Keeps w v) : Keeps w (addEntry p k m pl early v) := by
  obtain ⟨e, htraps, htag, hport, -⟩ := addEntry_spec p k m pl early v
  refine h.trans ⟨id, id, fun hb => ?_, rfl, id, id⟩
  rw [htraps]
  obtain ⟨hlen, hown⟩ := (hasRoom_iff _ _).mp hroom
  obtain ⟨-, hshare, hnodup⟩ := (bounded_iff _).mp hb
  refine (bounded_iff _).mpr ⟨by simp; omega, fun q => ?_, ?_⟩
  · have hq := hshare q
    rw [List.filter_append, List.length_append, List.filter_singleton]
    by_cases hqp : e.port = q
    · rw [hport] at hqp
      subst hqp
      simp only [hport, beq_self_eq_true, cond_true, List.length_singleton]
      omega
    · have hb : (e.port == q) = false := by simpa using hqp
      simpa [hb] using hq
  · have hfresh := freeTag_fresh (q := v.traps.queue) (n := 9) (by omega) (by omega) v.traps.nextTag
    simp only [List.map_append, List.map_cons, List.map_nil]
    refine List.nodup_append.mpr ⟨hnodup, by simp, ?_⟩
    simp only [List.mem_map, List.mem_singleton]
    rintro _ ⟨x, hx, rfl⟩ _ rfl hxe
    exact hfresh x hx (hxe.trans htag)

theorem keeps_supersede {p : Port} {k : TrapKind} (h : Keeps w v) : Keeps w (supersede p k v) := keeps_filterTraps h
theorem keeps_removeTag {t : Byte} (h : Keeps w v) : Keeps w (removeTag t v) := keeps_filterTraps h

theorem keeps_deliverDecision {e : TrapEntry} {d : Decision} (h : Keeps w v) : Keeps w (deliverDecision e d v) := by
  unfold deliverDecision
  split
  · exact keeps_deliverAnnounce h
  · split
    exacts [keeps_deliverSheet h, keeps_deliverSheet h, keeps_ite h (keeps_deliverSheet h)]
  · split
    exacts [keeps_deliverSheet h, keeps_deliverSheet h, keeps_ite h (keeps_deliverSheet h)]
  · split
    exacts [keeps_denyDraw h, keeps_deliverDraw h, keeps_deliverDraw h]
  · exact h

theorem keeps_applyDecision {e : TrapEntry} {d : Decision} (h : Keeps w v) : Keeps w (applyDecision e d v) :=
  keeps_deliverDecision (keeps_removeTag h)
theorem keeps_applyDefault {e : TrapEntry} (h : Keeps w v) : Keeps w (applyDefault v e) := keeps_applyDecision h

theorem keeps_flushTraps (h : Keeps w v) : Keeps w (flushTraps v) :=
  keeps_traps (fun _ => (bounded_iff _).mpr ⟨by simp, by simp, by simp⟩) (keeps_foldl keeps_applyDefault v.traps.held h)

theorem keeps_deliverReceived {p : Port} {k : TrapKind} {pl : List Byte} (h : Keeps w v) :
    Keeps w (deliverReceived p k pl v) := by
  unfold deliverReceived
  split
  exacts [keeps_deliverAnnounce h, keeps_deliverSheet h, keeps_deliverSheet h, keeps_deliverDraw h, h]

theorem keeps_acceptHeld {p : Port} {k : TrapKind} {pl : List Byte} (h : Keeps w v) : Keeps w (acceptHeld p k pl v) := by
  unfold acceptHeld
  split
  exacts [keeps_acceptHeldSheet h, keeps_acceptHeldSheet h, keeps_ite (keeps_decideFrame h) h, h, h]

theorem keeps_trapCheck {p : Port} {k : TrapKind} {pl : List Byte} (h : Keeps w v) : Keeps w (trapCheck p k pl v) := by
  have hs := keeps_supersede (p := p) (k := k) h
  unfold trapCheck
  dsimp only
  split
  · exact keeps_deliverReceived hs
  · split
    · exact keeps_deliverReceived (keeps_addEntry (by assumption) hs)
    · exact keeps_deliverReceived (keeps_setNotice hs)
  · split
    · exact keeps_acceptHeld (keeps_addEntry (by assumption) hs)
    · exact keeps_deliverReceived (keeps_setNotice hs)

theorem keeps_openRangeCheck {p : Port} {c : Byte} {pl : List Byte} (h : Keeps w v) : Keeps w (openRangeCheck p c pl v) := by
  unfold openRangeCheck
  split
  · exact h
  · split
    · exact keeps_addEntry (by assumption) h
    · exact keeps_setNotice h

theorem keeps_takeAnswer {p : Port} {k : RxKind} (h : Keeps w v) : Keeps w (takeAnswer p k v) := by
  unfold takeAnswer
  split
  exacts [keeps_claimGranted h, keeps_claimDeclined h, keeps_claimDeferred h, keeps_ite h (keeps_askSettleCheck h),
    keeps_releaseSettled h, keeps_partnerSendsRestart h, h]

theorem keeps_receiveFrame {p : Port} {k : RxKind} {pl : List Byte} (h : Keeps w v) : Keeps w (receiveFrame p k pl v) := by
  have hr := keeps_updPort (p := p) (g := fun r => { r with rxBusy := false }) h
  unfold receiveFrame
  dsimp only
  split
  · exact hr
  · split
    · exact keeps_ite (keeps_ite (keeps_startTimer hr) hr) hr
    · split
      · exact keeps_openRangeCheck hr
      iterate 4 exact keeps_trapCheck hr
      all_goals exact keeps_takeAnswer hr

/-! ## Frames sent -/

theorem keeps_startFrame {p : Port} (h : Keeps w v) : Keeps w (startFrame p v) := by
  unfold startFrame
  split
  exacts [h, keeps_ite (keeps_updPort h) h]

theorem keeps_afterSending {p : Port} {f : OutFrame} (h : Keeps w v) : Keeps w (afterSending p f v) := by
  unfold afterSending
  split
  exacts [keeps_startTimer h, keeps_startTimer h, keeps_startTimer h, keeps_startTimer h, h]

theorem keeps_endFrame {p : Port} (h : Keeps w v) : Keeps w (endFrame p v) := by
  unfold endFrame
  split
  exacts [h, keeps_afterSending (keeps_updPort h), keeps_updPort h, keeps_updPort h]

theorem keeps_startRelay {p : Port} (h : Keeps w v) : Keeps w (startRelay p v) := by
  unfold startRelay
  split
  exacts [h, keeps_ite (keeps_updPort h) h]

/-! ## Watches -/

/-- Watch slots written to a table of the same length. -/
theorem keeps_watches {ws : List WatchSlot} (hl : ws.length = v.watches.length) (h : Keeps w v) :
    Keeps w { v with watches := ws } :=
  h.trans ⟨id, id, id, rfl, id, fun hs => by
    obtain ⟨h1, h2, h3, h4⟩ := hs
    refine ⟨h1, h2, h3, ?_⟩
    rw [State.sized, hl]
    exact h4⟩

theorem keeps_applyWatches (h : Keeps w v) : Keeps w (applyWatches v) := by
  have h0 := keeps_updFeed (f := .F1)
    (g := fun r => { r with derate := derateLevel v.watches .F1, shed := shedFlag v.watches .F1 }) (fun _ _ => id)
    (keeps_updFeed (f := .F0)
      (g := fun r => { r with derate := derateLevel v.watches .F0, shed := shedFlag v.watches .F0 }) (fun _ _ => id) h)
  have h1 := fun c : Prop => fun [Decidable c] => keeps_ite (c := c) (keeps_trimForDerate (f := .F0) h0) h0
  unfold applyWatches
  dsimp only
  split
  · exact h
  · exact keeps_raiseTrigger (keeps_ite (keeps_trimForDerate (h1 _)) (h1 _))

theorem keeps_tickWatches (h : Keeps w v) : Keeps w (tickWatches v) := by
  have hw := keeps_watches (ws := v.watches.map (fun x => x.tick v.time (v.quantityValue x.entry.quantity))) (by simp) h
  have hn := fun c : Prop => fun [Decidable c] => keeps_ite (c := c) (keeps_setNotice (n := .watchFired) hw) hw
  unfold tickWatches
  exact keeps_ite (hn _) (keeps_applyWatches (hn _))

theorem keeps_fireWatches (h : Keeps w v) : Keeps w (fireWatches v) :=
  keeps_ite (keeps_applyWatches (keeps_setNotice (keeps_watches (by simp) h))) h

theorem keeps_storeWatch {i : Nat} {e : WatchEntry} (h : Keeps w v) : Keeps w (storeWatch i e v) :=
  keeps_applyWatches (keeps_watches (by simp) h)

/-! ## Tables -/

theorem within_iff (c : FactoryContent) (t : Tables) : t.within c = true ↔
    (∀ e ∈ t.policy, e.under c = e) ∧ (∀ p, (t.port.get p).under c = t.port.get p) ∧ t.budget.under c = t.budget := by
  obtain ⟨policy, ⟨a, b, c', d⟩, budget, timing, lock⟩ := t
  have hports : (∀ p, ((⟨a, b, c', d⟩ : PerPort PortEntry).get p).under c = (⟨a, b, c', d⟩ : PerPort PortEntry).get p) ↔
      a.under c = a ∧ b.under c = b ∧ c'.under c = c' ∧ d.under c = d :=
    ⟨fun h => ⟨h .A, h .B, h .C, h .D⟩, fun ⟨h1, h2, h3, h4⟩ p => by cases p <;> assumption⟩
  have hpol : policy.map (·.under c) = policy ↔ ∀ e ∈ policy, e.under c = e := by
    rw [List.map_eq_iff]
    constructor
    · intro h e he
      obtain ⟨i, hi⟩ := List.mem_iff_getElem?.mp he
      simpa [hi, eq_comm] using h i
    · intro h i
      cases hi : policy[i]? with
      | none => rfl
      | some e => simp [h e (List.mem_of_getElem? hi)]
  simp [Tables.within, Tables.under, hports, hpol]

/-- Tables that keep their size and their fields under the ceilings take the place of those held. -/
theorem keeps_tables {t : Tables} (ht : v.tables.within v.factoryValues = true → t.within v.factoryValues = true)
    (hl : t.policy.length = v.tables.policy.length) (h : Keeps w v) : Keeps w { v with tables := t } :=
  h.trans ⟨id, id, id, rfl, id, fun ⟨h1, h2, h3, h4⟩ => ⟨ht h1, h2, h3, by rw [State.sized, hl]; exact h4⟩⟩

theorem keeps_storeTables {t : Tables} (ht : v.tables.within v.factoryValues = true → t.within v.factoryValues = true)
    (hl : t.policy.length = v.tables.policy.length) (h : Keeps w v) : Keeps w (storeTables t v) :=
  keeps_ite (keeps_tables ht hl h) (keeps_raiseTrigger (keeps_tables ht hl h))

theorem keeps_applyLoweredCap {old : PerPort PortEntry} {p : Port} (h : Keeps w v) : Keeps w (applyLoweredCap old v p) :=
  keeps_ite (keeps_applyCap h) h

theorem keeps_storePolicy {i : Nat} {e : PolicyEntry} (he : e.under v.factoryValues = e) (h : Keeps w v) :
    Keeps w (storePolicy i e v) := by
  refine keeps_storeTables (fun ht => ?_) (by simp) h
  rw [within_iff] at ht ⊢
  obtain ⟨hpol, hrest⟩ := ht
  refine ⟨fun x hx => ?_, hrest⟩
  rcases List.mem_or_eq_of_mem_set hx with hx | rfl
  exacts [hpol x hx, he]

theorem keeps_storePort {i : Nat} {e : PortEntry} (he : e.under v.factoryValues = e) (h : Keeps w v) :
    Keeps w (storePort i e v) := by
  unfold storePort
  split
  · exact h
  · rename_i p _
    refine keeps_applyLoweredCap (keeps_applyPortEntry (keeps_storeTables (fun ht => ?_) rfl h))
    rw [within_iff] at ht ⊢
    refine ⟨ht.1, fun q => ?_, ht.2.2⟩
    by_cases hq : q = p
    · subst hq
      simpa using he
    · simpa [hq] using ht.2.1 q

theorem keeps_storeBudget {b : Budget} (hb : b.under v.factoryValues = b) (h : Keeps w v) : Keeps w (storeBudget b v) := by
  have hs : Keeps w (storeTables { v.tables with budget := b } v) :=
    keeps_storeTables (fun ht => by
      rw [within_iff] at ht ⊢
      exact ⟨ht.1, ht.2.1, hb⟩) rfl h
  exact keeps_recomputePool (keeps_ite (keeps_trimForCeiling hs) hs)

theorem keeps_storeTiming {t : Timing} (h : Keeps w v) : Keeps w (storeTiming t v) :=
  keeps_tables (fun ht => by rw [within_iff] at ht ⊢; exact ht) rfl h

theorem loadedPolicy_under {c : FactoryContent} {bs : List Byte} {e : PolicyEntry} {b : Bool}
    (h : loadedPolicy c bs = .stored e b) : e.under c = e := by
  unfold loadedPolicy at h
  split at h
  · cases h
  · cases h
    exact clampPolicy_under c _

theorem loadedPort_under {c : FactoryContent} {bs : List Byte} {e : PortEntry} {b : Bool}
    (h : loadedPort c bs = .stored e b) : e.under c = e := by
  unfold loadedPort at h
  split at h
  · cases h
  · cases h
    exact clampPort_under c _

theorem loadedBudget_under {c : FactoryContent} {bs : List Byte} {e : Budget} {b : Bool}
    (h : loadedBudget c bs = .stored e b) : e.under c = e := by
  unfold loadedBudget at h
  split at h
  · cases h
  · cases h
    exact clampBudget_under c _

/-! ## The factory record and the policy restart -/

theorem keeps_restartAbove {p : Port} (h : Keeps w v) : Keeps w (restartAbove v p) :=
  keeps_ite (keeps_decideRestart (keeps_failExchange h)) h

theorem readBack_values_of_not_written {c : FactoryContent} {bad : Bool} (h : (Factory.readBack c bad).record ≠ .written) :
    (Factory.readBack c bad).values = .blank := by
  unfold Factory.values
  split
  · rename_i hr _
    exact absurd hr h
  · rfl

/-- The tables are put under the values in force, whatever they were (R63). -/
theorem underValues_keeps (h : v = { w with factory := v.factory })
    (hn : v.factory.burn = none) : Keeps w (storeTables (v.tables.under v.factoryValues) v) := by
  have hplain : Keeps w { v with tables := v.tables.under v.factoryValues } := by
    rw [h]
    refine ⟨id, id, id, rfl, id, fun ⟨_, _, h3, h4⟩ => ⟨tables_under_within _ _, ?_, h3, ?_⟩⟩
    · intro hsome
      rw [hn] at hsome
      cases hsome
    · rw [State.sized, tables_under_policy_length]
      exact h4
  exact keeps_ite hplain (keeps_raiseTrigger hplain)

theorem keeps_readBackBurn {bad : Bool} (h : Keeps w v) : Keeps w (readBackBurn bad v) := by
  unfold readBackBurn
  split
  · exact h
  · rename_i b hburn
    split
    · dsimp only
      split
      · unfold putInForce
        have hu : Keeps v (storeTables _ { v with factory := Factory.readBack b.content bad }) :=
          underValues_keeps (v := { v with factory := Factory.readBack b.content bad }) rfl rfl
        have hall := keeps_trimForCeiling (keeps_foldl (g := restartAbove) keeps_restartAbove allPorts
          (keeps_foldl (g := applyLoweredCap v.tables.port) keeps_applyLoweredCap allPorts (h.trans hu)))
        exact keeps_ite (keeps_raiseTrigger hall) hall
      · rename_i hbad
        refine h.trans ⟨id, id, id, rfl, id, fun ⟨h1, h2, h3, h4⟩ => ⟨?_, by simp [Factory.readBack], h3, h4⟩⟩
        have hblank : v.factoryValues = .blank := by
          simp [State.factoryValues, Factory.values, h2 (by simp [hburn])]
        rw [hblank] at h1
        rw [State.factoryValues, readBack_values_of_not_written hbad]
        exact h1
    · exact h

theorem keeps_restorePolicy (h : Keeps w v) : Keeps w (restorePolicy v) := by
  have ht : Keeps w { v with
      tables := { Tables.default.under v.factoryValues with lock := v.tables.lock }
      watches := List.replicate 8 .reset } :=
    h.trans ⟨id, id, id, rfl, id, fun ⟨_, h2, h3, _⟩ => ⟨by
      have := tables_under_within v.factoryValues Tables.default
      rw [within_iff] at this ⊢
      exact this, h2, h3, by simp [State.sized, Tables.default]⟩⟩
  have hl := keeps_updLink (g := fun l => { l with notices := 0, mask := 0, mode := .unattended, liveness := .stopped }) rfl
    (fun _ => rfl) (keeps_foldl (g := fun w p => emptySlot p w) keeps_emptySlot allPorts ht)
  exact keeps_applyWatches (keeps_ite (keeps_trimForCeiling hl) hl)

theorem keeps_enableIfDisabled {p : Port} (h : Keeps w v) : Keeps w (enableIfDisabled v p) := keeps_ite (keeps_enablePort h) h

theorem keeps_followRestart {old : PerPort PortEntry} (h : Keeps w v) : Keeps w (followRestart old v) := by
  have hpool := keeps_recomputePool (keeps_foldl (g := enableIfDisabled) keeps_enableIfDisabled allPorts h)
  unfold followRestart
  dsimp only
  exact keeps_foldl (g := fun w p => leaveParkedRole p w) keeps_leaveParkedRole allPorts
    (keeps_foldl (g := applyLoweredCap old) keeps_applyLoweredCap allPorts hpool)

theorem keeps_policyRestart (h : Keeps w v) : Keeps w (policyRestart v) :=
  keeps_raiseTrigger (keeps_readmit (keeps_followRestart (keeps_restorePolicy (keeps_flushTraps h))))

/-! ## Expiries -/

theorem keeps_expireDebounce {p : Port} (h : Keeps w v) : Keeps w (expireDebounce p v) :=
  keeps_ite (keeps_raiseTrigger (keeps_setNotice (keeps_enterGreeting h))) h
theorem keeps_expireFilter {p : Port} (h : Keeps w v) : Keeps w (expireFilter p v) := keeps_ite (keeps_takeDetach h) h
theorem keeps_expireGreeting {p : Port} (h : Keeps w v) : Keeps w (expireGreeting p v) :=
  keeps_ite (keeps_silentPartner h) (keeps_ite (keeps_raiseTrigger (keeps_enter (keeps_stopTimer h))) h)
theorem keeps_expireAnswer {p : Port} (h : Keeps w v) : Keeps w (expireAnswer p v) := keeps_ite (keeps_answerMissed h) h
theorem keeps_expireDeferral {p : Port} (h : Keeps w v) : Keeps w (expireDeferral p v) :=
  keeps_ite (keeps_repeatClaim (keeps_stopTimer h)) h
theorem keeps_expireSettle {p : Port} (h : Keeps w v) : Keeps w (expireSettle p v) :=
  keeps_ite (keeps_exchangeFails h) (keeps_ite (keeps_releaseTimedOut h) h)
theorem keeps_expireHoldOff {p : Port} (h : Keeps w v) : Keeps w (expireHoldOff p v) := keeps_ite (keeps_enterGreeting h) h

/-- A record put at its limit target is within R134 (R128). -/
theorem atTarget_limitHolds (r : FeedRec) (t : Option Nat) (ramp : Timer) :
    ({ r with output := limitTarget r t, target := limitTarget r t, ramp := ramp } : FeedRec).limitHolds t = true := by
  have hcongr : limitTarget { r with output := limitTarget r t, target := limitTarget r t, ramp := ramp } t
      = limitTarget r t := limitTarget_congr rfl rfl rfl t
  simp [FeedRec.limitHolds, hcongr]

theorem keeps_passCloseCheck {f : Feed} {p : Port} (h : Keeps w v) : Keeps w (passCloseCheck f p v) := by
  have hpass : Keeps v (updFeed f (fun r =>
      let r := { r.setDrive p .closed with state := .base, selected := some p, check := .idle }
      let t := limitTarget r (v.control.trim.get f)
      { r with output := t, target := t, ramp := .stopped }) v) :=
    .of_rest rfl (limitsHold_of_one f (fun _ => by simpa using atTarget_limitHolds _ _ _) (fun k hk => by simp [hk])) id
  exact keeps_ite (keeps_endStep (h.trans hpass)) (h.trans hpass)

theorem keeps_failCloseCheck {f : Feed} {p : Port} (h : Keeps w v) : Keeps w (failCloseCheck f p v) :=
  keeps_decideRestart (keeps_failClose (keeps_recordFailure (keeps_setTrim_none (keeps_dropCloseCheck h))))

theorem keeps_expireCloseCheck {f : Feed} (h : Keeps w v) : Keeps w (expireCloseCheck f v) := by
  unfold expireCloseCheck
  split
  exacts [keeps_ite (keeps_ite (keeps_passCloseCheck h) (keeps_failCloseCheck h)) h, h, h]

theorem keeps_expireContractCheck {f : Feed} (h : Keeps w v) : Keeps w (expireContractCheck f v) := by
  have hidle := keeps_updFeed (f := f) (g := fun r => { r with check := .idle }) (fun _ _ => id) h
  unfold expireContractCheck
  split
  exacts [keeps_ite (keeps_ite (keeps_enterContract hidle) (keeps_exchangeFails hidle)) h, h, h]

theorem keeps_takeHeldClose {f : Feed} {p : Port} (h : Keeps w v) : Keeps w (takeHeldClose f p v) := by
  have hrel := keeps_updFeed (f := f) (g := fun r => { r with heldClose := none, heldLost := false }) (fun _ _ => id) h
  exact keeps_ite (keeps_startCloseCheck hrel) (keeps_failClose (keeps_updFeed (fun _ _ => id) hrel))

theorem keeps_expireGap {f : Feed} (h : Keeps w v) : Keeps w (expireGap f v) := by
  unfold expireGap
  split
  · rename_i hc
    have hidle : Keeps w (updFeed f (fun r => { r with state := .idle, gap := .stopped }) v) :=
      keeps_enterIdle (.inr hc.2) (fun _ _ => id) h
    dsimp only
    split
    exacts [hidle, keeps_takeHeldClose hidle]
  · exact h

theorem climb_limitHolds (step interval : Nat) (r : FeedRec) (t : Option Nat) (h : r.limitHolds t = true) :
    (r.climb step interval).limitHolds t = true := by
  obtain ⟨-, hle, htarget⟩ := climb_output step interval r
  have hcongr : limitTarget (r.climb step interval) t = limitTarget r t := limitTarget_congr rfl rfl rfl t
  simp only [FeedRec.limitHolds, Bool.and_eq_true, decide_eq_true_eq, htarget, hcongr] at h ⊢
  exact ⟨hle h.1, h.2⟩

theorem keeps_expireRamp {f : Feed} (h : Keeps w v) : Keeps w (expireRamp f v) :=
  keeps_ite (keeps_updFeed (fun r t => climb_limitHolds _ _ r t) h) h

theorem keeps_faultFeed {f : Feed} {p : Port} (h : Keeps w v) : Keeps w (faultFeed f p v) :=
  keeps_raiseTrigger (keeps_setNotice (keeps_updFeed (fun _ _ => id) (keeps_openInto h)))

theorem keeps_expireOverdraw {f : Feed} (h : Keeps w v) : Keeps w (expireOverdraw f v) := by
  unfold expireOverdraw
  split
  · exact h
  · exact keeps_ite (keeps_ite (keeps_decideRestart (keeps_failExchange (keeps_faultFeed h))) (keeps_faultFeed h)) h

theorem keeps_expireUnderVoltage {f : Feed} (h : Keeps w v) : Keeps w (expireUnderVoltage f v) := by
  unfold expireUnderVoltage
  split
  · exact h
  · exact keeps_ite (keeps_expireOverdraw (keeps_decideRestart (keeps_recordFailure (keeps_updFeed (fun _ _ => id) h)))) h

theorem keeps_expireOutletOverdraw {p : Port} (h : Keeps w v) : Keeps w (expireOutletOverdraw p v) :=
  keeps_ite (keeps_decideRestart (keeps_setNotice (keeps_removeEntry h))) h

theorem keeps_expireTrap (h : Keeps w v) : Keeps w (expireTrap v) := by
  unfold expireTrap
  split
  exacts [h, keeps_applyDefault h]

theorem keeps_expireLiveness (h : Keeps w v) : Keeps w (expireLiveness v) :=
  keeps_ite (keeps_raiseTrigger (keeps_trimForCeiling (keeps_flushTraps
    (keeps_setNotice (keeps_updLink rfl (fun _ => rfl) h))))) h

/-! ## The tick -/

theorem keeps_tickTimers (h : Keeps w v) : Keeps w (tickTimers v) := by
  refine h.trans ⟨fun hl => ?_, id, fun ht => bounded_of_map (fun _ => rfl) (fun _ => rfl) ht, rfl, fun hf => ?_, ?_⟩
  · rw [limitsHold_iff] at hl ⊢
    intro f
    cases f
    exacts [hl .F0, hl .F1]
  · simp only [Link.livenessFits, tickTimers, Bool.or_eq_true, beq_iff_eq] at hf ⊢
    exact hf.imp id (fun hs => by rw [hs]; rfl)
  · rintro ⟨h1, h2, h3, h4⟩
    exact ⟨h1, fun hb => h2 (by simpa [tickTimers] using hb), h3, h4⟩

theorem keeps_samplePresence {i : TickInputs} {p : Port} (h : Keeps w v) : Keeps w (samplePresence i v p) := by
  unfold samplePresence
  dsimp only
  split
  exacts [keeps_ite (keeps_enterDebounce h) h, keeps_ite h (keeps_enter (keeps_stopTimer h)), keeps_updPort h]

theorem keeps_sampleLine {i : TickInputs} {p : Port} (h : Keeps w v) : Keeps w (sampleLine i v p) := keeps_updPort h
theorem keeps_monitorFeed {f : Feed} (h : Keeps w v) : Keeps w (monitorFeed v f) := by
  unfold monitorFeed
  exact keeps_updFeed (fun _ _ hr => hr) h

theorem keeps_monitorOutlets (h : Keeps w v) : Keeps w (monitorOutlets v) := by
  unfold monitorOutlets
  refine keeps_updOutlet (fun hp => ?_) h
  rw [withinPool_iff] at hp ⊢
  simpa [sumCurrents, Function.comp_def] using hp

theorem samplesWithin_push (top : Nat) (xs : List Nat) (r : Int) (h : samplesWithin top xs = true) :
    samplesWithin top (pushSample xs (sampleOf top r)) = true := by
  simp only [samplesWithin, Bool.and_eq_true, decide_eq_true_eq, List.all_eq_true] at h ⊢
  refine ⟨pushSample_length_le _ _, fun y hy => ?_⟩
  rcases mem_pushSample hy with hy | rfl
  exacts [h.2 y hy, sampleOf_le _ _]

theorem sense_sample_within (i : TickInputs) (x : Sense) (h : x.within = true) : (x.sample i).within = true := by
  simp only [Sense.within, Bool.and_eq_true] at h ⊢
  obtain ⟨⟨⟨⟨⟨⟨⟨⟨h1, h2⟩, h3⟩, h4⟩, h5⟩, h6⟩, h7⟩, h8⟩, h9⟩ := h
  refine ⟨⟨⟨⟨⟨⟨⟨⟨?_, ?_⟩, ?_⟩, ?_⟩, ?_⟩, ?_⟩, ?_⟩, ?_⟩, ?_⟩ <;> exact samplesWithin_push _ _ _ (by assumption)

theorem keeps_tickBody {i : TickInputs} (h : Keeps w v) : Keeps w (tickBody i v) := by
  have hs : Keeps w { v with time := v.time + 1, sense := v.sense.sample i } :=
    h.trans ⟨id, id, id, rfl, id, fun ⟨h1, h2, h3, h4⟩ => ⟨h1, h2, sense_sample_within i _ h3, h4⟩⟩
  have hm := keeps_monitorOutlets (keeps_foldl (g := monitorFeed) keeps_monitorFeed allFeeds
    (keeps_foldl (g := samplePresence i) keeps_samplePresence allPorts (keeps_tickTimers hs)))
  exact keeps_updLink (g := fun l => { l with rxBuffer := i.sysRx }) rfl id
    (keeps_foldl (g := sampleLine i) keeps_sampleLine allPorts (keeps_tickWatches hm))

end

/-! ## Answers to requests -/

theorem keeps_answer {w v : Ev} {r : ResultCode} (h : Keeps w v) : Keeps w (answer v r).work := h

/-- A decision of a request whose effects keep the invariants. -/
def AnswerKeeps (dec : Ev → Answer) : Prop := ∀ w, Keeps w (dec w).work

theorem answerKeeps_withLength {n : Nat} {params : List Byte} {dec : Ev → Answer} (h : AnswerKeeps dec) :
    AnswerKeeps (withLength n params dec) := by
  intro w
  unfold withLength
  split
  exacts [h w, .refl w]

theorem answerKeeps_loadAt {α : Type} {last : Nat} {params : List Byte} {decode : Ev → List Byte → Loaded α}
    {store : Nat → α → Ev → Ev}
    (h : ∀ w bs e b, decode w bs = .stored e b → ∀ i, Keeps w (store i e w)) :
    AnswerKeeps (fun w => loadAt last (decode w) store params w) := by
  intro w
  dsimp only
  unfold loadAt
  split
  · exact .refl w
  · split
    · exact .refl w
    · split
      · exact .refl w
      · split
        · exact .refl w
        · rename_i hd
          exact h w _ _ _ hd _

theorem answerKeeps_loadRecord {α : Type} {loaded : Ev → Loaded α} {store : α → Ev → Ev}
    (h : ∀ w e b, loaded w = .stored e b → Keeps w (store e w)) : AnswerKeeps (fun w => loadRecord (loaded w) store w) := by
  intro w
  dsimp only
  unfold loadRecord
  split
  · exact .refl w
  · rename_i hd
    exact h w _ _ hd

theorem answerKeeps_readTwo (params : List Byte) (read : Ev → Nat → Nat → ResultCode × List Field) :
    AnswerKeeps (fun w => readTwo params (read w) w) :=
  fun w => answerKeeps_withLength (dec := fun v =>
    ⟨v, (read w (field params 0 1) (field params 1 1)).1, (read w (field params 0 1) (field params 1 1)).2⟩)
    (fun v => .refl v) w

theorem answerKeeps_confirmLive {mark : Bool} : AnswerKeeps (confirmLive mark) := by
  intro w
  unfold confirmLive
  split
  · have hlink : ∀ m : Mode, m = .attended →
        Keeps w (updLink (fun l => { l with mode := m, liveness := .armed }) w) :=
      fun m hm => keeps_updLink rfl (fun _ => by simp [Link.livenessFits, hm]) (.refl w)
    unfold answer enterAttended
    dsimp only
    split
    · rename_i ha
      have hm : w.link.mode = .attended := by simpa [State.attended] using ha
      exact hlink w.link.mode hm
    · exact keeps_raiseTrigger (keeps_trimForCeiling (hlink .attended rfl))
  · exact .refl w

theorem answerKeeps_decideVerdict {tag d : Byte} {content : List Byte} : AnswerKeeps (decideVerdict tag d content) := by
  intro w
  unfold decideVerdict
  split
  · exact .refl w
  · split
    · exact .refl w
    · split
      · exact keeps_applyDecision (.refl w)
      · split
        · exact keeps_applyDecision (.refl w)
        · split
          exacts [.refl w, keeps_applyDecision (.refl w)]

theorem answerKeeps_decideRelay {port kind : Byte} {payload : List Byte} : AnswerKeeps (decideRelay port kind payload) := by
  intro w
  unfold decideRelay
  split
  · exact .refl w
  · split
    · exact .refl w
    · split
      · exact .refl w
      · split
        · exact .refl w
        · exact keeps_answer (keeps_updPort (.refl w))

theorem answerKeeps_decidePortRestart {code : Nat} : AnswerKeeps (decidePortRestart code) := by
  intro w
  unfold decidePortRestart
  split
  · exact .refl w
  · split
    exacts [.refl w, keeps_decideRestart (keeps_failExchange (.refl w))]

theorem answerKeeps_decideClearFault {code : Nat} : AnswerKeeps (decideClearFault code) := by
  intro w
  unfold decideClearFault
  split
  · exact .refl w
  · split
    · rename_i hf
      exact keeps_raiseTrigger (keeps_enterIdle (.inl hf) (fun _ _ => id) (.refl w))
    · exact .refl w

theorem answerKeeps_decideBurn {params : List Byte} : AnswerKeeps (decideBurn params) := by
  intro w
  unfold decideBurn
  split
  · exact .refl w
  · split
    · exact .refl w
    · rename_i hblank
      split
      · refine ⟨id, id, id, rfl, id, fun ⟨h1, _, h3, h4⟩ => ⟨h1, fun _ => not_not.mp hblank, h3, h4⟩⟩
      · exact .refl w

theorem answerKeeps_clearNotices {set : BitVec 12} : AnswerKeeps (clearNotices set) := by
  intro w
  unfold clearNotices
  exact keeps_updLink (g := fun l => { l with notices := w.link.notices &&& ~~~set }) rfl id (.refl w)

theorem answerKeeps_clearCause {set : Nat} : AnswerKeeps (clearCause set) := by
  intro w
  unfold clearCause
  split
  exacts [.refl w, ⟨id, id, id, rfl, id, id⟩]

theorem answerKeeps_lockPolicy :
    AnswerKeeps (fun w => answer { w with tables := { w.tables with lock := true } } .done) := by
  intro w
  refine keeps_answer (v := { w with tables := { w.tables with lock := true } })
    (keeps_tables (fun ht => ?_) rfl (.refl w))
  rw [within_iff] at ht ⊢
  exact ht

theorem answerKeeps_policyRestart :
    AnswerKeeps (fun w => if w.tables.lock then answer w .locked else answer (policyRestart w) .done) := by
  intro w
  dsimp only
  split
  exacts [.refl w, keeps_answer (keeps_policyRestart (.refl w))]

/-! ## One event -/

/-- What an event that makes `t` of `s` keeps, seen from outside. -/
structure State.keeps (s t : State) : Prop where
  limits : s.limitsHold = true → t.limitsHold = true
  pool : s.outlet.withinPool = true → t.outlet.withinPool = true
  link : s.traps.bounded = true → s.link.consistent = true → t.traps.bounded = true ∧ t.link.consistent = true
  stores : s.storesHold → t.storesHold

theorem State.keeps_refl (s : State) : s.keeps s := ⟨id, id, fun h k => ⟨h, k⟩, id⟩

theorem State.keeps_trans {s t u : State} (h : s.keeps t) (k : t.keeps u) : s.keeps u :=
  ⟨k.limits ∘ h.limits, k.pool ∘ h.pool, fun h1 h2 => k.link (h.link h1 h2).1 (h.link h1 h2).2, k.stores ∘ h.stores⟩

/-- The link is consistent in what a request holds and in its liveness timer. -/
theorem consistent_iff (l : Link) : l.consistent = true ↔
    (l.held.isSome = l.pendingResult.isSome ∧ l.owed.length ≤ 4 ∧ (l.owed = [] ∨ l.held.isSome = true)
      ∧ (l.tx ≠ some .result ∨ l.pendingResult.isSome = true)) ∧ l.livenessFits = true := by
  simp only [Link.consistent, Link.livenessFits, Bool.and_eq_true, beq_iff_eq, Bool.or_eq_true, decide_eq_true_eq,
    List.isEmpty_iff, bne_iff_ne, and_assoc]
  rfl

theorem consistent_of_exchange {l m : Link} (hx : m.exchange = l.exchange)
    (hl : l.livenessFits = true → m.livenessFits = true) (h : l.consistent = true) : m.consistent = true := by
  simp only [Link.exchange, Prod.mk.injEq] at hx
  obtain ⟨h1, h2, h3, h4⟩ := hx
  rw [consistent_iff] at h ⊢
  rw [h1, h2, h3, h4]
  exact ⟨h.1, hl h.2⟩

theorem Keeps.state {w v : Ev} (h : Keeps w v) : w.toState.keeps v.toState :=
  ⟨h.limits, h.pool, fun h1 h2 => ⟨h.traps h1, consistent_of_exchange h.exchange h.liveness h2⟩, h.stores⟩

/-- A change of the link and of the trap queue alone. -/
theorem keeps_linkAndTraps {w : Ev} {g : Link → Link} {t : TrapUnit}
    (ht : w.traps.bounded = true → t.bounded = true) (hg : w.link.consistent = true → (g w.link).consistent = true) :
    w.toState.keeps (updLink g { w with traps := t }).toState :=
  ⟨id, id, fun h1 h2 => ⟨ht h1, hg h2⟩, id⟩

theorem runEvent_keeps {act : Ev → Ev} (h : ∀ w : Ev, w.toState.keeps (act w).toState) (s : State) :
    s.keeps (runEvent act s) := by
  unfold runEvent
  split
  · exact s.keeps_refl
  · exact State.keeps_trans (h (Ev.start s)) (keeps_closing (.refl _)).state

/-- An event whose operations keep the invariants. -/
theorem runEvent_keeps_of_keeps {act : Ev → Ev} (h : ∀ w, Keeps w (act w)) (s : State) : s.keeps (runEvent act s) :=
  runEvent_keeps (fun w => (h w).state) s

/-! ## Requests and the transmit wire -/

theorem oweBusy_keeps (code : Byte) {w v : Ev} (h : w.toState.keeps v.toState) (hh : v.link.held.isSome = true) :
    w.toState.keeps (oweBusy code v).toState := by
  refine State.keeps_trans h (keeps_linkAndTraps (w := v) (t := v.traps) id fun hc => ?_)
  rw [consistent_iff] at hc ⊢
  obtain ⟨⟨h1, h2, h3, h4⟩, h5⟩ := hc
  split
  · refine ⟨⟨h1, ?_, .inr hh, h4⟩, h5⟩
    rename_i hlt
    simp only [Config.owedCapacity] at hlt
    simp only [List.length_append, List.length_singleton]
    omega
  · exact ⟨⟨h1, h2, h3, h4⟩, h5⟩

/-- A request taken keeps the invariants where its decision does (R193, R194, R213). -/
theorem takeRequest_keeps {code : Byte} {params : List Byte} {dec : Bool → Ev → Answer}
    (hd : ∀ mark, AnswerKeeps (dec mark)) (w : Ev) : w.toState.keeps (takeRequest code params dec w).toState := by
  have hclear : Keeps w (updLink (fun l => { l with rxBuffer := [] }) w) := keeps_updLink rfl id (.refl w)
  unfold takeRequest
  dsimp only
  split
  · exact hclear.state
  · split
    · exact oweBusy_keeps code hclear.state (by assumption)
    · rename_i hfree
      have hplace : ∀ a : Answer, Keeps (updLink (fun l => { l with held := some code, markArmed := false })
          (updLink (fun l => { l with rxBuffer := [] }) w)) a.work → w.toState.keeps (placeResult code a).toState := by
        intro a ha
        refine ⟨ha.limits, ha.pool, fun ht hc => ⟨ha.traps ht, ?_⟩, ha.stores⟩
        have hx := ha.exchange
        simp only [Link.exchange, Prod.mk.injEq] at hx
        obtain ⟨x1, -, x3, x4⟩ := hx
        rw [consistent_iff] at hc ⊢
        refine ⟨⟨?_, ?_, .inr ?_, .inr rfl⟩, ha.liveness hc.2⟩
        · simp [placeResult, x1]
        · simpa [placeResult, x3] using hc.1.2.1
        · simp [placeResult, x1]
      split
      · exact hplace _ (.refl _)
      · exact hplace _ (hd _ _)

theorem requestEvent_keeps {code : Byte} {params : List Byte} {dec : Bool → Ev → Answer}
    (hd : ∀ mark, AnswerKeeps (dec mark)) (s : State) : s.keeps (runEvent (takeRequest code params dec) s) :=
  runEvent_keeps (takeRequest_keeps hd) s

theorem emptyBuffer_keeps (w : Ev) : Keeps w (emptyBuffer w) := keeps_updLink rfl id (.refl w)

theorem refuseBusy_keeps (code : Byte) (w : Ev) : w.toState.keeps (refuseBusy code w).toState := by
  unfold refuseBusy
  split
  · rename_i h
    simp only [Bool.and_eq_true] at h
    exact oweBusy_keeps code (emptyBuffer_keeps w).state h.1
  · exact State.keeps_refl _

theorem takeUnknown_keeps (code : Byte) (params : List Byte) (w : Ev) :
    w.toState.keeps (takeUnknown code params w).toState := by
  unfold takeUnknown
  split
  exacts [takeRequest_keeps (fun _ w => .refl w) w, State.keeps_refl _]

theorem bounded_of_markForward {t : TrapUnit} (h : t.bounded = true) :
    ({ t with queue := markForward t.queue } : TrapUnit).bounded = true := by
  rw [bounded_iff] at h ⊢
  obtain ⟨h1, h2, h3⟩ := h
  have hlen : (markForward t.queue).length = t.queue.length := by
    simpa using congrArg List.length (markForward_tags t.queue)
  refine ⟨hlen.trans_le h1, fun p => ?_, by rwa [markForward_tags]⟩
  have hp := congrArg (fun ps => (ps.filter (· == p)).length) (markForward_ports t.queue)
  simp only [List.filter_map, List.length_map, Function.comp_def] at hp
  exact hp.trans_le (h2 p)

theorem startTransmission_keeps (w : Ev) : w.toState.keeps (startTransmission w).toState := by
  unfold startTransmission
  split
  · exact State.keeps_refl _
  · split
    · rename_i hp
      refine keeps_linkAndTraps (w := w) (t := w.traps) id fun hc => ?_
      rw [consistent_iff] at hc ⊢
      exact ⟨⟨hc.1.1, hc.1.2.1, hc.1.2.2.1, .inr hp⟩, hc.2⟩
    · split
      · exact State.keeps_refl _
      · refine keeps_linkAndTraps bounded_of_markForward fun hc => ?_
        rw [consistent_iff] at hc ⊢
        exact ⟨⟨hc.1.1, hc.1.2.1, hc.1.2.2.1, .inl (by simp)⟩, hc.2⟩

theorem endResult_keeps (w : Ev) : w.toState.keeps (endResult w).toState := by
  unfold endResult
  split
  · refine keeps_linkAndTraps (w := w) (t := w.traps) id fun hc => ?_
    rw [consistent_iff] at hc ⊢
    obtain ⟨⟨-, h2, -, -⟩, h5⟩ := hc
    unfold endHeld
    split
    · exact ⟨⟨rfl, h2, .inl (by assumption), .inl (by simp)⟩, h5⟩
    · rename_i c rest hq
      dsimp only at hq
      rw [hq, List.length_cons] at h2
      exact ⟨⟨rfl, by dsimp only; omega, .inr rfl, .inl (by simp)⟩, h5⟩
  all_goals exact State.keeps_refl _

theorem endForward_keeps (w : Ev) : w.toState.keeps (endForward w).toState := by
  unfold endForward
  split
  · refine keeps_linkAndTraps (fun ht => ?_) fun hc => ?_
    · refine bounded_of_map (n := w.traps.nextTag) (fun e => ?_) (fun e => ?_)
        (bounded_of_sublist (n := w.traps.nextTag) List.filter_sublist ht)
      all_goals split <;> rfl
    · rw [consistent_iff] at hc ⊢
      exact ⟨⟨hc.1.1, hc.1.2.1, hc.1.2.2.1, .inl (by simp)⟩, hc.2⟩
  all_goals exact State.keeps_refl _

/-! ## The full reset -/

theorem beginReset_keeps (mark : ResetCauses → ResetCauses) (s : State) : s.keeps (s.beginReset mark) := by
  refine ⟨fun _ => (by decide : State.reset.limitsHold = true), fun _ => (by decide : State.reset.outlet.withinPool = true),
    fun _ _ => ⟨(by decide : State.reset.traps.bounded = true), (by decide : State.reset.link.consistent = true)⟩, fun _ => ?_⟩
  refine ⟨tables_under_within _ _, fun hb => ?_, (by decide : State.reset.sense.within = true), ?_⟩
  · exfalso
    simp only [State.beginReset, Factory.cutShort] at hb
    split at hb <;> simp_all
  · simp [State.sized, State.beginReset, State.reset, Tables.default]

theorem endReset_keeps (lost : Bool) (s : State) : s.keeps (s.endReset lost) := by
  unfold State.endReset
  split
  · exact s.keeps_refl
  · refine ⟨fun _ => (by decide : State.reset.limitsHold = true), fun _ => (by decide : State.reset.outlet.withinPool = true),
      fun _ _ => ⟨(by decide : State.reset.traps.bounded = true), (by decide : State.reset.link.consistent = true)⟩, fun _ => ?_⟩
    refine ⟨tables_under_within _ _, fun hb => ?_, (by decide : State.reset.sense.within = true), ?_⟩
    · simp [Factory.refixed] at hb
    · simp [State.sized, State.reset, Tables.default]

/-! ## One command, one step -/

/-- Every expiry that a tick takes keeps the invariants (log 3). -/
theorem expiries_keep {act : Ev → Ev} (h : act ∈ expiries) (w : Ev) : Keeps w (act w) := by
  have hr := Keeps.refl w
  simp only [expiries, allPorts, allFeeds, List.mem_append, List.mem_map, List.mem_flatten, List.mem_cons, List.not_mem_nil,
    or_false, List.mem_replicate] at h
  rcases h with (((((⟨p, -, rfl⟩ | ⟨_, ⟨p, -, rfl⟩, h⟩) | ⟨_, ⟨f, -, rfl⟩, h⟩) | ⟨p, -, rfl⟩) | rfl) | ⟨-, rfl⟩) | rfl | rfl
  · exact keeps_expireFilter hr
  · simp only [List.mem_cons, List.not_mem_nil, or_false] at h
    rcases h with rfl | rfl | rfl | rfl | rfl | rfl
    exacts [keeps_expireDebounce hr, keeps_expireGreeting hr, keeps_expireAnswer hr, keeps_expireDeferral hr,
      keeps_expireSettle hr, keeps_expireHoldOff hr]
  · simp only [List.mem_cons, List.not_mem_nil, or_false] at h
    rcases h with rfl | rfl | rfl | rfl | rfl | rfl
    exacts [keeps_expireCloseCheck hr, keeps_expireContractCheck hr, keeps_expireGap hr, keeps_expireRamp hr,
      keeps_expireUnderVoltage hr, keeps_expireOverdraw hr]
  · exact keeps_expireOutletOverdraw hr
  · exact keeps_fireWatches hr
  · exact keeps_expireTrap hr
  · exact keeps_expireLiveness hr
  · exact keeps_readBackBurn hr

theorem drainExpiries_keeps (s : State) : s.keeps (drainExpiries s) := by
  have hfold : ∀ (acts : List (Ev → Ev)), (∀ act ∈ acts, ∀ w, Keeps w (act w)) → ∀ t : State, s.keeps t →
      s.keeps (acts.foldl (fun t act => runEvent act t) t) := by
    intro acts
    induction acts with
    | nil => exact fun _ t h => h
    | cons act acts ih =>
      intro hall t ht
      exact ih (fun a ha => hall a (List.mem_cons_of_mem _ ha)) _
        (State.keeps_trans ht (runEvent_keeps_of_keeps (hall act List.mem_cons_self) t))
  exact hfold expiries (fun act h => expiries_keep h) s s.keeps_refl

/-- Every request answers a next state, which keeps the invariants. -/
theorem exec_keeps_request {i : Instr} (hi : i.request.isSome = true) (s : State) : ∃ t, exec i s = .next t ∧ s.keeps t := by
  cases i
  case unknownRequest code params => exact ⟨_, rfl, runEvent_keeps (takeUnknown_keeps code params) s⟩
  case loadPolicy params =>
    exact ⟨_, rfl, requestEvent_keeps (fun _ => answerKeeps_loadAt (decode := fun w => loadedPolicy w.factoryValues)
      (store := storePolicy) fun w _ _ _ hd _ => keeps_storePolicy (loadedPolicy_under hd) (.refl w)) s⟩
  case loadPort params =>
    exact ⟨_, rfl, requestEvent_keeps (fun _ => answerKeeps_loadAt (decode := fun w => loadedPort w.factoryValues)
      (store := storePort) fun w _ _ _ hd _ => keeps_storePort (loadedPort_under hd) (.refl w)) s⟩
  case loadWatch params =>
    exact ⟨_, rfl, requestEvent_keeps (fun _ => answerKeeps_loadAt (decode := fun _ => loadedWatch)
      (store := storeWatch) fun w _ _ _ _ _ => keeps_storeWatch (.refl w)) s⟩
  case loadBudget params =>
    refine ⟨_, rfl, requestEvent_keeps (fun _ w => ?_) s⟩
    split
    · exact .refl w
    · exact answerKeeps_loadRecord (loaded := fun v => loadedBudget v.factoryValues params)
        (fun v _ _ hd => keeps_storeBudget (loadedBudget_under hd) (.refl v)) w
  case loadTiming params =>
    exact ⟨_, rfl, requestEvent_keeps (fun _ => answerKeeps_loadRecord (loaded := fun _ => loadedTiming params)
      fun w _ _ _ => keeps_storeTiming (.refl w)) s⟩
  case readEntry params =>
    exact ⟨_, rfl, requestEvent_keeps (fun _ => answerKeeps_readTwo params fun w => readStored w.toState) s⟩
  case readState params =>
    exact ⟨_, rfl, requestEvent_keeps (fun _ => answerKeeps_readTwo params fun w => readSection w.toState) s⟩
  case readFactory params =>
    exact ⟨_, rfl, requestEvent_keeps (fun _ => answerKeeps_withLength fun w => .refl w) s⟩
  case readCause params =>
    exact ⟨_, rfl, requestEvent_keeps (fun _ => answerKeeps_withLength fun w => .refl w) s⟩
  case liveMark params =>
    exact ⟨_, rfl, requestEvent_keeps (fun _ => answerKeeps_withLength fun w => keeps_answer (keeps_updLink rfl id (.refl w))) s⟩
  case liveConfirm params =>
    exact ⟨_, rfl, requestEvent_keeps (fun _ => answerKeeps_withLength answerKeeps_confirmLive) s⟩
  case verdict params =>
    refine ⟨_, rfl, requestEvent_keeps (fun _ w => ?_) s⟩
    split
    exacts [answerKeeps_decideVerdict w, .refl w]
  case relay params =>
    refine ⟨_, rfl, requestEvent_keeps (fun _ w => ?_) s⟩
    split
    exacts [answerKeeps_decideRelay w, .refl w]
  case evaluate params =>
    exact ⟨_, rfl, requestEvent_keeps (fun _ => answerKeeps_withLength fun w => keeps_raiseTrigger (.refl w)) s⟩
  case portRestart params =>
    exact ⟨_, rfl, requestEvent_keeps (fun _ => answerKeeps_withLength answerKeeps_decidePortRestart) s⟩
  case clearFault params =>
    exact ⟨_, rfl, requestEvent_keeps (fun _ => answerKeeps_withLength answerKeeps_decideClearFault) s⟩
  case clearNotices params =>
    refine ⟨_, rfl, requestEvent_keeps (fun _ => answerKeeps_withLength fun w => ?_) s⟩
    split
    exacts [.refl w, answerKeeps_clearNotices w]
  case setMask params =>
    refine ⟨_, rfl, requestEvent_keeps (fun _ => answerKeeps_withLength fun w => ?_) s⟩
    split
    exacts [.refl w, keeps_answer (keeps_updLink rfl id (.refl w))]
  case clearCause params =>
    exact ⟨_, rfl, requestEvent_keeps (fun _ => answerKeeps_withLength answerKeeps_clearCause) s⟩
  case lockPolicy params =>
    exact ⟨_, rfl, requestEvent_keeps (fun _ => answerKeeps_withLength answerKeeps_lockPolicy) s⟩
  case policyRestart params =>
    exact ⟨_, rfl, requestEvent_keeps (fun _ => answerKeeps_withLength answerKeeps_policyRestart) s⟩
  case burnFactory params =>
    exact ⟨_, rfl, requestEvent_keeps (fun _ => answerKeeps_withLength answerKeeps_decideBurn) s⟩
  all_goals exact absurd hi (by simp [Instr.request])

/-- Every command answers a next state, which keeps the invariants. -/
theorem exec_keeps (i : Instr) (s : State) : ∃ t, exec i s = .next t ∧ s.keeps t := by
  cases i
  case tick inputs =>
    exact ⟨_, rfl, State.keeps_trans (drainExpiries_keeps s) (runEvent_keeps_of_keeps (fun w => keeps_tickBody (.refl w)) _)⟩
  case attachConfirmed p => exact ⟨_, rfl, runEvent_keeps_of_keeps (fun w => keeps_expireDebounce (.refl w)) s⟩
  case detach p => exact ⟨_, rfl, runEvent_keeps_of_keeps (fun w => keeps_expireFilter (.refl w)) s⟩
  case frameTruncated p => exact ⟨_, rfl, runEvent_keeps_of_keeps (fun w => keeps_updPort (.refl w)) s⟩
  case frameDropped p raw => exact ⟨_, rfl, runEvent_keeps_of_keeps (fun w => keeps_ite (keeps_updPort (.refl w)) (.refl w)) s⟩
  case openRangeFrame p kind payload =>
    exact ⟨_, rfl, runEvent_keeps_of_keeps (fun w => keeps_ite (keeps_receiveFrame (.refl w)) (keeps_updPort (.refl w))) s⟩
  case frameTxStart p => exact ⟨_, rfl, runEvent_keeps_of_keeps (fun w => keeps_startFrame (.refl w)) s⟩
  case frameSent p => exact ⟨_, rfl, runEvent_keeps_of_keeps (fun w => keeps_endFrame (.refl w)) s⟩
  case relayFrameSend p => exact ⟨_, rfl, runEvent_keeps_of_keeps (fun w => keeps_startRelay (.refl w)) s⟩
  case greetingDeadlineExpiry p => exact ⟨_, rfl, runEvent_keeps_of_keeps (fun w => keeps_expireGreeting (.refl w)) s⟩
  case answerDeadlineExpiry p => exact ⟨_, rfl, runEvent_keeps_of_keeps (fun w => keeps_expireAnswer (.refl w)) s⟩
  case deferIntervalExpiry p => exact ⟨_, rfl, runEvent_keeps_of_keeps (fun w => keeps_expireDeferral (.refl w)) s⟩
  case settleDeadlineExpiry p => exact ⟨_, rfl, runEvent_keeps_of_keeps (fun w => keeps_expireSettle (.refl w)) s⟩
  case recoveryHoldOffExpiry p => exact ⟨_, rfl, runEvent_keeps_of_keeps (fun w => keeps_expireHoldOff (.refl w)) s⟩
  case closeCheckExpiry f => exact ⟨_, rfl, runEvent_keeps_of_keeps (fun w => keeps_expireCloseCheck (.refl w)) s⟩
  case contractCheckExpiry f => exact ⟨_, rfl, runEvent_keeps_of_keeps (fun w => keeps_expireContractCheck (.refl w)) s⟩
  case gapTimerExpiry f => exact ⟨_, rfl, runEvent_keeps_of_keeps (fun w => keeps_expireGap (.refl w)) s⟩
  case rampTimerExpiry f => exact ⟨_, rfl, runEvent_keeps_of_keeps (fun w => keeps_expireRamp (.refl w)) s⟩
  case underVoltageExpiry f => exact ⟨_, rfl, runEvent_keeps_of_keeps (fun w => keeps_expireUnderVoltage (.refl w)) s⟩
  case overdrawExpiry f => exact ⟨_, rfl, runEvent_keeps_of_keeps (fun w => keeps_expireOverdraw (.refl w)) s⟩
  case outletOverdrawExpiry p => exact ⟨_, rfl, runEvent_keeps_of_keeps (fun w => keeps_expireOutletOverdraw (.refl w)) s⟩
  case watchHoldExpiry => exact ⟨_, rfl, runEvent_keeps_of_keeps (fun w => keeps_fireWatches (.refl w)) s⟩
  case trapDeadlineExpiry => exact ⟨_, rfl, runEvent_keeps_of_keeps (fun w => keeps_expireTrap (.refl w)) s⟩
  case livenessTimerExpiry => exact ⟨_, rfl, runEvent_keeps_of_keeps (fun w => keeps_expireLiveness (.refl w)) s⟩
  case burnReadBack bad => exact ⟨_, rfl, runEvent_keeps_of_keeps (fun w => keeps_readBackBurn (.refl w)) s⟩
  case sysFrameTruncated => exact ⟨_, rfl, runEvent_keeps_of_keeps emptyBuffer_keeps s⟩
  case sysFrameDropped raw => exact ⟨_, rfl, runEvent_keeps_of_keeps (fun w => keeps_ite (emptyBuffer_keeps w) (.refl w)) s⟩
  case requestOwedBusy code => exact ⟨_, rfl, runEvent_keeps (refuseBusy_keeps code) s⟩
  case sysTxStart => exact ⟨_, rfl, runEvent_keeps startTransmission_keeps s⟩
  case resultSent => exact ⟨_, rfl, runEvent_keeps endResult_keeps s⟩
  case forwardSent => exact ⟨_, rfl, runEvent_keeps endForward_keeps s⟩
  case powerUp => exact ⟨_, rfl, beginReset_keeps _ s⟩
  case resetInput => exact ⟨_, rfl, beginReset_keeps _ s⟩
  case supplyDip => exact ⟨_, rfl, beginReset_keeps _ s⟩
  case fullResetEnd lost => exact ⟨_, rfl, endReset_keeps lost s⟩
  case announce | offers | resheet | settled | draw | grant | decline | defer | restart =>
    exact ⟨_, rfl, runEvent_keeps_of_keeps (fun w => keeps_receiveFrame (.refl w)) s⟩
  all_goals exact exec_keeps_request rfl s

/-- A step keeps the invariants: it idles, or runs one command on the queue's rest. -/
theorem step_keeps {s s' : State} (h : step s = .next s') : s.keeps s' := by
  unfold step at h
  split at h
  · obtain rfl : s = s' := by simpa using h
    exact s.keeps_refl
  · rename_i c rest _
    obtain ⟨t, ht, hk⟩ := exec_keeps c (s.withPending rest)
    obtain rfl : t = s' := by simpa [ht] using h
    have hqueue : s.keeps (s.withPending rest) := ⟨id, id, fun a b => ⟨a, b⟩, id⟩
    exact State.keeps_trans hqueue hk

/-- Settles O57, by what every step keeps. -/
theorem limitOutputsStayWithinTheirTargets : Obligations.LimitOutputsStayWithinTheirTargets :=
  fun _ _ hs h => (step_keeps h).limits hs

/-- Settles O58, by what every step keeps. -/
theorem outletGrantsStayWithinThePool : Obligations.OutletGrantsStayWithinThePool :=
  fun _ _ hs h => (step_keeps h).pool hs

/-- Settles O59, by what every step keeps. -/
theorem trapQueueAndLinkStayConsistent : Obligations.TrapQueueAndLinkStayConsistent :=
  fun _ _ ht hl h => (step_keeps h).link ht hl

/-- Settles O60, by what every step keeps. -/
theorem tablesAndSamplesStayWithinBounds : Obligations.TablesAndSamplesStayWithinBounds :=
  fun _ _ ht hb hx hs h => (step_keeps h).stores ⟨ht, hb, hx, hs⟩

end Sys2Proof.Machine
end

