-- ==== Sys2Proof/Proofs/Requests.lean ====
section
/-! PROOFS. The machine's step, what a full reset holds off, frames that are dropped, and the requests that are refused or read
(chapters 1, 3, 10, 11). -/
namespace Sys2Proof.Machine

/-! ## The step (log 1) and the events of a full reset (R216) -/

/-- Settles O1, by the queue's two shapes. -/
theorem stepTakesTheFrontCommand : Obligations.StepTakesTheFrontCommand :=
  ⟨fun _ _ _ => rfl, fun s h => by simp [step, h]⟩

theorem runEvent_resetting {s : State} (h : s.running = false) (act : Ev → Ev) : runEvent act s = s := by
  simpa [takeEvent] using takeEvent_resetting h act

/-- A tick takes no expiry while a full reset lasts (R216; log 5). -/
theorem drainExpiries_resetting {s : State} (h : s.running = false) : drainExpiries s = s := by
  have hfold : ∀ acts : List (Ev → Ev), acts.foldl (fun t act => runEvent act t) s = s := by
    intro acts
    induction acts with
    | nil => rfl
    | cons act acts ih => rw [List.foldl_cons, runEvent_resetting h, ih]
  exact hfold expiries

/-- Settles O2: every command answers a next state, and all but the reset's own are events. -/
theorem commandsCompleteAndAwaitAFullReset : Obligations.CommandsCompleteAndAwaitAFullReset := by
  intro c s
  obtain ⟨t, ht, -⟩ := exec_keeps c s
  refine ⟨⟨t, ht⟩, fun hs hc => ?_⟩
  cases c
  case powerUp | resetInput | supplyDip | fullResetEnd => cases hc
  case tick i => exact (congrArg (takeEvent (tickBody i)) (drainExpiries_resetting hs)).trans (takeEvent_resetting hs _)
  all_goals exact takeEvent_resetting hs _

/-! ## Frames without effect (R4, R8, R21) -/

/-- Outside a full reset, an event that only changes a port comes to the state with the port changed. -/
theorem takeEvent_updPort {s : State} (h : s.running = true) {act : Ev → Ev} {p : Port} {g : PortRec → PortRec}
    (hact : act (Ev.start s) = updPort p g (Ev.start s)) : takeEvent act s = .next (s.withPort p g) := by
  rw [takeEvent_quiet h act] <;> rw [hact] <;> rfl

/-- Outside a full reset, an event that does nothing leaves the state. -/
theorem takeEvent_id {s : State} (h : s.running = true) {act : Ev → Ev} (hact : act (Ev.start s) = Ev.start s) :
    takeEvent act s = .next s := by
  rw [takeEvent_quiet h act] <;> rw [hact] <;> rfl

/-- Settles O6: each event empties the line or the buffer and owes nothing. -/
theorem droppedFramesHaveNoEffect : Obligations.DroppedFramesHaveNoEffect := by
  intro p raw s hs
  exact ⟨takeEvent_updPort hs rfl, fun hd => takeEvent_updPort hs (if_pos hd), takeEvent_updLink hs rfl,
    fun hd => takeEvent_updLink hs (if_pos hd)⟩

/-! ## A request that is acted on (R193) -/

/-- A request that finds none held, and no burn unless it is READ STATE, is held and decided (R193, R213). -/
theorem requestEvent_decided {s : State} (h : s.running = true) (hh : s.link.held = none) {code : Byte}
    (hb : s.factory.burn = none ∨ code = readStateCode) {params : List Byte} (hl : params.length ≤ 128)
    (dec : Bool → Ev → Answer) :
    requestEvent code params dec s =
      .next (closeEvent (placeResult code (dec s.link.markArmed (Ev.start (s.holding code))))) := by
  have hburn : ¬ (s.factory.burn.isSome = true ∧ code ≠ readStateCode) := by
    rintro ⟨h1, h2⟩
    rcases hb with hb | hb
    · simp [hb] at h1
    · exact h2 hb
  rw [requestEvent, takeEvent_running h]
  simp only [takeRequest, updLink_link, start_toState, hh, Option.isSome_none, Bool.false_eq_true, if_false,
    Config.maxSystemPayload, Nat.not_lt.mpr hl, updLink_factory, hburn]
  rfl

theorem requestEvent_acts {s : State} (h : s.takes = true) {code : Byte} {params : List Byte} (hl : params.length ≤ 128)
    (dec : Bool → Ev → Answer) :
    requestEvent code params dec s =
      .next (closeEvent (placeResult code (dec s.link.markArmed (Ev.start (s.holding code))))) :=
  requestEvent_takes h code params hl dec

/-- A request whose decision owes nothing at the close: the state it leaves, its RESULT placed. -/
theorem requestEvent_quiet {s : State} (h : s.takes = true) {code : Byte} {params : List Byte} (hl : params.length ≤ 128)
    {dec : Bool → Ev → Answer} {w : Ev} {r : ResultCode} {data : List Field}
    (hd : dec s.link.markArmed (Ev.start (s.holding code)) = ⟨w, r, data⟩) (ht : w.trig = false) (he : w.ended = none)
    (hr : w.readmit = false) {t : State} (hs : (placeResult code ⟨w, r, data⟩).toState = t) :
    requestEvent code params dec s = .next t := by
  rw [requestEvent_acts h hl, hd, ← hs]
  exact congrArg Host.Outcome.next (closeEvent_quiet ht he hr)

/-- A request refused, or answered from the state alone. -/
theorem requestEvent_answered {s : State} (h : s.takes = true) {code : Byte} {params : List Byte} (hl : params.length ≤ 128)
    {dec : Bool → Ev → Answer} {r : ResultCode} {data : List Field}
    (hd : dec s.link.markArmed (Ev.start (s.holding code)) = ⟨Ev.start (s.holding code), r, data⟩) :
    requestEvent code params dec s = .next (s.answered code r data) :=
  requestEvent_quiet h hl hd rfl rfl rfl rfl

/-- A field of one byte at the front of the parameters. -/
theorem field_first (a : Byte) (bs : List Byte) : field (a :: bs) 0 1 = a.toNat := by
  simp [field, fromBytes]

theorem field_second (a b : Byte) (bs : List Byte) : field (a :: b :: bs) 1 1 = b.toNat := by
  simp [field, fromBytes]

/-! ## Refusals (R77, R193, R213) -/

/-- Settles O8: the length check comes before each request's own rule, and an unassigned code is refused by its row. -/
theorem illFormedRequestsAreBadForm : Obligations.IllFormedRequestsAreBadForm := by
  have hunknown : ∀ (code : Byte) (params : List Byte) (s : State), (Instr.unknownRequest code params).wellFormed = true →
      s.takes = true → exec (.unknownRequest code params) s = .next (s.answered code .badForm []) := by
    intro code params s hw hs
    obtain ⟨⟨hrange, hfree⟩, hfit⟩ : (requestRange code = true ∧ assignedCode code = false) ∧ paramsFit params = true := by
      simpa [Instr.wellFormed] using hw
    exact (congrArg (takeEvent · s) (takeUnknown_eq_takeRequest hrange hfree params)).trans
      (requestEvent_answered hs (Laws.WireForm.fit hfit) rfl)
  refine ⟨fun i code params n s hr hw hn hne hs => ?_, hunknown⟩
  have hl := (exec_request hr hw).1
  cases i
  case unknownRequest c ps =>
    obtain ⟨rfl, rfl⟩ : c = code ∧ ps = params := by simpa [Instr.request] using hr
    exact hunknown c ps s hw hs
  all_goals simp only [Instr.request, Option.some.injEq, Prod.mk.injEq, reduceCtorEq] at hr
  all_goals
    obtain ⟨rfl, rfl⟩ := hr
  case loadPolicy | loadPort | loadWatch | loadBudget | loadTiming | verdict | relay => cases hn
  all_goals
    cases hn
    exact requestEvent_answered hs hl (withLength_ne hne _ _)

/-- A table load under the policy lock (R61 check 1). -/
theorem loadAt_locked {α : Type} {w : Ev} (h : w.tables.lock = true) (last : Nat) (decode : List Byte → Loaded α)
    (store : Nat → α → Ev → Ev) (params : List Byte) : loadAt last decode store params w = answer w .locked :=
  if_pos h

/-- A request during a burn is answered BUSY, READ STATE aside (R213). -/
theorem requestEvent_burning {s : State} (h : s.running = true) (hh : s.link.held = none)
    (hb : s.factory.burn.isSome = true) {code : Byte} (hc : code ≠ readStateCode) {params : List Byte}
    (hl : params.length ≤ 128) (dec : Bool → Ev → Answer) :
    requestEvent code params dec s = .next (s.answered code .busy []) := by
  rw [requestEvent, takeEvent_quiet h]
  all_goals
    simp only [takeRequest, updLink_link, start_toState, hh, Option.isSome_none, Bool.false_eq_true, if_false,
      Config.maxSystemPayload, Nat.not_lt.mpr hl, updLink_factory, hb, true_and, ne_eq, hc, not_false_eq_true, if_true]
    rfl

/-- READ STATE that is decided answers from the section read (R197; log 32). -/
theorem exec_readState {s : State} (h : s.running = true) (hh : s.link.held = none) (a b : Byte) :
    exec (.readState [a, b]) s = .next (s.answered 0x89#8 (readSection (s.holding 0x89#8) a.toNat b.toNat).1
      (readSection (s.holding 0x89#8) a.toNat b.toNat).2) := by
  refine (requestEvent_decided h hh (.inr rfl) (by simp) _).trans ?_
  rw [readTwo, withLength_eq (show [a, b].length = 2 from rfl), field_first, field_second, closeEvent_quiet rfl rfl rfl]
  rfl

/-- Settles O9: the lock is the first check of the loads, a burn comes before every decision. -/
theorem lockAndBurnRefuseRequests : Obligations.LockAndBurnRefuseRequests := by
  refine ⟨fun params s hs hlock hl => ?_, fun i code params s hr hw hs hh hb hc => ?_, fun a b s hs hh _ =>
    exec_readState hs hh a b⟩
  · have hload : ∀ {α : Type} (last : Nat) (decode : List Byte → Loaded α) (store : Nat → α → Ev → Ev) (code : Byte),
        loadAt last decode store params (Ev.start (s.holding code)) = answer (Ev.start (s.holding code)) .locked :=
      fun last decode store code => loadAt_locked hlock last decode store params
    refine ⟨requestEvent_answered hs hl (hload ..), requestEvent_answered hs hl (hload ..),
      requestEvent_answered hs hl (hload ..), requestEvent_answered hs hl (if_pos hlock),
      requestEvent_answered hs (by simp) (if_pos hlock), fun hlen => ?_⟩
    exact exec_burnFactory_refused hs hl .locked fun w ht _ =>
      (withLength_eq hlen _ w).trans (decideBurn_locked (by rwa [ht]) params)
  · obtain ⟨hl, dec, hexec⟩ := exec_request hr hw
    rw [hexec]
    exact requestEvent_burning hs hh hb hc hl dec

/-! ## Reads (R196, R197, R215, R217) -/

theorem portOfCode_eq_none_iff (n : Nat) : portOfCode n = none ↔ 3 < n := by
  match n with
  | 0 | 1 | 2 | 3 => simp [portOfCode]
  | k + 4 => simp [portOfCode]

theorem feedOfCode_eq_none_iff (n : Nat) : feedOfCode n = none ↔ 1 < n := by
  match n with
  | 0 | 1 => simp [feedOfCode]
  | k + 2 => simp [feedOfCode]

theorem portOfCode_lt {n : Nat} {p : Port} (h : portOfCode n = some p) : ¬ 3 < n := by
  rw [← portOfCode_eq_none_iff, h]
  simp

theorem feedOfCode_lt {n : Nat} {f : Feed} (h : feedOfCode n = some f) : ¬ 1 < n := by
  rw [← feedOfCode_eq_none_iff, h]
  simp

/-- Which structures and indices READ ENTRY answers, and that a refusal carries no data (R196). -/
theorem readStored_result {s : State} (h : s.sized = true) (a b : Nat) :
    (readStored s a b).1 = (if 4 < a then .badForm
        else if (a = 0 ∧ 23 < b) ∨ (a = 1 ∧ 3 < b) ∨ (a = 2 ∧ 7 < b) then .badIndex else .done)
      ∧ ((readStored s a b).1 ≠ .done → (readStored s a b).2 = []) := by
  obtain ⟨hp, hw⟩ : s.tables.policy.length = 24 ∧ s.watches.length = 8 := by simpa [State.sized] using h
  match a with
  | 0 =>
    simp only [readStored]
    split
    · rename_i he
      have := (List.getElem?_eq_some_iff.mp he).1
      simp [show b ≤ 23 by omega, show ¬ 23 < b by omega]
    · rename_i he
      have := List.getElem?_eq_none_iff.mp he
      simp [show 23 < b by omega]
  | 1 =>
    simp only [readStored]
    split
    · rename_i he
      simp [portOfCode_lt he]
    · rename_i he
      simp [(portOfCode_eq_none_iff b).mp he]
  | 2 =>
    simp only [readStored]
    split
    · rename_i he
      have := (List.getElem?_eq_some_iff.mp he).1
      simp [show b ≤ 7 by omega, show ¬ 7 < b by omega]
    · rename_i he
      have := List.getElem?_eq_none_iff.mp he
      simp [show 7 < b by omega]
  | 3 => simp [readStored]
  | 4 => simp [readStored]
  | n + 5 => simp [readStored]

/-- Which sections and items READ STATE answers (R197). -/
theorem readSection_result (s : State) (a b : Nat) :
    (readSection s a b).1 = if 8 < a then .badForm
      else if ((a = 1 ∨ a = 2) ∧ 3 < b) ∨ (a = 3 ∧ 1 < b) ∨ ((a = 5 ∨ a = 8) ∧ 7 < b) then .badIndex else .done := by
  match a with
  | 0 | 4 | 6 | 7 => simp [readSection]
  | 1 | 2 =>
    simp only [readSection]
    split
    · rename_i he
      simp [portOfCode_lt he]
    · rename_i he
      simp [(portOfCode_eq_none_iff b).mp he]
  | 3 =>
    simp only [readSection]
    split
    · rename_i he
      simp [feedOfCode_lt he]
    · rename_i he
      simp [(feedOfCode_eq_none_iff b).mp he]
  | 5 | 8 =>
    simp only [readSection]
    split <;> simp <;> omega
  | n + 9 => simp [readSection]

/-- Revision and serial are those of the blank defaults, 0, unless the record is WRITTEN (R215). -/
theorem values_of_not_written {f : Factory} (h : f.record ≠ .written) : f.values = .blank := by
  unfold Factory.values
  split
  · contradiction
  · rfl

theorem factoryFields_eq (s : State) : factoryFields s.factory =
    [.num 1 (recordStateCode s.factory.record), .raw (valueBytes s.factoryValues),
      .num 1 (if s.factory.record = .written then s.factoryValues.revision else 0),
      .num 4 (if s.factory.record = .written then s.factoryValues.serial else 0)] := by
  by_cases h : s.factory.record = .written
  · simp [factoryFields, h, State.factoryValues]
  · simp [factoryFields, h, State.factoryValues, values_of_not_written h, FactoryContent.blank]

/-- Settles O10: each read by its exact next state, and the codes and indices by the cases of the two read functions. -/
theorem readsAnswerTheStateAtTheEvent : Obligations.ReadsAnswerTheStateAtTheEvent := by
  refine ⟨fun a b s hs => ⟨?_, exec_readState (running_of_takes hs) (held_of_takes hs) a b, ?_, ?_⟩, fun s a b hs => ?_⟩
  · refine requestEvent_answered hs (by simp) ?_
    rw [readTwo, withLength_eq (show [a, b].length = 2 from rfl), field_first, field_second]
    rfl
  · refine requestEvent_answered hs (by simp) ?_
    rw [← factoryFields_eq]
    rfl
  · exact requestEvent_answered hs (by simp) rfl
  · obtain ⟨hp, hw⟩ : s.tables.policy.length = 24 ∧ s.watches.length = 8 := by simpa [State.sized] using hs
    refine ⟨(readStored_result hs a b).1, readSection_result s a b, (readStored_result hs a b).2, fun e he => ?_,
      fun p hq => by simp [readStored, hq], fun x hx => ?_, rfl, rfl⟩
    · have := (List.getElem?_eq_some_iff.mp he).1
      simp [readStored, he, show b ≤ 23 by omega]
    · have := (List.getElem?_eq_some_iff.mp hx).1
      simp [readStored, hx, show b ≤ 7 by omega]

/-! ## CLEAR CAUSE, LOCK POLICY and the reset values -/

/-- A CLEAR CAUSE of one byte (R217). -/
theorem clearCause_first {a : Byte} {w : Ev} : withLength 1 [a] (clearCause (field [a] 0 1)) w =
    if 15 < a.toNat then answer w .badForm else answer { w with cause := w.cause &&& ~~~(BitVec.ofNat 4 a.toNat) } .done := by
  rw [withLength_eq (show [a].length = 1 from rfl), field_first, clearCause]

/-- Settles O12, by the exact next state of each. -/
theorem clearCauseAndLockPolicyDoNoMore : Obligations.ClearCauseAndLockPolicyDoNoMore := by
  intro a s hs
  refine ⟨?_, requestEvent_quiet hs (Nat.zero_le _) rfl rfl rfl rfl rfl⟩
  split
  case isTrue h => exact requestEvent_answered hs (by simp) (clearCause_first.trans (if_pos h))
  case isFalse h =>
    exact requestEvent_quiet hs (by simp) (data := []) (clearCause_first.trans (if_neg h)) rfl rfl rfl rfl

/-- Settles O56, by evaluating the reset state. -/
theorem resetMeetsTheInvariants : Obligations.ResetMeetsTheInvariants := by
  refine ⟨by decide, by decide, by decide, by decide, tables_under_within_default, by decide, by decide, fun p => ?_,
    fun f => ?_, rfl, reset_noticeSet_iff, rfl, rfl, rfl⟩
  · cases p <;> rfl
  · cases f <;> rfl
where
  tables_under_within_default : State.reset.tables.within State.reset.factoryValues = true := by
    rw [within_iff]
    exact ⟨fun e he => by rw [List.eq_of_mem_replicate he]; decide, fun p => by cases p <;> decide, by decide⟩

end Sys2Proof.Machine
end

