-- ==== Sys2Proof/Proofs/Close.lean ====
section
/-! PROOFS. The close of an event (R101, R102, R117, R121, R153): what controller and re-admission pass leave alone, and how
triggers and step ends are taken up. -/
namespace Sys2Proof.Machine

/-! ## What the close leaves alone -/

/-- The fields of a feed that the close of an event does not write. -/
def FeedRec.kept (r : FeedRec) : Nat × Bool × FaultReason × Option Port × Option Time :=
  (r.derate, r.shed, r.faultReason, r.faultPort, r.faultTime)

/-- What the close of an event may have made of `w`. -/
structure Frames (w v : Ev) : Prop where
  rest : v.rest = w.rest
  notices : ∀ n, w.link.noticeSet n = true → v.link.noticeSet n = true
  ports : ∀ p, (v.port p).rest = (w.port p).rest
  feeds : ∀ f, (v.feed f).kept = (w.feed f).kept

section
variable {w v : Ev}

theorem Frames.refl (w : Ev) : Frames w w := ⟨rfl, fun _ => id, fun _ => rfl, fun _ => rfl⟩

theorem Frames.trans {u : Ev} (h : Frames w v) (k : Frames v u) : Frames w u :=
  ⟨k.rest.trans h.rest, fun n hn => k.notices n (h.notices n hn), fun p => (k.ports p).trans (h.ports p),
    fun f => (k.feeds f).trans (h.feeds f)⟩

theorem frames_ite {c : Prop} [Decidable c] {a b : Ev} (ha : Frames w a) (hb : Frames w b) :
    Frames w (if c then a else b) := by
  split
  exacts [ha, hb]

theorem frames_updPort {p : Port} {g : PortRec → PortRec} (hg : ∀ r, (g r).rest = r.rest) (h : Frames w v) :
    Frames w (updPort p g v) :=
  h.trans ⟨rfl, fun _ => id, fun q => by
    by_cases hq : q = p
    · subst hq; simp [hg]
    · simp [hq], fun _ => rfl⟩

theorem frames_updFeed {f : Feed} {g : FeedRec → FeedRec} (hg : ∀ r, (g r).kept = r.kept) (h : Frames w v) :
    Frames w (updFeed f g v) :=
  h.trans ⟨rfl, fun _ => id, fun _ => rfl, fun k => by
    by_cases hk : k = f
    · subst hk; simp [hg]
    · simp [hk]⟩

theorem frames_updOutlet {g : Outlet → Outlet} (h : Frames w v) : Frames w (updOutlet g v) :=
  h.trans ⟨rfl, fun _ => id, fun _ => rfl, fun _ => rfl⟩

theorem noticeSet_setNotice (n m : Notice) (w : Ev) (h : w.link.noticeSet n = true) :
    (setNotice m w).link.noticeSet n = true := by
  simp only [Link.noticeSet, setNotice_link, BitVec.getLsbD_or, Bool.or_eq_true] at h ⊢
  exact .inl h

theorem frames_setNotice {n : Notice} (h : Frames w v) : Frames w (setNotice n v) :=
  h.trans ⟨rfl, fun m => noticeSet_setNotice m n v, fun _ => rfl, fun _ => rfl⟩

theorem frames_raiseTrigger (h : Frames w v) : Frames w (raiseTrigger v) :=
  h.trans ⟨rfl, fun _ => id, fun _ => rfl, fun _ => rfl⟩

theorem frames_control {c : Controller} {trig readmit : Bool} {ended : Option PlanStep} (h : Frames w v) :
    Frames w { v with control := c, trig := trig, ended := ended, readmit := readmit } :=
  h.trans ⟨rfl, fun _ => id, fun _ => rfl, fun _ => rfl⟩

theorem frames_decideFrame {p : Port} {f : OutFrame} (h : Frames w v) : Frames w (decideFrame p f v) :=
  frames_updPort (fun r => by split <;> rfl) h
theorem frames_stopTimer {p : Port} (h : Frames w v) : Frames w (stopTimer p v) := frames_updPort (fun _ => rfl) h
theorem frames_recordFailure {p : Port} {r : FailReason} (h : Frames w v) : Frames w (recordFailure p r v) :=
  frames_updPort (fun _ => rfl) h

theorem frames_endStep {st : StepStatus} (h : Frames w v) : Frames w (endStep st v) := by
  unfold endStep
  split
  exacts [h, frames_control h]

theorem frames_failStep {r : FailReason} (h : Frames w v) : Frames w (failStep r v) := by
  unfold failStep
  split
  exacts [h, frames_raiseTrigger (frames_setNotice (frames_recordFailure (frames_endStep h)))]

/-! ### The outlet allocator -/

theorem frames_parkForPool {p : Port} (h : Frames w v) : Frames w (parkForPool p v) :=
  frames_updOutlet (frames_updPort (fun _ => rfl) h)
theorem frames_admitPort {p : Port} (h : Frames w v) : Frames w (admitPort p v) :=
  frames_updOutlet (frames_updPort (fun _ => rfl) h)
theorem frames_announceCut {c : Port × Nat} (h : Frames w v) : Frames w (announceCut v c) :=
  frames_setNotice (frames_decideFrame h)
theorem frames_expelPort {g : GrantEntry} (h : Frames w v) : Frames w (expelPort v g) :=
  frames_setNotice (frames_updOutlet (frames_parkForPool h))

theorem frames_foldl {α : Type} {g : Ev → α → Ev} (hg : ∀ {w v : Ev} {x}, Frames w v → Frames w (g v x)) (xs : List α)
    (h : Frames w v) : Frames w (xs.foldl g v) := by
  induction xs generalizing v with
  | nil => exact h
  | cons x xs ih => exact ih (hg h)

theorem frames_shrinkPool (h : Frames w v) : Frames w (shrinkPool v) := by
  unfold shrinkPool
  dsimp only
  exact frames_foldl frames_expelPort _ (frames_foldl frames_announceCut _ (frames_updOutlet h))

theorem frames_recomputePool (h : Frames w v) : Frames w (recomputePool v) := by
  have hp := frames_updOutlet (g := fun o => { o with pool := v.poolValue }) h
  unfold recomputePool
  exact frames_ite (frames_shrinkPool hp) (frames_ite (frames_control hp) hp)

theorem frames_admitInOrder (ps : List Port) (h : Frames w v) : Frames w (admitInOrder ps v) := by
  induction ps generalizing v with
  | nil => exact h
  | cons p ps ih =>
    unfold admitInOrder
    exact frames_ite (ih (frames_decideFrame (frames_admitPort h))) h

/-! ### The feed controllers -/

theorem retarget_kept (t : Option Nat) (r : FeedRec) : (FeedRec.retarget t r).kept = r.kept := by
  obtain ⟨_, h⟩ := retarget_spec t r
  rw [h]
  rfl

theorem setDrive_kept (r : FeedRec) (p : Port) (d : Drive) : (r.setDrive p d).kept = r.kept := by
  cases p <;> rfl

theorem frames_retarget {f : Feed} (h : Frames w v) : Frames w (retarget f v) :=
  frames_updFeed (retarget_kept _) h
theorem frames_setTrim {f : Feed} {t : Option Nat} (h : Frames w v) : Frames w (setTrim f t v) := frames_control h
theorem frames_setStepCap {f : Feed} {c : Option Nat} (h : Frames w v) : Frames w (setStepCap f c v) :=
  frames_retarget (frames_updFeed (fun _ => rfl) h)

theorem frames_openWithGap {f : Feed} (h : Frames w v) : Frames w (openWithGap f v) := by
  have hopen : Frames w (setTrim f none (updFeed f (fun r => { r.openSwitch with state := .gap }) v)) :=
    frames_setTrim (frames_updFeed (fun _ => rfl) h)
  have hinto : Frames w (openInto .gap f v) := frames_ite (frames_recomputePool hopen) hopen
  exact frames_ite (frames_updFeed (fun _ => rfl) hinto) h

theorem frames_startCloseCheck {p : Port} (h : Frames w v) : Frames w (startCloseCheck p v) :=
  frames_updFeed (fun r => setDrive_kept r p .softStart) h

/-! ### The port units -/

theorem frames_enter {p : Port} {st : PortState} (h : Frames w v) : Frames w (enter p st v) :=
  frames_ite (frames_updFeed (fun _ => rfl) (frames_updPort (fun _ => rfl) h)) (frames_updPort (fun _ => rfl) h)
theorem frames_openClaim {p : Port} {line u i : Nat} {origin : Origin} {held : Bool} (h : Frames w v) :
    Frames w (openClaim p line u i origin held v) :=
  frames_enter (frames_decideFrame (frames_updPort (fun _ => rfl) h))

theorem frames_commandClaim {p : Port} {line u i : Nat} {m : StepMark} (h : Frames w v) :
    Frames w (commandClaim p line u i m v) := by
  unfold commandClaim
  dsimp only
  split
  exacts [frames_openClaim h, frames_openClaim h, frames_failStep h]

theorem frames_commandRelease {p : Port} (h : Frames w v) : Frames w (commandRelease p v) := by
  unfold commandRelease
  split
  exacts [frames_enter (frames_stopTimer (frames_decideFrame h)), frames_failStep h]

/-! ### The transition controller -/

theorem frames_commandClose {f : Feed} {p : Port} (h : Frames w v) : Frames w (commandClose f p v) :=
  frames_ite (frames_startCloseCheck h) (frames_ite (frames_updFeed (fun _ => rfl) h) (frames_failStep h))
theorem frames_commandOpen {f : Feed} (h : Frames w v) : Frames w (commandOpen f v) :=
  frames_endStep (frames_setTrim (frames_openWithGap h))

theorem frames_issueStep {st : PlanStep} (h : Frames w v) : Frames w (issueStep st v) := by
  unfold issueStep
  split
  exacts [frames_commandRelease h, frames_commandOpen h, frames_commandClose h, frames_commandClaim h]

theorem frames_lowerForStep {st : PlanStep} (h : Frames w v) : Frames w (lowerForStep st v) := by
  unfold lowerForStep
  split
  exacts [frames_setStepCap h, frames_setStepCap h, h, h]

theorem frames_startStep {st : PlanStep} (h : Frames w v) : Frames w (startStep st v) :=
  frames_ite (frames_issueStep (frames_control (frames_lowerForStep h))) (frames_control h)
theorem frames_liftTrims (h : Frames w v) : Frames w (liftTrims v) :=
  frames_ite (frames_retarget (frames_retarget (frames_setTrim (frames_setTrim h)))) h
theorem frames_endPlan (h : Frames w v) : Frames w (endPlan v) := frames_liftTrims (frames_setNotice h)

theorem frames_startPlan (h : Frames w v) : Frames w (startPlan v) := by
  unfold startPlan
  split
  exacts [frames_liftTrims h, frames_startStep h]

theorem frames_replan (h : Frames w v) : Frames w (replan v) := frames_control h

theorem frames_afterStep {st : PlanStep} (h : Frames w v) : Frames w (afterStep st v) := by
  have hcap : Frames w (setStepCap st.feed none { v with ended := none }) := frames_setStepCap (frames_control h)
  unfold afterStep
  dsimp only
  split
  · exact frames_startPlan (frames_replan hcap)
  · split
    exacts [frames_startStep hcap, frames_endPlan hcap]

theorem frames_settleController (n : Nat) (h : Frames w v) : Frames w (settleController n v) := by
  induction n generalizing v with
  | zero => exact frames_control h
  | succ n ih =>
    unfold settleController
    split
    · exact ih (frames_afterStep h)
    · exact frames_ite (frames_ite (frames_control h) (ih (frames_startPlan (frames_replan h)))) h

theorem frames_closing (h : Frames w v) : Frames w (closing v) := by
  have hs := frames_settleController settleBound h
  exact frames_ite (frames_admitInOrder _ hs) hs

end

/-- Settles O3, by the frame of every operation of controller and re-admission pass. -/
theorem closeOfEventFrame : Obligations.CloseOfEventFrame := by
  intro w
  obtain ⟨hrest, hnotices, hports, hfeeds⟩ := frames_closing (.refl w)
  refine ⟨hrest, hnotices, hports, fun f => ?_⟩
  have hf := hfeeds f
  simp only [FeedRec.kept, Prod.mk.injEq] at hf
  exact hf

/-! ## Triggers and step ends (R100 to R102, R117, R121) -/

theorem settleController_trigger_waits {w : Ev} (ht : w.trig = true) (he : w.ended = none) (hf : w.inFlight.isSome = true)
    (n : Nat) :
    settleController (n + 1) w = { w with control := { w.control with reeval := true }, trig := false } := by
  simp [settleController, ht, he, hf]

theorem settleController_trigger_runs {w : Ev} (ht : w.trig = true) (he : w.ended = none) (hf : w.inFlight = none) (n : Nat) :
    settleController (n + 1) w = settleController n (startPlan (replan w)) := by
  simp [settleController, ht, he, hf]

theorem settleController_ended {w : Ev} {st : PlanStep} (he : w.ended = some st) (n : Nat) :
    settleController (n + 1) w = settleController n (afterStep st w) := by
  simp [settleController, he]

theorem setStepCap_stepCap (f : Feed) (c : Option Nat) (w : Ev) : ((setStepCap f c w).feed f).stepCap = c := by
  simp [setStepCap, retarget]

/-- Where both conditions of R121 hold the trim values go, and the targets are computed without them. -/
theorem liftTrims_of_within {w : Ev} (hc : w.committedTotal ≤ w.effectiveCeiling)
    (h0 : w.committed .F0 ≤ w.control.effLimit.f0) (h1 : w.committed .F1 ≤ w.control.effLimit.f1) :
    liftTrims w = retarget .F1 (retarget .F0 (setTrim .F1 none (setTrim .F0 none w))) :=
  if_pos ⟨hc, h0, h1⟩

theorem liftTrims_of_above {w : Ev} (h : w.effectiveCeiling < w.committedTotal ∨ w.control.effLimit.f0 < w.committed .F0
    ∨ w.control.effLimit.f1 < w.committed .F1) : liftTrims w = w := by
  refine if_neg ?_
  rintro ⟨hc, h0, h1⟩
  omega

/-- What `liftTrims` does is decided by parts of the state that notices are none of. -/
theorem liftTrims_setNotice (n : Notice) (w : Ev) : liftTrims (setNotice n w) = setNotice n (liftTrims w) := by
  have hcond : ((setNotice n w).committedTotal ≤ (setNotice n w).effectiveCeiling
      ∧ (setNotice n w).committed .F0 ≤ (setNotice n w).control.effLimit.f0
      ∧ (setNotice n w).committed .F1 ≤ (setNotice n w).control.effLimit.f1)
    ↔ (w.committedTotal ≤ w.effectiveCeiling ∧ w.committed .F0 ≤ w.control.effLimit.f0
      ∧ w.committed .F1 ≤ w.control.effLimit.f1) := Iff.rfl
  by_cases h : w.committedTotal ≤ w.effectiveCeiling ∧ w.committed .F0 ≤ w.control.effLimit.f0
      ∧ w.committed .F1 ≤ w.control.effLimit.f1
  · simp only [liftTrims, hcond, h, and_self, if_true]
    rfl
  · simp only [liftTrims, hcond, h, if_false]

theorem liftTrims_link (w : Ev) : (liftTrims w).link = w.link := by
  unfold liftTrims
  split <;> rfl

/-- Settles O19: one equation of the controller for each case of R101 and R102, and `liftTrims` by its two cases. -/
theorem triggersRunOrWait : Obligations.TriggersRunOrWait := by
  refine ⟨fun s hs => ?_, fun w ht he => ?_, fun w st he => ⟨setStepCap_stepCap _ _ _, fun n => ?_⟩, rfl, fun w => ?_⟩
  · exact requestEvent_acts hs (Nat.zero_le _) _
  · refine ⟨fun st hst hr => ?_, fun st n hst => settleController_trigger_waits ht he (by simp [hst]) n,
      fun n hf => settleController_trigger_runs ht he hf n, rfl, rfl, rfl, rfl, rfl, rfl, rfl⟩
    rw [closeEvent, settleBound, settleController_trigger_waits ht he (by simp [hst])]
    simp [hr]
  · rw [settleController_ended he]
    rfl
  · refine ⟨rfl, fun n ht he => settleController_quiet n ht he, fun h => by simp [startPlan, h],
      fun st h => by simp [startPlan, h], ?_, ?_, ?_, fun hc h0 h1 => ?_, fun h => liftTrims_of_above h⟩
    · rw [endPlan, liftTrims_link]
      rfl
    · rw [endPlan, liftTrims_setNotice]
      rfl
    · rw [endPlan, liftTrims_setNotice]
      rfl
    · rw [liftTrims_of_within hc h0 h1]
      refine ⟨rfl, fun f => ?_, rfl⟩
      cases f <;> simp [retarget, State.feed, PerFeed.get, PerFeed.set]

/-! ## The transmit wire (R181, R182) -/

/-- The oldest QUEUED entry is the one after entries that are all SENT. -/
theorem find_queued {older newer : List TrapEntry} {e : TrapEntry} (he : e.state = .queued)
    (ho : ∀ x ∈ older, x.state = .sent) : (older ++ e :: newer).find? (fun e => e.state == .queued) = some e := by
  have hnone : older.find? (fun e => e.state == .queued) = none :=
    List.find?_eq_none.mpr fun x hx => by simp [ho x hx]
  simp [List.find?_append, hnone, he]

theorem markForward_append {older newer : List TrapEntry} {e : TrapEntry} (he : e.state = .queued)
    (ho : ∀ x ∈ older, x.state = .sent) :
    markForward (older ++ e :: newer) = older ++ { e with onWire := true } :: newer := by
  induction older with
  | nil => simp [markForward, he]
  | cons x xs ih =>
    have hx : x.state ≠ .queued := by rw [ho x List.mem_cons_self]; decide
    rw [List.cons_append, markForward, if_neg hx, ih fun y hy => ho y (List.mem_cons_of_mem _ hy)]
    rfl

theorem queueAfterForward_append (xs ys : List TrapEntry) :
    queueAfterForward (xs ++ ys) = queueAfterForward xs ++ queueAfterForward ys := by
  simp [queueAfterForward]

/-- Entries that are not on the wire stand (R181). -/
theorem queueAfterForward_of_idle {q : List TrapEntry} (h : ∀ x ∈ q, x.onWire = false) : queueAfterForward q = q := by
  induction q with
  | nil => rfl
  | cons x xs ih =>
    have hx := h x List.mem_cons_self
    rw [← List.singleton_append, queueAfterForward_append, ih fun y hy => h y (List.mem_cons_of_mem _ hy)]
    simp [queueAfterForward, hx]

theorem queueAfterForward_marked {e : TrapEntry} (h : e.onWire = true) :
    queueAfterForward [e] = if e.mode = .copy then [] else [{ e with state := .sent, onWire := false }] := by
  cases hm : e.mode <;> simp [queueAfterForward, h, hm]

/-- Settles O13: the transmit wire by what it finds, the queue by the places around the marked entry. -/
theorem forwardsFollowTheResult : Obligations.ForwardsFollowTheResult := by
  intro s hs
  refine ⟨fun ht hp => ?_, fun older newer e ht hp hq he ho => ?_, fun older newer f e ht hq _ he ho => ?_, fun f ht ho => ?_⟩
  · exact takeEvent_updLink hs (by simp [startTransmission, ht, hp])
  · have hact : startTransmission (Ev.start s) = updLink (fun l => { l with tx := some (.forward e) })
        { Ev.start s with traps := ⟨older ++ { e with onWire := true } :: newer, s.traps.nextTag⟩ } := by
      simp only [startTransmission, start_toState, ht, hp, hq, find_queued he ho, markForward_append he ho,
        Option.isSome_none, Bool.false_eq_true, if_false]
    exact (takeEvent_quiet hs _ (by rw [hact]; rfl) (by rw [hact]; rfl) (by rw [hact]; rfl)).trans (by rw [hact]; rfl)
  · have hqueue : queueAfterForward s.traps.queue = if e.mode = .copy then older ++ newer
        else older ++ { e with state := .sent, onWire := false } :: newer := by
      rw [hq, ← List.singleton_append, queueAfterForward_append, queueAfterForward_append,
        queueAfterForward_of_idle fun x hx => ho x (List.mem_append_left _ hx),
        queueAfterForward_of_idle fun x hx => ho x (List.mem_append_right _ hx), queueAfterForward_marked he]
      split <;> simp
    have hact : endForward (Ev.start s) = updLink (fun l => { l with tx := none })
        { Ev.start s with traps := ⟨queueAfterForward s.traps.queue, s.traps.nextTag⟩ } := by simp [endForward, ht]
    rw [← hqueue]
    exact (takeEvent_quiet hs _ (by rw [hact]; rfl) (by rw [hact]; rfl) (by rw [hact]; rfl)).trans (by rw [hact]; rfl)
  · exact takeEvent_updLink hs (by simp [endForward, ht, queueAfterForward_of_idle ho, updLink])

end Sys2Proof.Machine
end

