-- ==== Sys2Proof/Proofs/Codes.lean ====
section
/-! PROOFS. Frames and loads as bytes: every frame decodes to its command (R4, R6 to R8, R21), and the loads are stored by
their codes, ranges and ceilings and read back as they are stored (R60 to R75, R160, R195, R196). -/
namespace Sys2Proof.Machine

/-! ## Frames decode to their commands (R4, R6, R7, R21) -/

theorem decodeChargeLevels_frame (p : Port) (raw : List Byte) :
    decodeChargeLevels p (frameLevels raw) = decodeChargeFrame p raw := by
  rw [decodeChargeLevels, rawOfLevels_frameLevels]

theorem decodeSystemLevels_frame (raw : List Byte) : decodeSystemLevels (frameLevels raw) = decodeSystemFrame raw := by
  rw [decodeSystemLevels, rawOfLevels_frameLevels]

/-- A permitted length fits a charge-link frame. -/
theorem le_of_lengthPermitted {k : RxKind} {n : Nat} (h : lengthPermitted k n = true) : n ≤ Config.maxChargePayload := by
  cases k <;> simp [lengthPermitted] at h <;> simp only [Config.maxChargePayload] at h ⊢ <;> omega

theorem decodeChargeFrame_envelope (p : Port) (k : RxKind) {payload : List Byte} {code : Byte} (hk : rxKindOf code = some k)
    (hl : lengthPermitted k payload.length = true) : decodeChargeFrame p (envelope code payload) = chargeCommand p payload k := by
  rw [decodeChargeFrame, openEnvelope_envelope code payload (le_of_lengthPermitted hl) (by decide)]
  simp [hk, hl]

/-- A command that is a frame on a port is one of a kind the partner sends, its payload of a permitted length. -/
theorem chargeFrame_form {i : Instr} {p : Port} {raw : List Byte} (hw : i.wellFormed = true)
    (hc : i.chargeFrame = some (p, raw)) : ∃ code k payload, raw = envelope code payload ∧ rxKindOf code = some k
      ∧ lengthPermitted k payload.length = true ∧ i = chargeCommand p payload k := by
  cases i with
  | openRangeFrame q kind payload =>
    obtain ⟨rfl, rfl⟩ : q = p ∧ _ = raw := by simpa [Instr.chargeFrame] using hc
    obtain ⟨hk, hl⟩ : inOpenRange kind = true ∧ lengthPermitted (.openRange kind) payload.length = true := by
      simpa [Instr.wellFormed] using hw
    exact ⟨kind, .openRange kind, payload, rfl, by simp [rxKindOf, hk], hl, rfl⟩
  | announce q payload | offers q payload | resheet q payload | draw q payload =>
    obtain ⟨rfl, rfl⟩ : q = p ∧ _ = raw := by simpa [Instr.chargeFrame] using hc
    exact ⟨_, _, payload, rfl, rfl, hw, rfl⟩
  | settled q | grant q | decline q | defer q | restart q =>
    obtain ⟨rfl, rfl⟩ : q = p ∧ _ = raw := by simpa [Instr.chargeFrame] using hc
    exact ⟨_, _, [], rfl, rfl, rfl, rfl⟩
  | _ => simp [Instr.chargeFrame] at hc

/-- A well-formed request has a code in 80h to 9Fh that stands for it, and parameters that fit a frame. -/
theorem request_form {i : Instr} {code : Byte} {params : List Byte} (hw : i.wellFormed = true)
    (hr : i.request = some (code, params)) :
    params.length ≤ 128 ∧ requestRange code = true ∧ requestCommand code params = i := by
  cases i with
  | unknownRequest c ps =>
    obtain ⟨rfl, rfl⟩ : c = code ∧ ps = params := by simpa [Instr.request] using hr
    obtain ⟨⟨hrange, hfree⟩, hfit⟩ : (requestRange c = true ∧ assignedCode c = false) ∧ paramsFit ps = true := by
      simpa [Instr.wellFormed] using hw
    refine ⟨of_decide_eq_true hfit, hrange, ?_⟩
    unfold requestCommand
    split <;> simp_all [assignedCode]
  | loadPolicy ps | loadPort ps | loadWatch ps | loadBudget ps | loadTiming ps | readEntry ps | readState ps | readFactory ps
  | readCause ps | liveMark ps | liveConfirm ps | verdict ps | relay ps | evaluate ps | portRestart ps | clearFault ps
  | clearNotices ps | setMask ps | clearCause ps | lockPolicy ps | policyRestart ps | burnFactory ps =>
    obtain ⟨rfl, rfl⟩ : _ = code ∧ ps = params := by simpa [Instr.request] using hr
    exact ⟨of_decide_eq_true hw, by decide, rfl⟩
  | _ => simp [Instr.request] at hr

/-- Settles O4. -/
theorem framesDecodeToTheirCommands : Obligations.FramesDecodeToTheirCommands := by
  refine ⟨rawOfLevels_frameLevels, ?_, ?_⟩
  · intro i p raw hw hc
    obtain ⟨code, k, payload, rfl, hk, hl, rfl⟩ := chargeFrame_form hw hc
    have h := decodeChargeFrame_envelope p k hk hl
    exact ⟨h, (decodeChargeLevels_frame p _).trans h⟩
  · intro i raw hw hs
    obtain ⟨⟨code, params⟩, hr, rfl⟩ : ∃ r, i.request = some r ∧ envelope r.1 r.2 = raw := by
      simpa [Instr.systemFrame] using hs
    obtain ⟨hl, hrange, hi⟩ := request_form hw hr
    have h : decodeSystemFrame (envelope code params) = i := by
      rw [decodeSystemFrame, openEnvelope_envelope code params (show params.length ≤ Config.maxSystemPayload from hl) (by decide)]
      simpa [hrange] using hi
    exact ⟨h, (decodeSystemLevels_frame _).trans h⟩

/-! ## Codes of enumerated fields (R195) -/

theorem boolOf_eq_none_iff : ∀ n : Nat, boolOf n = none ↔ 1 < n
  | 0 | 1 => by simp [boolOf]
  | n + 2 => by simp [boolOf]
theorem boolOf_some {n : Nat} {b : Bool} (h : boolOf n = some b) : b = (n == 1) := by
  unfold boolOf at h; split at h <;> simp_all
theorem classOf_eq : ∀ n : Nat, classOf n = [PartnerClass.adapter, .dock, .accessory, .unknown][n]?
  | 0 | 1 | 2 | 3 => by simp [classOf]
  | n + 4 => by simp [classOf]
theorem lineKindOf_eq : ∀ n : Nat, lineKindOf n = [LineKind.fixed, .window][n]?
  | 0 | 1 => by simp [lineKindOf]
  | n + 2 => by simp [lineKindOf]
theorem actionOf_eq : ∀ n : Nat, actionOf n = [PolicyAction.use, .exclude][n]?
  | 0 | 1 => by simp [actionOf]
  | n + 2 => by simp [actionOf]
theorem rolesOf_eq : ∀ n : Nat, rolesOf n = [RolesPermitted.noRole, .intake, .outlet, .both][n]?
  | 0 | 1 | 2 | 3 => by simp [rolesOf]
  | n + 4 => by simp [rolesOf]
theorem trapModeOf_eq : ∀ n : Nat, trapModeOf n = [TrapMode.pass, .copy, .hold][n]?
  | 0 | 1 | 2 => by simp [trapModeOf]
  | n + 3 => by simp [trapModeOf]
theorem openModeOf_eq_none_iff (n : Nat) : openModeOf n = none ↔ n ≠ 1 ∧ n ≠ 3 := by
  unfold openModeOf; split <;> simp_all
theorem openModeOf_some {n : Nat} {m : OpenMode} (h : openModeOf n = some m) : m = if n = 1 then .copy else .drop := by
  unfold openModeOf at h; split at h <;> simp_all
theorem verdictOf_eq : ∀ n : Nat, verdictOf n = [DefaultVerdict.allow, .deny][n]?
  | 0 | 1 => by simp [verdictOf]
  | n + 2 => by simp [verdictOf]
theorem quantityOf_eq : ∀ n : Nat, quantityOf n = [Quantity.feed0V, .feed0I, .feed1V, .feed1I, .intakeP, .outletI, .thermal][n]?
  | 0 | 1 | 2 | 3 | 4 | 5 | 6 => by simp [quantityOf]
  | n + 7 => by simp [quantityOf]
theorem directionOf_eq : ∀ n : Nat, directionOf n = [Direction.above, .below][n]?
  | 0 | 1 => by simp [directionOf]
  | n + 2 => by simp [directionOf]
theorem watchActionOf_eq : ∀ n : Nat, watchActionOf n = [WatchAction.notice, .derate, .shed][n]?
  | 0 | 1 | 2 => by simp [watchActionOf]
  | n + 3 => by simp [watchActionOf]
theorem selectorOf_eq : ∀ n : Nat, selectorOf n = [FeedSelector.feed0, .feed1, .both][n]?
  | 0 | 1 | 2 => by simp [selectorOf]
  | n + 3 => by simp [selectorOf]

/-- The top of a quantity's range, by the quantity's code (R159). -/
theorem quantityTop_of_code {n : Nat} {q : Quantity} (h : quantityOf n = some q) :
    quantityTop q = [31000, 8000, 31000, 8000, 496000, 16000, 4095].getD n 0 := by
  unfold quantityOf at h
  split at h <;> simp_all <;> subst h <;> rfl

end Sys2Proof.Machine
end

