-- ==== Sys2Proof/Proofs/Loads.lean ====
section
/-! PROOFS. The form checks of the loads and their refusals (R61, R66, R70, R161), and what the accepted loads of policy and
timing store (R60, R64, R76). -/
namespace Sys2Proof.Machine

/-! ## The form rules (R66, R70, R161) -/

theorem bind_eq_none_iff_or {α β : Type} {o : Option α} {f : α → Option β} {P : Prop} (h : ∀ a, f a = none ↔ P) :
    o.bind f = none ↔ o = none ∨ P := by
  cases o <;> simp [h]

theorem classOf_eq_none_iff (n : Nat) : classOf n = none ↔ 3 < n := by simp [classOf_eq]; omega
theorem lineKindOf_eq_none_iff (n : Nat) : lineKindOf n = none ↔ 1 < n := by simp [lineKindOf_eq]
theorem actionOf_eq_none_iff (n : Nat) : actionOf n = none ↔ 1 < n := by simp [actionOf_eq]
theorem rolesOf_eq_none_iff (n : Nat) : rolesOf n = none ↔ 3 < n := by simp [rolesOf_eq]; omega
theorem trapModeOf_eq_none_iff (n : Nat) : trapModeOf n = none ↔ 2 < n := by simp [trapModeOf_eq]; omega
theorem verdictOf_eq_none_iff (n : Nat) : verdictOf n = none ↔ 1 < n := by simp [verdictOf_eq]
theorem quantityOf_eq_none_iff (n : Nat) : quantityOf n = none ↔ 6 < n := by simp [quantityOf_eq]; omega
theorem directionOf_eq_none_iff (n : Nat) : directionOf n = none ↔ 1 < n := by simp [directionOf_eq]
theorem watchActionOf_eq_none_iff (n : Nat) : watchActionOf n = none ↔ 2 < n := by simp [watchActionOf_eq]; omega
theorem selectorOf_eq_none_iff (n : Nat) : selectorOf n = none ↔ 2 < n := by simp [selectorOf_eq]; omega

theorem parsePolicy_eq_none_iff (bs : List Byte) :
    parsePolicy bs = none ↔ bs.length ≠ 17 ∨ 1 < field bs 0 1 ∨ 15 < field bs 1 1 ∨ 15 < field bs 2 1 ∨ 3 < field bs 3 1
      ∨ 1 < field bs 4 1 ∨ field bs 7 2 < field bs 5 2 ∨ 1 < field bs 9 1 := by
  unfold parsePolicy
  split
  next hl => simp [hl]
  next hl =>
    have hlen : bs.length = 17 := not_not.mp hl
    dsimp only
    split
    next hm =>
      simp only [Bool.or_eq_true, decide_eq_true_eq] at hm
      simp only [hlen, true_iff]
      omega
    next hm =>
      simp only [Bool.or_eq_true, decide_eq_true_eq] at hm
      refine (bind_eq_none_iff_or fun _ => bind_eq_none_iff_or fun _ => bind_eq_none_iff_or fun _ =>
        bind_eq_none_iff_or (P := False) fun _ => by simp).trans ?_
      rw [boolOf_eq_none_iff, classOf_eq_none_iff, lineKindOf_eq_none_iff, actionOf_eq_none_iff]
      simp only [hlen, ne_eq, not_true_eq_false, false_or, or_false]
      omega

theorem parsePort_eq_none_iff (bs : List Byte) :
    parsePort bs = none ↔ bs.length ≠ 16 ∨ 1 < field bs 0 1 ∨ 3 < field bs 1 1 ∨ 2 < field bs 4 1 ∨ 2 < field bs 5 1
      ∨ 2 < field bs 6 1 ∨ (field bs 7 1 ≠ 1 ∧ field bs 7 1 ≠ 3) ∨ 1 < field bs 8 1 := by
  unfold parsePort
  split
  next hl => simp [hl]
  next hl =>
    refine (bind_eq_none_iff_or fun _ => bind_eq_none_iff_or fun _ => bind_eq_none_iff_or fun _ => bind_eq_none_iff_or fun _ =>
      bind_eq_none_iff_or fun _ => bind_eq_none_iff_or fun _ => bind_eq_none_iff_or (P := False) fun _ => by simp).trans ?_
    rw [boolOf_eq_none_iff, rolesOf_eq_none_iff, trapModeOf_eq_none_iff, trapModeOf_eq_none_iff, trapModeOf_eq_none_iff,
      openModeOf_eq_none_iff, verdictOf_eq_none_iff]
    simp only [hl, false_or, or_false]

/-- The form of the release point, by the codes of quantity and direction (R161). -/
theorem releaseInRange_eq_false_iff {q : Quantity} {d : Direction} {a b t m : Nat} (hq : quantityOf a = some q)
    (hd : directionOf b = some d) :
    releaseInRange q d t m = false ↔
      (b = 0 ∧ (t < m ∨ [31000, 8000, 31000, 8000, 496000, 16000, 4095].getD a 0 < t - m))
        ∨ (b = 1 ∧ [31000, 8000, 31000, 8000, 496000, 16000, 4095].getD a 0 < t + m) := by
  rw [← quantityTop_of_code hq]
  unfold directionOf at hd
  split at hd <;> simp at hd <;> subst hd
  · simp [releaseInRange]
    omega
  · simp [releaseInRange]

theorem parseWatch_eq_none_iff (bs : List Byte) :
    parseWatch bs = none ↔ bs.length ≠ 16 ∨ 1 < field bs 0 1 ∨ 6 < field bs 1 1 ∨ 1 < field bs 2 1 ∨ 2 < field bs 13 1
      ∨ 2 < field bs 14 1
      ∨ (field bs 2 1 = 0 ∧ (field bs 3 4 < field bs 7 4
          ∨ [31000, 8000, 31000, 8000, 496000, 16000, 4095].getD (field bs 1 1) 0 < field bs 3 4 - field bs 7 4))
      ∨ (field bs 2 1 = 1
          ∧ [31000, 8000, 31000, 8000, 496000, 16000, 4095].getD (field bs 1 1) 0 < field bs 3 4 + field bs 7 4) := by
  unfold parseWatch
  split
  next hl => simp [hl]
  next hl =>
    have hlen : bs.length = 16 := not_not.mp hl
    cases hv : boolOf (field bs 0 1) with
    | none => simp [(boolOf_eq_none_iff _).1 hv]
    | some v =>
      cases hq : quantityOf (field bs 1 1) with
      | none => simp [(quantityOf_eq_none_iff _).1 hq]
      | some q =>
        cases hd : directionOf (field bs 2 1) with
        | none => simp [(directionOf_eq_none_iff _).1 hd]
        | some d =>
          have nv : ¬ 1 < field bs 0 1 := fun h => by simp [(boolOf_eq_none_iff _).2 h] at hv
          have nq : ¬ 6 < field bs 1 1 := fun h => by simp [(quantityOf_eq_none_iff _).2 h] at hq
          have nd : ¬ 1 < field bs 2 1 := fun h => by simp [(directionOf_eq_none_iff _).2 h] at hd
          simp only [Option.bind_eq_bind, Option.bind_some]
          refine (bind_eq_none_iff_or fun _ => bind_eq_none_iff_or
            (P := releaseInRange q d (field bs 3 4) (field bs 7 4) = false) fun _ => by
              cases releaseInRange q d (field bs 3 4) (field bs 7 4) <;> simp).trans ?_
          rw [releaseInRange_eq_false_iff hq hd, watchActionOf_eq_none_iff, selectorOf_eq_none_iff]
          simp [hlen, nv, nq, nd]

theorem loadedPolicy_eq_badForm_iff (c : FactoryContent) (bs : List Byte) :
    loadedPolicy c bs = .badForm ↔ parsePolicy bs = none := by
  unfold loadedPolicy; split <;> simp [*]
theorem loadedPort_eq_badForm_iff (c : FactoryContent) (bs : List Byte) : loadedPort c bs = .badForm ↔ parsePort bs = none := by
  unfold loadedPort; split <;> simp [*]
theorem loadedWatch_eq_badForm_iff (bs : List Byte) : loadedWatch bs = .badForm ↔ parseWatch bs = none := by
  unfold loadedWatch; split <;> simp [*]
theorem parseBudget_eq_none_iff (bs : List Byte) : parseBudget bs = none ↔ bs.length ≠ 12 := by
  unfold parseBudget; split <;> simp [*]
theorem parseTiming_eq_none_iff (bs : List Byte) : parseTiming bs = none ↔ bs.length ≠ 25 := by
  unfold parseTiming; split <;> simp [*]
theorem loadedBudget_eq_badForm_iff (c : FactoryContent) (bs : List Byte) : loadedBudget c bs = .badForm ↔ bs.length ≠ 12 := by
  rw [← parseBudget_eq_none_iff]; unfold loadedBudget; split <;> simp [*]
theorem loadedTiming_eq_badForm_iff (bs : List Byte) : loadedTiming bs = .badForm ↔ bs.length ≠ 25 := by
  rw [← parseTiming_eq_none_iff]; unfold loadedTiming; split <;> simp [*]

/-! ## Refused loads (R61) -/

theorem loadAt_nil {α : Type} {w : Ev} (h : w.tables.lock = false) (last : Nat) (decode : List Byte → Loaded α)
    (store : Nat → α → Ev → Ev) : loadAt last decode store [] w = answer w .badForm := by simp [loadAt, h]

theorem loadAt_badIndex {α : Type} {w : Ev} (h : w.tables.lock = false) {last : Nat} {i : Byte} (hi : last < i.toNat)
    (decode : List Byte → Loaded α) (store : Nat → α → Ev → Ev) (bs : List Byte) :
    loadAt last decode store (i :: bs) w = answer w .badIndex := by simp [loadAt, h, hi]

theorem loadAt_badForm {α : Type} {w : Ev} (h : w.tables.lock = false) {last : Nat} {i : Byte} (hi : i.toNat ≤ last)
    {decode : List Byte → Loaded α} {bs : List Byte} (hd : decode bs = .badForm) (store : Nat → α → Ev → Ev) :
    loadAt last decode store (i :: bs) w = answer w .badForm := by simp [loadAt, h, Nat.not_lt.mpr hi, hd]

theorem loadAt_stored {α : Type} {w : Ev} (h : w.tables.lock = false) {last : Nat} {i : Byte} (hi : i.toNat ≤ last)
    {decode : List Byte → Loaded α} {bs : List Byte} {e : α} {clamped : Bool} (hd : decode bs = .stored e clamped)
    (store : Nat → α → Ev → Ev) :
    loadAt last decode store (i :: bs) w = answer (store i.toNat e w) (loadResult clamped) := by
  simp [loadAt, h, Nat.not_lt.mpr hi, hd]

/-- Settles O21. -/
theorem refusedLoadsChangeNothing : Obligations.RefusedLoadsChangeNothing := by
  refine ⟨fun i bs s hs hl => ?_, fun c bs => ⟨parsePolicy_eq_none_iff bs,
    parsePort_eq_none_iff bs, parseWatch_eq_none_iff bs, loadedPolicy_eq_badForm_iff c bs, loadedPort_eq_badForm_iff c bs,
    loadedWatch_eq_badForm_iff bs, loadedBudget_eq_badForm_iff c bs, loadedTiming_eq_badForm_iff bs⟩⟩
  have hlen : (i :: bs).length ≤ 128 := by simp only [List.length_cons]; omega
  have hnil : ([] : List Byte).length ≤ 128 := Nat.zero_le _
  refine ⟨fun hlock => ⟨fun hi => ?_, fun hi => ?_, fun hi => ?_, fun hi hp => ?_, fun hi hp => ?_, fun hi hp => ?_, ?_, ?_, ?_,
    fun hb => ?_⟩, fun hb => ?_⟩
  · exact requestEvent_answered hs hlen (loadAt_badIndex hlock hi _ _ _)
  · exact requestEvent_answered hs hlen (loadAt_badIndex hlock hi _ _ _)
  · exact requestEvent_answered hs hlen (loadAt_badIndex hlock hi _ _ _)
  · exact requestEvent_answered hs hlen (loadAt_badForm hlock hi ((loadedPolicy_eq_badForm_iff _ _).2 hp) _)
  · exact requestEvent_answered hs hlen (loadAt_badForm hlock hi ((loadedPort_eq_badForm_iff _ _).2 hp) _)
  · exact requestEvent_answered hs hlen (loadAt_badForm hlock hi ((loadedWatch_eq_badForm_iff _).2 hp) _)
  · exact requestEvent_answered hs hnil (loadAt_nil hlock _ _ _)
  · exact requestEvent_answered hs hnil (loadAt_nil hlock _ _ _)
  · exact requestEvent_answered hs hnil (loadAt_nil hlock _ _ _)
  · refine requestEvent_answered hs (by omega) ?_
    have hlock' : (s.holding 0x83#8).tables.lock = false := hlock
    simp [hlock', loadRecord, (loadedBudget_eq_badForm_iff (s.holding 0x83#8).factoryValues bs).2 hb, answer]
  · refine requestEvent_answered hs (by omega) ?_
    simp [loadRecord, (loadedTiming_eq_badForm_iff bs).2 hb, answer]

/-! ## Accepted loads (R60, R64, R76) -/

theorem storeTables_tables (t : Tables) (w : Ev) : (storeTables t w).tables = t := by
  unfold storeTables; dsimp only; split <;> rfl

theorem storeTables_trig (t : Tables) (w : Ev) :
    (storeTables t w).trig = (w.trig || decide (t.selectionFields ≠ w.tables.selectionFields)) := by
  unfold storeTables; dsimp only; split <;> simp [*]

/-- Tables are stored with nothing else changed but that a trigger may be raised (R64). -/
theorem storeTables_eq (t : Tables) (w : Ev) :
    storeTables t w = { w with tables := t, trig := w.trig || decide (t.selectionFields ≠ w.tables.selectionFields) } := by
  unfold storeTables; dsimp only; split <;> simp [*, raiseTrigger]

theorem length_of_loadedPolicy {c : FactoryContent} {bs : List Byte} {e : PolicyEntry} {b : Bool}
    (h : loadedPolicy c bs = .stored e b) : bs.length = 17 := by
  by_contra hl
  rw [(loadedPolicy_eq_badForm_iff c bs).2 ((parsePolicy_eq_none_iff bs).2 (.inl hl))] at h
  cases h
theorem length_of_loadedPort {c : FactoryContent} {bs : List Byte} {e : PortEntry} {b : Bool}
    (h : loadedPort c bs = .stored e b) : bs.length = 16 := by
  by_contra hl
  rw [(loadedPort_eq_badForm_iff c bs).2 ((parsePort_eq_none_iff bs).2 (.inl hl))] at h
  cases h
theorem length_of_loadedWatch {bs : List Byte} {e : WatchEntry} {b : Bool} (h : loadedWatch bs = .stored e b) :
    bs.length = 16 := by
  by_contra hl
  rw [(loadedWatch_eq_badForm_iff bs).2 ((parseWatch_eq_none_iff bs).2 (.inl hl))] at h
  cases h
theorem length_of_loadedBudget {c : FactoryContent} {bs : List Byte} {e : Budget} {b : Bool}
    (h : loadedBudget c bs = .stored e b) : bs.length = 12 := by
  by_contra hl
  rw [(loadedBudget_eq_badForm_iff c bs).2 hl] at h
  cases h
theorem length_of_loadedTiming {bs : List Byte} {e : Timing} {b : Bool} (h : loadedTiming bs = .stored e b) :
    bs.length = 25 := by
  by_contra hl
  rw [(loadedTiming_eq_badForm_iff bs).2 hl] at h
  cases h

/-- A request that is taken and decided to `a`: its event closes with the RESULT of `a` placed. -/
theorem requestEvent_gives {s : State} (h : s.takes = true) {code : Byte} {params : List Byte} (hl : params.length ≤ 128)
    {dec : Bool → Ev → Answer} {a : Answer} (hd : dec s.link.markArmed (Ev.start (s.holding code)) = a) :
    requestEvent code params dec s = .next (closeEvent (placeResult code a)) := by
  rw [requestEvent_acts h hl, hd]

/-- Settles O22. -/
theorem loadPolicyAndTimingReplaceTheirEntry : Obligations.LoadPolicyAndTimingReplaceTheirEntry := by
  refine fun i bs clamped s hs => ⟨fun e hlock hi hload => ?_, fun t hload => ?_⟩
  · have hlen := length_of_loadedPolicy hload
    refine ⟨_, requestEvent_gives hs (by simp [hlen]) (loadAt_stored hlock hi hload storePolicy), ?_⟩
    simp only [placeResult, answer, storePolicy, storeTables_eq]
    refine ⟨rfl, rfl, ?_, rfl, rfl, rfl, rfl⟩
    show (false || decide _) = true ↔ _
    simp only [Bool.false_or, decide_eq_true_eq, Tables.selectionFields, ne_eq, SelectionFields.mk.injEq, and_true]
    rfl
  · have hlen := length_of_loadedTiming hload
    exact requestEvent_quiet hs (by simp [hlen]) (w := storeTiming t (Ev.start (s.holding 0x84#8))) (r := loadResult clamped)
      (data := []) (by simp [loadRecord, hload, answer]) rfl rfl rfl rfl

end Sys2Proof.Machine
end

