-- ==== Sys2Proof/Proofs/ReadBack.lean ====
section
/-! PROOFS. What an accepted load stores, and that READ ENTRY's bytes of it load to the same entry, unclamped (R61, R62, R195,
R196). -/
namespace Sys2Proof.Machine

/-! ## What a load stores (R61, R62) -/

theorem parsePolicy_some {bs : List Byte} {e : PolicyEntry} (h : parsePolicy bs = some e) :
    ∃ valid cls kind action, boolOf (field bs 0 1) = some valid ∧ classOf (field bs 3 1) = some cls
      ∧ lineKindOf (field bs 4 1) = some kind ∧ actionOf (field bs 9 1) = some action
      ∧ e = { valid := valid, anyPort := (field bs 1 1).testBit 0, anyClass := (field bs 1 1).testBit 1
              anyKind := (field bs 1 1).testBit 2, anyVoltage := (field bs 1 1).testBit 3
              ports := BitVec.ofNat 4 (field bs 2 1), cls := cls, kind := kind, vLow := field bs 5 2 * 20
              vHigh := field bs 7 2 * 20, action := action, weight := field bs 10 1, ideal := field bs 11 2 * 20
              cost := field bs 13 2, cap := field bs 15 2 * 10 }
      ∧ field bs 5 2 ≤ field bs 7 2 := by
  unfold parsePolicy at h
  split at h
  · cases h
  · dsimp only at h
    split at h
    · cases h
    next hm =>
      simp only [Option.bind_eq_bind, Option.bind_eq_some_iff, Option.some.injEq] at h
      obtain ⟨valid, hv, cls, hc, kind, hk, action, ha, rfl⟩ := h
      simp only [Bool.or_eq_true, decide_eq_true_eq] at hm
      exact ⟨valid, cls, kind, action, hv, hc, hk, ha, rfl, by omega⟩

theorem parsePort_some {bs : List Byte} {e : PortEntry} (h : parsePort bs = some e) :
    ∃ enabled roles ta ts td om v, boolOf (field bs 0 1) = some enabled ∧ rolesOf (field bs 1 1) = some roles
      ∧ trapModeOf (field bs 4 1) = some ta ∧ trapModeOf (field bs 5 1) = some ts ∧ trapModeOf (field bs 6 1) = some td
      ∧ openModeOf (field bs 7 1) = some om ∧ verdictOf (field bs 8 1) = some v
      ∧ e = { enabled := enabled, roles := roles, outletCap := field bs 2 2 * 10, trapAnnounce := ta, trapSheet := ts
              trapDraw := td, openRange := om, verdict := v, feedLimit := field bs 9 4, rampStep := field bs 13 2 * 10
              margin := field bs 15 1 } := by
  unfold parsePort at h
  split at h
  · cases h
  · simp only [Option.bind_eq_bind, Option.bind_eq_some_iff, Option.some.injEq] at h
    obtain ⟨enabled, he, roles, hr, ta, hta, ts, hts, td, htd, om, hom, v, hv, rfl⟩ := h
    exact ⟨enabled, roles, ta, ts, td, om, v, he, hr, hta, hts, htd, hom, hv, rfl⟩

theorem parseWatch_some {bs : List Byte} {e : WatchEntry} (h : parseWatch bs = some e) :
    ∃ valid q d act sel, boolOf (field bs 0 1) = some valid ∧ quantityOf (field bs 1 1) = some q
      ∧ directionOf (field bs 2 1) = some d ∧ watchActionOf (field bs 13 1) = some act
      ∧ selectorOf (field bs 14 1) = some sel ∧ releaseInRange q d (field bs 3 4) (field bs 7 4) = true
      ∧ e = { valid := valid, quantity := q, direction := d, threshold := field bs 3 4, margin := field bs 7 4
              hold := field bs 11 2, action := act, selector := sel, step := field bs 15 1 } := by
  unfold parseWatch at h
  split at h
  · cases h
  · simp only [Option.bind_eq_bind, Option.bind_eq_some_iff, Option.ite_none_right_eq_some, Option.some.injEq] at h
    obtain ⟨valid, hv, q, hq, d, hd, act, ha, sel, hs, hrel, rfl⟩ := h
    exact ⟨valid, q, d, act, sel, hv, hq, hd, ha, hs, hrel, rfl⟩

theorem loadedPolicy_stored {c : FactoryContent} {bs : List Byte} {e : PolicyEntry} {b : Bool}
    (h : loadedPolicy c bs = .stored e b) :
    ∃ x, parsePolicy bs = some x ∧ e = (clampPolicy c x).1 ∧ b = (clampPolicy c x).2 := by
  unfold loadedPolicy at h
  split at h
  · cases h
  next x hx => injection h with h1 h2; exact ⟨x, hx, h1.symm, h2.symm⟩
theorem loadedPort_stored {c : FactoryContent} {bs : List Byte} {e : PortEntry} {b : Bool}
    (h : loadedPort c bs = .stored e b) :
    ∃ x, parsePort bs = some x ∧ e = (clampPort c x).1 ∧ b = (clampPort c x).2 := by
  unfold loadedPort at h
  split at h
  · cases h
  next x hx => injection h with h1 h2; exact ⟨x, hx, h1.symm, h2.symm⟩
theorem loadedWatch_stored {bs : List Byte} {e : WatchEntry} {b : Bool} (h : loadedWatch bs = .stored e b) :
    ∃ x, parseWatch bs = some x ∧ e = (clampWatch x).1 ∧ b = (clampWatch x).2 := by
  unfold loadedWatch at h
  split at h
  · cases h
  next x hx => injection h with h1 h2; exact ⟨x, hx, h1.symm, h2.symm⟩
theorem loadedBudget_stored {c : FactoryContent} {bs : List Byte} {r : Budget} {b : Bool}
    (h : loadedBudget c bs = .stored r b) :
    ∃ x : Budget, x = ⟨field bs 0 4, field bs 4 2, field bs 6 2, field bs 8 2 * 10, field bs 10 2 * 10⟩
      ∧ r = (clampBudget c x).1 ∧ b = (clampBudget c x).2 := by
  unfold loadedBudget at h
  split at h
  · cases h
  next x hx =>
    injection h with h1 h2
    unfold parseBudget at hx
    split at hx
    · cases hx
    · injection hx with hx
      exact ⟨x, hx.symm, h1.symm, h2.symm⟩
theorem loadedTiming_stored {bs : List Byte} {t : Timing} {b : Bool} (h : loadedTiming bs = .stored t b) :
    ∃ x : Timing, x = { debounce := field bs 0 2, greeting := field bs 2 2, answer := field bs 4 2, settle := field bs 6 2
                        checkWindow := field bs 8 2, deferral := field bs 10 2, holdOff := field bs 12 2
                        gap := field bs 14 2, ramp := field bs 16 2, overdraw := field bs 18 2, trap := field bs 20 2
                        liveness := field bs 22 2, repeatLimit := field bs 24 1 }
      ∧ t = clampTiming x ∧ (b = true ↔ t ≠ x) := by
  unfold loadedTiming at h
  split at h
  · cases h
  next x hx =>
    injection h with h1 h2
    unfold parseTiming at hx
    split at hx
    · cases hx
    · injection hx with hx
      exact ⟨x, hx.symm, h1.symm, by rw [← h2, ← h1]; simp⟩

/-! ## The bytes of an entry (R196) -/

theorem toBytes_one (v : Nat) : toBytes 1 v = [BitVec.ofNat 8 v] := by simp [toBytes]
theorem toBytes_two (v : Nat) : toBytes 2 v = [BitVec.ofNat 8 (v / 256), BitVec.ofNat 8 v] := by simp [toBytes]
theorem toBytes_four (v : Nat) : toBytes 4 v =
    [BitVec.ofNat 8 (v / 16777216), BitVec.ofNat 8 (v / 65536), BitVec.ofNat 8 (v / 256), BitVec.ofNat 8 v] := by simp [toBytes]

theorem fromBytes_one {v : Nat} (h : v < 256) : fromBytes [BitVec.ofNat 8 v] = v := by
  rw [← toBytes_one]; exact fromBytes_toBytes_of_lt (by omega)
theorem fromBytes_two {v : Nat} (h : v < 65536) : fromBytes [BitVec.ofNat 8 (v / 256), BitVec.ofNat 8 v] = v := by
  rw [← toBytes_two]; exact fromBytes_toBytes_of_lt (by omega)
theorem fromBytes_four {v : Nat} (h : v < 4294967296) : fromBytes [BitVec.ofNat 8 (v / 16777216), BitVec.ofNat 8 (v / 65536),
    BitVec.ofNat 8 (v / 256), BitVec.ofNat 8 v] = v := by
  rw [← toBytes_four]; exact fromBytes_toBytes_of_lt (by omega)

theorem boolOf_code (b : Bool) : boolOf (boolCode b) = some b := by cases b <;> rfl
theorem classOf_code (x : PartnerClass) : classOf (classCode x) = some x := by cases x <;> rfl
theorem lineKindOf_code (x : LineKind) : lineKindOf (lineKindCode x) = some x := by cases x <;> rfl
theorem actionOf_code (x : PolicyAction) : actionOf (actionCode x) = some x := by cases x <;> rfl
theorem rolesOf_code (x : RolesPermitted) : rolesOf (rolesCode x) = some x := by cases x <;> rfl
theorem trapModeOf_code (x : TrapMode) : trapModeOf (trapModeCode x) = some x := by cases x <;> rfl
theorem openModeOf_code (x : OpenMode) : openModeOf (openModeCode x) = some x := by cases x <;> rfl
theorem verdictOf_code (x : DefaultVerdict) : verdictOf (verdictCode x) = some x := by cases x <;> rfl
theorem quantityOf_code (x : Quantity) : quantityOf (quantityCode x) = some x := by cases x <;> rfl
theorem directionOf_code (x : Direction) : directionOf (directionCode x) = some x := by cases x <;> rfl
theorem watchActionOf_code (x : WatchAction) : watchActionOf (watchActionCode x) = some x := by cases x <;> rfl
theorem selectorOf_code (x : FeedSelector) : selectorOf (selectorCode x) = some x := by cases x <;> rfl

theorem boolCode_lt (b : Bool) : boolCode b < 2 := by cases b <;> decide
theorem classCode_lt (x : PartnerClass) : classCode x < 256 := by cases x <;> decide
theorem lineKindCode_lt (x : LineKind) : lineKindCode x < 256 := by cases x <;> decide
theorem actionCode_lt (x : PolicyAction) : actionCode x < 256 := by cases x <;> decide
theorem rolesCode_lt (x : RolesPermitted) : rolesCode x < 256 := by cases x <;> decide
theorem trapModeCode_lt (x : TrapMode) : trapModeCode x < 256 := by cases x <;> decide
theorem openModeCode_lt (x : OpenMode) : openModeCode x < 256 := by cases x <;> decide
theorem verdictCode_lt (x : DefaultVerdict) : verdictCode x < 256 := by cases x <;> decide
theorem quantityCode_lt (x : Quantity) : quantityCode x < 256 := by cases x <;> decide
theorem directionCode_lt (x : Direction) : directionCode x < 256 := by cases x <;> decide
theorem watchActionCode_lt (x : WatchAction) : watchActionCode x < 256 := by cases x <;> decide
theorem selectorCode_lt (x : FeedSelector) : selectorCode x < 256 := by cases x <;> decide

/-- The four marks of a policy entry as one number, and its bits (R195). -/
theorem marks_testBit (a b c d : Bool) :
    let n := boolCode a + 2 * boolCode b + 4 * boolCode c + 8 * boolCode d
    n ≤ 15 ∧ n.testBit 0 = a ∧ n.testBit 1 = b ∧ n.testBit 2 = c ∧ n.testBit 3 = d := by
  revert a b c d
  decide

/-- An entry whose values have whole units and fit their fields is read from its bytes as it is. -/
theorem parsePolicy_policyBytes {e : PolicyEntry} (hlow : e.vLow % 20 = 0) (hhigh : e.vHigh % 20 = 0) (hideal : e.ideal % 20 = 0)
    (hcap : e.cap % 10 = 0) (hlow' : e.vLow ≤ 28000) (hhigh' : e.vHigh ≤ 28000) (hideal' : e.ideal ≤ 28000)
    (hcap' : e.cap ≤ 6000) (hweight : e.weight ≤ 15) (hcost : e.cost ≤ 4095) (hv : e.vLow ≤ e.vHigh) :
    parsePolicy (policyBytes e) = some e := by
  obtain ⟨hm, hb0, hb1, hb2, hb3⟩ := marks_testBit e.anyPort e.anyClass e.anyKind e.anyVoltage
  have hports : e.ports.toNat < 16 := e.ports.isLt
  have hset : BitVec.ofNat 4 e.ports.toNat = e.ports := by simp
  have h0 := boolCode_lt e.valid
  unfold parsePolicy policyBytes
  simp only [toBytes_one, toBytes_two, field, List.cons_append, List.nil_append, List.length_cons, List.length_nil, List.drop,
    List.take, List.drop_succ_cons, ne_eq, not_true_eq_false, if_false, Nat.reduceAdd,
    fromBytes_one (v := boolCode e.valid) (by omega), fromBytes_one (show _ < 256 from Nat.lt_of_le_of_lt hm (by decide)),
    fromBytes_one (v := e.ports.toNat) (by omega), fromBytes_one (classCode_lt e.cls),
    fromBytes_one (lineKindCode_lt e.kind), fromBytes_one (actionCode_lt e.action), fromBytes_one (v := e.weight) (by omega),
    fromBytes_two (v := e.vLow / 20) (by omega), fromBytes_two (v := e.vHigh / 20) (by omega),
    fromBytes_two (v := e.ideal / 20) (by omega), fromBytes_two (v := e.cost) (by omega),
    fromBytes_two (v := e.cap / 10) (by omega), boolOf_code, classOf_code, lineKindOf_code, actionOf_code, hb0, hb1, hb2, hb3,
    Option.bind_eq_bind, Option.bind_some, hset]
  rw [if_neg (by simp only [Bool.or_eq_true, decide_eq_true_eq]; omega)]
  rw [Nat.div_mul_cancel (Nat.dvd_of_mod_eq_zero hlow), Nat.div_mul_cancel (Nat.dvd_of_mod_eq_zero hhigh),
    Nat.div_mul_cancel (Nat.dvd_of_mod_eq_zero hideal), Nat.div_mul_cancel (Nat.dvd_of_mod_eq_zero hcap)]

theorem parsePort_portBytes {e : PortEntry} (hcap : e.outletCap % 10 = 0) (hstep : e.rampStep % 10 = 0)
    (hcap' : e.outletCap ≤ 3000) (hlimit : e.feedLimit ≤ 150000) (hstep' : e.rampStep ≤ 1000) (hmargin : e.margin ≤ 8) :
    parsePort (portBytes e) = some e := by
  have h0 := boolCode_lt e.enabled
  unfold parsePort portBytes
  simp only [toBytes_one, toBytes_two, toBytes_four, field, List.cons_append, List.nil_append, List.length_cons,
    List.length_nil, List.drop, List.take, List.drop_succ_cons, ne_eq, not_true_eq_false, if_false, Nat.reduceAdd,
    fromBytes_one (v := boolCode e.enabled) (by omega), fromBytes_one (rolesCode_lt e.roles),
    fromBytes_one (trapModeCode_lt e.trapAnnounce), fromBytes_one (trapModeCode_lt e.trapSheet),
    fromBytes_one (trapModeCode_lt e.trapDraw), fromBytes_one (openModeCode_lt e.openRange),
    fromBytes_one (verdictCode_lt e.verdict), fromBytes_one (v := e.margin) (by omega),
    fromBytes_two (v := e.outletCap / 10) (by omega), fromBytes_two (v := e.rampStep / 10) (by omega),
    fromBytes_four (v := e.feedLimit) (by omega), boolOf_code, rolesOf_code, trapModeOf_code, openModeOf_code, verdictOf_code,
    Option.bind_eq_bind, Option.bind_some]
  rw [Nat.div_mul_cancel (Nat.dvd_of_mod_eq_zero hcap), Nat.div_mul_cancel (Nat.dvd_of_mod_eq_zero hstep)]

theorem parseWatch_watchBytes {e : WatchEntry} (ht : e.threshold ≤ 496000) (hm : e.margin ≤ 496000) (hh : e.hold ≤ 1000)
    (hd : e.step ≤ 15) (hrel : releaseInRange e.quantity e.direction e.threshold e.margin = true) :
    parseWatch (watchBytes e) = some e := by
  have h0 := boolCode_lt e.valid
  unfold parseWatch watchBytes
  simp only [toBytes_one, toBytes_two, toBytes_four, field, List.cons_append, List.nil_append, List.length_cons,
    List.length_nil, List.drop, List.take, List.drop_succ_cons, ne_eq, not_true_eq_false, if_false, Nat.reduceAdd,
    fromBytes_one (v := boolCode e.valid) (by omega), fromBytes_one (quantityCode_lt e.quantity),
    fromBytes_one (directionCode_lt e.direction), fromBytes_one (watchActionCode_lt e.action),
    fromBytes_one (selectorCode_lt e.selector), fromBytes_one (v := e.step) (by omega),
    fromBytes_two (v := e.hold) (by omega), fromBytes_four (v := e.threshold) (by omega),
    fromBytes_four (v := e.margin) (by omega), boolOf_code, quantityOf_code, directionOf_code, watchActionOf_code,
    selectorOf_code, Option.bind_eq_bind, Option.bind_some, hrel, if_true]

theorem parseBudget_budgetBytes {r : Budget} (hc : r.ceiling ≤ 250000) (hf : r.usefulFloor ≤ 20000) (hm : r.margin ≤ 20000)
    (hi : r.poolIntake ≤ 6000) (hb : r.poolBattery ≤ 6000) (hi' : r.poolIntake % 10 = 0) (hb' : r.poolBattery % 10 = 0) :
    parseBudget (budgetBytes r) = some r := by
  unfold parseBudget budgetBytes
  simp only [toBytes_two, toBytes_four, field, List.cons_append, List.nil_append, List.length_cons,
    List.length_nil, List.drop, List.take, List.drop_succ_cons, ne_eq, not_true_eq_false, if_false, Nat.reduceAdd,
    fromBytes_four (v := r.ceiling) (by omega), fromBytes_two (v := r.usefulFloor) (by omega),
    fromBytes_two (v := r.margin) (by omega), fromBytes_two (v := r.poolIntake / 10) (by omega),
    fromBytes_two (v := r.poolBattery / 10) (by omega)]
  rw [Nat.div_mul_cancel (Nat.dvd_of_mod_eq_zero hi'), Nat.div_mul_cancel (Nat.dvd_of_mod_eq_zero hb')]

/-! ## Clamping again changes nothing (R62) -/

theorem clampRange_again (lo hi v : Nat) (h : lo ≤ hi) :
    clampRange lo hi (clampRange lo hi v).value = ⟨(clampRange lo hi v).value, false⟩ := by
  simp only [clampRange, Clamped.mk.injEq, bne_eq_false_iff_eq]
  omega

theorem clampCeiling_again (lo hi c v : Nat) :
    clampCeiling lo hi c (clampCeiling lo hi c v).value = ⟨(clampCeiling lo hi c v).value, false⟩ := by
  simp only [clampCeiling, Clamped.mk.injEq, bne_eq_false_iff_eq]
  omega

theorem clampPolicy_again (c : FactoryContent) (x : PolicyEntry) :
    clampPolicy c (clampPolicy c x).1 = ((clampPolicy c x).1, false) := by
  simp [clampPolicy, clampCeiling_again, clampRange_again]
theorem clampPort_again (c : FactoryContent) (x : PortEntry) : clampPort c (clampPort c x).1 = ((clampPort c x).1, false) := by
  simp [clampPort, clampCeiling_again, clampRange_again]
theorem clampWatch_again (x : WatchEntry) : clampWatch (clampWatch x).1 = ((clampWatch x).1, false) := by
  simp [clampWatch, clampRange_again]
theorem clampBudget_again (c : FactoryContent) (x : Budget) : clampBudget c (clampBudget c x).1 = ((clampBudget c x).1, false) := by
  simp [clampBudget, clampCeiling_again, clampRange_again]
theorem clampTiming_again (t : Timing) : clampTiming (clampTiming t) = clampTiming t := by
  simp [clampTiming, clampRange_again]

theorem clampRange_mod {lo hi v : Nat} (m : Nat) (hl : lo % m = 0) (hh : hi % m = 0) (hv : v % m = 0) :
    (clampRange lo hi v).value % m = 0 := by
  simp only [clampRange]
  rcases min_choice (max v lo) hi with h1 | h1 <;> rcases max_choice v lo with h2 | h2 <;> rw [h1] <;> simp only [h2, hl, hh, hv]

theorem clampCeiling_mod {lo hi c v : Nat} (m : Nat) (hl : lo % m = 0) (hh : hi % m = 0) (hc : c % m = 0) (hv : v % m = 0) :
    (clampCeiling lo hi c v).value % m = 0 := by
  have h := clampRange_mod m hl hh hv
  simp only [clampRange] at h
  simp only [clampCeiling]
  rcases min_choice (min (max v lo) hi) c with h1 | h1 <;> rw [h1] <;> assumption

theorem clampCeiling_mono {lo hi c u v : Nat} (h : u ≤ v) : (clampCeiling lo hi c u).value ≤ (clampCeiling lo hi c v).value := by
  simp only [clampCeiling]; omega

/-- The release point of an entry in range stays so when threshold and margin are clamped (R161). -/
theorem releaseInRange_clamped {q : Quantity} {d : Direction} {t m : Nat} (h : releaseInRange q d t m = true) :
    releaseInRange q d (clampRange 0 (quantityTop q) t).value (clampRange 0 (quantityTop q) m).value = true := by
  cases d <;> simp [releaseInRange, clampRange] at h ⊢ <;> omega

theorem quantityTop_le (q : Quantity) : quantityTop q ≤ 496000 := by cases q <;> decide

/-! ## Loads read back (R196) -/

theorem loadedPolicy_policyBytes {c : FactoryContent} {bs : List Byte} {e : PolicyEntry} {b : Bool} (hv : c.maxVoltage % 20 = 0)
    (hp : c.portCurrent % 10 = 0) (h : loadedPolicy c bs = .stored e b) : loadedPolicy c (policyBytes e) = .stored e false := by
  obtain ⟨x, hx, rfl, -⟩ := loadedPolicy_stored h
  obtain ⟨_, _, _, _, -, -, -, -, rfl, hle⟩ := parsePolicy_some hx
  rw [loadedPolicy, parsePolicy_policyBytes]
  · simp only [clampPolicy_again]
  · exact clampCeiling_mod 20 rfl rfl hv (by simp)
  · exact clampCeiling_mod 20 rfl rfl hv (by simp)
  · exact clampCeiling_mod 20 rfl rfl hv (by simp)
  · exact clampCeiling_mod 10 rfl rfl hp (by simp)
  · exact (clampCeiling_spec _).1
  · exact (clampCeiling_spec _).1
  · exact (clampCeiling_spec _).1
  · exact (clampCeiling_spec _).1
  · exact (clampRange_spec (by decide) _).2.1
  · exact (clampRange_spec (by decide) _).2.1
  · exact clampCeiling_mono (Nat.mul_le_mul_right _ hle)

theorem loadedPort_portBytes {c : FactoryContent} {bs : List Byte} {e : PortEntry} {b : Bool} (ho : c.outletCeiling % 10 = 0)
    (h : loadedPort c bs = .stored e b) : loadedPort c (portBytes e) = .stored e false := by
  obtain ⟨x, hx, rfl, -⟩ := loadedPort_stored h
  obtain ⟨_, _, _, _, _, _, _, -, -, -, -, -, -, -, rfl⟩ := parsePort_some hx
  rw [loadedPort, parsePort_portBytes]
  · simp only [clampPort_again]
  · exact clampCeiling_mod 10 rfl rfl ho (by simp)
  · exact clampRange_mod 10 rfl rfl (by simp)
  · exact (clampCeiling_spec _).1
  · exact (clampCeiling_spec _).1
  · exact (clampRange_spec (by decide) _).2.1
  · exact (clampRange_spec (by decide) _).2.1

theorem loadedWatch_watchBytes {bs : List Byte} {e : WatchEntry} {b : Bool} (h : loadedWatch bs = .stored e b) :
    loadedWatch (watchBytes e) = .stored e false := by
  obtain ⟨x, hx, rfl, -⟩ := loadedWatch_stored h
  obtain ⟨_, q, _, _, _, -, -, -, -, -, hrel, rfl⟩ := parseWatch_some hx
  have htop := quantityTop_le q
  rw [loadedWatch, parseWatch_watchBytes]
  · simp only [clampWatch_again]
  · exact (clampRange_spec (Nat.zero_le _) _).2.1.trans htop
  · exact (clampRange_spec (Nat.zero_le _) _).2.1.trans htop
  · exact (clampRange_spec (by decide) _).2.1
  · exact (clampRange_spec (by decide) _).2.1
  · exact releaseInRange_clamped hrel

theorem loadedBudget_budgetBytes {c : FactoryContent} {bs : List Byte} {r : Budget} {b : Bool}
    (h : loadedBudget c bs = .stored r b) : loadedBudget c (budgetBytes r) = .stored r false := by
  obtain ⟨x, rfl, rfl, -⟩ := loadedBudget_stored h
  rw [loadedBudget, parseBudget_budgetBytes]
  · simp only [clampBudget_again]
  · exact (clampCeiling_spec _).1
  · exact (clampRange_spec (by decide) _).2.1
  · exact (clampRange_spec (by decide) _).2.1
  · exact (clampRange_spec (by decide) _).2.1
  · exact (clampRange_spec (by decide) _).2.1
  · exact clampRange_mod 10 rfl rfl (by simp)
  · exact clampRange_mod 10 rfl rfl (by simp)

/-- A timing record within the ranges of R75 is read from its bytes as it is. -/
theorem parseTiming_timingBytes (t : Timing) : parseTiming (timingBytes (clampTiming t)) = some (clampTiming t) := by
  have hc : ∀ {lo hi v : Nat}, hi < 65536 → fromBytes [BitVec.ofNat 8 ((clampRange lo hi v).value / 256),
      BitVec.ofNat 8 (clampRange lo hi v).value] = (clampRange lo hi v).value := fun h =>
    fromBytes_two (Nat.lt_of_le_of_lt (Nat.min_le_right _ _) h)
  have hr : (clampRange 0 3 t.repeatLimit).value < 256 := Nat.lt_of_le_of_lt (Nat.min_le_right _ _) (by decide)
  unfold parseTiming timingBytes clampTiming
  simp (disch := decide) only [toBytes_one, toBytes_two, field, List.cons_append, List.nil_append, List.length_cons,
    List.length_nil, List.drop, List.take, List.drop_succ_cons, ne_eq, not_true_eq_false, if_false, Nat.reduceAdd,
    hc, fromBytes_one hr]

theorem loadedTiming_timingBytes {bs : List Byte} {t : Timing} {b : Bool} (h : loadedTiming bs = .stored t b) :
    loadedTiming (timingBytes t) = .stored t false := by
  obtain ⟨x, -, rfl, -⟩ := loadedTiming_stored h
  rw [loadedTiming, parseTiming_timingBytes]
  simp [clampTiming_again]

/-- Settles O5. -/
theorem entriesReadBackAsLoaded : Obligations.EntriesReadBackAsLoaded := by
  refine ⟨fun c hv hp ho => ⟨fun bs e b h => loadedPolicy_policyBytes hv hp h, fun bs e b h => loadedPort_portBytes ho h,
    fun bs e b h => loadedWatch_watchBytes h, fun bs r b h => loadedBudget_budgetBytes h,
    fun bs t b h => loadedTiming_timingBytes h⟩, ?_⟩
  intro c bs b
  refine ⟨fun e h => ?_, fun e h => ?_, fun e h => ?_, fun r h => ?_, fun t h => ?_⟩
  · obtain ⟨x, hx, rfl, rfl⟩ := loadedPolicy_stored h
    obtain ⟨valid, cls, kind, action, hv, hc, hk, ha, rfl, -⟩ := parsePolicy_some hx
    obtain rfl := boolOf_some hv
    refine ⟨rfl, by rw [← classOf_eq]; exact hc, by rw [← lineKindOf_eq]; exact hk, by rw [← actionOf_eq]; exact ha, ?_⟩
    simp [clampPolicy, clampCeiling, clampRange, or_assoc]
  · obtain ⟨x, hx, rfl, rfl⟩ := loadedPort_stored h
    obtain ⟨enabled, roles, ta, ts, td, om, v, he, hr, hta, hts, htd, hom, hv, rfl⟩ := parsePort_some hx
    obtain rfl := boolOf_some he
    obtain rfl := openModeOf_some hom
    refine ⟨rfl, by rw [← rolesOf_eq]; exact hr, by rw [← trapModeOf_eq]; exact hta, by rw [← trapModeOf_eq]; exact hts,
      by rw [← trapModeOf_eq]; exact htd, by rw [← verdictOf_eq]; exact hv, ?_⟩
    simp [clampPort, clampCeiling, clampRange, or_assoc]
  · obtain ⟨x, hx, rfl, rfl⟩ := loadedWatch_stored h
    obtain ⟨valid, q, d, act, sel, hv, hq, hd, ha, hs, -, rfl⟩ := parseWatch_some hx
    obtain rfl := boolOf_some hv
    dsimp only
    rw [← quantityTop_of_code hq]
    refine ⟨rfl, by rw [← quantityOf_eq]; exact hq, by rw [← directionOf_eq]; exact hd, by rw [← watchActionOf_eq]; exact ha,
      by rw [← selectorOf_eq]; exact hs, ?_⟩
    simp [clampWatch, clampRange, or_assoc]
  · obtain ⟨x, rfl, rfl, rfl⟩ := loadedBudget_stored h
    refine ⟨rfl, ?_⟩
    simp only [clampBudget, clampCeiling, clampRange, Bool.or_eq_true, bne_iff_ne, ne_eq, Budget.mk.injEq, not_and_or, or_assoc]
  · obtain ⟨x, rfl, rfl, hb⟩ := loadedTiming_stored h
    exact ⟨rfl, hb⟩

end Sys2Proof.Machine
end

