-- ==== Sys2Proof/Proofs/Trims.lean ====
section
/-! PROOFS. The trims of R118 and R119 and what they leave alone; the events that trim: LIVE CONFIRM (R205, R207), LOAD BUDGET
(R74), the watches (R163 to R169). -/
namespace Sys2Proof.Machine

/-! ## What a trim leaves alone (R118 to R120) -/

/-- `v` is `w` but for its feeds and its controller. -/
def FeedsOnly (w v : Ev) : Prop := ∃ fs c, v = { w with feeds := fs, control := c }

theorem FeedsOnly.refl (w : Ev) : FeedsOnly w w := ⟨w.feeds, w.control, rfl⟩
theorem FeedsOnly.trans {u v w : Ev} (h : FeedsOnly u v) (k : FeedsOnly v w) : FeedsOnly u w := by
  obtain ⟨_, _, rfl⟩ := h
  obtain ⟨fs, c, rfl⟩ := k
  exact ⟨fs, c, rfl⟩

theorem trimTo_feedsOnly (f : Feed) (i : Nat) (w : Ev) : FeedsOnly w (trimTo f i w) := ⟨_, _, rfl⟩

theorem feedsOnly_ite {c : Prop} [Decidable c] {w a b : Ev} (ha : FeedsOnly w a) (hb : FeedsOnly w b) :
    FeedsOnly w (if c then a else b) := by split <;> assumption

theorem trimForCeiling_feedsOnly (w : Ev) : FeedsOnly w (trimForCeiling w) := by
  unfold trimForCeiling
  refine feedsOnly_ite ?_ (.refl w)
  have h0 : FeedsOnly w (if (w.feed .F0).powered = true then
      trimTo .F0 (trimShare w.effectiveCeiling (w.committed .F0) (w.committed .F0 + w.committed .F1)
        (w.feed .F0).trimVoltage) w else w) := feedsOnly_ite (trimTo_feedsOnly ..) (.refl w)
  exact feedsOnly_ite (h0.trans (trimTo_feedsOnly ..)) h0

theorem trimForDerate_feedsOnly (f : Feed) (w : Ev) : FeedsOnly w (trimForDerate f w) :=
  feedsOnly_ite (trimTo_feedsOnly ..) (.refl w)

/-! ## Liveness (R204, R205, R207) -/

theorem attended_iff (s : State) : s.attended = true ↔ s.link.mode = .attended := by simp [State.attended]

/-- The part enters attended mode: its mode, the trim of R118 under the budget ceiling, a trigger (R207). -/
theorem enterAttended_unattended {w : Ev} (h : w.link.mode = .unattended) :
    enterAttended w = raiseTrigger (trimForCeiling (updLink (fun l => { l with mode := .attended }) w)) := by
  simp [enterAttended, State.attended, h]

/-- Settles O14. -/
theorem liveConfirmNeedsTheMark : Obligations.LiveConfirmNeedsTheMark := by
  intro s hs
  have hl : ([] : List Byte).length ≤ 128 := Nat.zero_le _
  refine ⟨?_, fun hm => ?_, fun hm ha => ?_, fun hm hu => ?_⟩
  · exact requestEvent_quiet hs hl rfl rfl rfl rfl rfl
  · exact requestEvent_answered hs hl (by simp [withLength, confirmLive, answer, hm])
  · refine requestEvent_quiet hs hl (w := updLink (fun l => { l with liveness := .armed }) (Ev.start (s.holding 0x91#8)))
      (r := .done) (data := []) ?_ rfl rfl rfl rfl
    have ha' : (updLink (fun l => { l with liveness := .armed }) (Ev.start (s.holding 0x91#8))).attended = true :=
      (attended_iff _).2 ha
    simp [withLength, confirmLive, answer, hm, enterAttended, ha']
  · let u : Ev := updLink (fun l => { l with mode := .attended })
      (updLink (fun l => { l with liveness := .armed }) (Ev.start (s.holding 0x91#8)))
    have hgives := requestEvent_gives (code := 0x91#8) (params := []) (a := answer (raiseTrigger (trimForCeiling u)) .done) hs hl
      (dec := fun mark w => withLength 0 [] (confirmLive mark) w)
      (by simp only [withLength, List.length_nil, if_true, confirmLive, hm]
          rw [enterAttended_unattended (by exact hu)])
    have htrim := trimForCeiling_trimsTo u
    obtain ⟨fs, c, he⟩ := trimForCeiling_feedsOnly u
    rw [he] at htrim hgives
    exact ⟨_, hgives, rfl, rfl, rfl, rfl, rfl, rfl, htrim⟩

/-! ## The trim for a lowered ceiling (R118, R120) -/

theorem trimForCeiling_within {w : Ev} (h : w.committed .F0 + w.committed .F1 ≤ w.effectiveCeiling) : trimForCeiling w = w := by
  simp [trimForCeiling, Nat.not_lt.mpr h]

/-- The powers two feeds can draw at their shares of a ceiling sum to the ceiling at most (R118). -/
theorem shares_le (c p0 p1 v0 v1 : Nat) :
    c * p0 * 1000 / ((p0 + p1) * v0) / 10 * 10 * v0 / 1000 + c * p1 * 1000 / ((p0 + p1) * v1) / 10 * 10 * v1 / 1000 ≤ c := by
  have share : ∀ p v : Nat, c * p * 1000 / ((p0 + p1) * v) / 10 * 10 * v / 1000 ≤ c * p / (p0 + p1) := by
    intro p v
    have h1 : c * p * 1000 / ((p0 + p1) * v) / 10 * 10 * v ≤ c * p * 1000 / (p0 + p1) := by
      calc _ ≤ c * p * 1000 / ((p0 + p1) * v) * v := Nat.mul_le_mul_right _ (Nat.div_mul_le_self _ _)
        _ = c * p * 1000 / (p0 + p1) / v * v := by rw [Nat.div_div_eq_div_mul]
        _ ≤ _ := Nat.div_mul_le_self _ _
    calc _ ≤ c * p * 1000 / (p0 + p1) / 1000 := Nat.div_le_div_right h1
      _ = c * p / (p0 + p1) := by
        rw [Nat.div_div_eq_div_mul, Nat.mul_comm (p0 + p1), ← Nat.div_div_eq_div_mul, Nat.mul_div_cancel _ (by decide)]
  calc _ ≤ c * p0 / (p0 + p1) + c * p1 / (p0 + p1) := Nat.add_le_add (share p0 v0) (share p1 v1)
    _ ≤ (c * p0 + c * p1) / (p0 + p1) := Nat.div_add_div_le_add_div
    _ = c * (p0 + p1) / (p0 + p1) := by rw [Nat.mul_add]
    _ ≤ c := Nat.div_le_of_le_mul (Nat.mul_comm c _).le

/-- Settles O42. -/
theorem ceilingTrimSharesTheCeiling : Obligations.CeilingTrimSharesTheCeiling := by
  intro w
  refine ⟨trimForCeiling_within, fun hc => ?_⟩
  obtain ⟨hfeeds, hcontrol⟩ := trimForCeiling_trimsTo w
  have hpowered : ∀ f, (w.feed f).powered = true → w.ceilingTrim w.effectiveCeiling f = some (min (w.feed f).output
      (w.effectiveCeiling * w.committed f * 1000 / ((w.committed .F0 + w.committed .F1) * (w.feed f).trimVoltage) / 10 * 10)) :=
    fun f hp => if_pos ⟨hc, hp⟩
  have hdark : ∀ f, (w.feed f).powered = false → w.ceilingTrim w.effectiveCeiling f = none :=
    fun f hp => if_neg (by simp [hp])
  refine ⟨fun f hp => ?_, fun f hp => ?_, fun h0 h1 => ?_, ?_⟩
  · obtain ⟨hv, -, ho, hh⟩ := hpowered f hp ▸ hfeeds f
    refine ⟨ho, hv, fun hl => ?_⟩
    obtain ⟨h1, h2, -⟩ := hh ((limitsHold_iff _).1 hl f)
    exact ⟨h1, h2⟩
  · exact (hdark f hp ▸ hfeeds f).1
  · obtain ⟨-, -, ho0, -⟩ := hpowered .F0 h0 ▸ hfeeds .F0
    obtain ⟨-, -, ho1, -⟩ := hpowered .F1 h1 ▸ hfeeds .F1
    refine le_trans (Nat.add_le_add ?_ ?_)
      (shares_le w.effectiveCeiling (w.committed .F0) (w.committed .F1) (w.feed .F0).trimVoltage (w.feed .F1).trimVoltage)
    · exact Nat.div_le_div_right (Nat.mul_le_mul_right _ (ho0.trans (min_le_right _ _)))
    · exact Nat.div_le_div_right (Nat.mul_le_mul_right _ (ho1.trans (min_le_right _ _)))
  · obtain ⟨fs, c, he⟩ := trimForCeiling_feedsOnly w
    refine ⟨by rw [he], by rw [hcontrol], by rw [he], by rw [he]⟩

end Sys2Proof.Machine
end

