-- ==== Sys2Proof/Proofs/PoolEffects.lean ====
section
/-! PROOFS. What the computation of the pool may do beside the operation that asks for it (R146, R152): the ports that hold an
entry may be cut or parked; feeds, controller and everything else stand. -/
namespace Sys2Proof.Machine

/-- What the allocator alone makes of an event: of the ports in `P` it may write state, park reason, waiting frames and park time,
a waiting frame other than CUT stays and none other than CUT joins; the feeds and the controller stand. -/
structure PoolAct (P : Port → Prop) (w v : Ev) : Prop where
  feeds : v.feeds = w.feeds
  control : v.control = w.control
  trig : v.trig = w.trig
  ended : v.ended = w.ended
  rest : v.rest = w.rest
  notices : ∀ n, w.link.noticeSet n = true → v.link.noticeSet n = true
  readmit : w.readmit = true → v.readmit = true
  port : ∀ q, ∃ st pr o, v.port q = { w.port q with state := st, parkReason := pr, order := o }
    ∧ (∀ f ∈ (w.port q).order, f.kindCode ≠ 0x0D#8 → f ∈ o) ∧ (st = (w.port q).state ∨ st = .parked)
  alone : ∀ q, ¬ P q → v.port q = w.port q ∧ v.outlet.parkTime.get q = w.outlet.parkTime.get q
    ∧ v.outlet.drives.get q = w.outlet.drives.get q
  entries : ∀ q, v.outlet.hasEntry q = true → w.outlet.hasEntry q = true
  frames : ∀ q, ∀ f ∈ (v.port q).order, f ∈ (w.port q).order ∨ f.kindCode = 0x0D#8

section
variable {P : Port → Prop} {u v w : Ev}

theorem PoolAct.refl (w : Ev) : PoolAct P w w :=
  ⟨rfl, rfl, rfl, rfl, rfl, fun _ => id, id, fun _ => ⟨_, _, _, rfl, fun _ h _ => h, .inl rfl⟩, fun _ _ => ⟨rfl, rfl, rfl⟩,
    fun _ => id, fun _ _ => .inl⟩

theorem PoolAct.trans (h : PoolAct P u v) (k : PoolAct P v w) : PoolAct P u w := by
  refine ⟨k.feeds.trans h.feeds, k.control.trans h.control, k.trig.trans h.trig, k.ended.trans h.ended, k.rest.trans h.rest,
    fun n hn => k.notices n (h.notices n hn), fun hr => k.readmit (h.readmit hr), fun q => ?_, fun q hq => ?_,
    fun q hq => h.entries q (k.entries q hq), fun q f hf => (k.frames q f hf).elim (h.frames q f) .inr⟩
  · obtain ⟨_, _, _, h1, ho, hs⟩ := h.port q
    obtain ⟨st, pr, o, h2, ho', hs'⟩ := k.port q
    rw [h1] at ho' hs'
    exact ⟨st, pr, o, by rw [h2, h1], fun f hf hc => ho' f (ho f hf hc) hc, hs'.elim (fun h => h ▸ hs) .inr⟩
  · obtain ⟨h1, h2, h3⟩ := h.alone q hq
    obtain ⟨k1, k2, k3⟩ := k.alone q hq
    exact ⟨k1.trans h1, k2.trans h2, k3.trans h3⟩

theorem PoolAct.mono {Q : Port → Prop} (h : PoolAct P u v) (hPQ : ∀ q, P q → Q q) : PoolAct Q u v :=
  { h with alone := fun q hq => h.alone q (fun hp => hq (hPQ q hp)) }

theorem poolAct_foldl {α : Type} {g : Ev → α → Ev} (xs : List α) (hg : ∀ w, ∀ x ∈ xs, PoolAct P w (g w x)) (w : Ev) :
    PoolAct P w (xs.foldl g w) := by
  induction xs generalizing w with
  | nil => exact .refl w
  | cons x xs ih =>
    exact (hg w x (List.mem_cons_self ..)).trans (ih (fun w y hy => hg w y (List.mem_cons_of_mem _ hy)) _)

/-- A frame of another kind keeps its place when one is placed (R5). -/
theorem mem_placeFrame_of_mem {f g : OutFrame} {l : List OutFrame} (h : f ∈ l) (hk : f.kindCode ≠ g.kindCode) :
    f ∈ placeFrame g l := by
  induction l with
  | nil => cases h
  | cons x xs ih =>
    unfold placeFrame
    rcases List.mem_cons.1 h with rfl | h
    · rw [if_neg (Ne.symm (fun e => hk e.symm))]
      exact List.mem_cons_self ..
    · split
      · exact List.mem_cons_of_mem _ h
      · exact List.mem_cons_of_mem _ (ih h)

/-- A placed frame waits (R5). -/
theorem mem_placeFrame (f : OutFrame) (l : List OutFrame) : f ∈ placeFrame f l := by
  induction l with
  | nil => simp [placeFrame]
  | cons x xs ih =>
    unfold placeFrame
    split
    · exact List.mem_cons_self ..
    · exact List.mem_cons_of_mem _ ih

/-- A frame that waits after one was placed waited, or is that one (R5). -/
theorem mem_of_mem_placeFrame {f g : OutFrame} {l : List OutFrame} (h : f ∈ placeFrame g l) : f ∈ l ∨ f = g := by
  induction l with
  | nil => exact .inr (by simpa [placeFrame] using h)
  | cons x xs ih =>
    unfold placeFrame at h
    split at h
    · exact (List.mem_cons.1 h).elim .inr fun h => .inl (List.mem_cons_of_mem _ h)
    · exact (List.mem_cons.1 h).elim (fun h => .inl (h ▸ List.mem_cons_self ..)) fun h =>
        (ih h).imp_left (List.mem_cons_of_mem _)

/-- A write of one port's record: what it makes of every port. -/
theorem updPort_port (p q : Port) (g : PortRec → PortRec) (w : Ev) :
    (updPort p g w).port q = if q = p then g (w.port p) else w.port q := by
  split
  next h => rw [h, updPort_port_self]
  next h => exact updPort_port_of_ne g w h

theorem decideFrame_port_self (p : Port) (f : OutFrame) (w : Ev) : (decideFrame p f w).port p =
    { w.port p with order := if (w.port p).restartOwed then (w.port p).order else placeFrame f (w.port p).order } := by
  rw [decideFrame, updPort_port_self]
  split <;> rfl
theorem decideFrame_port_of_ne {p q : Port} (h : q ≠ p) (f : OutFrame) (w : Ev) : (decideFrame p f w).port q = w.port q :=
  updPort_port_of_ne _ w h

theorem announceCut_act {c : Port × Nat} (hP : P c.1) (w : Ev) : PoolAct P w (announceCut w c) := by
  refine ⟨rfl, rfl, rfl, rfl, rfl, fun n => noticeSet_setNotice n _ _, id, fun q => ?_, fun q hq => ?_, fun _ => id,
    fun q f hf => ?_⟩
  · by_cases h : q = c.1
    · subst h
      refine ⟨(w.port c.1).state, (w.port c.1).parkReason, _, decideFrame_port_self c.1 (.cut c.2) w, fun f hf hk => ?_,
        .inl rfl⟩
      split
      · exact hf
      · exact mem_placeFrame_of_mem hf hk
    · exact ⟨_, _, _, decideFrame_port_of_ne h _ _, fun _ hf _ => hf, .inl rfl⟩
  · exact ⟨decideFrame_port_of_ne (fun h : q = c.1 => hq (h ▸ hP)) _ _, rfl, rfl⟩
  · rw [announceCut, setNotice_port] at hf
    by_cases h : q = c.1
    · subst h
      rw [decideFrame_port_self] at hf
      dsimp only at hf
      split at hf
      · exact .inl hf
      · exact (mem_of_mem_placeFrame hf).imp_right fun h => by rw [h]; rfl
    · rw [decideFrame_port_of_ne h] at hf
      exact .inl hf

theorem parkForPool_port_self (p : Port) (w : Ev) :
    (parkForPool p w).port p = { w.port p with state := .parked, parkReason := some .pool } := by
  simp [parkForPool]
theorem parkForPool_port_of_ne {p q : Port} (h : q ≠ p) (w : Ev) : (parkForPool p w).port q = w.port q := by
  simp [parkForPool, h]

theorem expelPort_act {g : GrantEntry} (hP : P g.port) (w : Ev) : PoolAct P w (expelPort w g) := by
  refine ⟨rfl, rfl, rfl, rfl, rfl, fun n => noticeSet_setNotice n _ _, id, fun q => ?_, fun q hq => ?_, fun _ => id,
    fun q f hf => ?_⟩
  · by_cases h : q = g.port
    · subst h
      exact ⟨_, _, (w.port g.port).order, parkForPool_port_self g.port w, fun _ hf _ => hf, .inr rfl⟩
    · exact ⟨_, _, _, parkForPool_port_of_ne h w, fun _ hf _ => hf, .inl rfl⟩
  · have h : q ≠ g.port := fun h => hq (h ▸ hP)
    refine ⟨parkForPool_port_of_ne h w, ?_, ?_⟩ <;> simp [expelPort, parkForPool, h]
  · rw [expelPort, setNotice_port, updOutlet_port] at hf
    by_cases h : q = g.port
    · subst h
      rw [parkForPool_port_self] at hf
      exact .inl hf
    · rw [parkForPool_port_of_ne h] at hf
      exact .inl hf

/-! ## The shrink touches ports that hold an entry alone (R152) -/

theorem hasEntry_iff (o : Outlet) (p : Port) : o.hasEntry p = true ↔ p ∈ o.grants.map (·.port) := by
  simp [Outlet.hasEntry]

theorem mem_of_mem_cutsMade {gs hs : List GrantEntry} {c : Port × Nat} (h : c ∈ cutsMade gs hs) : c.1 ∈ hs.map (·.port) := by
  induction gs generalizing hs with
  | nil => cases hs <;> simp [cutsMade] at h
  | cons g gs ih =>
    cases hs with
    | nil => simp [cutsMade] at h
    | cons x xs =>
      unfold cutsMade at h
      split at h
      · rcases List.mem_cons.1 h with rfl | h
        · simp
        · exact List.mem_cons_of_mem _ (ih h)
      · exact List.mem_cons_of_mem _ (ih h)

/-- The shrink's cut entries are of the ports of the list, newest first. -/
theorem cut_ports (o : Outlet) (e : Nat) :
    (cutEntries e o.grants.reverse).map (·.port) = (o.grants.map (·.port)).reverse := by
  rw [cutEntries_ports, List.map_reverse]

theorem mem_removedEntries {pool : Nat} {gs : List GrantEntry} {g : GrantEntry} (h : g ∈ removedEntries pool gs) : g ∈ gs := by
  rw [← removed_append_kept pool gs]
  exact List.mem_append_left _ h
theorem mem_keptEntries {pool : Nat} {gs : List GrantEntry} {g : GrantEntry} (h : g ∈ keptEntries pool gs) : g ∈ gs := by
  rw [← removed_append_kept pool gs]
  exact List.mem_append_right _ h

theorem setGrants_act {gs : List GrantEntry} (h : ∀ q, q ∈ gs.map (·.port) → w.outlet.hasEntry q = true) :
    PoolAct P w (updOutlet (fun o => { o with grants := gs }) w) :=
  ⟨rfl, rfl, rfl, rfl, rfl, fun _ => id, id, fun _ => ⟨_, _, _, rfl, fun _ hf _ => hf, .inl rfl⟩, fun _ _ => ⟨rfl, rfl, rfl⟩,
    fun q hq => h q ((hasEntry_iff _ q).1 hq), fun _ _ => .inl⟩

theorem shrinkPool_act (w : Ev) : PoolAct (fun q => w.outlet.hasEntry q = true) w (shrinkPool w) := by
  have hcut : ∀ q, q ∈ (cutEntries (sumCurrents w.outlet.grants.reverse - w.outlet.pool) w.outlet.grants.reverse).map (·.port) →
      w.outlet.hasEntry q = true := fun q hq => by
    rw [cut_ports, List.mem_reverse] at hq
    exact (hasEntry_iff _ q).2 hq
  unfold shrinkPool
  refine ((setGrants_act fun q hq => ?_).trans (poolAct_foldl _ (fun v c hc => announceCut_act ?_ v) _)).trans
    (poolAct_foldl _ (fun v g hg => expelPort_act ?_ v) _)
  · obtain ⟨g, hg, rfl⟩ := List.mem_map.1 hq
    exact hcut _ (List.mem_map_of_mem (mem_keptEntries (List.mem_reverse.1 hg)))
  · exact hcut _ (mem_of_mem_cutsMade hc)
  · exact hcut _ (List.mem_map_of_mem (mem_removedEntries hg))

theorem recomputePool_act (w : Ev) : PoolAct (fun q => w.outlet.hasEntry q = true) w (recomputePool w) := by
  have hpool : PoolAct (fun q => w.outlet.hasEntry q = true) w (updOutlet (fun o => { o with pool := w.poolValue }) w) :=
    ⟨rfl, rfl, rfl, rfl, rfl, fun _ => id, id, fun _ => ⟨_, _, _, rfl, fun _ hf _ => hf, .inl rfl⟩, fun _ _ => ⟨rfl, rfl, rfl⟩, fun _ => id,
      fun _ _ => .inl⟩
  unfold recomputePool
  dsimp only
  split
  · exact hpool.trans ((shrinkPool_act _).mono fun _ => id)
  · split
    · exact { hpool with readmit := fun _ => rfl }
    · exact hpool

theorem foldl_pool {α : Type} (g : Ev → α → Ev) (h : ∀ w x, (g w x).outlet.pool = w.outlet.pool) (xs : List α) (w : Ev) :
    (xs.foldl g w).outlet.pool = w.outlet.pool := by
  induction xs generalizing w with
  | nil => rfl
  | cons x xs ih => rw [List.foldl_cons, ih, h]

theorem shrinkPool_pool (w : Ev) : (shrinkPool w).outlet.pool = w.outlet.pool := by
  unfold shrinkPool
  dsimp only
  rw [foldl_pool expelPort (fun _ _ => rfl), foldl_pool announceCut (fun _ _ => rfl)]
  rfl

/-- The pool in force is the budget's (R146). -/
theorem recomputePool_pool (w : Ev) : (recomputePool w).outlet.pool = w.poolValue := by
  unfold recomputePool
  dsimp only
  split
  · rw [shrinkPool_pool]; rfl
  · split <;> rfl

end

end Sys2Proof.Machine
end

