-- ==== Sys2Proof/Proofs/BudgetAndWatches.lean ====
section
/-! PROOFS. LOAD BUDGET with its trim and pool (R73, R74, R118, R146), and the watches with their levels and the trim of a
risen derate (R119, R163 to R169). -/
namespace Sys2Proof.Machine

/-! ## Trims and what follows them -/

theorem trimsTo_congr {s t u : State} {i : Feed → Option Nat} (hf : u.feeds = t.feeds) (hc : u.control = t.control)
    (h : s.trimsTo i t) : s.trimsTo i u := by
  unfold State.trimsTo State.feed at *
  rw [hf, hc]
  exact h

theorem trimsTo_none (s : State) : s.trimsTo (fun _ => none) s := ⟨fun _ => ⟨rfl, rfl⟩, rfl⟩

theorem trimsTo_state {s t : State} {i : Feed → Option Nat} (h : s.trimsTo i t) (f : Feed) :
    (t.feed f).state = (s.feed f).state := by
  have hf := h.1 f
  unfold FeedRec.trimmed at hf
  split at hf
  · rw [hf.1]
  · rw [hf.2.1]

theorem rest_eq_iff (s t : State) : s.rest = t.rest ↔ s.tables = t.tables ∧ s.watches = t.watches ∧ s.sense = t.sense
    ∧ s.traps = t.traps ∧ { s.link with notices := 0 } = { t.link with notices := 0 } ∧ s.factory = t.factory
    ∧ s.time = t.time ∧ s.cause = t.cause ∧ s.resetting = t.resetting ∧ s.pending = t.pending := by
  simp only [State.rest, Rest.mk.injEq]

/-! ## LOAD BUDGET (R73, R74) -/

/-- What the storing of a budget record does to an event, its trim and its pool included (R74, R118, R146). -/
theorem storeBudget_spec (b : Budget) (u : Ev) :
    (storeBudget b u).rest = { u.rest with tables := { u.tables with budget := b } }
      ∧ (storeBudget b u).outlet.pool =
          (if (u.feed .F0).state = .contract ∨ (u.feed .F1).state = .contract then b.poolIntake else b.poolBattery)
      ∧ (storeBudget b u).trig = (u.trig || decide (b.ceiling ≠ u.tables.budget.ceiling
          ∨ b.usefulFloor ≠ u.tables.budget.usefulFloor ∨ b.margin ≠ u.tables.budget.margin))
      ∧ u.trimsTo (fun f => if u.link.mode = .attended ∧ b.ceiling < u.tables.budget.ceiling then u.ceilingTrim b.ceiling f
          else none) (storeBudget b u).toState := by
  let u' : Ev := storeTables { u.tables with budget := b } u
  let v : Ev := if u'.attended ∧ b.ceiling < u.tables.budget.ceiling then trimForCeiling u' else u'
  have hstore : storeBudget b u = recomputePool v := rfl
  have hu' : u' = { u with
      tables := { u.tables with budget := b }
      trig := u.trig || decide (b.ceiling ≠ u.tables.budget.ceiling
          ∨ b.usefulFloor ≠ u.tables.budget.usefulFloor ∨ b.margin ≠ u.tables.budget.margin) } := by
    refine (storeTables_eq _ _).trans ?_
    simp only [Tables.selectionFields, ne_eq, SelectionFields.mk.injEq, true_and, not_and_or]
  have hfeeds : FeedsOnly u' v := feedsOnly_ite (trimForCeiling_feedsOnly u') (.refl u')
  have htrim : u.trimsTo (fun f => if u.link.mode = .attended ∧ b.ceiling < u.tables.budget.ceiling then
      u.ceilingTrim b.ceiling f else none) v.toState := by
    by_cases hc : u.link.mode = .attended ∧ b.ceiling < u.tables.budget.ceiling
    · have hatt : u'.attended = true := (attended_iff _).2 (by rw [hu']; exact hc.1)
      have hceil : u'.effectiveCeiling = b.ceiling := by
        rw [State.effectiveCeiling, if_pos hatt, hu']
      have h := trimForCeiling_trimsTo u'
      have hv : v = trimForCeiling u' := if_pos ⟨hatt, hc.2⟩
      simp only [if_pos hc]
      rw [hceil, hu'] at h
      rw [hv, hu']
      exact h
    · have hatt : ¬ (u'.attended = true ∧ b.ceiling < u.tables.budget.ceiling) := by
        rw [attended_iff, hu']
        exact hc
      simp only [v, if_neg hatt, if_neg hc, hu']
      exact trimsTo_none u.toState
  have act := recomputePool_act v
  rw [hstore, act.trig, act.rest]
  refine ⟨?_, ?_, ?_, trimsTo_congr act.feeds act.control htrim⟩
  · obtain ⟨fs, c, he⟩ := hfeeds
    rw [he, hu']
    rfl
  · rw [recomputePool_pool, State.poolValue, trimsTo_state htrim, trimsTo_state htrim]
    obtain ⟨fs, c, he⟩ := hfeeds
    rw [he, hu']
  · obtain ⟨fs, c, he⟩ := hfeeds
    rw [he, hu']

theorem trimsTo_start {s : State} {code : Byte} {i : Feed → Option Nat} {t : State}
    (h : (Ev.start (s.holding code)).trimsTo i t) : s.trimsTo i t := h

/-- Settles O23. -/
theorem loadBudgetReplacesTheRecord : Obligations.LoadBudgetReplacesTheRecord := by
  intro bs b clamped s hs hlock hload
  have hlen := length_of_loadedBudget hload
  obtain ⟨hrest, hpool, htrig, htrim⟩ := storeBudget_spec b (Ev.start (s.holding 0x83#8))
  generalize hv : storeBudget b (Ev.start (s.holding 0x83#8)) = v at hrest hpool htrig htrim
  have hexec : exec (.loadBudget bs) s = .next (closeEvent (placeResult 0x83#8 (answer v (loadResult clamped)))) := by
    refine requestEvent_gives hs (by omega) ?_
    have hlock' : (Ev.start (s.holding 0x83#8)).tables.lock = false := hlock
    have hload' : loadedBudget (Ev.start (s.holding 0x83#8)).factoryValues bs = .stored b clamped := hload
    simp only [hlock', Bool.false_eq_true, if_false, loadRecord, hload', hv]
  obtain ⟨htables, hwatches, hsense, htraps, -, -, htime, -⟩ :=
    (rest_eq_iff v.toState { s.holding 0x83#8 with tables := { s.tables with budget := b } }).1 hrest
  refine ⟨_, hexec, htables, rfl, hpool, ?_, trimsTo_congr rfl rfl (trimsTo_start htrim), hsense, htime, htraps, hwatches⟩
  show v.trig = true ↔ _
  rw [htrig]
  simp only [start_trig, Bool.false_or, decide_eq_true_eq]
  rfl

/-! ## The trim of a risen derate (R119) -/

theorem trimForDerate_other {f g : Feed} (h : g ≠ f) (w : Ev) :
    (trimForDerate f w).feed g = w.feed g ∧ (trimForDerate f w).control.trim.get g = w.control.trim.get g := by
  unfold trimForDerate
  dsimp only
  split
  · exact trimTo_other h _ w
  · exact ⟨rfl, rfl⟩

theorem trimForDerate_trimmed (f : Feed) (w : Ev) :
    (w.feed f).trimmed (w.control.trim.get f) (w.derateTrim (w.effectiveFeedLimit f) f) ((trimForDerate f w).feed f)
      ((trimForDerate f w).control.trim.get f) := by
  unfold trimForDerate State.derateTrim
  dsimp only
  split
  · obtain ⟨h1, h2⟩ := trimTo_same f (w.effectiveFeedLimit f * 1000 / (w.feed f).trimVoltage / 10 * 10) w
    rw [h1, h2]
    exact retarget_trimmed _ _ _
  · exact ⟨rfl, rfl⟩

theorem trimForDerate_control (f : Feed) (w : Ev) :
    (trimForDerate f w).control = { w.control with trim := (trimForDerate f w).control.trim } := by
  unfold trimForDerate
  dsimp only
  split <;> rfl

theorem committed_congr {s t : State} {f : Feed} (hf : t.feed f = s.feed f) (hp : t.ports = s.ports)
    (hc : t.control.plan = s.control.plan) : t.committed f = s.committed f := by
  simp only [State.committed, State.statePower, State.inFlight, Controller.inFlight, State.port, hf, hp, hc]

/-- The trim of R119 for a feed where its level rose. -/
def trimRisen (f : Feed) (old new : Nat) (w : Ev) : Ev := if old < new then trimForDerate f w else w

/-- The derate levels and shed flags written, then both feeds trimmed where their level rose. -/
def levelled (ws : List WatchSlot) (w : Ev) : Ev :=
  trimRisen .F1 (w.feed .F1).derate (derateLevel ws .F1) (trimRisen .F0 (w.feed .F0).derate (derateLevel ws .F0)
    { w with toState := w.toState.withLevels ws })

/-- A level or a flag of some feed stands otherwise than the table gives it. -/
def State.levelsDiffer (s : State) (ws : List WatchSlot) : Prop :=
  ∃ f, (s.feed f).derate ≠ derateLevel ws f ∨ (s.feed f).shed ≠ shedFlag ws f

theorem trimRisen_feedsOnly (f : Feed) (old new : Nat) (w : Ev) : FeedsOnly w (trimRisen f old new w) :=
  feedsOnly_ite (trimForDerate_feedsOnly f w) (.refl w)

theorem levelled_feedsOnly (ws : List WatchSlot) (w : Ev) : FeedsOnly w (levelled ws w) :=
  FeedsOnly.trans (v := { w with toState := w.toState.withLevels ws }) ⟨_, _, rfl⟩
    ((trimRisen_feedsOnly ..).trans (trimRisen_feedsOnly ..))

theorem withLevels_feed (s : State) (ws : List WatchSlot) (f : Feed) :
    (s.withLevels ws).feed f = { s.feed f with derate := derateLevel ws f, shed := shedFlag ws f } := by
  cases f <;> rfl

theorem levelsDiffer_iff (s : State) (ws : List WatchSlot) : s.levelsDiffer ws ↔
    ¬ ((s.feed .F0).derate = derateLevel ws .F0 ∧ (s.feed .F1).derate = derateLevel ws .F1
      ∧ (s.feed .F0).shed = shedFlag ws .F0 ∧ (s.feed .F1).shed = shedFlag ws .F1) := by
  constructor
  · rintro ⟨f, h⟩ ⟨h0, h1, h2, h3⟩
    cases f <;> simp_all
  · intro h
    by_contra hn
    refine h ⟨?_, ?_, ?_, ?_⟩ <;> by_contra hx
    · exact hn ⟨.F0, .inl hx⟩
    · exact hn ⟨.F1, .inl hx⟩
    · exact hn ⟨.F0, .inr hx⟩
    · exact hn ⟨.F1, .inr hx⟩

theorem withLevels_of_same {s : State} {ws : List WatchSlot} (h : ¬ s.levelsDiffer ws) : s.withLevels ws = s := by
  rw [levelsDiffer_iff, not_not] at h
  obtain ⟨h0, h1, h2, h3⟩ := h
  have hf : (s.withLevels ws).feeds = s.feeds := by
    simp only [State.withLevels, State.withFeed]
    rw [← h0, ← h1, ← h2, ← h3]
    rfl
  calc s.withLevels ws = { s with feeds := (s.withLevels ws).feeds } := rfl
    _ = s := by rw [hf]

/-- The levels written and the trims of those that rose: each feed trimmed under its own new limit (R119). -/
theorem levelled_trimsTo (ws : List WatchSlot) (w : Ev) :
    (w.toState.withLevels ws).trimsTo (fun f => if (w.feed f).derate < derateLevel ws f then
        w.derateTrim (w.feedLimit f * (16 - derateLevel ws f) / 16) f else none) (levelled ws w).toState := by
  let u : Ev := { w with toState := w.toState.withLevels ws }
  let v : Ev := trimRisen .F0 (w.feed .F0).derate (derateLevel ws .F0) u
  have hu : ∀ f, u.feed f = { w.feed f with derate := derateLevel ws f, shed := shedFlag ws f } := withLevels_feed w.toState ws
  have hv1 : v.feed .F1 = u.feed .F1 ∧ v.control.trim.get .F1 = u.control.trim.get .F1 := by
    simp only [v, trimRisen]
    split
    · exact trimForDerate_other (by decide) u
    · exact ⟨rfl, rfl⟩
  have hvc : v.control = { u.control with trim := v.control.trim } := by
    simp only [v, trimRisen]
    split
    · exact trimForDerate_control .F0 u
    · rfl
  have hvo : FeedsOnly u v := trimRisen_feedsOnly ..
  have hx0 : (levelled ws w).feed .F0 = v.feed .F0 ∧ (levelled ws w).control.trim.get .F0 = v.control.trim.get .F0 := by
    show (trimRisen .F1 _ _ v).feed .F0 = _ ∧ (trimRisen .F1 _ _ v).control.trim.get .F0 = _
    unfold trimRisen
    split
    · exact trimForDerate_other (by decide) v
    · exact ⟨rfl, rfl⟩
  refine ⟨fun f => ?_, ?_⟩
  · cases f with
    | F0 =>
      rw [hx0.1, hx0.2]
      show (u.feed .F0).trimmed (u.control.trim.get .F0) _ (v.feed .F0) (v.control.trim.get .F0)
      have hd : (u.feed .F0).derate = derateLevel ws .F0 := by rw [hu]
      simp only [v, trimRisen]
      split
      · have h := trimForDerate_trimmed .F0 u
        rw [State.effectiveFeedLimit, hd] at h
        exact h
      · exact ⟨rfl, rfl⟩
    | F1 =>
      show (u.feed .F1).trimmed (u.control.trim.get .F1) _ ((trimRisen .F1 _ _ v).feed .F1) ((trimRisen .F1 _ _ v).control.trim.get .F1)
      have hd : (v.feed .F1).derate = derateLevel ws .F1 := by rw [hv1.1, hu]
      simp only [trimRisen]
      split
      · have h := trimForDerate_trimmed .F1 v
        have hl : v.effectiveFeedLimit .F1 = w.feedLimit .F1 * (16 - derateLevel ws .F1) / 16 := by
          rw [State.effectiveFeedLimit, hd]
          obtain ⟨_, _, he⟩ := hvo
          rw [he]
          rfl
        have hc : v.committed .F1 = w.committed .F1 := by
          rw [committed_congr (s := u.toState) hv1.1 (by obtain ⟨_, _, he⟩ := hvo; rw [he]) (by rw [hvc])]
          rfl
        have ht : v.derateTrim (v.effectiveFeedLimit .F1) .F1
            = w.derateTrim (w.feedLimit .F1 * (16 - derateLevel ws .F1) / 16) .F1 := by
          rw [hl]
          simp only [State.derateTrim, hc, hv1.1, hu]
          rfl
        rw [ht, hv1.1, hv1.2] at h
        exact h
      · exact hv1
  · show (trimRisen .F1 _ _ v).control = _
    have h : (trimRisen .F1 (w.feed .F1).derate (derateLevel ws .F1) v).control
        = { v.control with trim := (trimRisen .F1 (w.feed .F1).derate (derateLevel ws .F1) v).control.trim } := by
      unfold trimRisen
      split
      · exact trimForDerate_control .F1 v
      · rfl
    rw [h, hvc]
    rfl

/-- The watch unit's levels and flags: worked out from the table, a trigger exactly where one changed, the trims of R119. -/
theorem applyWatches_eq (w : Ev) : applyWatches w =
    { levelled w.watches w with
      trig := w.trig || @decide (w.toState.levelsDiffer w.watches) (Classical.dec _) } := by
  by_cases h : w.toState.levelsDiffer w.watches
  · have h' := (levelsDiffer_iff _ _).1 h
    simp only [applyWatches, if_neg h', h, decide_true, Bool.or_true]
    rfl
  · have h' := h
    rw [levelsDiffer_iff, not_not] at h'
    have hl : levelled w.watches w = w := by
      obtain ⟨h0, h1, -, -⟩ := h'
      have hw : ({ w with toState := w.toState.withLevels w.watches } : Ev) = w := by rw [withLevels_of_same h]
      unfold levelled
      rw [hw]
      simp [trimRisen, h0, h1]
    rw [hl]
    simp only [applyWatches, if_pos h', h, decide_false, Bool.or_false]

/-- What the watch unit's levels do to an event: the levels and flags of the table, one trigger, the trims of R119. -/
theorem applyWatches_spec (w : Ev) :
    FeedsOnly { w with trig := (applyWatches w).trig } (applyWatches w)
      ∧ (∀ f, ((applyWatches w).feed f).derate = derateLevel w.watches f
          ∧ ((applyWatches w).feed f).shed = shedFlag w.watches f)
      ∧ ((applyWatches w).trig = true ↔ w.trig = true ∨ w.toState.levelsDiffer w.watches)
      ∧ (w.toState.withLevels w.watches).trimsTo (fun f => if (w.feed f).derate < derateLevel w.watches f then
          w.derateTrim (w.feedLimit f * (16 - derateLevel w.watches f) / 16) f else none) (applyWatches w).toState := by
  have htrim := levelled_trimsTo w.watches w
  have hfeeds := levelled_feedsOnly w.watches w
  rw [applyWatches_eq]
  refine ⟨?_, fun f => ?_, ?_, htrim⟩
  · obtain ⟨fs, c, he⟩ := hfeeds
    exact ⟨fs, c, by rw [he]⟩
  · have h := htrim.1 f
    rw [withLevels_feed] at h
    show ((levelled w.watches w).feed f).derate = _ ∧ ((levelled w.watches w).feed f).shed = _
    unfold FeedRec.trimmed at h
    split at h
    · rw [h.1]
      exact ⟨rfl, rfl⟩
    · rw [h.2.1]
      exact ⟨rfl, rfl⟩
  · simp

/-- Settles O24. -/
theorem watchesStartAndFire : Obligations.WatchesStartAndFire := by
  refine ⟨fun i bs e clamped s hs hlock hi hload => ?_, fun s hs hdue => ?_⟩
  · have hlen := length_of_loadedWatch hload
    let u : Ev := { Ev.start (s.holding 0x82#8) with
      watches := s.watches.set i.toNat (WatchSlot.loaded (s.holding 0x82#8) e) }
    obtain ⟨hfeeds, hlevels, htrig, htrim⟩ := applyWatches_spec u
    have hexec : exec (.loadWatch (i :: bs)) s =
        .next (closeEvent (placeResult 0x82#8 (answer (applyWatches u) (loadResult clamped)))) :=
      requestEvent_gives hs (by simp [hlen]) (loadAt_stored hlock hi hload storeWatch)
    generalize applyWatches u = v at hfeeds hlevels htrig htrim hexec
    obtain ⟨fs, c, he⟩ := hfeeds
    have hw : v.watches = u.watches := by rw [he]
    refine ⟨_, hexec, ?_, ?_, ?_, ?_, ?_, ?_⟩
    · exact hw
    · show ({ v.link with pendingResult := _ } : Link) = _
      rw [he]
      rfl
    · show ∀ f, (v.feed f).derate = derateLevel v.watches f ∧ (v.feed f).shed = shedFlag v.watches f
      rw [hw]
      exact hlevels
    · show v.trig = true ↔ ∃ f, (s.feed f).derate ≠ derateLevel v.watches f ∨ (s.feed f).shed ≠ shedFlag v.watches f
      rw [htrig, hw]
      exact ⟨fun h => h.resolve_left (by simp [u]), .inr⟩
    · show (s.withLevels v.watches).trimsTo (fun f => if (s.feed f).derate < derateLevel v.watches f then
          s.derateTrim (s.feedLimit f * (16 - derateLevel v.watches f) / 16) f else none) v.toState
      rw [hw]
      exact htrim
    · show v.tables = s.tables ∧ v.ports = s.ports ∧ v.outlet = s.outlet
      rw [he]
      exact ⟨rfl, rfl, rfl⟩
  · let u : Ev := setNotice .watchFired
      { Ev.start s with watches := s.watches.map (fun x => if x.holdExpired then x.activate s.time else x) }
    have hany : (Ev.start s).watches.any (·.holdExpired) = true := by
      obtain ⟨x, hx, h1, h2⟩ := hdue
      exact List.any_eq_true.2 ⟨x, hx, by simp [WatchSlot.holdExpired, h1, h2]⟩
    have hexec : exec .watchHoldExpiry s = .next (closeEvent (applyWatches u)) := by
      refine (takeEvent_running hs _).trans ?_
      rw [fireWatches, if_pos hany]
      rfl
    obtain ⟨hfeeds, hlevels, htrig, htrim⟩ := applyWatches_spec u
    generalize applyWatches u = v at hfeeds hlevels htrig htrim hexec
    obtain ⟨fs, c, he⟩ := hfeeds
    have hw : v.watches = u.watches := by rw [he]
    refine ⟨v, hexec, ?_, by rw [he]; rfl, by rw [hw]; exact hlevels, ?_, by rw [hw]; exact htrim, by rw [he]; exact ⟨rfl, rfl, rfl⟩⟩
    · rw [hw]
      show s.watches.map _ = _
      refine List.map_congr_left fun x _ => ?_
      by_cases hx : x.state = some .holding ∧ x.hold = some 0
      · simp [WatchSlot.holdExpired, hx, WatchSlot.activate]
      · rw [if_neg hx, if_neg]
        simpa [WatchSlot.holdExpired] using hx
    · rw [htrig, hw]
      exact ⟨fun h => h.resolve_left (by simp [u]), .inr⟩

end Sys2Proof.Machine
end

