-- ==== Sys2Proof/Proofs/PlainEvents.lean ====
section
/-! PROOFS. Events with a plain effect: relays (R190, R191), frames sent (R5), attach and hold-off (R26, R50), the conditions
of a watch (R162 to R165), the full reset (R216, R217), what every tick counts (R157, R158, R219). -/
namespace Sys2Proof.Machine

/-! ## Relays (R190, R191) -/

theorem refusesRelay_iff (st : PortState) :
    st.refusesRelay = true ↔ st ∈ [PortState.detached, .debounce, .greeting, .recovery, .disabled] := by
  cases st <;> decide
theorem sendsRelay_iff (st : PortState) :
    st.sendsRelay = true ↔ st ∈ [PortState.awaitSheet, .held, .contract, .outletBase, .outletGranted, .parked] := by
  cases st <;> decide
theorem inOpenRange_eq_false_iff (k : Byte) : inOpenRange k = false ↔ k.toNat < 0x40 ∨ 0x7F < k.toNat := by
  simp only [inOpenRange, Bool.and_eq_false_iff, decide_eq_false_iff_not]
  omega

/-- A RELAY by its checks, as its answer (R190). -/
theorem decideRelay_eq {a kind : Byte} {payload : List Byte} {p : Port} (hp : portOfCode a.toNat = some p) (w : Ev) :
    decideRelay a kind payload w =
      if 64 < payload.length then answer w .badForm
      else if kind.toNat < 0x40 ∨ 0x7F < kind.toNat
          ∨ (w.port p).state ∈ [PortState.detached, .debounce, .greeting, .recovery, .disabled] then answer w .refused
      else if (w.port p).relay.isSome then answer w .busy
      else answer (updPort p (fun r => { r with relay := some ⟨kind, payload⟩ }) w) .done := by
  have h : (!inOpenRange kind || (w.port p).state.refusesRelay) = true ↔ kind.toNat < 0x40 ∨ 0x7F < kind.toNat
      ∨ (w.port p).state ∈ [PortState.detached, .debounce, .greeting, .recovery, .disabled] := by
    rw [Bool.or_eq_true, Bool.not_eq_true', inOpenRange_eq_false_iff, refusesRelay_iff, or_assoc]
  simp only [decideRelay, hp, Config.maxChargePayload]
  exact if_congr Iff.rfl rfl (if_congr h rfl rfl)

/-- Settles O18. -/
theorem relaysWaitInTheirSlot : Obligations.RelaysWaitInTheirSlot := by
  refine ⟨fun params s hs hl => ?_, fun a kind payload s hl => ?_⟩
  · refine requestEvent_answered hs (by omega) ?_
    match params with
    | [] => rfl
    | [_] => rfl
    | _ :: _ :: _ => simp at hl
  have hlen : (a :: kind :: payload).length ≤ 128 := by simp only [List.length_cons]; omega
  refine ⟨fun hs ha => ?_, fun p hs hp => ?_, fun p f hs hrel hord htx hrx => ?_, fun p f hs htx => ?_⟩
  · exact requestEvent_answered hs hlen (by simp only [decideRelay, (portOfCode_eq_none_iff _).2 ha]; rfl)
  · have hd := decideRelay_eq (kind := kind) (payload := payload) hp (Ev.start (s.holding 0x93#8))
    have hport : (Ev.start (s.holding 0x93#8)).port p = s.port p := rfl
    rw [hport] at hd
    split
    next h1 => exact requestEvent_answered hs hlen (hd.trans (if_pos h1))
    next h1 =>
      rw [if_neg h1] at hd
      split
      next h2 => exact requestEvent_answered hs hlen (hd.trans (if_pos h2))
      next h2 =>
        rw [if_neg h2] at hd
        split
        next h3 => exact requestEvent_answered hs hlen (hd.trans (if_pos h3))
        next h3 => exact requestEvent_quiet hs hlen (hd.trans (if_neg h3)) rfl rfl rfl rfl
  · have hact : startRelay p (Ev.start s) = if (s.port p).state.sendsRelay ∧ (s.port p).order = [] ∧ (s.port p).lineIdle then
        updPort p (fun r => { r with tx := some (.relayed f true) }) (Ev.start s) else Ev.start s := by
      simp only [startRelay, start_toState, hrel]
      rfl
    have hidle : (s.port p).lineIdle = true := by simp [PortRec.lineIdle, htx, hrx]
    split
    next h => exact takeEvent_updPort hs (hact.trans (if_pos ⟨(sendsRelay_iff _).2 h, hord, hidle⟩))
    next h => exact takeEvent_id hs (hact.trans (if_neg fun hc => h ((sendsRelay_iff _).1 hc.1)))
  · exact takeEvent_updPort hs (by simp only [endFrame, start_toState, htx])

/-! ## Frames sent (R5) -/

/-- The exchange timer once a frame of the order has been sent: started in the states the frame is meant for (R28, R35, R39,
R42, R49). -/
def sentTimer (f : OutFrame) (r : PortRec) : ExchangeTimer :=
  match f, r.state with
  | .welcome .intake _, .awaitSheet => .armed .greeting
  | .claim .., .claiming => .armed .answer
  | .release, .releasing => .armed .settle
  | .restart, .recovery => .armed .holdOff
  | _, _ => r.timer

theorem updPort_congr {p : Port} {g h : PortRec → PortRec} {w : Ev} (hg : g (w.port p) = h (w.port p)) :
    updPort p g w = updPort p h w := by
  unfold updPort State.port at *
  rw [hg]

theorem updPort_id (p : Port) (w : Ev) : updPort p (fun r => r) w = w := by simp [updPort]

theorem updPort_updPort (p : Port) (g h : PortRec → PortRec) (w : Ev) :
    updPort p h (updPort p g w) = updPort p (fun r => h (g r)) w := by simp [updPort]

theorem afterSending_eq (p : Port) (f : OutFrame) (w : Ev) :
    afterSending p f w = updPort p (fun r => { r with timer := sentTimer f r }) w := by
  unfold afterSending
  split
  case h_5 h1 h2 h3 h4 =>
    refine (updPort_id p w).symm.trans (updPort_congr ?_)
    suffices h : sentTimer _ (w.port p) = (w.port p).timer by rw [h]
    unfold sentTimer
    split <;> first | rfl | simp_all
  all_goals
    next hst => exact updPort_congr (by simp only [sentTimer, hst])

/-- Settles O36. -/
theorem sentFramesStartTheirDeadlines : Obligations.SentFramesStartTheirDeadlines := by
  intro p f s hs
  refine ⟨fun rest hord => ?_, fun htx => ?_⟩
  · have hdue : ((s.port p).lineIdle && !(s.port p).state.mute) = true ↔
        (s.port p).tx = none ∧ (s.port p).rxBusy = false ∧ (s.port p).state ∉ [PortState.detached, .debounce] := by
      simp only [PortRec.lineIdle, Bool.and_eq_true, Option.isNone_iff_eq_none, Bool.not_eq_true', and_assoc]
      cases (s.port p).state <;> simp [PortState.mute]
    have hact : startFrame p (Ev.start s) = if ((s.port p).lineIdle && !(s.port p).state.mute) = true then
        updPort p (fun r => { r with order := rest, tx := some (.ordered f) }) (Ev.start s) else Ev.start s := by
      simp only [startFrame, start_toState, hord]
      rfl
    split
    next h => exact takeEvent_updPort hs (hact.trans (if_pos (hdue.2 h)))
    next h => exact takeEvent_id hs (hact.trans (if_neg fun hc => h (hdue.1 hc)))
  · refine takeEvent_updPort hs ?_
    have hact : endFrame p (Ev.start s) = afterSending p f (updPort p (fun r => { r with tx := none }) (Ev.start s)) := by
      simp only [endFrame, start_toState, htx]
    rw [hact, afterSending_eq, updPort_updPort]
    rfl

/-! ## Attach and hold-off (R26, R50) -/

/-- Entering a port state writes the port's state, and of the feeds at most the period of an under-voltage (R138). -/
theorem enter_eq (p : Port) (st : PortState) (w : Ev) :
    ∃ fs, enter p st w = { updPort p (fun r => { r with state := st }) w with feeds := fs } := by
  unfold enter
  dsimp only
  split
  · exact ⟨_, rfl⟩
  · exact ⟨w.feeds, rfl⟩

/-- GREETING is entered: the port's record, and of the feeds at most the period of an under-voltage. -/
theorem enterGreeting_eq (p : Port) (w : Ev) : ∃ fs, enterGreeting p w =
    { updPort p (fun r => { r with state := .greeting, detachCount := 0, timer := .armed .greeting }) w with feeds := fs } := by
  obtain ⟨fs, he⟩ := enter_eq p .greeting (updPort p (fun r => { r with detachCount := 0 }) w)
  refine ⟨fs, ?_⟩
  rw [enterGreeting, he]
  simp [startTimer, updPort]

/-- Settles O26. -/
theorem attachAndHoldOffEnterGreeting : Obligations.AttachAndHoldOffEnterGreeting := by
  intro p s hs
  obtain ⟨fs, he⟩ := enterGreeting_eq p (Ev.start s)
  refine ⟨fun hst ht => ?_, fun hst ht => ?_⟩
  · have hdue : s.portDue p .debounce .debounce = true := by simp [State.portDue, hst, ht, ExchangeTimer.expiredAs]
    have hact : expireDebounce p (Ev.start s) = raiseTrigger (setNotice .attach (enterGreeting p (Ev.start s))) := if_pos hdue
    rw [he] at hact
    refine ⟨_, (takeEvent_running hs _).trans (by rw [hact]), rfl, ?_, fun q hq => ?_, rfl, rfl, rfl, rfl⟩
    · exact PerPort.get_set_self s.ports p _
    · exact PerPort.get_set_of_ne s.ports _ hq
  · have hdue : s.portDue p .holdOff .recovery = true := by simp [State.portDue, hst, ht, ExchangeTimer.expiredAs]
    have hact : expireHoldOff p (Ev.start s) = enterGreeting p (Ev.start s) := if_pos hdue
    rw [he] at hact
    have hq := takeEvent_quiet hs (expireHoldOff p) (by rw [hact]; rfl) (by rw [hact]; rfl) (by rw [hact]; rfl)
    rw [hact] at hq
    refine ⟨_, hq, rfl, rfl, rfl, ?_, fun q hq => ?_, rfl⟩
    · exact PerPort.get_set_self s.ports p _
    · exact PerPort.get_set_of_ne s.ports _ hq

/-! ## Watches (R162 to R165) -/

/-- Settles O51. -/
theorem watchConditionsAndReleases : Obligations.WatchConditionsAndReleases := by
  intro x v now
  refine ⟨fun hd hm => ?_, fun hd => ?_, ?_, fun hs => ?_, fun hs => ?_, fun n hs hh => ?_⟩
  · simp only [WatchEntry.holds, WatchEntry.released, hd, decide_eq_true_eq]
    exact ⟨trivial, by omega⟩
  · simp only [WatchEntry.holds, WatchEntry.released, hd, decide_eq_true_eq, ge_iff_le, and_self]
  · cases hd : x.entry.direction <;> simp only [WatchEntry.holds, WatchEntry.released, hd, decide_eq_true_eq] <;> omega
  · simp only [WatchSlot.tick, hs]
    cases x.entry.holds v <;> rfl
  · rcases hs with hs | hs <;> simp only [WatchSlot.tick, hs]
  · simp only [WatchSlot.tick, hs, hh]
    rfl

/-! ## Full reset (R216, R217) -/

/-- The cause record's flags after a full reset (R217). -/
theorem updatedCause_bits (old : BitVec 4) (c : ResetCauses) (r : RecordState) :
    (updatedCause old c r).getLsbD 0 = (c.powerUp || old.getLsbD 0)
      ∧ (updatedCause old c r).getLsbD 1 = (c.pin || (!c.powerUp && old.getLsbD 1))
      ∧ (updatedCause old c r).getLsbD 2 = (c.dip || (!c.powerUp && old.getLsbD 2))
      ∧ (updatedCause old c r).getLsbD 3 = (r == .damaged || (!c.powerUp && old.getLsbD 3)) := by
  obtain ⟨a, b, d⟩ := c
  cases r <;> revert old a b d <;> decide

theorem recordState_blank_iff (c : Cells) : c.recordState = .blank ↔ c = .unwritten := by
  cases c <;> simp [Cells.recordState]
  split <;> simp
theorem recordState_written_iff (c : Cells) :
    c.recordState = .written ↔ ∃ k, c = .holding k (crc8 (contentBytes k)) := by
  cases c <;> simp [Cells.recordState]
  next k check => exact eq_comm

/-- Settles O55. -/
theorem fullResetTakesTheResetValues : Obligations.FullResetTakesTheResetValues := by
  refine ⟨fun c s hc => ?_, fun lost c s hc => ?_⟩
  · have hcut : s.factory.cutShort =
        if s.factory.burn.isSome then { s.factory with cells := .damaged, burn := none } else s.factory := by
      unfold Factory.cutShort
      cases s.factory.burn <;> rfl
    simp only [List.mem_cons, List.not_mem_nil, or_false] at hc
    rcases hc with rfl | rfl | rfl
    · exact ⟨_, rfl, rfl, by simp only [State.beginReset, hcut, ResetCauses.none, if_true]⟩
    · exact ⟨_, rfl, rfl, by simp [State.beginReset, hcut, ResetCauses.none]⟩
    · exact ⟨_, rfl, rfl, by simp [State.beginReset, hcut, ResetCauses.none]⟩
  · intro cells
    have hcells : (s.factory.refixed lost).cells = cells := by
      cases lost with
      | false => rfl
      | true =>
        simp only [cells, Factory.refixed, if_true]
        cases s.factory.cells <;> rfl
    clear_value cells
    subst hcells
    have hend : exec (.fullResetEnd lost) s = .next (s.endReset lost) := rfl
    obtain ⟨h0, h1, h2, h3⟩ := updatedCause_bits s.cause c (s.factory.refixed lost).record
    simp only [State.endReset, hc] at hend
    exact ⟨_, hend, rfl, rfl, recordState_blank_iff _, recordState_written_iff _, h0, h1, h2, h3, rfl⟩

end Sys2Proof.Machine
end

