-- ==== Sys2Proof/Proofs/Drains.lean ====
section
/-! PROOFS. What every event but a burn's read-back leaves alone (tables, factory record, samples, time base, cause record), so
that the expiries a tick takes first leave time and samples as they are (R157, R219; log 3). -/
namespace Sys2Proof.Machine

/-- Tables, samples, factory record, time base, cause record, reset causes and the queue of commands. -/
def Rest.core (r : Rest) : Tables × Sense × Factory × Time × BitVec 4 × Option ResetCauses × List Instr :=
  (r.tables, r.sense, r.factory, r.time, r.cause, r.resetting, r.pending)

theorem core_eq_iff (s t : State) : s.rest.core = t.rest.core ↔ s.tables = t.tables ∧ s.sense = t.sense
    ∧ s.factory = t.factory ∧ s.time = t.time ∧ s.cause = t.cause ∧ s.resetting = t.resetting ∧ s.pending = t.pending := by
  simp only [State.rest, Rest.core, Prod.mk.injEq]

@[simp] theorem purgeTraps_core (p : Port) (w : Ev) : (purgeTraps p w).rest.core = w.rest.core := rfl
@[simp] theorem removeTag_core (t : Byte) (w : Ev) : (removeTag t w).rest.core = w.rest.core := rfl
@[simp] theorem updLink_core (g : Link → Link) (w : Ev) : (updLink g w).rest.core = w.rest.core := rfl

@[simp] theorem detachPort_core (p : Port) (w : Ev) : (detachPort p w).rest.core = w.rest.core := by simp [detachPort]

@[simp] theorem takeDetach_core (p : Port) (w : Ev) : (takeDetach p w).rest.core = w.rest.core := by
  unfold takeDetach
  dsimp only
  split <;> simp

@[simp] theorem deliverDecision_rest (e : TrapEntry) (d : Decision) (w : Ev) : (deliverDecision e d w).rest = w.rest := by
  unfold deliverDecision
  cases e.kind <;> cases d <;> dsimp only <;> (try split) <;> simp

@[simp] theorem applyDecision_core (e : TrapEntry) (d : Decision) (w : Ev) :
    (applyDecision e d w).rest.core = w.rest.core := by simp [applyDecision]

@[simp] theorem applyDefault_core (w : Ev) (e : TrapEntry) : (applyDefault w e).rest.core = w.rest.core := by
  simp [applyDefault]

theorem foldl_core {α : Type} {g : Ev → α → Ev} (hg : ∀ w x, (g w x).rest.core = w.rest.core) (xs : List α) (w : Ev) :
    (xs.foldl g w).rest.core = w.rest.core := by
  induction xs generalizing w with
  | nil => rfl
  | cons x xs ih => exact (ih _).trans (hg w x)

@[simp] theorem flushTraps_core (w : Ev) : (flushTraps w).rest.core = w.rest.core :=
  foldl_core applyDefault_core w.traps.held w

theorem FeedsOnly.rest_eq {w v : Ev} (h : FeedsOnly w v) : v.rest = w.rest := by
  obtain ⟨_, _, rfl⟩ := h
  rfl

@[simp] theorem applyWatches_rest (w : Ev) : (applyWatches w).rest = w.rest := (applyWatches_spec w).1.rest_eq

@[simp] theorem fireWatches_core (w : Ev) : (fireWatches w).rest.core = w.rest.core := by
  unfold fireWatches
  split
  · rw [applyWatches_rest, setNotice_rest]; rfl
  · rfl

@[simp] theorem expireTrap_core (w : Ev) : (expireTrap w).rest.core = w.rest.core := by
  unfold expireTrap
  split
  · rfl
  · exact applyDefault_core w _

@[simp] theorem expireLiveness_core (w : Ev) : (expireLiveness w).rest.core = w.rest.core := by
  unfold expireLiveness
  split
  · simp
  · rfl

/-! ## The expiries of ports and feeds -/

@[simp] theorem expireFilter_core (p : Port) (w : Ev) : (expireFilter p w).rest.core = w.rest.core := by
  unfold expireFilter; split <;> simp
@[simp] theorem expireDebounce_rest (p : Port) (w : Ev) : (expireDebounce p w).rest = w.rest := by
  unfold expireDebounce; split <;> simp
@[simp] theorem expireGreeting_rest (p : Port) (w : Ev) : (expireGreeting p w).rest = w.rest := by
  unfold expireGreeting; repeat' split
  all_goals simp
@[simp] theorem expireAnswer_rest (p : Port) (w : Ev) : (expireAnswer p w).rest = w.rest := by
  unfold expireAnswer; split <;> simp
@[simp] theorem expireDeferral_rest (p : Port) (w : Ev) : (expireDeferral p w).rest = w.rest := by
  unfold expireDeferral; split <;> simp
@[simp] theorem expireSettle_rest (p : Port) (w : Ev) : (expireSettle p w).rest = w.rest := by
  unfold expireSettle; repeat' split
  all_goals simp
@[simp] theorem expireHoldOff_rest (p : Port) (w : Ev) : (expireHoldOff p w).rest = w.rest := by
  unfold expireHoldOff; split <;> simp
@[simp] theorem passCloseCheck_rest (f : Feed) (p : Port) (w : Ev) : (passCloseCheck f p w).rest = w.rest := by
  unfold passCloseCheck; dsimp only; split <;> simp
@[simp] theorem failCloseCheck_rest (f : Feed) (p : Port) (w : Ev) : (failCloseCheck f p w).rest = w.rest := by
  simp [failCloseCheck]
@[simp] theorem expireCloseCheck_rest (f : Feed) (w : Ev) : (expireCloseCheck f w).rest = w.rest := by
  unfold expireCloseCheck; repeat' split
  all_goals simp
@[simp] theorem expireContractCheck_rest (f : Feed) (w : Ev) : (expireContractCheck f w).rest = w.rest := by
  unfold expireContractCheck; dsimp only; repeat' split
  all_goals simp
@[simp] theorem takeHeldClose_rest (f : Feed) (p : Port) (w : Ev) : (takeHeldClose f p w).rest = w.rest := by
  unfold takeHeldClose; dsimp only; split <;> simp
@[simp] theorem expireGap_rest (f : Feed) (w : Ev) : (expireGap f w).rest = w.rest := by
  unfold expireGap; dsimp only; repeat' split
  all_goals simp
@[simp] theorem expireRamp_rest (f : Feed) (w : Ev) : (expireRamp f w).rest = w.rest := by
  unfold expireRamp; split <;> simp
@[simp] theorem faultFeed_rest (f : Feed) (p : Port) (w : Ev) : (faultFeed f p w).rest = w.rest := by simp [faultFeed]
@[simp] theorem expireOverdraw_rest (f : Feed) (w : Ev) : (expireOverdraw f w).rest = w.rest := by
  unfold expireOverdraw; dsimp only; repeat' split
  all_goals simp
@[simp] theorem expireUnderVoltage_rest (f : Feed) (w : Ev) : (expireUnderVoltage f w).rest = w.rest := by
  unfold expireUnderVoltage; dsimp only; repeat' split
  all_goals simp
@[simp] theorem expireOutletOverdraw_rest (p : Port) (w : Ev) : (expireOutletOverdraw p w).rest = w.rest := by
  unfold expireOutletOverdraw; split <;> simp

/-! ## The burn's read-back -/

theorem storeTables_rest (t : Tables) (w : Ev) : (storeTables t w).rest = { w.rest with tables := t } := by
  rw [storeTables_eq]; rfl

@[simp] theorem applyLoweredCap_rest (old : PerPort PortEntry) (w : Ev) (p : Port) :
    (applyLoweredCap old w p).rest = w.rest := by
  unfold applyLoweredCap; dsimp only; split <;> simp
@[simp] theorem restartAbove_rest (w : Ev) (p : Port) : (restartAbove w p).rest = w.rest := by
  unfold restartAbove; split <;> simp

/-- A record put in force writes the tables, under the new ceilings, and of the rest nothing (R63, R214). -/
theorem putInForce_rest (old : FactoryContent) (w : Ev) :
    (putInForce old w).rest = { w.rest with tables := w.tables.under w.factoryValues } := by
  unfold putInForce
  dsimp only
  split <;> simp [foldl_rest, storeTables_rest]

theorem readBackBurn_idle {w : Ev} (h : w.factory.burn = none) (bad : Bool) : readBackBurn bad w = w := by
  simp [readBackBurn, h]

/-- Samples, time base, cause record, reset causes and the queue of commands stand at a read-back too. -/
theorem readBackBurn_steady (bad : Bool) (w : Ev) : (readBackBurn bad w).sense = w.sense ∧ (readBackBurn bad w).time = w.time
    ∧ (readBackBurn bad w).cause = w.cause ∧ (readBackBurn bad w).resetting = w.resetting
    ∧ (readBackBurn bad w).pending = w.pending := by
  unfold readBackBurn
  split
  · exact ⟨rfl, rfl, rfl, rfl, rfl⟩
  · split
    · dsimp only
      split
      · obtain ⟨-, -, h1, -, -, -, h2, h3, h4, h5⟩ := (rest_eq_iff _
          { w with tables := _, factory := _ }).1 (putInForce_rest w.factoryValues
            { w with factory := Factory.readBack _ bad })
        exact ⟨h1, h2, h3, h4, h5⟩
      · exact ⟨rfl, rfl, rfl, rfl, rfl⟩
    · exact ⟨rfl, rfl, rfl, rfl, rfl⟩

/-! ## The drained state (log 3) -/

/-- Samples, time base, cause record, reset causes and commands stand; outside a burn tables and factory record too. -/
structure State.steady (s t : State) : Prop where
  sense : t.sense = s.sense
  time : t.time = s.time
  cause : t.cause = s.cause
  resetting : t.resetting = s.resetting
  pending : t.pending = s.pending
  stored : s.factory.burn = none → t.tables = s.tables ∧ t.factory = s.factory

theorem State.steady.of_core {s t : State} (h : t.rest.core = s.rest.core) : s.steady t := by
  obtain ⟨h1, h2, h3, h4, h5, h6, h7⟩ := (core_eq_iff _ _).1 h
  exact ⟨h2, h4, h5, h6, h7, fun _ => ⟨h1, h3⟩⟩

theorem State.steady.trans {s t u : State} (h : s.steady t) (k : t.steady u) : s.steady u :=
  ⟨k.sense.trans h.sense, k.time.trans h.time, k.cause.trans h.cause, k.resetting.trans h.resetting,
    k.pending.trans h.pending, fun hb => by
      obtain ⟨h1, h2⟩ := h.stored hb
      obtain ⟨k1, k2⟩ := k.stored (by rw [h2]; exact hb)
      exact ⟨k1.trans h1, k2.trans h2⟩⟩

theorem expiries_steady {act : Ev → Ev} (h : act ∈ expiries) (w : Ev) : w.toState.steady (act w).toState := by
  simp only [expiries, allPorts, allFeeds, List.mem_append, List.mem_map, List.mem_flatten, List.mem_cons, List.not_mem_nil,
    or_false, List.mem_replicate] at h
  rcases h with (((((⟨p, -, rfl⟩ | ⟨_, ⟨p, -, rfl⟩, h⟩) | ⟨_, ⟨f, -, rfl⟩, h⟩) | ⟨p, -, rfl⟩) | rfl) | ⟨-, rfl⟩) | rfl | rfl
  · exact .of_core (by simp)
  · simp only [List.mem_cons, List.not_mem_nil, or_false] at h
    rcases h with rfl | rfl | rfl | rfl | rfl | rfl <;> exact .of_core (by simp)
  · simp only [List.mem_cons, List.not_mem_nil, or_false] at h
    rcases h with rfl | rfl | rfl | rfl | rfl | rfl <;> exact .of_core (by simp)
  · exact .of_core (by simp)
  · exact .of_core (by simp)
  · exact .of_core (by simp)
  · exact .of_core (by simp)
  · obtain ⟨h1, h2, h3, h4, h5⟩ := readBackBurn_steady false w
    exact ⟨h1, h2, h3, h4, h5, fun hb => by rw [readBackBurn_idle hb]; exact ⟨rfl, rfl⟩⟩

theorem closeEvent_rest (w : Ev) : (closeEvent w).rest = w.rest := by
  rw [closeEvent_eq_closing]
  exact (frames_closing (.refl w)).rest

theorem runEvent_steady {act : Ev → Ev} (h : ∀ w : Ev, w.toState.steady (act w).toState) (s : State) :
    s.steady (runEvent act s) := by
  unfold runEvent
  split
  · exact .of_core rfl
  · exact (h (Ev.start s)).trans (.of_core (by rw [closeEvent_rest]))

theorem foldl_runEvent_steady (acts : List (Ev → Ev)) (h : ∀ act ∈ acts, ∀ w : Ev, w.toState.steady (act w).toState)
    (s : State) : s.steady (acts.foldl (fun t act => runEvent act t) s) := by
  induction acts generalizing s with
  | nil => exact .of_core rfl
  | cons act acts ih =>
    exact (runEvent_steady (h act List.mem_cons_self) s).trans (ih (fun a ha => h a (List.mem_cons_of_mem _ ha)) _)

theorem drainExpiries_steady (s : State) : s.steady (drainExpiries s) :=
  foldl_runEvent_steady expiries (fun _ h => expiries_steady h) s

end Sys2Proof.Machine
end

