-- ==== Sys2Proof/Proofs/Ticks.lean ====
section
/-! PROOFS. What a tick does from the drained state: presence samples (R1 to R3), monitors (R138 to R140, R155), watches (R164)
and countdowns (00, section 2.4). -/
namespace Sys2Proof.Machine

/-! ## The presence sample of a port (R1 to R3) -/

/-- A port's record after its presence sample. -/
def PortRec.sampled (t : Timing) (present : Bool) (r : PortRec) : PortRec :=
  match r.state with
  | .detached => if present then { r with state := .debounce, timer := .running .debounce t.debounce } else r
  | .debounce => if present then r else { r with state := .detached, timer := .stopped }
  | _ => r.filter present

/-- What presence samples do beside the port records: of the feeds, an under-voltage period of a feed that is not contracted may
end (R138); a port is in CONTRACT after them exactly where it was before. -/
structure Sampled (w v : Ev) : Prop where
  only : ∃ ps fs, v = { w with ports := ps, feeds := fs }
  contract : ∀ q, (v.port q).state = .contract ↔ (w.port q).state = .contract
  records : ∀ q, (v.port q).contract = (w.port q).contract
  feeds : ∀ f, v.feed f = w.feed f ∨ (v.feed f = { w.feed f with underVolt := .off } ∧ w.contracted f = false)

theorem contracted_congr {s t : State} {f : Feed} (hi : (t.feed f).incumbent = (s.feed f).incumbent)
    (hc : ∀ q, (t.port q).state = .contract ↔ (s.port q).state = .contract) : t.contracted f = s.contracted f := by
  unfold State.contracted
  rw [hi]
  split
  · exact Bool.eq_iff_iff.2 (by simpa using hc _)
  · rfl

section
variable {u v w : Ev}

theorem Sampled.refl (w : Ev) : Sampled w w := ⟨⟨_, _, rfl⟩, fun _ => Iff.rfl, fun _ => rfl, fun _ => .inl rfl⟩

theorem Sampled.incumbent (h : Sampled w v) (f : Feed) : (v.feed f).incumbent = (w.feed f).incumbent := by
  rcases h.feeds f with e | ⟨e, -⟩
  · rw [e]
  · rw [e]; rfl

theorem Sampled.contracted (h : Sampled w v) (f : Feed) : v.contracted f = w.contracted f :=
  contracted_congr (h.incumbent f) h.contract

theorem Sampled.trans (h : Sampled u v) (k : Sampled v w) : Sampled u w := by
  refine ⟨?_, fun q => (k.contract q).trans (h.contract q), fun q => (k.records q).trans (h.records q), fun f => ?_⟩
  · obtain ⟨_, _, rfl⟩ := h.only
    obtain ⟨ps, fs, rfl⟩ := k.only
    exact ⟨ps, fs, rfl⟩
  · rcases k.feeds f with e | ⟨e, hc⟩
    · rw [e]; exact h.feeds f
    · rw [h.contracted f] at hc
      refine .inr ⟨?_, hc⟩
      rcases h.feeds f with e' | ⟨e', -⟩ <;> rw [e, e']

theorem Sampled.foldl {α : Type} {g : Ev → α → Ev} (hg : ∀ w x, Sampled w (g w x)) (xs : List α) (w : Ev) :
    Sampled w (xs.foldl g w) := by
  induction xs generalizing w with
  | nil => exact .refl w
  | cons x xs ih => exact (hg w x).trans (ih _)

/-- A port outside CONTRACT whose record is written, its contract record kept. -/
theorem sampled_updPort {p : Port} {g : PortRec → PortRec} (hs : (w.port p).state ≠ .contract)
    (hg : (g (w.port p)).state ≠ .contract) (hc : (g (w.port p)).contract = (w.port p).contract) : Sampled w (updPort p g w) := by
  refine ⟨⟨_, _, rfl⟩, fun q => ?_, fun q => ?_, fun _ => .inl rfl⟩ <;> rw [updPort_port] <;> split
  next h => subst h; exact iff_of_false hg hs
  · rfl
  next h => subst h; exact hc
  · rfl

theorem sampled_enter {p : Port} {st : PortState} (hs : (w.port p).state ≠ .contract) (hst : st ≠ .contract) :
    Sampled w (enter p st w) := by
  have h : Sampled w (updPort p (fun r => { r with state := st }) w) := sampled_updPort hs hst rfl
  unfold enter
  dsimp only
  split
  next hc =>
    obtain ⟨-, hc⟩ := hc
    refine h.trans ⟨⟨_, _, rfl⟩, fun _ => Iff.rfl, fun _ => rfl, fun f => ?_⟩
    by_cases hf : f = feedOf p
    · subst hf
      refine .inr ⟨updFeed_feed_self _ _ _, ?_⟩
      have hi : (w.feed (feedOf p)).incumbent = some p := by simpa [State.closedOn] using hc
      rw [h.contracted, State.contracted, hi]
      simpa using hs
    · exact .inl (updFeed_feed_of_ne _ _ hf)
  · exact h

theorem samplePresence_sampled (i : TickInputs) (w : Ev) (p : Port) : Sampled w (samplePresence i w p) := by
  unfold samplePresence
  dsimp only
  split
  next hst =>
    split
    · refine Sampled.trans (v := updPort p (fun r => { r with timer := .running .debounce w.tables.timing.debounce }) w)
        (sampled_updPort ?_ ?_ rfl) (sampled_enter ?_ (by decide)) <;> simp [hst]
    · exact .refl w
  next hst =>
    split
    · exact .refl w
    · refine Sampled.trans (v := stopTimer p w) (sampled_updPort ?_ ?_ rfl) (sampled_enter ?_ (by decide)) <;>
        simp [stopTimer, hst]
  next =>
    have hstate : ∀ b, ((w.port p).filter b).state = (w.port p).state ∧ ((w.port p).filter b).contract = (w.port p).contract := by
      intro b
      unfold PortRec.filter
      split <;> exact ⟨rfl, rfl⟩
    refine ⟨⟨_, _, rfl⟩, fun q => ?_, fun q => ?_, fun _ => .inl rfl⟩ <;> rw [updPort_port] <;> split
    next h => subst h; rw [(hstate _).1]
    · rfl
    next h => subst h; exact (hstate _).2
    · rfl

theorem sampled_detached {r : PortRec} (h : r.state = .detached) (t : Timing) (b : Bool) : r.sampled t b =
    if b then { r with state := .debounce, timer := .running .debounce t.debounce } else r := by simp only [PortRec.sampled, h]
theorem sampled_debounce {r : PortRec} (h : r.state = .debounce) (t : Timing) (b : Bool) : r.sampled t b =
    if b then r else { r with state := .detached, timer := .stopped } := by simp only [PortRec.sampled, h]
theorem sampled_other {r : PortRec} (h : r.state ≠ .detached) (h' : r.state ≠ .debounce) (t : Timing) (b : Bool) :
    r.sampled t b = r.filter b := by
  unfold PortRec.sampled
  split <;> first | rfl | contradiction

theorem samplePresence_port (i : TickInputs) (w : Ev) (p q : Port) : (samplePresence i w p).port q =
    if q = p then (w.port p).sampled w.tables.timing (presenceSample (w.port p) (i.wires.get p)) else w.port q := by
  by_cases h : q = p
  · subst h
    rw [if_pos rfl]
    unfold samplePresence
    dsimp only
    split
    next hst =>
      rw [sampled_detached hst]
      split
      · exact enterDebounce_port _ _
      · rfl
    next hst =>
      rw [sampled_debounce hst]
      split
      · rfl
      · rw [enter_port, stopTimer, updPort_port_self]
    next h1 h2 => rw [updPort_port_self, sampled_other h1 h2]
  · rw [if_neg h]
    unfold samplePresence
    dsimp only
    have henter : ∀ st (x : Ev), (enter p st x).port q = x.port q := by
      intro st x
      obtain ⟨fs, he⟩ := enter_eq p st x
      rw [he]
      exact PerPort.get_set_of_ne x.ports _ h
    repeat' split
    · rw [enterDebounce, henter, updPort_port_of_ne _ w h]
    · rfl
    · rfl
    · rw [henter, stopTimer, updPort_port_of_ne _ w h]
    · exact updPort_port_of_ne _ w h

theorem samplePresence_tables (i : TickInputs) (w : Ev) (p : Port) : (samplePresence i w p).tables = w.tables := by
  obtain ⟨_, _, he⟩ := (samplePresence_sampled i w p).only
  rw [he]

/-- All four presence samples, each of its own port. -/
theorem presences_port (i : TickInputs) (w : Ev) (q : Port) : (allPorts.foldl (samplePresence i) w).port q =
    (w.port q).sampled w.tables.timing (presenceSample (w.port q) (i.wires.get q)) := by
  simp only [allPorts, List.foldl_cons, List.foldl_nil]
  cases q <;> simp [samplePresence_port, samplePresence_tables]

end

/-! ## Monitors and watches at a tick (R138 to R140, R155, R164) -/

theorem monitors_eq (w : Ev) : allFeeds.foldl monitorFeed w = { w with feeds :=
    ⟨{ w.feeds.f0 with
        overdraw := w.feeds.f0.overdraw.tick w.tables.timing.overdraw
          (w.feeds.f0.overdrawn (w.tables.port.get .A).margin (w.avgCurrent .F0))
        underVolt := w.feeds.f0.underVolt.tick w.tables.timing.overdraw
          (w.feeds.f0.underVoltage (w.contracted .F0) (w.avgVoltage .F0)) },
      { w.feeds.f1 with
        overdraw := w.feeds.f1.overdraw.tick w.tables.timing.overdraw
          (w.feeds.f1.overdrawn (w.tables.port.get .C).margin (w.avgCurrent .F1))
        underVolt := w.feeds.f1.underVolt.tick w.tables.timing.overdraw
          (w.feeds.f1.underVoltage (w.contracted .F1) (w.avgVoltage .F1)) }⟩ } := rfl

/-- A slot enters ACTIVE at a tick exactly where it was CLEAR with a hold time of 0 and its condition holds (R164, R166). -/
theorem tick_fires (x : WatchSlot) (now : Time) (v : Nat) :
    (x.state != some .active && (x.tick now v).state == some .active)
      = (x.state == some .clear && x.entry.hold == 0 && x.entry.holds v) := by
  unfold WatchSlot.tick
  rcases hs : x.state with _ | st
  · simp [hs]
  have hb : (x.entry.hold == 0) = decide (x.entry.hold = 0) := rfl
  cases st <;> simp only [hb]
  case clear =>
    cases x.entry.holds v <;> by_cases h0 : x.entry.hold = 0 <;>
      simp only [h0, hs, if_true, if_false, Bool.false_eq_true, WatchSlot.activate, decide_true, decide_false] <;> rfl
  case blocked | active =>
    cases x.entry.released v <;> simp only [hs, if_true, if_false, Bool.false_eq_true] <;> rfl
  case holding =>
    cases x.entry.holds v <;> simp only [if_true, if_false, Bool.false_eq_true] <;> rfl

theorem any_zip_map {α β : Type} (f : α → β) (g : α × β → Bool) (l : List α) :
    (l.zip (l.map f)).any g = l.any (fun x => g (x, f x)) := by
  induction l with
  | nil => rfl
  | cons x xs ih => simp [ih]

/-- The watch unit's tick: the slots counted, WATCH_FIRED where one fires, and the levels unless a hold has ended. -/
theorem tickWatches_eq (w : Ev) : tickWatches w =
    let slots := w.watches.map (fun x => x.tick w.time (w.quantityValue x.entry.quantity))
    let u : Ev := { w with
      watches := slots
      link := { w.link with
        notices := if w.watches.any (fun x => x.state == some .clear && x.entry.hold == 0
            && x.entry.holds (w.quantityValue x.entry.quantity)) then w.link.notices ||| noticeMask .watchFired
          else w.link.notices } }
    if slots.any (·.holdExpired) then u else applyWatches u := by
  unfold tickWatches
  simp only [any_zip_map, tick_fires]
  cases w.watches.any (fun x => x.state == some .clear && x.entry.hold == 0
    && x.entry.holds (w.quantityValue x.entry.quantity)) <;> rfl

/-- A feed's record once a tick has counted its timers and its periods. -/
def FeedRec.ticked (t : Timing) (odraw uvolt : Bool) (r : FeedRec) : FeedRec :=
  { r with
    overdraw := r.overdraw.tick t.overdraw odraw
    underVolt := r.underVolt.tick t.overdraw uvolt
    gap := r.gap.tick t.gap
    check := r.check.tick t.checkWindow
    ramp := r.ramp.tick t.ramp }

/-- The event of a tick before its watches: time and samples, countdowns, presence, monitors. -/
def tickUpToWatches (i : TickInputs) (w : Ev) : Ev :=
  monitorOutlets (allFeeds.foldl monitorFeed (allPorts.foldl (samplePresence i)
    (tickTimers { w with time := w.time + 1, sense := w.sense.sample i })))

theorem tickBody_eq (i : TickInputs) (w : Ev) : tickBody i w =
    updLink (fun l => { l with rxBuffer := i.sysRx }) (allPorts.foldl (sampleLine i) (tickWatches (tickUpToWatches i w))) := rfl

theorem tickUpToWatches_spec (i : TickInputs) (w : Ev) :
    (∃ ps fs, tickUpToWatches i w = { w with
        time := w.time + 1
        sense := w.sense.sample i
        ports := ps
        feeds := fs
        outlet := { w.outlet with grants := w.outlet.grants.map (fun g => { g with
          period := g.period.tick w.tables.timing.overdraw
            (g.current * 18 / 16 < average ((w.sense.sample i).outletI.get g.port)) }) }
        traps := { w.traps with
          queue := w.traps.queue.map (fun e => { e with deadline := e.deadline.tick w.tables.timing.trap }) }
        link := { w.link with liveness := w.link.liveness.tick w.tables.timing.liveness }
        factory := { w.factory with burn := w.factory.burn.map (fun b => { b with timer := b.timer.tick 12 }) } })
      ∧ (∀ q, (tickUpToWatches i w).port q =
          { w.port q with timer := (w.port q).timer.tick w.tables.timing }.sampled w.tables.timing
            (presenceSample (w.port q) (i.wires.get q)))
      ∧ (∀ q, ((tickUpToWatches i w).port q).contract = (w.port q).contract)
      ∧ ∀ f, (tickUpToWatches i w).feed f = (w.feed f).ticked w.tables.timing
          ((w.feed f).overdrawn (w.tables.port.get (leadPort f)).margin (average ((w.sense.sample i).feedI.get f)))
          ((w.feed f).underVoltage (w.contracted f) (average ((w.sense.sample i).feedV.get f))) := by
  let t : Ev := tickTimers { w with time := w.time + 1, sense := w.sense.sample i }
  have htp : ∀ q, t.port q = { w.port q with timer := (w.port q).timer.tick w.tables.timing } := by intro q; cases q <;> rfl
  have htf : ∀ f, t.feed f = (w.feed f).tick w.tables.timing := by intro f; cases f <;> rfl
  have htc : ∀ f, t.contracted f = w.contracted f := fun f =>
    contracted_congr (by rw [htf]; rfl) (fun q => by rw [htp])
  have hsam : Sampled t (allPorts.foldl (samplePresence i) t) := .foldl (samplePresence_sampled i) allPorts t
  have hports := presences_port i t
  have hrun : tickUpToWatches i w = monitorOutlets (allFeeds.foldl monitorFeed (allPorts.foldl (samplePresence i) t)) := rfl
  generalize hz : allPorts.foldl (samplePresence i) t = z at hsam hports hrun
  have hc : ∀ f, z.contracted f = w.contracted f := fun f => (hsam.contracted f).trans (htc f)
  rw [hrun, monitors_eq]
  refine ⟨?_, fun q => ?_, fun q => (hsam.records q).trans (by rw [htp]), fun f => ?_⟩
  · obtain ⟨ps, fs, rfl⟩ := hsam.only
    exact ⟨ps, _, rfl⟩
  · refine (hports q).trans ?_
    rw [htp]
    rfl
  · have hz : ∀ f, z.avgCurrent f = average ((w.sense.sample i).feedI.get f)
        ∧ z.avgVoltage f = average ((w.sense.sample i).feedV.get f) ∧ z.tables = w.tables := by
      obtain ⟨ps, fs, rfl⟩ := hsam.only
      exact fun f => ⟨rfl, rfl, rfl⟩
    obtain ⟨hi, hv, ht⟩ := hz f
    have hgoal : ∀ r : FeedRec, (r = (w.feed f).tick w.tables.timing
          ∨ (r = { (w.feed f).tick w.tables.timing with underVolt := .off } ∧ w.contracted f = false)) →
        { r with
          overdraw := r.overdraw.tick w.tables.timing.overdraw
            (r.overdrawn (w.tables.port.get (leadPort f)).margin (average ((w.sense.sample i).feedI.get f)))
          underVolt := r.underVolt.tick w.tables.timing.overdraw
            (r.underVoltage (w.contracted f) (average ((w.sense.sample i).feedV.get f))) }
          = (w.feed f).ticked w.tables.timing
            ((w.feed f).overdrawn (w.tables.port.get (leadPort f)).margin (average ((w.sense.sample i).feedI.get f)))
            ((w.feed f).underVoltage (w.contracted f) (average ((w.sense.sample i).feedV.get f))) := by
      rintro r (rfl | ⟨rfl, hcf⟩)
      · rfl
      · have hu : ∀ (q : FeedRec) a, q.underVoltage false a = false := by
          intro q a
          unfold FeedRec.underVoltage
          split <;> rfl
        rw [hcf, hu, hu]
        rfl
    have hfeed := hsam.feeds f
    rw [htf, htc] at hfeed
    have := hgoal (z.feed f) hfeed
    rw [← this, ← hc f, ← hi, ← hv, ← ht]
    cases f <;> rfl

/-- The watch unit's levels at a tick: worked out unless a hold has ended (R164; log 8). -/
theorem levels_spec (u : Ev) (waits : Bool) (hu : u.trig = false) :
    let x : Ev := if waits then u else applyWatches u
    let level (f : Feed) : Nat := if waits then (u.feed f).derate else derateLevel u.watches f
    let shed (f : Feed) : Bool := if waits then (u.feed f).shed else shedFlag u.watches f
    (∃ fs c b, x = { u with feeds := fs, control := c, trig := b })
      ∧ x.control = { u.control with trim := x.control.trim }
      ∧ (x.trig = true ↔ ∃ f, (x.feed f).derate ≠ (u.feed f).derate ∨ (x.feed f).shed ≠ (u.feed f).shed)
      ∧ ∀ f, ({ u.feed f with derate := level f, shed := shed f } : FeedRec).trimmed (u.control.trim.get f)
          (if (u.feed f).derate < level f then u.derateTrim (u.feedLimit f * (16 - level f) / 16) f else none)
          (x.feed f) (x.control.trim.get f) := by
  cases waits with
  | true =>
    refine ⟨⟨_, _, _, rfl⟩, rfl, ?_, fun f => ?_⟩
    · simp [hu]
    · simp [FeedRec.trimmed]
  | false =>
    obtain ⟨hfeeds, hlevels, htrig, htrim⟩ := applyWatches_spec u
    obtain ⟨fs, c, he⟩ := hfeeds
    refine ⟨⟨fs, c, _, he⟩, htrim.2, ?_, fun f => ?_⟩
    · show (applyWatches u).trig = true ↔ _
      rw [htrig, hu]
      simp only [Bool.false_eq_true, false_or, if_false, State.levelsDiffer]
      exact exists_congr fun f => by rw [(hlevels f).1, (hlevels f).2]; exact or_congr ne_comm ne_comm
    · have h := htrim.1 f
      rw [withLevels_feed] at h
      exact h

theorem derateTrim_congr {s t : State} {f : Feed} (hf : (t.feed f).state = (s.feed f).state ∧ (t.feed f).selected = (s.feed f).selected
      ∧ (t.feed f).view = (s.feed f).view ∧ (t.feed f).output = (s.feed f).output)
    (hp : ∀ q, (t.port q).contract = (s.port q).contract) (hc : t.control = s.control) (l : Nat) :
    t.derateTrim l f = s.derateTrim l f := by
  obtain ⟨h1, h2, h3, h4⟩ := hf
  have hstate : ∀ g, g = f → t.statePower g = s.statePower g := by
    rintro g rfl
    simp only [State.statePower, h1, h2, hp]
  have hcom : t.committed f = s.committed f := by
    simp only [State.committed, State.inFlight, hc]
    cases s.control.inFlight with
    | none => exact hstate f rfl
    | some st =>
      dsimp only
      split
      · cases st.kind
        case claim => rfl
        case closeSwitch => rfl
        all_goals exact hstate f rfl
      · exact hstate f rfl
  simp only [State.derateTrim, hcom, FeedRec.powered, FeedRec.trimVoltage, h1, h3, h4]
  rfl

/-- All four line samples, each of its own port (R4). -/
theorem lines_port (i : TickInputs) (w : Ev) (q : Port) : (allPorts.foldl (sampleLine i) w).port q =
    { w.port q with rxBusy := (i.wires.get q).frame && (w.port q).tx.isNone } := by
  cases q <;> rfl

theorem lines_eq (i : TickInputs) (w : Ev) : ∃ ps, allPorts.foldl (sampleLine i) w = { w with ports := ps } := ⟨_, rfl⟩

theorem running_drained {s : State} (h : s.running = true) : (drainExpiries s).running = true := by
  rw [State.running, (drainExpiries_steady s).resetting]
  exact h

/-- The whole of a tick as one event, but for the port records: the parts that `tickUpToWatches` leaves, the watch unit's
levels on them, the receive buffer. -/
theorem tickBody_spec (i : TickInputs) (d : State) :
    let w := tickBody i (Ev.start d)
    let u := tickUpToWatches i (Ev.start d)
    let slots := d.watches.map (fun x => x.tick w.time (w.quantityValue x.entry.quantity))
    let waits := slots.any (·.holdExpired)
    let level (f : Feed) : Nat := if waits then (d.feed f).derate else derateLevel slots f
    let shed (f : Feed) : Bool := if waits then (d.feed f).shed else shedFlag slots f
    (∃ ps fs b, w = { Ev.start d with
        time := d.time + 1
        sense := d.sense.sample i
        ports := ps
        feeds := fs
        control := { d.control with trim := w.control.trim }
        outlet := u.outlet
        traps := u.traps
        factory := u.factory
        watches := slots
        link := { d.link with
          rxBuffer := i.sysRx
          liveness := d.link.liveness.tick d.tables.timing.liveness
          notices := if d.watches.any (fun x => x.state == some .clear && x.entry.hold == 0
              && x.entry.holds (w.quantityValue x.entry.quantity)) then d.link.notices ||| noticeMask .watchFired
            else d.link.notices }
        trig := b })
      ∧ (∀ q, w.port q = { u.port q with rxBusy := (i.wires.get q).frame && (u.port q).tx.isNone })
      ∧ (w.trig = true ↔ ∃ f, (w.feed f).derate ≠ (u.feed f).derate ∨ (w.feed f).shed ≠ (u.feed f).shed)
      ∧ ∀ f, ({ u.feed f with derate := level f, shed := shed f } : FeedRec).trimmed (d.control.trim.get f)
          (if (d.feed f).derate < level f then d.derateTrim (d.feedLimit f * (16 - level f) / 16) f else none)
          (w.feed f) (w.control.trim.get f) := by
  obtain ⟨⟨ps, fs, hu⟩, hup, huc, huf⟩ := tickUpToWatches_spec i (Ev.start d)
  simp only [start_toState] at hu hup huc huf
  generalize hgen : tickUpToWatches i (Ev.start d) = u at hu hup huc huf
  let v : Ev := { u with
    watches := u.watches.map (fun x => x.tick u.time (u.quantityValue x.entry.quantity))
    link := { u.link with
      notices := if u.watches.any (fun x => x.state == some .clear && x.entry.hold == 0
          && x.entry.holds (u.quantityValue x.entry.quantity)) then u.link.notices ||| noticeMask .watchFired
        else u.link.notices } }
  have hbody : tickBody i (Ev.start d) = updLink (fun l => { l with rxBuffer := i.sysRx }) (allPorts.foldl (sampleLine i)
      (if v.watches.any (·.holdExpired) then v else applyWatches v)) := by
    rw [tickBody_eq, hgen, tickWatches_eq]
  have hspec := levels_spec v (v.watches.any (·.holdExpired)) (by rw [show v.trig = u.trig from rfl, hu]; rfl)
  generalize (if v.watches.any (·.holdExpired) then v else applyWatches v) = x at hbody hspec
  obtain ⟨⟨fs', c, b, hx⟩, hcontrol, htrig, htrim⟩ := hspec
  have hlines := lines_port i x
  obtain ⟨ps', hl⟩ := lines_eq i x
  have hvf : ∀ f, v.feed f = u.feed f := fun _ => rfl
  have htime : u.time = d.time + 1 ∧ u.sense = d.sense.sample i ∧ u.watches = d.watches := by rw [hu]; exact ⟨rfl, rfl, rfl⟩
  have hw : tickBody i (Ev.start d) = { x with ports := ps', link := { x.link with rxBuffer := i.sysRx } } := by
    rw [hbody, hl]; rfl
  have hports : ∀ q, (tickBody i (Ev.start d)).port q = { u.port q with rxBusy := (i.wires.get q).frame && (u.port q).tx.isNone } := by
    intro q
    have h : (tickBody i (Ev.start d)).port q = (allPorts.foldl (sampleLine i) x).port q := by rw [hbody]; rfl
    rw [h, hlines, hx]
    rfl
  have hquant : ∀ q, (tickBody i (Ev.start d)).quantityValue q = u.quantityValue q := by
    intro q
    rw [hw, hx]
    cases q <;> rfl
  have hnow : (tickBody i (Ev.start d)).time = u.time := by rw [hw, hx]
  have hlevel : ∀ f, (v.feed f).derate = (d.feed f).derate ∧ (v.feed f).shed = (d.feed f).shed := by
    intro f
    rw [hvf, huf]
    exact ⟨rfl, rfl⟩
  have hslots : v.watches = d.watches.map (fun y => y.tick (tickBody i (Ev.start d)).time
      ((tickBody i (Ev.start d)).quantityValue y.entry.quantity)) := by
    rw [hnow]
    simp only [hquant]
    show u.watches.map _ = _
    rw [htime.2.2]
  refine ⟨?_, hports, ?_, fun f => ?_⟩
  · rw [← hslots]
    refine ⟨ps', fs', b, ?_⟩
    have hcon : (tickBody i (Ev.start d)).control = x.control := by rw [hw]
    have hcd : x.control = { d.control with trim := x.control.trim } := by
      refine hcontrol.trans ?_
      rw [show v.control = u.control from rfl, hu]
    simp only [hquant, hcon]
    rw [← hcd, hw]
    rw [hx]
    simp only [v]
    rw [hu]
    rfl
  · have h1 : (tickBody i (Ev.start d)).trig = x.trig := by rw [hw]
    have h2 : ∀ f, (tickBody i (Ev.start d)).feed f = x.feed f := fun f => by rw [hw]; rfl
    simp only [h1, h2]
    exact htrig
  · have h := htrim f
    simp only [(hlevel f).1, (hlevel f).2, hslots] at h
    rw [show ((tickBody i (Ev.start d)).feed f) = x.feed f by rw [hw]; rfl,
      show (tickBody i (Ev.start d)).control = x.control by rw [hw]]
    have hlimit : v.feedLimit f = d.feedLimit f := by
      have h1 : v.attended = d.attended := by
        show u.attended = _
        rw [hu]
        rfl
      have h2 : v.tables = d.tables := by
        show u.tables = _
        rw [hu]
      have h3 : v.factoryValues = d.factoryValues := by
        show u.factoryValues = _
        rw [hu]
        rfl
      simp only [State.feedLimit, h1, h2, h3]
    have hdt : ∀ l, v.derateTrim l f = d.derateTrim l f := fun l =>
      derateTrim_congr (by rw [huf]; exact ⟨rfl, rfl, rfl, rfl⟩) huc (by show u.control = _; rw [hu]) l
    rw [hlimit, hdt] at h
    have hct : v.control = d.control := by
      show u.control = _
      rw [hu]
    rw [hct, hvf] at h
    exact h

/-- Settles O50. -/
theorem tickActsOnTheDrainedState : Obligations.TickActsOnTheDrainedState := by
  intro i s hs
  dsimp only
  have hrun : exec (.tick i) s = .next (closeEvent (tickBody i (Ev.start (drainExpiries s)))) :=
    takeEvent_running (running_drained hs) _
  generalize drainExpiries s = d at hrun
  obtain ⟨⟨ps, fs, b, hw⟩, hports, htrig, htrim⟩ := tickBody_spec i d
  obtain ⟨⟨ps', fs', hu⟩, hup, -, huf⟩ := tickUpToWatches_spec i (Ev.start d)
  generalize tickBody i (Ev.start d) = w at hrun hw hports htrig htrim
  generalize tickUpToWatches i (Ev.start d) = u at hw hports htrig htrim hu hup huf
  have hsense : w.sense = d.sense.sample i := by rw [hw]
  have hwatches : w.watches = d.watches.map (fun x => x.tick w.time (w.quantityValue x.entry.quantity)) := by
    conv => lhs; rw [hw]
  refine ⟨w, hrun, fun p => ?_, fun f => ?_, ?_, ?_, ?_, hwatches, ?_, ?_, ?_, ?_⟩
  · rw [hports, hup]
    unfold PortRec.sampled PortRec.filter presenceSample
    cases hst : (d.port p).state <;> simp only [start_toState, hst] <;> split <;> rfl
  · have h := htrim f
    rw [← hwatches, huf] at h
    rw [hsense]
    exact h
  · rw [htrig]
    exact exists_congr fun f => by rw [huf]; rfl
  · conv => lhs; rw [hw]
  · conv => lhs; rw [hw]
    rw [hsense, hu]
    rfl
  · conv => lhs; rw [hw]
    rw [hu]
    rfl
  · conv => lhs; rw [hw]
  · rw [hw]
    rfl
  · rw [hw, hu]
    rfl

/-! ## Samples (R157, R158) -/

theorem pushSample_spec {xs : List Nat} (x : Nat) (h : xs.length ≤ 8) :
    (pushSample xs x).length = min (xs.length + 1) 8 ∧ (pushSample xs x).getLast? = some x
      ∧ (xs.length = 8 → pushSample xs x = xs.tail ++ [x]) := by
  have hd : pushSample xs x = xs.drop (xs.length - 7) ++ [x] := by
    simp only [pushSample, List.length_append, List.length_singleton]
    rw [List.drop_append_of_le_length (by omega), show xs.length + 1 - 8 = xs.length - 7 by omega]
  refine ⟨?_, by simp [hd], fun h8 => ?_⟩
  · rw [hd, List.length_append, List.length_drop, List.length_singleton]
    omega
  · rw [hd, h8, List.drop_one]

theorem sampleOf_eq (top : Nat) (r : Int) : (sampleOf top r : Int) = max 0 (min r top) := by
  simp only [sampleOf]
  omega

/-- Settles O49. -/
theorem tickCountsTimeAndSamples : Obligations.TickCountsTimeAndSamples := by
  refine ⟨fun i s hs => ?_, fun xs x h => ?_, sampleOf_eq⟩
  · have hrun : exec (.tick i) s = .next (closeEvent (tickBody i (Ev.start (drainExpiries s)))) :=
      takeEvent_running (running_drained hs) _
    have hsteady := drainExpiries_steady s
    generalize drainExpiries s = d at hrun hsteady
    obtain ⟨⟨ps, fs, b, hw⟩, -⟩ := tickBody_spec i d
    obtain ⟨⟨_, _, hu⟩, -⟩ := tickUpToWatches_spec i (Ev.start d)
    generalize tickBody i (Ev.start d) = w at hrun hw
    generalize tickUpToWatches i (Ev.start d) = u at hw hu
    obtain ⟨htables, -, hsense, -, hlink, hfactory, htime, hcause, -, hpending⟩ := (rest_eq_iff _ _).1 (closeEvent_rest w)
    have hrx : (closeEvent w).link.rxBuffer = w.link.rxBuffer := by
      simp only [Link.mk.injEq] at hlink
      exact hlink.1
    refine ⟨_, hrun, ?_, ?_, ?_, ?_, ?_, fun hb => ?_⟩
    · rw [htime, ← hsteady.time, hw]
    · rw [hsense, ← hsteady.sense, hw]
    · rw [hrx, hw]
    · rw [hcause, ← hsteady.cause, hw]; rfl
    · rw [hpending, ← hsteady.pending, hw]; rfl
    · obtain ⟨h1, h2⟩ := hsteady.stored hb
      refine ⟨?_, ?_⟩
      · rw [htables, ← h1, hw]; rfl
      · rw [hfactory, ← h2, hw, hu]
        rw [← h2] at hb
        show ({ d.factory with burn := d.factory.burn.map _ } : Factory) = d.factory
        rw [hb]
        exact congrArg (fun b => ({ d.factory with burn := b } : Factory)) hb.symm
  · obtain ⟨h1, h2, h3⟩ := pushSample_spec x h
    exact ⟨h1, h2, h3, rfl⟩

end Sys2Proof.Machine
end

