-- ==== Sys2Proof/Proofs/SelectionAndPlans.lean ====
section
/-! PROOFS. The selection computation and the plans built from it: the steps by the table of R104 (O44), best options and
winners (O45), and what every target keeps (O46). Pure functions of the state. -/
namespace Sys2Proof.Machine

/-! ## Plans -/

/-- The groups a feed's steps fall into (R106): its decreases, two at most, and its increases, two at most. -/
structure StepGroups (f : Feed) (g : List PlanStep × List PlanStep) : Prop where
  few : g.1.length ≤ 2 ∧ g.2.length ≤ 2
  waiting : ∀ st ∈ g.1 ++ g.2, st.status = .waiting
  decreases : ∀ st ∈ g.1, st.feed = f ∧ st.increase = none
  increases : ∀ st ∈ g.2, st.feed = f ∧ st.increase.isSome = true

/-- The steps that take a feed to its target, all of the increase group. -/
theorem stepGroups_goTo (f : Feed) (t : FeedTarget) (k : TargetKind) :
    StepGroups f ([], match k, t.port with
      | .base, some q => [newStep f q .closeSwitch]
      | .line, some q => [newStep f q .closeSwitch, newStep f q (claimOf t .raise)]
      | _, _ => []) := by
  cases k <;> cases t.port <;> constructor <;> simp [newStep, claimOf, PlanStep.increase]

theorem StepGroups.both {f : Feed} {a b : List PlanStep} (ha : StepGroups f (a, [])) (hb : StepGroups f ([], b)) :
    StepGroups f (a, b) :=
  ⟨⟨ha.few.1, hb.few.2⟩, fun st h => (List.mem_append.1 h).elim (fun h => ha.waiting st (by simpa using h))
    (fun h => hb.waiting st (by simpa using h)), ha.decreases, hb.increases⟩

theorem stepsFor_groups (s : State) (f : Feed) (t : FeedTarget) : StepGroups f (s.stepsFor f t) := by
  have hnone : StepGroups f ([], []) := by constructor <;> simp
  have hleave : ∀ p : Port, StepGroups f (if (s.feed f).state = .contract then [newStep f p .release, newStep f p .openSwitch]
      else [newStep f p .openSwitch], []) := by
    intro p
    split <;> constructor <;> simp [newStep, PlanStep.increase]
  cases hi : (s.feed f).incumbent with
  | none =>
    simp only [State.stepsFor, hi]
    exact stepGroups_goTo f t t.kind
  | some p =>
    simp only [State.stepsFor, hi]
    have hgo := fun k => (hleave p).both (stepGroups_goTo f t k)
    cases t.kind with
    | nothing => exact hleave p
    | base =>
      dsimp only at hgo ⊢
      split
      · split <;> constructor <;> simp [newStep, PlanStep.increase]
      · exact hgo .base
    | line =>
      dsimp only at hgo ⊢
      split
      · split
        · exact hnone
        · split <;> constructor <;> simp [newStep, claimOf, PlanStep.increase]
      · exact hgo .line

/-- Settles O44: the parts of a plan are the two feeds' step groups, and each row of R104 is a branch of `stepsFor`. -/
theorem plansPlaceDecreasesFirst : Obligations.PlansPlaceDecreasesFirst := by
  intro s ts
  have h0 := stepsFor_groups s .F0 ts.f0
  have h1 := stepsFor_groups s .F1 ts.f1
  refine ⟨⟨?_, ?_, _, _, _, _, rfl, rfl, rfl, h0.decreases, h1.decreases, h0.increases, h1.increases⟩, ?_⟩
  · obtain ⟨a0, b0⟩ := h0.few
    obtain ⟨a1, b1⟩ := h1.few
    simp only [State.buildPlan, List.length_append]
    split <;> simp only [List.length_append] <;> omega
  · intro st hst
    have hmem : st ∈ (s.stepsFor .F0 ts.f0).1 ++ (s.stepsFor .F0 ts.f0).2
        ∨ st ∈ (s.stepsFor .F1 ts.f1).1 ++ (s.stepsFor .F1 ts.f1).2 := by
      simp only [State.buildPlan, List.mem_append] at hst ⊢
      split at hst <;> simp only [List.mem_append] at hst <;> tauto
    exact hmem.elim (h0.waiting st) (h1.waiting st)
  · intro f t
    refine ⟨fun hi => ⟨fun hk => ?_, fun q hk hq => ?_, fun q n hk hq hn => ?_⟩,
      fun p hi => ⟨fun hk => ?_, fun q hk hq hqp => ?_, fun q n hk hq hn hqp => ?_, fun hk hq => ?_, fun n hk hq hn => ?_⟩⟩
    · simp [State.stepsFor, hi, hk]
    · simp [State.stepsFor, hi, hk, hq, newStep]
    · simp [State.stepsFor, hi, hk, hq, hn, newStep, claimOf]
    · simp [State.stepsFor, hi, hk, newStep]
    · simp [State.stepsFor, hi, hk, hq, hqp, newStep]
    · simp [State.stepsFor, hi, hk, hq, hn, hqp, newStep, claimOf]
    · simp [State.stepsFor, hi, hk, hq, newStep]
    · have heq : t.equalsContract (s.port p).contract = (s.port p).contract.any (fun k =>
          k.line == n && k.voltage == t.voltage && k.current == t.current) := by
        cases (s.port p).contract with
        | none => rfl
        | some k =>
          rw [Bool.eq_iff_iff]
          simp only [FeedTarget.equalsContract, hn, Option.any_some, Bool.and_eq_true, beq_iff_eq, Option.some.injEq]
          constructor <;> rintro ⟨⟨a, b⟩, c⟩ <;> exact ⟨⟨a.symm, b.symm⟩, c.symm⟩
      simp [State.stepsFor, hi, hk, hq, hn, newStep, claimOf, heq]

/-! ## Best options and winners -/

theorem beats_iff (a b : Choice) : a.beats b = true ↔
    b.score < a.score ∨ (a.score = b.score ∧ (b.power < a.power ∨ (a.power = b.power ∧ a.voltage < b.voltage))) := by
  simp [Choice.beats]

theorem bestLine_spec (cs : List Choice) : match bestLine cs with
    | none => cs = []
    | some c => ∃ before after, cs = before ++ c :: after ∧ (∀ d ∈ before, c.beats d = true)
        ∧ (∀ d ∈ after, d.beats c = false) := by
  induction cs with
  | nil => rfl
  | cons c cs ih =>
    cases hb : bestLine cs with
    | none =>
      rw [hb] at ih
      subst ih
      exact ⟨[], [], rfl, by simp, by simp⟩
    | some d =>
      rw [hb] at ih
      obtain ⟨before, after, rfl, hbefore, hafter⟩ := ih
      simp only [bestLine, hb]
      by_cases hd : d.beats c = true
      · rw [if_pos hd]
        exact ⟨c :: before, after, rfl, by simpa [hd] using hbefore, hafter⟩
      · rw [if_neg hd]
        refine ⟨[], before ++ d :: after, rfl, by simp, fun x hx => ?_⟩
        simp only [List.mem_append, List.mem_cons] at hx
        rw [← Bool.not_eq_true, beats_iff]
        rw [beats_iff] at hd
        rcases hx with hx | rfl | hx
        · have := (beats_iff _ _).1 (hbefore x hx)
          omega
        · exact hd
        · have h2 := hafter x hx
          rw [← Bool.not_eq_true, beats_iff] at h2
          omega

theorem keptLine_eq_none {r : PortRec} (h : r.state ≠ .contract) (cs : List Choice) : keptLine r cs = none := by
  unfold keptLine
  split
  · exact absurd ‹_› h
  · rfl

theorem keptLine_of_top {r : PortRec} {k : Contract} {cs : List Choice} {c : Choice} (hr : r.state = .contract)
    (hk : r.contract = some k) (hc : c ∈ cs) (hkind : c.kind = .line k.line) (honly : ∀ d ∈ cs, d.kind = c.kind → d = c)
    (htop : ∀ d ∈ cs, d.score ≤ c.score) : keptLine r cs = some c := by
  simp only [keptLine, hr, hk]
  cases hf : cs.find? (fun c => c.kind == .line k.line && cs.all (fun d => d.score ≤ c.score)) with
  | none =>
    have := List.find?_eq_none.1 hf c hc
    simp only [hkind, beq_self_eq_true, Bool.true_and, List.all_eq_true, decide_eq_true_eq] at this
    exact absurd htop this
  | some d =>
    have hd := List.find?_some hf
    simp only [Bool.and_eq_true, beq_iff_eq] at hd
    rw [honly d (List.mem_of_find?_eq_some hf) (hd.1.trans hkind.symm)]

theorem secondPort_ne_lead (f : Feed) : leadPort f ≠ secondPort f := by cases f <;> decide

/-- Settles O45. -/
theorem bestOptionsAndWinners : Obligations.BestOptionsAndWinners := by
  refine ⟨fun cs c h => ?_, fun cs h => ?_, fun r cs c k hr hk hc hkind honly htop => ?_, fun r cs hr => ?_,
    fun r cs h => ?_, fun r cs c hc hlt => ?_, fun s f a b ha hb => ⟨fun hi => ?_, fun hi => ?_, fun hi => ?_⟩⟩
  · have hspec := bestLine_spec cs
    rw [h] at hspec
    obtain ⟨before, after, hcs, hbefore, hafter⟩ := hspec
    refine ⟨before, after, hcs, fun d hd => ?_, fun d hd => ?_⟩
    · have := (beats_iff _ _).1 (hbefore d hd)
      omega
    · have := hafter d hd
      rw [← Bool.not_eq_true, beats_iff] at this
      omega
  · simpa [h] using bestLine_spec cs
  · simp [pickOption, keptLine_of_top hr hk hc hkind honly htop]
  · simp [pickOption, keptLine_eq_none hr]
  · simp only [pickOption]
    exact if_pos (List.all_eq_true.2 fun c hc => decide_eq_true (h c hc))
  · simp only [pickOption]
    refine if_neg fun hall => ?_
    exact absurd (of_decide_eq_true (List.all_eq_true.1 hall c hc)) (Nat.not_le.2 hlt)
  · simp [State.contest, ha, hb, hi]
  all_goals
    simp only [State.contest, ha, hb, hi]
    grind [secondPort_ne_lead f]

/-! ## Targets -/

/-- What a line option keeps (R84 to R87, R92): the factory ceilings and its feed's effective limit. -/
def State.lineWithin (s : State) (f : Feed) (c : Choice) : Prop :=
  c.voltage ≤ s.factoryValues.maxVoltage ∧ c.current ≤ s.factoryValues.portCurrent ∧ c.power ≤ s.effectiveFeedLimit f

theorem lineVoltage_le {m : Nat} (hm : 5000 ≤ m) {e : PolicyEntry} {l : Line} {v : Nat} (h : lineVoltage m e l = some v) :
    v ≤ m := by
  unfold lineVoltage at h
  cases hk : l.kind <;> simp only [hk] at h <;> split at h <;> simp only [Option.some.injEq, reduceCtorEq] at h
  · omega
  · subst h
    unfold clampInto
    omega

theorem attendedLine_within {s : State} (hm : 5000 ≤ s.factoryValues.maxVoltage) {p : Port} {q : Partner} {n : Nat}
    {l : Line} {c : Choice} (h : s.attendedLine p q n l = some c) : s.lineWithin (feedOf p) c := by
  simp only [State.attendedLine] at h
  split at h
  · cases h
  · split at h
    · cases h
    · split at h
      · cases h
      · split at h
        · cases h
        · rename_i v hv
          split at h
          · cases h
          · obtain rfl := Option.some.inj h
            refine ⟨lineVoltage_le hm hv, ?_, ?_⟩
            · exact Nat.min_le_right _ _
            · exact Nat.min_le_right _ _

theorem fallbackLine_within {s : State} {p : Port} {q : Partner} {n : Nat} {l : Line} {c : Choice}
    (h : s.fallbackLine p q n l = some c) : s.lineWithin (feedOf p) c := by
  simp only [State.fallbackLine] at h
  split at h
  · split at h
    · cases h
    · rename_i hline _
      obtain rfl := Option.some.inj h
      obtain ⟨-, -, -, -, hv⟩ := hline
      exact ⟨hv.trans (Nat.min_le_right _ _), Nat.min_le_right _ _, Nat.min_le_right _ _⟩
  · cases h

theorem of_mem_lineOptions {P : Choice → Prop} {value : Nat → Line → Option Choice}
    (h : ∀ n l c, value n l = some c → P c) : ∀ (ls : List Line) (i : Nat), ∀ c ∈ lineOptions value i ls, P c
  | [], _, _, hc => by simp [lineOptions] at hc
  | l :: ls, i, c, hc => by
    rw [lineOptions] at hc
    split at hc
    · rename_i d hd
      rcases List.mem_cons.1 hc with rfl | hc
      · exact h i l c hd
      · exact of_mem_lineOptions h ls (i + 1) c hc
    · exact of_mem_lineOptions h ls (i + 1) c hc

theorem linesOf_within {s : State} (hm : 5000 ≤ s.factoryValues.maxVoltage) (p : Port) :
    ∀ c ∈ s.linesOf p, s.lineWithin (feedOf p) c := by
  intro c hc
  unfold State.linesOf at hc
  split at hc
  · simp at hc
  · refine of_mem_lineOptions (fun n l c h => ?_) _ _ c hc
    split at h
    · exact attendedLine_within hm h
    · exact fallbackLine_within h

theorem pickOption_mem {r : PortRec} {cs : List Choice} {base : Option Choice} {c : Choice}
    (h : pickOption r cs base = some c) : c ∈ cs ∨ base = some c := by
  have hline : ∀ c, (match keptLine r cs with
      | some c => some c
      | none => bestLine cs) = some c → c ∈ cs := by
    intro c h
    split at h
    · rename_i d hd
      obtain rfl := Option.some.inj h
      unfold keptLine at hd
      split at hd
      · exact List.mem_of_find?_eq_some hd
      · cases hd
    · have := bestLine_spec cs
      rw [h] at this
      obtain ⟨before, after, rfl, -, -⟩ := this
      simp
  unfold pickOption at h
  dsimp only at h
  split at h
  · exact .inl (hline c h)
  · split at h
    · exact .inr h
    · exact .inl (hline c h)

/-- Every line option a port has as its best keeps the bounds of its feed. -/
theorem bestOption_within {s : State} (hm : 5000 ≤ s.factoryValues.maxVoltage) {p : Port} {c : Choice} {n : Nat}
    (h : s.bestOption p = some c) (hk : c.kind = .line n) : s.lineWithin (feedOf p) c := by
  have hbase : ∀ b : Bool, (if b = true then some baseChoice else none) ≠ some c := by
    intro b hb
    split at hb
    · rw [← Option.some.inj hb] at hk
      cases hk
    · cases hb
  have hpick : pickOption (s.port p) (s.linesOf p) (if s.baseUsable (feedOf p) then some baseChoice else none) = some c →
      s.lineWithin (feedOf p) c := fun h =>
    (pickOption_mem h).elim (linesOf_within hm p c) (fun h => absurd h (hbase _))
  unfold State.bestOption at h
  cases hst : (s.port p).state <;> simp only [hst] at h
  case held | contract => exact hpick h
  case claiming | settling =>
    split at h
    · rw [← Option.some.inj h] at hk
      cases hk
    · exact absurd h (hbase _)
  case recovery | greeting | awaitSheet | releasing => exact absurd h (hbase _)
  all_goals cases h

theorem feedOf_leadPort (f : Feed) : feedOf (leadPort f) = f := by cases f <;> rfl

theorem feedOf_secondPort (f : Feed) : feedOf (secondPort f) = f := by cases f <;> rfl

/-- A feed's contest is won by one of its two ports with its best option. -/
theorem contest_mem {s : State} {f : Feed} {p : Port} {c : Choice} (h : s.contest f = some (p, c)) :
    feedOf p = f ∧ s.bestOption p = some c := by
  unfold State.contest at h
  dsimp only at h
  split at h
  · cases h
  · cases h
    exact ⟨feedOf_leadPort f, by assumption⟩
  · cases h
    exact ⟨feedOf_secondPort f, by assumption⟩
  · split at h <;> split at h <;> cases h
    · exact ⟨feedOf_secondPort f, by assumption⟩
    · exact ⟨feedOf_leadPort f, by assumption⟩
    · exact ⟨feedOf_leadPort f, by assumption⟩
    · exact ⟨feedOf_secondPort f, by assumption⟩

theorem winner_within {s : State} (hm : 5000 ≤ s.factoryValues.maxVoltage) {f : Feed} {p : Port} {c : Choice} {n : Nat}
    (h : s.winner f = some (p, c)) (hk : c.kind = .line n) : s.lineWithin f c := by
  have hcontest : s.contest f = some (p, c) → s.lineWithin f c := by
    intro h
    obtain ⟨rfl, hbest⟩ := contest_mem h
    exact bestOption_within hm hbest hk
  unfold State.winner at h
  dsimp only at h
  split at h
  · split at h
    · cases h
      cases hk
    · split at h
      · cases h
      · exact hcontest h
  · split at h
    · cases h
    · exact hcontest h

/-- The claim current draws no more than the allocation. -/
theorem claimCurrent_draws (alloc v i : Nat) : v * claimCurrent alloc v i / 1000 ≤ alloc := by
  have h : v * claimCurrent alloc v i ≤ alloc * 1000 :=
    calc v * claimCurrent alloc v i ≤ v * (alloc * 1000 / (10 * v) * 10) := Nat.mul_le_mul_left _ (Nat.min_le_left _ _)
      _ = alloc * 1000 / (10 * v) * (10 * v) := by ring
      _ ≤ alloc * 1000 := Nat.div_mul_le_self _ _
  omega

/-- The target of a winner with an allocation, unless it is frozen: its power lies within the allocation, and a line target
keeps the bounds of its option. -/
theorem targetOf_within (s : State) (alloc : Nat) (w : Option (Port × Choice)) (f : Feed) (hbase : alloc = 0 ∨
    ∀ p c, w = some (p, c) → c.kind = .base → Config.basePower ≤ alloc) (halloc : ∀ p c n, w = some (p, c) →
    c.kind = .line n → s.lineWithin f c ∧ alloc ≤ c.power) (hfrozen : (s.targetOf alloc w).frozen = false) :
    (s.targetOf alloc w).power ≤ alloc ∧ ((s.targetOf alloc w).kind = .line →
      (s.targetOf alloc w).voltage ≤ s.factoryValues.maxVoltage ∧ (s.targetOf alloc w).current ≤ s.factoryValues.portCurrent
        ∧ (s.targetOf alloc w).power = (s.targetOf alloc w).voltage * (s.targetOf alloc w).current / 1000
        ∧ (s.targetOf alloc w).power ≤ s.effectiveFeedLimit f ∧ s.usefulFloor ≤ (s.targetOf alloc w).power) := by
  rcases w with _ | ⟨p, c⟩
  · exact ⟨Nat.zero_le _, fun h => by cases h⟩
  · unfold State.targetOf at hfrozen ⊢
    cases hk : c.kind with
    | frozen n => simp only [hk] at hfrozen; cases hfrozen
    | base =>
      simp only [hk]
      split
      · exact ⟨Nat.zero_le _, fun h => by cases h⟩
      · exact ⟨hbase.elim (fun h => absurd h ‹_›) (fun h => h p c rfl hk), fun h => by cases h⟩
    | line n =>
      obtain ⟨⟨hv, hi, hp⟩, ha⟩ := halloc p c n rfl hk
      simp only [hk]
      split
      · exact ⟨Nat.zero_le _, fun h => by cases h⟩
      · rename_i hno
        have hdraws := claimCurrent_draws alloc c.voltage c.current
        refine ⟨hdraws, fun _ => ⟨hv, (Nat.min_le_right _ _).trans hi, rfl, hdraws.trans (ha.trans hp), ?_⟩⟩
        exact Nat.le_of_not_lt fun h => hno (.inr (.inr h))

/-- The allocation of a winner whose option is not frozen lies within what is left. -/
theorem allocation_spec (s : State) (left : Nat) (p : Port) (c : Choice) :
    (c.kind.isFrozen = false → s.allocation left (some (p, c)) ≤ left)
      ∧ (c.kind = .base → s.allocation left (some (p, c)) = 0 ∨ Config.basePower ≤ s.allocation left (some (p, c)))
      ∧ (∀ n, c.kind = .line n → s.allocation left (some (p, c)) ≤ c.power) := by
  unfold State.allocation
  cases hk : c.kind with
  | frozen n => simp [OptionKind.isFrozen]
  | base =>
    refine ⟨fun _ => ?_, fun _ => ?_, fun n h => by cases h⟩ <;> simp only [hk] <;> split <;> omega
  | line m =>
    refine ⟨fun _ => ?_, (fun h => by cases h), fun n _ => ?_⟩ <;> simp only [hk] <;> split <;> omega

/-- The target of a feed's winner with the allocation it keeps: within the share left to it, and a line target within its
feed's bounds. -/
theorem winnerTarget_within {s : State} (hm : 5000 ≤ s.factoryValues.maxVoltage) (f : Feed) (left : Nat)
    {t : FeedTarget} (ht : t = s.targetOf (s.allocation left (s.winner f)) (s.winner f)) (hfrozen : t.frozen = false) :
    (t.power ≤ s.allocation left (s.winner f) ∧ s.allocation left (s.winner f) ≤ left) ∧ (t.kind = .line →
      t.voltage ≤ s.factoryValues.maxVoltage ∧ t.current ≤ s.factoryValues.portCurrent
        ∧ t.power = t.voltage * t.current / 1000 ∧ t.power ≤ s.effectiveFeedLimit f ∧ s.usefulFloor ≤ t.power) := by
  subst ht
  cases hw : s.winner f with
  | none => exact ⟨⟨Nat.zero_le _, Nat.zero_le _⟩, fun h => by cases h⟩
  | some pc =>
    obtain ⟨p, c⟩ := pc
    rw [hw] at hfrozen
    obtain ⟨hleft, hbase, hline⟩ := allocation_spec s left p c
    have hkind : c.kind.isFrozen = false := by
      cases hk : c.kind with
      | frozen n => simp [State.targetOf, hk] at hfrozen
      | base => rfl
      | line n => rfl
    obtain ⟨hpower, hrest⟩ := targetOf_within s (s.allocation left (some (p, c))) (some (p, c)) f
      (by
        by_cases hk : c.kind = .base
        · exact (hbase hk).imp_right fun h p' c' he _ => h
        · exact .inr fun p' c' he h => absurd (by cases he; exact h) hk)
      (by
        rintro p' c' n he hk
        cases he
        exact ⟨winner_within hm hw hk, hline n hk⟩)
      hfrozen
    exact ⟨⟨hpower, hleft hkind⟩, hrest⟩

/-- The largest multiple of 10 mA at which a voltage gives no more than the allocation. -/
theorem claimCurrent_largest (alloc : Nat) {v : Nat} (hv : 0 < v) :
    v * (alloc * 1000 / (10 * v) * 10) ≤ alloc * 1000
      ∧ ∀ j, j % 10 = 0 → v * j ≤ alloc * 1000 → j ≤ alloc * 1000 / (10 * v) * 10 := by
  refine ⟨?_, fun j hj hle => ?_⟩
  · calc v * (alloc * 1000 / (10 * v) * 10) = alloc * 1000 / (10 * v) * (10 * v) := by ring
      _ ≤ alloc * 1000 := Nat.div_mul_le_self _ _
  · obtain ⟨k, rfl⟩ : ∃ k, j = 10 * k := ⟨j / 10, by omega⟩
    have : k ≤ alloc * 1000 / (10 * v) := (Nat.le_div_iff_mul_le (by omega)).2 (by linarith [hle, mul_comm v (10 * k)])
    omega

/-- Settles O46: an evaluation gives each feed its winner's target, on the shares of one ceiling. -/
theorem targetsKeepTheCeilings : Obligations.TargetsKeepTheCeilings := by
  refine ⟨fun s alloc p c n hk ha hv => ?_, fun s hm => ?_⟩
  · obtain ⟨h1, h2⟩ := claimCurrent_largest alloc hv
    refine ⟨h1, h2, ?_⟩
    simp [State.targetOf, hk, ha, claimCurrent]
  · obtain ⟨l0, l1, h0, h1, hsum⟩ : ∃ l0 l1, s.evaluate.f0 = s.targetOf (s.allocation l0 (s.winner .F0)) (s.winner .F0)
        ∧ s.evaluate.f1 = s.targetOf (s.allocation l1 (s.winner .F1)) (s.winner .F1)
        ∧ ((s.allocation l0 (s.winner .F0) ≤ l0) → (s.allocation l1 (s.winner .F1) ≤ l1) →
          s.allocation l0 (s.winner .F0) + s.allocation l1 (s.winner .F1) ≤ s.effectiveCeiling) := by
      unfold State.evaluate
      dsimp only
      split
      · exact ⟨_, _, rfl, rfl, fun a b => by omega⟩
      · exact ⟨_, _, rfl, rfl, fun a b => by omega⟩
    refine ⟨fun f hline hfrozen => ?_, fun hf0 hf1 => ?_⟩
    · cases f with
      | F0 => exact (winnerTarget_within hm .F0 l0 h0 hfrozen).2 hline
      | F1 => exact (winnerTarget_within hm .F1 l1 h1 hfrozen).2 hline
    · obtain ⟨⟨a0, b0⟩, -⟩ := winnerTarget_within hm .F0 l0 h0 hf0
      obtain ⟨⟨a1, b1⟩, -⟩ := winnerTarget_within hm .F1 l1 h1 hf1
      have := hsum b0 b1
      omega

end Sys2Proof.Machine
end

