-- ==== Sys2Proof/Proofs/Verdicts.lean ====
section
/-! PROOFS. Verdicts by their checks, and what an amendment takes of the asked and the received values (O16). -/
namespace Sys2Proof.Machine

/-! ## Amendments (R184) -/

/-- What R184 makes of a received line and the line asked for it. -/
def amendedTo (r a l : Line) : Prop :=
  l.kind = r.kind ∧ l.pooled = r.pooled ∧ l.current = min a.current r.current
    ∧ l.vLow = (if r.kind = .fixed then r.vLow else max a.vLow r.vLow)
    ∧ l.vHigh = (if r.kind = .fixed then r.vHigh else min a.vHigh r.vHigh)
    ∧ l.cap = (match r.cap with
      | none => a.cap
      | some c => some (capBy c a.cap))

/-- The line asked for holds more than the received one somewhere. -/
def asksMore (r a : Line) : Prop :=
  r.current < a.current ∨ (r.kind = .fixed ∧ (a.vLow ≠ r.vLow ∨ a.vHigh ≠ r.vHigh))
    ∨ (r.kind = .window ∧ (a.vLow < r.vLow ∨ r.vHigh < a.vHigh))
    ∨ ∃ c, r.cap = some c ∧ (a.cap = none ∨ ∃ d, a.cap = some d ∧ c < d)

theorem amendLine_spec (r a : Line) : amendedTo r a (amendLine r a).1 ∧ ((amendLine r a).2 = true ↔ asksMore r a) := by
  unfold amendLine amendedTo asksMore
  cases hk : r.kind <;> cases hr : r.cap <;> cases ha : a.cap <;> simp [capBy] <;> tauto

theorem amendedLine_succ (k : LineKind) (b0 b1 b2 b3 b4 b5 b6 b7 b8 : Byte) (rest : List Byte) (n : Nat) :
    amendedLine k (b0 :: b1 :: b2 :: b3 :: b4 :: b5 :: b6 :: b7 :: b8 :: rest) (n + 1) = amendedLine k rest n := by
  have h (j : Nat) : 9 * (n + 1) + j = 9 * n + j + 1 + 1 + 1 + 1 + 1 + 1 + 1 + 1 + 1 := by omega
  simp only [amendedLine, h, List.getD_cons_succ, Nat.add_zero]

/-- An amended sheet has the received lines, each amended to the line of its index; a value is clamped exactly where one of
them asks for more. -/
theorem amendSheet_spec (rs : List Line) (content : List Byte) (ls : List Line) (c : Bool)
    (h : amendSheet rs content = some (ls, c)) :
    ls.length = rs.length ∧ content.length = 9 * ls.length
      ∧ (∀ n r l, rs[n]? = some r → ls[n]? = some l → amendedTo r (amendedLine r.kind content n) l)
      ∧ (c = true ↔ ∃ n r, rs[n]? = some r ∧ asksMore r (amendedLine r.kind content n)) := by
  induction rs, content using amendSheet.induct generalizing ls c with
  | case1 =>
    cases h
    simp
  | case2 r rs b0 b1 b2 b3 b4 b5 b6 b7 b8 rest hnone ih =>
    simp [amendSheet, hnone] at h
  | case3 r rs b0 b1 b2 b3 b4 b5 b6 b7 b8 rest ls' c' hsome ih =>
    simp only [amendSheet, hsome, Option.some.injEq, Prod.mk.injEq] at h
    obtain ⟨rfl, rfl⟩ := h
    obtain ⟨hlen, hcontent, hlines, hclamp⟩ := ih ls' c' hsome
    obtain ⟨hone, honeClamp⟩ := amendLine_spec r (decodeLine (flagsOfKind r.kind b0) b1 b2 b3 b4 b5 b6 b7 b8)
    refine ⟨by simp [hlen], by simp [hcontent]; omega, fun n r' l hr hl => ?_, ?_⟩
    · cases n with
      | zero =>
        simp only [List.getElem?_cons_zero, Option.some.injEq] at hr hl
        subst hr hl
        exact hone
      | succ n =>
        rw [amendedLine_succ]
        exact hlines n r' l hr hl
    · rw [Bool.or_eq_true, honeClamp, hclamp]
      constructor
      · rintro (h | ⟨n, r', hr, h⟩)
        · exact ⟨0, r, rfl, h⟩
        · exact ⟨n + 1, r', hr, by rwa [amendedLine_succ]⟩
      · rintro ⟨n, r', hr, h⟩
        cases n with
        | zero =>
          simp only [List.getElem?_cons_zero, Option.some.injEq] at hr
          subst hr
          exact .inl h
        | succ n =>
          rw [amendedLine_succ] at h
          exact .inr ⟨n, r', hr, h⟩
  | case4 rs content h1 h2 =>
    rw [amendSheet] at h
    · cases h
    all_goals assumption

/-! ## The checks of a verdict (R183) -/

theorem heldTag_spec {t : TrapUnit} {tag : Byte} {e : TrapEntry} (h : t.heldTag tag = some e) :
    e ∈ t.queue ∧ e.tag = tag ∧ e.mode = .hold := by
  have := List.find?_some h
  simp only [Bool.and_eq_true, beq_iff_eq] at this
  exact ⟨List.mem_of_find?_eq_some h, this⟩

theorem heldTag_eq_none {t : TrapUnit} {tag : Byte} (h : ∀ e ∈ t.queue, e.tag = tag → e.mode = .copy) :
    t.heldTag tag = none := by
  refine List.find?_eq_none.2 fun e he => ?_
  simp only [Bool.and_eq_true, beq_iff_eq, not_and]
  intro ht
  rw [h e he ht]
  decide

/-- The decision of a verdict's decision byte on a held entry, and whether it was clamped (R183, R195). -/
def verdictDecision (e : TrapEntry) (d : Byte) (content : List Byte) : Option (Decision × Bool) :=
  if d.toNat = 0 then some (.allow, false) else if d.toNat = 1 then some (.deny, false)
  else if d.toNat = 2 then amendDecision e content else none

theorem decideVerdict_held {tag d : Byte} {content : List Byte} {w : Ev} {e : TrapEntry} (h : w.traps.heldTag tag = some e) :
    decideVerdict tag d content w = match verdictDecision e d content with
      | none => answer w .badForm
      | some (x, clamped) => answer (applyDecision e x w) (if clamped then .doneClamped else .done) := by
  have h0 : d = 0 ↔ d.toNat = 0 := BitVec.toNat_inj (y := 0).symm
  have h1 : d = 1 ↔ d.toNat = 1 := BitVec.toNat_inj (y := 1).symm
  unfold decideVerdict verdictDecision
  simp only [h, h0, h1]
  split_ifs with h2 a0 a1 a2
  any_goals omega
  all_goals rfl

/-- A verdict whose code is well formed is decided as its three parts give it. -/
theorem execVerdict_gives {s : State} (hs : s.takes = true) {tag d : Byte} {content : List Byte} (hc : content.length ≤ 126)
    {a : Answer} (ha : decideVerdict tag d content (Ev.start (s.holding 0x92#8)) = a) :
    exec (.verdict (tag :: d :: content)) s = .next (closeEvent (placeResult 0x92#8 a)) :=
  requestEvent_gives hs (by simp; omega) ha

/-- A verdict that a check refuses. -/
theorem execVerdict_refuses {s : State} (hs : s.takes = true) {tag d : Byte} {content : List Byte}
    (hc : content.length ≤ 126) {r : ResultCode} (ha : decideVerdict tag d content (Ev.start (s.holding 0x92#8))
      = answer (Ev.start (s.holding 0x92#8)) r) :
    exec (.verdict (tag :: d :: content)) s = .next (s.answered 0x92#8 r []) :=
  requestEvent_answered hs (by simp; omega) ha

/-- A verdict on a held entry that is applied. -/
theorem execVerdict_applies {s : State} (hs : s.takes = true) {tag d : Byte} {content : List Byte}
    (hc : content.length ≤ 126) {e : TrapEntry} (he : s.traps.heldTag tag = some e) {x : Decision} {clamped : Bool}
    (hx : verdictDecision e d content = some (x, clamped)) :
    exec (.verdict (tag :: d :: content)) s = .next (closeEvent (placeResult 0x92#8
      (answer (applyDecision e x (Ev.start (s.holding 0x92#8))) (if clamped then .doneClamped else .done)))) := by
  refine execVerdict_gives hs hc ?_
  rw [decideVerdict_held (e := e) he, hx]

/-- Settles O16. -/
theorem verdictsAreDecidedByTheirChecks : Obligations.VerdictsAreDecidedByTheirChecks := by
  refine ⟨fun params s hs hlen => ?_, fun tag d content s hs hc => ⟨fun hd => ?_, fun hd hcopy => ?_,
    fun e he hd hnone => ?_, fun e x he hx hsome => ?_⟩, fun e content x clamped h => ?_⟩
  · refine requestEvent_answered hs (by omega) ?_
    match params, hlen with
    | [], _ => rfl
    | [_], _ => rfl
  · refine execVerdict_refuses hs hc ?_
    simp [decideVerdict, hd]
  · refine execVerdict_refuses hs hc ?_
    unfold decideVerdict
    rw [if_neg (Nat.not_lt.2 hd), show (Ev.start (s.holding 0x92#8)).traps.heldTag tag = none from heldTag_eq_none hcopy]
  · refine execVerdict_refuses hs hc ?_
    rw [decideVerdict_held (w := Ev.start (s.holding 0x92#8)) he]
    simp [verdictDecision, hd, hnone]
  · obtain ⟨⟨y, clamped⟩, rfl⟩ := Option.isSome_iff_exists.1 hsome
    refine ⟨_, execVerdict_applies hs hc he hx.symm, rfl, ?_⟩
    have hrest := deliverDecision_rest e y (removeTag e.tag (Ev.start (s.holding 0x92#8)))
    obtain ⟨-, htag, -⟩ := heldTag_spec he
    simp only [State.rest, Rest.mk.injEq] at hrest
    obtain ⟨htables, hwatches, -, htraps, -, hfactory, -⟩ := hrest
    refine ⟨?_, htables, hwatches, hfactory⟩
    rw [← htag]
    exact congrArg (·.queue) htraps
  · unfold amendDecision at h
    split at h
    case h_1 hk =>
      split at h
      · cases h
        exact ⟨hk, ‹_›, rfl, rfl, decide_eq_true_iff⟩
      · cases h
    case h_2 hk | h_3 hk =>
      split at h
      · cases h
      · cases h
        obtain ⟨hlen, hcontent, hlines, hclamp⟩ := amendSheet_spec _ _ _ _ ‹_›
        exact ⟨by simp [hk], hlen, hcontent, hlines, hclamp⟩
    case h_4 hk =>
      split at h
      · cases h
        exact ⟨hk, ‹_›, rfl, decide_eq_true_iff⟩
      · cases h
    case h_5 => cases h

end Sys2Proof.Machine
end

