-- ==== Sys2Proof/Proofs/PoolPasses.lean ====
section
/-! PROOFS. The two passes of the shrink and the re-admission pass, entry by entry (O48). -/
namespace Sys2Proof.Machine

theorem noticeSet_setNotice_self (n : Notice) (w : Ev) : (setNotice n w).link.noticeSet n = true := by
  have h : (noticeMask n).getLsbD (noticeBit n) = true := by cases n <;> decide
  simp only [Link.noticeSet, setNotice_link, BitVec.getLsbD_or, h, Bool.or_true]

/-! ## The cutting pass (R152) -/

/-- The entry of each place after the cutting pass: it gives up the lesser of the excess that newer entries left and its
current above 500 mA. -/
theorem cutEntries_getElem? (e : Nat) (gs : List GrantEntry) (n : Nat) (g h : GrantEntry) (hg : gs[n]? = some g)
    (hh : (cutEntries e gs)[n]? = some h) :
    h = { g with current := g.current - (if g.kind = .granted then
      min (e - (sumCurrents (gs.take n) - sumCurrents ((cutEntries e gs).take n))) (g.current - 500) else 0) }
      ∧ sumCurrents ((cutEntries e gs).take n) ≤ sumCurrents (gs.take n) := by
  induction gs generalizing e n with
  | nil => simp at hg
  | cons x xs ih =>
    rw [cutEntries] at hh ⊢
    cases n with
    | zero =>
      obtain rfl := Option.some.inj hg
      obtain rfl := Option.some.inj hh
      exact ⟨rfl, Nat.le_refl _⟩
    | succ n =>
      rw [List.getElem?_cons_succ] at hg hh
      obtain ⟨hval, hsum⟩ := ih _ n hg hh
      simp only [List.take_succ_cons, sumCurrents_cons]
      rw [hval]
      generalize hd : (if x.kind = .granted then min e (x.current - Config.defaultAllowance) else 0) = d at hsum ⊢
      have hle : d ≤ x.current := by
        rw [← hd]
        split <;> omega
      refine ⟨?_, by omega⟩
      congr 4
      omega

/-- What the cutting pass leaves unchanged is every entry, or one has fallen. -/
theorem cutEntries_eq_or_cut (e : Nat) (gs : List GrantEntry) :
    cutEntries e gs = gs ∨ cutsMade gs (cutEntries e gs) ≠ [] := by
  induction gs generalizing e with
  | nil => exact .inl rfl
  | cons g gs ih =>
    rw [cutEntries]
    generalize (if g.kind = .granted then min e (g.current - Config.defaultAllowance) else 0) = d
    rw [cutsMade]
    split
    · exact .inr (by simp)
    · rename_i hno
      refine (ih (e - d)).imp_left fun h => ?_
      have hle : g.current ≤ g.current - d := Nat.le_of_not_lt hno
      rw [h, show g.current - d = g.current by omega]

/-- Every entry that fell is among the cuts made. -/
theorem mem_cutsMade {gs hs : List GrantEntry} {n : Nat} {g h : GrantEntry} (hg : gs[n]? = some g) (hh : hs[n]? = some h)
    (hlt : h.current < g.current) : (h.port, h.current) ∈ cutsMade gs hs := by
  induction gs generalizing hs n with
  | nil => simp at hg
  | cons x xs ih =>
    cases hs with
    | nil => simp at hh
    | cons y ys =>
      rw [cutsMade]
      cases n with
      | zero =>
        simp only [List.getElem?_cons_zero, Option.some.injEq] at hg hh
        subst hg hh
        rw [if_pos hlt]
        exact List.mem_cons_self ..
      | succ n =>
        rw [List.getElem?_cons_succ] at hg hh
        split
        · exact List.mem_cons_of_mem _ (ih hg hh)
        · exact ih hg hh

/-- The ports of the cuts made, newest first, are some of the list's. -/
theorem cutsMade_sublist (gs hs : List GrantEntry) : ((cutsMade gs hs).map (·.1)).Sublist (hs.map (·.port)) := by
  induction gs generalizing hs with
  | nil => cases hs <;> simp [cutsMade]
  | cons g gs ih =>
    cases hs with
    | nil => simp [cutsMade]
    | cons h hs =>
      rw [cutsMade]
      split
      · exact (ih hs).cons_cons _
      · exact (ih hs).cons _

/-- CUT waits on every port it is decided for, each once, where no RESTART is owed (R152). -/
theorem announceCuts_order {cs : List (Port × Nat)} (hnodup : (cs.map (·.1)).Nodup) {c : Port × Nat} (hc : c ∈ cs) (w : Ev)
    (hr : (w.port c.1).restartOwed = false) : OutFrame.cut c.2 ∈ ((cs.foldl announceCut w).port c.1).order := by
  induction cs generalizing w with
  | nil => cases hc
  | cons d ds ih =>
    simp only [List.map_cons, List.nodup_cons] at hnodup
    obtain ⟨hd, hds⟩ := hnodup
    rcases List.mem_cons.1 hc with rfl | hc
    · have hact : PoolAct (· ∈ ds.map (·.1)) (announceCut w c) (ds.foldl announceCut (announceCut w c)) :=
        poolAct_foldl ds (fun v x hx => announceCut_act (List.mem_map_of_mem hx) v) _
      have hport : (announceCut w c).port c.1
          = { w.port c.1 with order := placeFrame (.cut c.2) (w.port c.1).order } := by
        have h := decideFrame_port_self c.1 (.cut c.2) w
        rw [hr] at h
        exact h
      rw [List.foldl_cons, (hact.alone c.1 hd).1, hport]
      exact mem_placeFrame _ _
    · have hne : c.1 ≠ d.1 := fun h => hd (h ▸ List.mem_map_of_mem hc)
      refine ih hds hc _ ?_
      rw [show (announceCut w d).port c.1 = w.port c.1 from decideFrame_port_of_ne hne _ _]
      exact hr

/-- A cut made sets OUTLET_CUT. -/
theorem announceCuts_notice {cs : List (Port × Nat)} (h : cs ≠ []) (w : Ev) :
    (cs.foldl announceCut w).link.noticeSet .outletCut = true := by
  obtain ⟨d, ds, rfl⟩ := List.exists_cons_of_ne_nil h
  have hact : PoolAct (fun _ => True) (announceCut w d) (ds.foldl announceCut (announceCut w d)) :=
    poolAct_foldl ds (fun v x _ => announceCut_act trivial v) _
  exact hact.notices _ (noticeSet_setNotice_self _ _)

/-! ## The removing pass (R152) -/

/-- Every port the pass removes is parked with reason POOL, its drive open. -/
theorem expelPorts_port {gs : List GrantEntry} (w : Ev) {p : Port} (hp : p ∈ gs.map (·.port)) :
    ((gs.foldl expelPort w).port p).state = .parked ∧ ((gs.foldl expelPort w).port p).parkReason = some .pool
      ∧ (gs.foldl expelPort w).outlet.drives.get p = .opened
      ∧ (gs.foldl expelPort w).outlet.parkTime.get p = some w.time := by
  induction gs generalizing w with
  | nil => cases hp
  | cons g gs ih =>
    rw [List.foldl_cons]
    by_cases h : p ∈ gs.map (·.port)
    · exact ih (expelPort w g) h
    · obtain rfl : p = g.port := (List.mem_cons.1 hp).resolve_right h
      have hact : PoolAct (· ∈ gs.map (·.port)) (expelPort w g) (gs.foldl expelPort (expelPort w g)) :=
        poolAct_foldl gs (fun v x hx => expelPort_act (List.mem_map_of_mem hx) v) _
      obtain ⟨hport, htime, hdrive⟩ := hact.alone _ h
      have hself : (expelPort w g).port g.port = { w.port g.port with state := .parked, parkReason := some .pool } :=
        parkForPool_port_self g.port w
      rw [hport, htime, hdrive, hself]
      refine ⟨rfl, rfl, ?_, ?_⟩ <;> simp [expelPort, parkForPool]

theorem expelPorts_order (gs : List GrantEntry) (w : Ev) (p : Port) :
    ((gs.foldl expelPort w).port p).order = (w.port p).order := by
  induction gs generalizing w with
  | nil => rfl
  | cons g gs ih =>
    rw [List.foldl_cons, ih]
    by_cases h : p = g.port
    · subst h
      exact congrArg (·.order) (parkForPool_port_self g.port w)
    · exact congrArg (·.order) (parkForPool_port_of_ne h w)

/-- The removing pass takes the fewest of the newest entries. -/
theorem removedEntries_fewest (pool : Nat) (gs : List GrantEntry) :
    ∀ k < (removedEntries pool gs).length, pool < sumCurrents (gs.drop k) := by
  induction gs with
  | nil => simp [removedEntries]
  | cons g gs ih =>
    rw [removedEntries]
    split
    · rename_i h
      intro k hk
      cases k with
      | zero => exact h
      | succ k => exact ih k (by simpa using hk)
    · simp

theorem keptEntries_eq_drop (pool : Nat) (gs : List GrantEntry) :
    keptEntries pool gs = gs.drop (removedEntries pool gs).length := by
  have h := List.drop_left (l₁ := removedEntries pool gs) (l₂ := keptEntries pool gs)
  rw [removed_append_kept] at h
  exact h.symm

/-! ## The shrink -/

/-- The entries after the cutting pass, newest first. -/
def Outlet.cutNewest (o : Outlet) : List GrantEntry := cutEntries (sumCurrents o.grants.reverse - o.pool) o.grants.reverse

theorem foldl_grants {α : Type} (g : Ev → α → Ev) (h : ∀ w x, (g w x).outlet.grants = w.outlet.grants) (xs : List α) (w : Ev) :
    (xs.foldl g w).outlet.grants = w.outlet.grants := by
  induction xs generalizing w with
  | nil => rfl
  | cons x xs ih => rw [List.foldl_cons, ih, h]

theorem shrinkPool_grants (w : Ev) :
    (shrinkPool w).outlet.grants = (keptEntries w.outlet.pool w.outlet.cutNewest).reverse := by
  unfold shrinkPool
  dsimp only
  rw [foldl_grants expelPort (fun _ _ => rfl), foldl_grants announceCut (fun _ _ => rfl)]
  rfl

/-- The ports that keep an entry stand first, oldest first. -/
theorem shrinkPool_ports (w : Ev) :
    w.outlet.grants.map (·.port) = (shrinkPool w).outlet.grants.map (·.port)
      ++ ((removedEntries w.outlet.pool w.outlet.cutNewest).map (·.port)).reverse := by
  have h := cut_ports w.outlet (sumCurrents w.outlet.grants.reverse - w.outlet.pool)
  have hsplit := removed_append_kept w.outlet.pool w.outlet.cutNewest
  rw [shrinkPool_grants, List.map_reverse, ← List.reverse_append, ← List.map_append, hsplit]
  exact (List.reverse_eq_iff.2 h).symm

/-- The shrink's two folds, from the state with the kept entries stored. -/
theorem shrinkPool_eq (w : Ev) : shrinkPool w = (removedEntries w.outlet.pool w.outlet.cutNewest).foldl expelPort
    ((cutsMade w.outlet.grants.reverse w.outlet.cutNewest).foldl announceCut
      (updOutlet (fun o => { o with grants := (keptEntries w.outlet.pool w.outlet.cutNewest).reverse }) w)) := by
  unfold shrinkPool
  dsimp only
  rw [foldl_pool announceCut (fun _ _ => rfl)]
  rfl

theorem shrinkPool_expels (w : Ev) {p : Port} (hp : w.outlet.hasEntry p = true)
    (hgone : (shrinkPool w).outlet.hasEntry p = false) :
    ((shrinkPool w).port p).state = .parked ∧ ((shrinkPool w).port p).parkReason = some .pool
      ∧ (shrinkPool w).outlet.drives.get p = .opened ∧ (shrinkPool w).outlet.parkTime.get p = some w.time := by
  have hremoved : p ∈ (removedEntries w.outlet.pool w.outlet.cutNewest).map (·.port) := by
    have h := (hasEntry_iff _ p).1 hp
    rw [shrinkPool_ports w] at h
    refine List.mem_reverse.1 ((List.mem_append.1 h).resolve_left fun hkept => ?_)
    rw [(hasEntry_iff _ p).2 hkept] at hgone
    cases hgone
  have htime : ((cutsMade w.outlet.grants.reverse w.outlet.cutNewest).foldl announceCut
      (updOutlet (fun o => { o with grants := (keptEntries w.outlet.pool w.outlet.cutNewest).reverse }) w)).time = w.time := by
    have hact := poolAct_foldl (P := fun _ => True) (g := announceCut) (cutsMade w.outlet.grants.reverse w.outlet.cutNewest)
      (fun v x _ => announceCut_act trivial v)
      (updOutlet (fun o => { o with grants := (keptEntries w.outlet.pool w.outlet.cutNewest).reverse }) w)
    exact congrArg Rest.time hact.rest
  have := expelPorts_port ((cutsMade w.outlet.grants.reverse w.outlet.cutNewest).foldl announceCut
    (updOutlet (fun o => { o with grants := (keptEntries w.outlet.pool w.outlet.cutNewest).reverse }) w)) hremoved
  rw [htime] at this
  rw [shrinkPool_eq]
  exact this

theorem shrinkPool_notice (w : Ev) (h : (shrinkPool w).outlet.grants ≠ w.outlet.grants) :
    (shrinkPool w).link.noticeSet .outletCut = true := by
  have hexpels := poolAct_foldl (P := fun _ => True) (g := expelPort) (removedEntries w.outlet.pool w.outlet.cutNewest)
    (fun v x _ => expelPort_act trivial v)
  rw [shrinkPool_eq]
  rcases cutEntries_eq_or_cut (sumCurrents w.outlet.grants.reverse - w.outlet.pool) w.outlet.grants.reverse with heq | hcut
  · have hremoved : removedEntries w.outlet.pool w.outlet.cutNewest ≠ [] := by
      intro hnil
      have hkept := removed_append_kept w.outlet.pool w.outlet.cutNewest
      rw [hnil, List.nil_append] at hkept
      rw [shrinkPool_grants, hkept, Outlet.cutNewest, heq, List.reverse_reverse] at h
      exact h rfl
    obtain ⟨g, gs, hgs⟩ := List.exists_cons_of_ne_nil hremoved
    rw [hgs, List.foldl_cons]
    exact (poolAct_foldl (P := fun _ => True) (g := expelPort) gs (fun v x _ => expelPort_act trivial v) _).notices _
      (noticeSet_setNotice_self _ _)
  · exact (hexpels _).notices _ (announceCuts_notice hcut _)

/-! ## Re-admission (R153) -/

/-- The port waits for re-admission (R153). -/
def State.waitsForPool (s : State) (p : Port) : Prop :=
  (s.port p).state = .parked ∧ (s.port p).parkReason = some .pool ∧ (s.outlet.parkTime.get p).isSome = true

/-- The age of a port's park time, 0 without one. -/
def State.poolAge (s : State) (p : Port) : Nat := (s.time - (s.outlet.parkTime.get p).getD 0).toNat

theorem parkAge_eq_some_iff (s : State) (p : Port) (a : Nat) :
    s.parkAge p = some a ↔ s.waitsForPool p ∧ a = s.poolAge p := by
  unfold State.parkAge State.waitsForPool State.poolAge
  split
  · rename_i h
    obtain ⟨hstate, hreason⟩ := h
    cases (s.outlet.parkTime.get p) with
    | none => simp
    | some t => simp [hstate, hreason, eq_comm]
  · rename_i h
    constructor
    · simp
    · rintro ⟨⟨h1, h2, -⟩, -⟩
      exact absurd ⟨h1, h2⟩ h

/-- The order of the re-admission pass: oldest first, then by port letter (R153). -/
def admitsBefore (x y : Port × Nat) : Prop := y.2 < x.2 ∨ (y.2 = x.2 ∧ portCode x.1 < portCode y.1)

theorem mem_insertByAge (x y : Port × Nat) (l : List (Port × Nat)) : y ∈ insertByAge x l ↔ y = x ∨ y ∈ l := by
  induction l with
  | nil => simp [insertByAge]
  | cons z l ih =>
    rw [insertByAge]
    split
    · rw [List.mem_cons, ih, List.mem_cons]
      tauto
    · simp

theorem admitsBefore_trans {x y z : Port × Nat} (h : admitsBefore x y) (k : admitsBefore y z) : admitsBefore x z := by
  unfold admitsBefore at *
  omega

/-- Inserting a port of a later letter keeps the order. -/
theorem insertByAge_pairwise {x : Port × Nat} {l : List (Port × Nat)} (h : l.Pairwise admitsBefore)
    (hx : ∀ y ∈ l, portCode y.1 < portCode x.1) : (insertByAge x l).Pairwise admitsBefore := by
  induction l with
  | nil => simp [insertByAge]
  | cons y l ih =>
    obtain ⟨hy, hl⟩ := List.pairwise_cons.1 h
    have hcode := hx y (List.mem_cons_self ..)
    rw [insertByAge]
    split
    · rename_i hle
      refine List.pairwise_cons.2 ⟨fun z hz => ?_, ih hl fun z hz => hx z (List.mem_cons_of_mem _ hz)⟩
      rcases (mem_insertByAge x z l).1 hz with rfl | hz
      · unfold admitsBefore
        omega
      · exact hy z hz
    · rename_i hlt
      have hxy : admitsBefore x y := .inl (by omega)
      refine List.pairwise_cons.2 ⟨fun z hz => ?_, h⟩
      rcases List.mem_cons.1 hz with rfl | hz
      · exact hxy
      · exact admitsBefore_trans hxy (hy z hz)

theorem foldl_insertByAge (xs acc : List (Port × Nat)) (hacc : acc.Pairwise admitsBefore)
    (hxs : xs.Pairwise (fun x y => portCode x.1 < portCode y.1)) (hlt : ∀ y ∈ acc, ∀ x ∈ xs, portCode y.1 < portCode x.1) :
    (xs.foldl (fun acc x => insertByAge x acc) acc).Pairwise admitsBefore
      ∧ ∀ y, y ∈ xs.foldl (fun acc x => insertByAge x acc) acc ↔ y ∈ acc ∨ y ∈ xs := by
  induction xs generalizing acc with
  | nil => exact ⟨hacc, by simp⟩
  | cons x xs ih =>
    obtain ⟨hx, hxs'⟩ := List.pairwise_cons.1 hxs
    obtain ⟨h1, h2⟩ := ih (insertByAge x acc)
      (insertByAge_pairwise hacc fun y hy => hlt y hy x (List.mem_cons_self ..)) hxs' (fun y hy z hz => by
        rcases (mem_insertByAge x y acc).1 hy with rfl | hy
        · exact hx z hz
        · exact hlt y hy z (List.mem_cons_of_mem _ hz))
    refine ⟨h1, fun y => (h2 y).trans ?_⟩
    rw [mem_insertByAge, List.mem_cons]
    tauto

theorem parkedByAge_spec (s : State) :
    s.parkedByAge.Pairwise (fun p q => s.poolAge q < s.poolAge p ∨ (s.poolAge q = s.poolAge p ∧ portCode p < portCode q))
      ∧ ∀ p, p ∈ s.parkedByAge ↔ s.waitsForPool p := by
  obtain ⟨hsorted, hmem⟩ := foldl_insertByAge (allPorts.filterMap (fun p => (s.parkAge p).map (fun a => (p, a)))) [] .nil
    (by
      refine List.Pairwise.filterMap _ (R := fun p q => portCode p < portCode q) ?_ (by decide)
      intro p q hpq x hx y hy
      simp only [Option.map_eq_some_iff] at hx hy
      obtain ⟨_, -, rfl⟩ := hx
      obtain ⟨_, -, rfl⟩ := hy
      exact hpq)
    (by simp)
  have hof : ∀ x, x ∈ (allPorts.filterMap (fun p => (s.parkAge p).map (fun a => (p, a)))).foldl
      (fun acc x => insertByAge x acc) [] ↔ s.waitsForPool x.1 ∧ x.2 = s.poolAge x.1 := by
    intro x
    simp only [hmem, List.not_mem_nil, false_or, List.mem_filterMap, Option.map_eq_some_iff, parkAge_eq_some_iff]
    constructor
    · rintro ⟨p, -, a, h, rfl⟩
      exact h
    · intro h
      exact ⟨x.1, by cases x.1 <;> decide, x.2, h, rfl⟩
  refine ⟨List.pairwise_map.2 (hsorted.imp_of_mem fun {x y} hx hy h => ?_), fun p => ?_⟩
  · have h1 := (hof x).1 hx
    have h2 := (hof y).1 hy
    unfold admitsBefore at h
    rw [h1.2, h2.2] at h
    exact h
  · unfold State.parkedByAge
    rw [List.mem_map]
    constructor
    · rintro ⟨x, hx, rfl⟩
      exact ((hof x).1 hx).1
    · exact fun h => ⟨(p, s.poolAge p), (hof _).2 ⟨h, rfl⟩, rfl⟩

/-- One port admitted and welcomed again (R153). -/
def readmit (p : Port) (w : Ev) : Ev := decideFrame p (.welcome .outlet Config.baseVoltage) (admitPort p w)

theorem readmit_port_self (p : Port) (w : Ev) : ∃ o, (readmit p w).port p
    = { w.port p with state := .outletBase, parkReason := none, order := o }
      ∧ ((w.port p).restartOwed = false → OutFrame.welcome .outlet 5000 ∈ o) := by
  have hadmit : (admitPort p w).port p = { w.port p with state := .outletBase, parkReason := none } := by simp [admitPort]
  have hport := decideFrame_port_self p (.welcome .outlet Config.baseVoltage) (admitPort p w)
  rw [hadmit] at hport
  refine ⟨_, hport, fun hr => ?_⟩
  rw [show (PortRec.restartOwed { w.port p with state := .outletBase, parkReason := none }) = false from hr]
  exact mem_placeFrame _ _

theorem readmit_port_of_ne {p q : Port} (h : q ≠ p) (w : Ev) : (readmit p w).port q = w.port q := by
  rw [readmit, decideFrame_port_of_ne h, admitPort]
  simp [h]

theorem readmit_outlet (p : Port) (w : Ev) (h : w.outlet.hasEntry p = false) : (readmit p w).outlet =
    { w.outlet with
      grants := w.outlet.grants ++ [⟨p, .base, 500, w.time, .off⟩], drives := w.outlet.drives.set p .closed
      parkTime := w.outlet.parkTime.set p none } := by
  have hfilter : w.outlet.grants.filter (·.port != p) = w.outlet.grants := by
    refine List.filter_eq_self.2 fun g hg => bne_iff_ne.2 fun heq => ?_
    rw [(hasEntry_iff w.outlet p).2 (heq ▸ List.mem_map_of_mem hg)] at h
    cases h
  have hadmit : (readmit p w).outlet = { w.outlet with
      grants := w.outlet.grants.filter (·.port != p) ++ [⟨p, .base, 500, w.time, .off⟩]
      drives := w.outlet.drives.set p .closed
      parkTime := w.outlet.parkTime.set p none } := rfl
  rw [hadmit, hfilter]

/-- What the pass makes of a list of ports without entries: it admits its front, as far as the room goes. -/
theorem admitInOrder_spec (ps : List Port) (w : Ev) (hnodup : ps.Nodup) (hfree : ∀ p ∈ ps, w.outlet.hasEntry p = false) :
    ∃ admitted left, ps = admitted ++ left
      ∧ (admitInOrder ps w).outlet.grants = w.outlet.grants ++ admitted.map (fun p => ⟨p, .base, 500, w.time, .off⟩)
      ∧ (admitInOrder ps w).outlet.pool = w.outlet.pool
      ∧ (admitted ≠ [] → sumCurrents (admitInOrder ps w).outlet.grants ≤ w.outlet.pool)
      ∧ (left ≠ [] → (admitInOrder ps w).outlet.freeRoom < 500)
      ∧ (∀ p ∈ admitted, ((admitInOrder ps w).port p).state = .outletBase ∧ ((admitInOrder ps w).port p).parkReason = none
        ∧ (admitInOrder ps w).outlet.drives.get p = .closed ∧ (admitInOrder ps w).outlet.parkTime.get p = none
        ∧ ((w.port p).restartOwed = false → OutFrame.welcome .outlet 5000 ∈ ((admitInOrder ps w).port p).order))
      ∧ (∀ p, p ∉ admitted → (admitInOrder ps w).port p = w.port p
        ∧ (admitInOrder ps w).outlet.drives.get p = w.outlet.drives.get p
        ∧ (admitInOrder ps w).outlet.parkTime.get p = w.outlet.parkTime.get p)
      ∧ (admitInOrder ps w).feeds = w.feeds ∧ (admitInOrder ps w).link = w.link := by
  induction ps generalizing w with
  | nil => exact ⟨[], [], rfl, by simp [admitInOrder], rfl, by simp, by simp, by simp, fun _ _ => ⟨rfl, rfl, rfl⟩, rfl, rfl⟩
  | cons p ps ih =>
    obtain ⟨hp, hps⟩ := List.nodup_cons.1 hnodup
    rw [admitInOrder]
    split
    · rename_i hroom
      have hentry := hfree p (List.mem_cons_self ..)
      have houtlet := readmit_outlet p w hentry
      have hsum : sumCurrents w.outlet.grants + 500 ≤ w.outlet.pool := by
        have hroom' : 500 ≤ w.outlet.pool - sumCurrents w.outlet.grants := hroom
        omega
      obtain ⟨admitted, left, hsplit, hgrants, hpool, hwithin, hfull, hin, hout, hfeeds, hlink⟩ := ih (readmit p w) hps (by
        intro q hq
        have hne : q ≠ p := fun h => hp (h ▸ hq)
        have hno := hfree q (List.mem_cons_of_mem _ hq)
        rw [← Bool.not_eq_true, hasEntry_iff] at hno ⊢
        rw [houtlet]
        simpa [hne] using hno)
      have htime : (readmit p w).time = w.time := rfl
      rw [houtlet, htime] at hgrants
      rw [houtlet] at hpool hwithin hout
      have hp' : p ∉ admitted := fun h => hp (hsplit ▸ List.mem_append_left _ h)
      refine ⟨p :: admitted, left, by rw [hsplit, List.cons_append], ?_, hpool, fun _ => ?_, hfull, fun q hq => ?_,
        fun q hq => ?_, hfeeds, hlink⟩
      · rw [← readmit, hgrants]
        simp
      · by_cases hnil : admitted = []
        · rw [← readmit, hgrants, hnil]
          simpa using hsum
        · exact hwithin hnil
      · rcases List.mem_cons.1 hq with rfl | hq
        · obtain ⟨hport, hdrive, htime⟩ := hout q hp'
          obtain ⟨o, hself, horder⟩ := readmit_port_self q w
          rw [← readmit, hport, hdrive, htime, hself]
          exact ⟨rfl, rfl, by simp, by simp, horder⟩
        · have hne : q ≠ p := fun h => hp' (h ▸ hq)
          have := hin q hq
          rw [readmit_port_of_ne hne] at this
          exact this
      · obtain ⟨hne, hq⟩ := not_or.1 (fun h => hq (List.mem_cons.2 h))
        obtain ⟨hport, hdrive, htime⟩ := hout q hq
        rw [← readmit, hport, hdrive, htime, readmit_port_of_ne hne]
        exact ⟨rfl, by simp [hne], by simp [hne]⟩
    · rename_i hroom
      exact ⟨[], p :: ps, rfl, by simp, rfl, by simp, fun _ => Nat.lt_of_not_le hroom, by simp,
        fun _ _ => ⟨rfl, rfl, rfl⟩, rfl, rfl⟩

/-- Settles O48. -/
theorem shrinkKeepsTheOldestWithinThePool : Obligations.ShrinkKeepsTheOldestWithinThePool := by
  refine ⟨fun w => ?_, fun w hno => ?_⟩
  · have hact := shrinkPool_act w
    have hgrants := shrinkPool_grants w
    have hzip : ∀ q ∈ (shrinkPool w).outlet.grants.zip w.outlet.grants,
        q ∈ (w.outlet.cutNewest.zip w.outlet.grants.reverse) := by
      have hlen : w.outlet.cutNewest.length = w.outlet.grants.length := by simp [Outlet.cutNewest]
      have hsplit := removed_append_kept w.outlet.pool w.outlet.cutNewest
      intro q hq
      have hcut : w.outlet.cutNewest.reverse = (shrinkPool w).outlet.grants
          ++ (removedEntries w.outlet.pool w.outlet.cutNewest).reverse := by
        rw [hgrants, ← List.reverse_append, hsplit]
      have : q ∈ w.outlet.cutNewest.reverse.zip w.outlet.grants := by
        rw [hcut]
        obtain ⟨n, hn⟩ := List.mem_iff_getElem?.1 hq
        refine List.mem_iff_getElem?.2 ⟨n, ?_⟩
        rw [List.getElem?_zip_eq_some] at hn ⊢
        exact ⟨by rw [List.getElem?_append_left (List.getElem?_eq_some_iff.1 hn.1).1]; exact hn.1, hn.2⟩
      rw [← List.mem_reverse, List.zip_eq_zipWith, List.reverse_zipWith (by simpa using hlen), List.reverse_reverse,
        ← List.zip_eq_zipWith]
      exact this
    refine ⟨?_, shrinkPool_pool w, ⟨_, (shrinkPool_ports w).symm⟩, fun q hq => ?_, fun g hg hgone => ?_,
      shrinkPool_notice w, hact.feeds, congrArg Rest.tables hact.rest, congrArg Rest.traps hact.rest,
      w.outlet.cutNewest, (removedEntries w.outlet.pool w.outlet.cutNewest).length, by simp [Outlet.cutNewest], ?_,
      removedEntries_fewest _ _, fun n g h hg hh => ?_⟩
    · rw [hgrants, sumCurrents_reverse]
      exact keptEntries_sum _ _
    · obtain ⟨heq, hle, hmin, hbase⟩ := cutEntries_spec _ _ q (hzip q hq)
      exact ⟨congrArg (·.kind) heq, congrArg (·.admitted) heq, hle, hmin, hbase⟩
    · exact shrinkPool_expels w ((hasEntry_iff _ _).2 (List.mem_map_of_mem hg)) hgone
    · rw [hgrants, keptEntries_eq_drop]
    · obtain ⟨hval, hsum⟩ := cutEntries_getElem? _ _ n g h hg hh
      refine ⟨?_, fun hlt hnodup hr => ?_⟩
      · have htotal : sumCurrents w.outlet.grants.reverse
            = sumCurrents (w.outlet.grants.reverse.take n) + sumCurrents (w.outlet.grants.reverse.drop n) := by
          rw [← sumCurrents_append, List.take_append_drop]
        rw [hval]
        congr 4
        unfold Outlet.cutNewest
        omega
      · have hport : h.port = g.port := by rw [hval]
        rw [shrinkPool_eq, expelPorts_order, ← hport]
        refine announceCuts_order (c := (h.port, h.current)) ?_ (mem_cutsMade hg hh hlt) _ ?_
        · refine (cutsMade_sublist _ _).nodup ?_
          rw [Outlet.cutNewest, cut_ports]
          exact List.nodup_reverse.2 hnodup
        · rw [hport]
          exact hr
  · obtain ⟨hsorted, hmem⟩ := parkedByAge_spec w.toState
    have hnodup : w.parkedByAge.Nodup := hsorted.imp fun {p q} h heq => by
      subst heq
      omega
    obtain ⟨admitted, left, hsplit, hgrants, -, hwithin, hfull, hin, hout, hfeeds, hlink⟩ :=
      admitInOrder_spec w.parkedByAge w hnodup (fun p hp => by
        rw [← Bool.not_eq_true]
        exact fun h => hno p h ((hmem p).1 hp).1)
    rw [hsplit] at hsorted
    obtain ⟨hfront, -, hacross⟩ := List.pairwise_append.1 hsorted
    refine ⟨admitted, fun p hp => (hmem p).1 (hsplit ▸ List.mem_append_left _ hp), hfront, hgrants, hwithin,
      fun p hp hnot => ?_, hin, fun p hp => (hout p hp).1, hfeeds, hlink⟩
    have hleft : p ∈ left := by
      have := (hmem p).2 hp
      rw [hsplit] at this
      exact (List.mem_append.1 this).resolve_left hnot
    exact ⟨hfull (List.ne_nil_of_mem hleft), fun q hq => hacross q hq p hleft⟩

end Sys2Proof.Machine
end

