-- ==== Sys2Proof/Proofs/StepEnds.lean ====
section
/-! PROOFS. The end of the step in flight (R99, R115): what it writes and what it leaves. -/
namespace Sys2Proof.Machine

/-! ## The step in flight ends -/

theorem endStep_eq {w : Ev} {st : PlanStep} (h : w.inFlight = some st) (status : StepStatus) : endStep status w =
    { w with
      control := { w.control with
        plan := w.control.plan.map (fun x => if x.status == .inFlight then { x with status := status } else x) }
      ended := some { st with status := status } } := by
  simp [endStep, h]

section
variable (status : StepStatus) (w : Ev)

@[simp] theorem endStep_ports : (endStep status w).ports = w.ports := by unfold endStep; split <;> rfl
@[simp] theorem endStep_feeds : (endStep status w).feeds = w.feeds := by unfold endStep; split <;> rfl
@[simp] theorem endStep_outlet : (endStep status w).outlet = w.outlet := by unfold endStep; split <;> rfl
@[simp] theorem endStep_link : (endStep status w).link = w.link := by unfold endStep; split <;> rfl
@[simp] theorem endStep_trig : (endStep status w).trig = w.trig := by unfold endStep; split <;> rfl
@[simp] theorem endStep_readmit : (endStep status w).readmit = w.readmit := by unfold endStep; split <;> rfl
@[simp] theorem endStep_trim : (endStep status w).control.trim = w.control.trim := by unfold endStep; split <;> rfl
@[simp] theorem endStep_tables : (endStep status w).tables = w.tables := by unfold endStep; split <;> rfl
@[simp] theorem endStep_port (q : Port) : (endStep status w).port q = w.port q := by unfold endStep; split <;> rfl
@[simp] theorem endStep_feed (f : Feed) : (endStep status w).feed f = w.feed f := by unfold endStep; split <;> rfl
@[simp] theorem endStep_closedOn (p : Port) : (endStep status w).closedOn p = w.closedOn p := by unfold endStep; split <;> rfl

end

/-- Of the controller a step's end writes its plan alone. -/
theorem endStep_control (status : StepStatus) (w : Ev) :
    (endStep status w).control = { w.control with plan := (endStep status w).control.plan } := by
  unfold endStep; split <;> rfl

/-! ## The step in flight fails (R115) -/

theorem failStep_eq {w : Ev} {st : PlanStep} (h : w.inFlight = some st) (r : FailReason) :
    failStep r w = raiseTrigger (setNotice .stepFailed (recordFailure st.port r (endStep (.failed r) w))) := by
  simp [failStep, h]

theorem failStep_of_none {w : Ev} (h : w.inFlight = none) (r : FailReason) : failStep r w = w := by simp [failStep, h]

theorem failStep_inFlight (r : FailReason) (w : Ev) : (failStep r w).inFlight = none := by
  cases h : w.inFlight with
  | none => rw [failStep_of_none h, h]
  | some st =>
    rw [failStep_eq h]
    exact endStep_inFlight (by simp) w

section
variable (r : FailReason) (w : Ev)

@[simp] theorem failStep_feeds : (failStep r w).feeds = w.feeds := by unfold failStep; split <;> simp [recordFailure]
@[simp] theorem failStep_outlet : (failStep r w).outlet = w.outlet := by unfold failStep; split <;> simp [recordFailure]
@[simp] theorem failStep_readmit : (failStep r w).readmit = w.readmit := by unfold failStep; split <;> simp [recordFailure]
@[simp] theorem failStep_trim : (failStep r w).control.trim = w.control.trim := by
  unfold failStep; split <;> simp [recordFailure]
@[simp] theorem failStep_feed (f : Feed) : (failStep r w).feed f = w.feed f := by
  unfold failStep; split <;> simp [recordFailure]

end

/-! ## The steps that name a port -/

theorem exchangeOn_iff (s : State) (p : Port) :
    s.exchangeOn p = true ↔ ∃ st, s.inFlight = some st ∧ st.kind.isExchange = true ∧ st.port = p := by
  unfold State.exchangeOn
  cases s.inFlight with
  | none => simp
  | some st => simp

theorem closeStepOn_iff (s : State) (p : Port) :
    s.closeStepOn p = true ↔ ∃ st, s.inFlight = some st ∧ st.kind = .closeSwitch ∧ st.port = p := by
  unfold State.closeStepOn
  cases s.inFlight with
  | none => simp
  | some st => simp

theorem closeStepOn_of_none {s : State} (h : s.inFlight = none) (p : Port) : s.closeStepOn p = false := by
  simp [State.closeStepOn, h]

/-- An exchange in flight is no CLOSE. -/
theorem closeStepOn_of_exchangeOn {s : State} {p : Port} (h : s.exchangeOn p = true) (q : Port) : s.closeStepOn q = false := by
  obtain ⟨st, hst, hkind, -⟩ := (exchangeOn_iff s p).1 h
  rw [← Bool.not_eq_true, closeStepOn_iff]
  rintro ⟨st', hst', hclose, -⟩
  rw [hst] at hst'
  cases hst'
  rw [hclose] at hkind
  cases hkind

/-- A step names one port. -/
theorem exchangeOn_of_ne {s : State} {p q : Port} (h : s.exchangeOn p = true) (hq : q ≠ p) : s.exchangeOn q = false := by
  obtain ⟨st, hst, -, hport⟩ := (exchangeOn_iff s p).1 h
  rw [← Bool.not_eq_true, exchangeOn_iff]
  rintro ⟨st', hst', -, hport'⟩
  rw [hst] at hst'
  cases hst'
  exact hq (hport'.symm.trans hport)

/-- What a failed step makes of an event, when its step names the port: the reason recorded there, STEP_FAILED, a trigger. -/
structure StepFails (p : Port) (r : FailReason) (w v : Ev) : Prop where
  port : v.port p = { w.port p with lastFailure := r }
  others : ∀ q, q ≠ p → v.port q = w.port q
  trig : v.trig = true
  link : v.link = (setNotice .stepFailed w).link
  control : v.control = { w.control with plan := v.control.plan }
  inFlight : v.inFlight = none
  ended : ∀ st, w.inFlight = some st → v.ended = some { st with status := .failed r }

theorem failStep_fails {w : Ev} {st : PlanStep} (h : w.inFlight = some st) (r : FailReason) :
    StepFails st.port r w (failStep r w) := by
  have heq := failStep_eq h r
  refine ⟨?_, fun q hq => ?_, ?_, ?_, ?_, failStep_inFlight r w, fun st' h' => ?_⟩
  · rw [heq]
    simp [recordFailure]
  · rw [heq]
    simp [recordFailure, hq]
  · rw [heq]
    rfl
  · rw [heq]
    simp [recordFailure]
  · rw [heq]
    exact endStep_control _ w
  · rw [h] at h'
    cases h'
    rw [heq]
    simp [recordFailure, endStep_eq h]

theorem failExchange_of_on {w : Ev} {p : Port} (h : w.exchangeOn p = true) (r : FailReason) :
    failExchange p r w = failStep r w ∧ StepFails p r w (failExchange p r w) := by
  obtain ⟨st, hst, -, rfl⟩ := (exchangeOn_iff w.toState p).1 h
  have heq : failExchange st.port r w = failStep r w := by simp [failExchange, h]
  exact ⟨heq, heq ▸ failStep_fails hst r⟩

theorem failExchange_of_off {w : Ev} {p : Port} (h : w.exchangeOn p = false) (r : FailReason) : failExchange p r w = w := by
  simp [failExchange, h]

theorem failClose_of_on {w : Ev} {p : Port} (h : w.closeStepOn p = true) (r : FailReason) :
    failClose p r w = failStep r w ∧ StepFails p r w (failClose p r w) := by
  obtain ⟨st, hst, -, rfl⟩ := (closeStepOn_iff w.toState p).1 h
  have heq : failClose st.port r w = failStep r w := by simp [failClose, h]
  exact ⟨heq, heq ▸ failStep_fails hst r⟩

theorem failClose_of_off {w : Ev} {p : Port} (h : w.closeStepOn p = false) (r : FailReason) : failClose p r w = w := by
  simp [failClose, h]

section
variable (p : Port) (r : FailReason) (w : Ev)

@[simp] theorem failExchange_feeds : (failExchange p r w).feeds = w.feeds := by unfold failExchange; split <;> simp
@[simp] theorem failExchange_outlet : (failExchange p r w).outlet = w.outlet := by unfold failExchange; split <;> simp
@[simp] theorem failExchange_trim : (failExchange p r w).control.trim = w.control.trim := by
  unfold failExchange; split <;> simp
@[simp] theorem failExchange_feed (f : Feed) : (failExchange p r w).feed f = w.feed f := by unfold failExchange; split <;> simp
@[simp] theorem failExchange_closedOn (q : Port) : (failExchange p r w).closedOn q = w.closedOn q := by simp [State.closedOn]
@[simp] theorem failExchange_closeChecking (q : Port) : (failExchange p r w).closeChecking q = w.closeChecking q := by
  simp [State.closeChecking]
@[simp] theorem failExchange_port_self : (failExchange p r w).port p =
    { w.port p with lastFailure := if w.exchangeOn p then r else (w.port p).lastFailure } := by
  cases h : w.exchangeOn p with
  | true => exact (failExchange_of_on h r).2.port
  | false => rw [failExchange_of_off h]; rfl
theorem failExchange_port_of_ne {q : Port} (hq : q ≠ p) : (failExchange p r w).port q = w.port q := by
  cases h : w.exchangeOn p with
  | true => exact (failExchange_of_on h r).2.others q hq
  | false => rw [failExchange_of_off h]

@[simp] theorem failClose_feeds : (failClose p r w).feeds = w.feeds := by unfold failClose; split <;> simp
@[simp] theorem failClose_outlet : (failClose p r w).outlet = w.outlet := by unfold failClose; split <;> simp
@[simp] theorem failClose_trim : (failClose p r w).control.trim = w.control.trim := by unfold failClose; split <;> simp
@[simp] theorem failClose_feed (f : Feed) : (failClose p r w).feed f = w.feed f := by unfold failClose; split <;> simp
@[simp] theorem failClose_closedOn (q : Port) : (failClose p r w).closedOn q = w.closedOn q := by simp [State.closedOn]
@[simp] theorem failClose_port_self : (failClose p r w).port p =
    { w.port p with lastFailure := if w.closeStepOn p then r else (w.port p).lastFailure } := by
  cases h : w.closeStepOn p with
  | true => exact (failClose_of_on h r).2.port
  | false => rw [failClose_of_off h]; rfl
@[simp] theorem doneExchange_ports : (doneExchange p w).ports = w.ports := by unfold doneExchange; split <;> simp
@[simp] theorem doneExchange_feeds : (doneExchange p w).feeds = w.feeds := by unfold doneExchange; split <;> simp
@[simp] theorem doneExchange_outlet : (doneExchange p w).outlet = w.outlet := by unfold doneExchange; split <;> simp
@[simp] theorem doneExchange_link : (doneExchange p w).link = w.link := by unfold doneExchange; split <;> simp
@[simp] theorem doneExchange_trig : (doneExchange p w).trig = w.trig := by unfold doneExchange; split <;> simp
@[simp] theorem doneExchange_port (q : Port) : (doneExchange p w).port q = w.port q := by unfold doneExchange; split <;> simp
@[simp] theorem doneExchange_feed (f : Feed) : (doneExchange p w).feed f = w.feed f := by unfold doneExchange; split <;> simp
@[simp] theorem doneExchange_closedOn (q : Port) : (doneExchange p w).closedOn q = w.closedOn q := by simp [State.closedOn]

end

theorem doneExchange_ended {p : Port} {w : Ev} {st : PlanStep} (hst : w.inFlight = some st) (h : w.exchangeOn p = true) :
    (doneExchange p w).ended = some { st with status := .done } := by
  simp [doneExchange, h, endStep_eq hst]

theorem failExchange_notice {p : Port} {w : Ev} (h : w.exchangeOn p = true) (r : FailReason) :
    (failExchange p r w).link.noticeSet .stepFailed = true ∧ (failExchange p r w).trig = true := by
  have hf := (failExchange_of_on h r).2
  exact ⟨by rw [hf.link]; exact noticeSet_setNotice_self _ w, hf.trig⟩

end Sys2Proof.Machine
end

