-- ==== Sys2Proof/Proofs/PortSpecs.lean ====
section
/-! PROOFS. What the shared port operations make of their port's record and feed: a contract removed, a negotiation cleared, a
restart in either direction (R47 to R49, R132). The allocator may write state, park reason and order of a port that holds an
entry; an operation that writes them afterwards leaves an exact record. -/
namespace Sys2Proof.Machine

/-! ## What the allocator leaves of a port record -/

/-- A port record that the allocator may have written: nothing without an entry, else state, park reason and order, in which
every waiting frame but CUT stays and none but CUT joins. -/
def PortRec.poolTouched (entry : Bool) (r q : PortRec) : Prop :=
  (∃ st pr o, q = { r with state := st, parkReason := pr, order := o }
      ∧ (∀ f ∈ r.order, f.kindCode ≠ 0x0D#8 → f ∈ o) ∧ (st = r.state ∨ st = .parked))
    ∧ (entry = false → q = r) ∧ ∀ f ∈ q.order, f ∈ r.order ∨ f.kindCode = 0x0D#8

theorem poolTouched_refl (entry : Bool) (r : PortRec) : r.poolTouched entry r := 
  ⟨⟨_, _, _, rfl, fun _ h _ => h, .inl rfl⟩, fun _ => rfl, fun _ => .inl⟩

theorem PoolAct.touched {w v : Ev} (h : PoolAct (fun q => w.outlet.hasEntry q = true) w v) (q : Port) :
    (w.port q).poolTouched (w.outlet.hasEntry q) (v.port q) :=
  ⟨h.port q, fun hno => (h.alone q (by simp [hno])).1, h.frames q⟩

/-- A notice flag is set after another was set: it stood, or it is that one. -/
theorem noticeSet_setNotice_iff (n m : Notice) (w : Ev) :
    (setNotice m w).link.noticeSet n = true ↔ w.link.noticeSet n = true ∨ n = m := by
  have h : (noticeMask m).getLsbD (noticeBit n) = decide (n = m) := by cases n <;> cases m <;> decide
  simp only [Link.noticeSet, setNotice_link, BitVec.getLsbD_or, h, Bool.or_eq_true, decide_eq_true_eq]

theorem foldl_notices {α : Type} {g : Ev → α → Ev} {m : Notice}
    (hg : ∀ w x, ∀ n, (g w x).link.noticeSet n = true → w.link.noticeSet n = true ∨ n = m) (xs : List α) (w : Ev) (n : Notice)
    (h : (xs.foldl g w).link.noticeSet n = true) : w.link.noticeSet n = true ∨ n = m := by
  induction xs generalizing w with
  | nil => exact .inl h
  | cons x xs ih => exact (ih (g w x) h).elim (hg w x n) .inr

theorem announceCut_notices (w : Ev) (c : Port × Nat) (n : Notice) (h : (announceCut w c).link.noticeSet n = true) :
    w.link.noticeSet n = true ∨ n = .outletCut := (noticeSet_setNotice_iff n _ (decideFrame c.1 (.cut c.2) w)).1 h

theorem expelPort_notices (w : Ev) (g : GrantEntry) (n : Notice) (h : (expelPort w g).link.noticeSet n = true) :
    w.link.noticeSet n = true ∨ n = .outletCut :=
  (noticeSet_setNotice_iff n _ (updOutlet (fun o => { o with drives := o.drives.set g.port .opened })
    (parkForPool g.port w))).1 h

/-- The allocator sets no notice but OUTLET_CUT (R152). -/
theorem recomputePool_notices (w : Ev) (n : Notice) (h : (recomputePool w).link.noticeSet n = true) :
    w.link.noticeSet n = true ∨ n = .outletCut := by
  have hshrink : ∀ w : Ev, (shrinkPool w).link.noticeSet n = true → w.link.noticeSet n = true ∨ n = .outletCut := by
    intro w h
    rw [shrinkPool_eq] at h
    rcases foldl_notices expelPort_notices _ _ n h with h | h
    · have hcut := foldl_notices announceCut_notices _ _ n h
      rwa [updOutlet_link] at hcut
    · exact .inr h
  unfold recomputePool at h
  dsimp only at h
  split at h
  · have hold := hshrink _ h
    rwa [updOutlet_link] at hold
  · split at h
    · exact .inl h
    · exact .inl h

@[simp] theorem recomputePool_control (w : Ev) : (recomputePool w).control = w.control := (recomputePool_act w).control
@[simp] theorem recomputePool_trig (w : Ev) : (recomputePool w).trig = w.trig := (recomputePool_act w).trig
@[simp] theorem recomputePool_ended (w : Ev) : (recomputePool w).ended = w.ended := (recomputePool_act w).ended
@[simp] theorem recomputePool_feed (w : Ev) (f : Feed) : (recomputePool w).feed f = w.feed f := by
  rw [State.feed, recomputePool_feeds]; rfl

/-- Where the pool takes a port's entry, its switch drive is open (R152). -/
theorem recomputePool_drive {w : Ev} {p : Port} (h : w.outlet.hasEntry p = true)
    (hgone : (recomputePool w).outlet.hasEntry p = false) : (recomputePool w).outlet.drives.get p = .opened := by
  have hpool : ∀ u : Ev, u.outlet.hasEntry p = w.outlet.hasEntry p → u.outlet.hasEntry p = false →
      u.outlet.drives.get p = .opened := by
    intro u hu hno
    rw [hu, h] at hno
    cases hno
  unfold recomputePool at hgone ⊢
  dsimp only at hgone ⊢
  split at hgone
  · rename_i hlt
    rw [if_pos hlt]
    exact (shrinkPool_expels (updOutlet (fun o => { o with pool := w.poolValue }) w) h hgone).2.2.1
  · rename_i hlt
    rw [if_neg hlt]
    split
    · rename_i hgrow
      rw [if_pos hgrow] at hgone
      exact hpool _ rfl hgone
    · rename_i hgrow
      rw [if_neg hgrow] at hgone
      exact hpool _ rfl hgone

/-! ## The feed of a port -/

theorem closedOn_iff (s : State) (p : Port) :
    s.closedOn p = true ↔ (s.feed (feedOf p)).powered = true ∧ (s.feed (feedOf p)).selected = some p := by
  unfold State.closedOn FeedRec.incumbent
  split <;> simp [*]

theorem closedOn_congr {s t : State} {p : Port} (hs : (t.feed (feedOf p)).powered = (s.feed (feedOf p)).powered)
    (hsel : (t.feed (feedOf p)).selected = (s.feed (feedOf p)).selected) : t.closedOn p = s.closedOn p := by
  rw [Bool.eq_iff_iff, closedOn_iff, closedOn_iff, hs, hsel]

theorem powered_iff (r : FeedRec) : r.powered = true ↔ r.state = .base ∨ r.state = .contract := by
  simp [FeedRec.powered]

/-- A powered feed checks no CLOSE and holds none. -/
theorem closeChecking_of_closedOn {s : State} {p q : Port} (h : s.closedOn p = true) (hf : feedOf q = feedOf p) :
    s.closeChecking q = false ∧ s.closeHeld q = false := by
  have hp := (powered_iff _).1 ((closedOn_iff s p).1 h).1
  unfold State.closeChecking State.closeHeld
  rw [hf]
  rcases hp with hp | hp <;> rw [hp] <;> exact ⟨rfl, rfl⟩

theorem leaveHeld_of_closedOn {w : Ev} {p q : Port} (h : w.closedOn p = true) (hf : feedOf q = feedOf p) : leaveHeld q w = w :=
  (leaveHeld_spec q w).2.2 (closeChecking_of_closedOn h hf).1 (closeChecking_of_closedOn h hf).2

/-- What the removal of its port's contract makes of a closed feed (R132). -/
def FeedRec.contractGone (trim : Option Nat) (r : FeedRec) : FeedRec :=
  if r.state = .contract then FeedRec.retarget trim { r with underVolt := .off, state := .base, view := none }
  else { r with underVolt := .off }

theorem retarget_output_le (t : Option Nat) (r : FeedRec) : (FeedRec.retarget t r).output ≤ limitTarget r t := by
  obtain ⟨_, h⟩ := retarget_spec t r
  rw [h]
  exact Nat.min_le_right _ _

theorem limitTarget_base_le {r : FeedRec} (h : r.state = .base) (t : Option Nat) : limitTarget r t ≤ 900 := by
  unfold limitTarget
  rw [h]
  exact (capBy_le _ _).trans (capBy_le _ _)

/-- A closed feed whose contract has gone stands in BASE, its switch as it was. -/
theorem contractGone_spec (t : Option Nat) (r : FeedRec) :
    (∃ st v o g m, r.contractGone t = { r with state := st, view := v, output := o, target := g, ramp := m, underVolt := .off })
      ∧ (r.powered = true → (r.contractGone t).state = .base)
      ∧ (r.state = .contract → (r.contractGone t).view = none ∧ (r.contractGone t).output ≤ 900) := by
  unfold FeedRec.contractGone
  split
  · rename_i h
    refine ⟨?_, fun _ => by simp, fun _ => ⟨by simp, (retarget_output_le _ _).trans (limitTarget_base_le rfl _)⟩⟩
    obtain ⟨m, hm⟩ := retarget_spec t { r with underVolt := .off, state := .base, view := none }
    exact ⟨_, _, _, _, _, hm⟩
  · rename_i h
    exact ⟨⟨_, _, _, _, _, rfl⟩, fun hp => ((powered_iff r).1 hp).resolve_right h, fun hc => absurd hc h⟩

/-! ## A contract removed (R132) -/

theorem updFeed_updFeed (f : Feed) (g h : FeedRec → FeedRec) (w : Ev) :
    updFeed f g (updFeed f h w) = updFeed f (fun r => g (h r)) w := by
  simp [updFeed]

theorem updFeed_congr {f : Feed} {g h : FeedRec → FeedRec} {w : Ev} (hg : g (w.feed f) = h (w.feed f)) :
    updFeed f g w = updFeed f h w := by
  unfold updFeed
  rw [show g (w.feeds.get f) = h (w.feeds.get f) from hg]

/-- The removal of a contract reported (R132): the feed's record, and the pool where a contract ends by it. -/
theorem reportRemoved_eq {p : Port} {w : Ev} (h : w.closedOn p = true) : reportRemoved p w =
    if (w.feed (feedOf p)).state = .contract then
      recomputePool (updFeed (feedOf p) (FeedRec.contractGone (w.control.trim.get (feedOf p))) w)
    else updFeed (feedOf p) (FeedRec.contractGone (w.control.trim.get (feedOf p))) w := by
  unfold reportRemoved
  rw [if_pos h]
  dsimp only
  rw [updFeed_feed_self]
  dsimp only
  split
  · rename_i hs
    rw [retarget, updFeed_updFeed, updFeed_updFeed]
    refine congrArg recomputePool (updFeed_congr ?_)
    rw [FeedRec.contractGone, if_pos hs]
    rfl
  · rename_i hs
    refine updFeed_congr ?_
    rw [FeedRec.contractGone, if_neg hs]

theorem reportRemoved_of_open {p : Port} {w : Ev} (h : w.closedOn p = false) : reportRemoved p w = w := by
  simp [reportRemoved, h]

theorem reportRemoved_feed (p : Port) (w : Ev) (f : Feed) : (reportRemoved p w).feed f =
    if f = feedOf p ∧ w.closedOn p = true then (w.feed f).contractGone (w.control.trim.get f) else w.feed f := by
  cases hc : w.closedOn p with
  | false => simp [reportRemoved_of_open hc]
  | true =>
    have hfeed : (reportRemoved p w).feed f
        = (updFeed (feedOf p) (FeedRec.contractGone (w.control.trim.get (feedOf p))) w).feed f := by
      rw [reportRemoved_eq hc]
      split
      · exact recomputePool_feed _ f
      · rfl
    rw [hfeed]
    by_cases hf : f = feedOf p
    · subst hf
      simp
    · simp [hf]

/-- The removal of a contract touches a port as the allocator may, and of the controller, trigger and step end nothing. -/
theorem reportRemoved_spec (p : Port) (w : Ev) :
    (∃ u, PoolAct (fun q => w.outlet.hasEntry q = true) u (reportRemoved p w) ∧ u.ports = w.ports ∧ u.outlet = w.outlet
      ∧ u.control = w.control ∧ u.link = w.link ∧ u.trig = w.trig ∧ u.ended = w.ended ∧ u.readmit = w.readmit
      ∧ ∀ n, (reportRemoved p w).link.noticeSet n = true → w.link.noticeSet n = true ∨ n = .outletCut)
      ∧ (w.outlet.hasEntry p = true → (reportRemoved p w).outlet.hasEntry p = false →
        (reportRemoved p w).outlet.drives.get p = .opened) := by
  have hkept : ∀ u : Ev, u.outlet = w.outlet → w.outlet.hasEntry p = true → u.outlet.hasEntry p = false →
      u.outlet.drives.get p = .opened := by
    intro u hu h hgone
    rw [hu, h] at hgone
    cases hgone
  cases hc : w.closedOn p with
  | false =>
    rw [reportRemoved_of_open hc]
    exact ⟨⟨_, .refl _, rfl, rfl, rfl, rfl, rfl, rfl, rfl, fun _ => .inl⟩, hkept w rfl⟩
  | true =>
    rw [reportRemoved_eq hc]
    split
    · have hact := recomputePool_act (updFeed (feedOf p) (FeedRec.contractGone (w.control.trim.get (feedOf p))) w)
      exact ⟨⟨_, hact, rfl, rfl, rfl, rfl, rfl, rfl, rfl, recomputePool_notices _⟩,
        recomputePool_drive (w := updFeed (feedOf p) (FeedRec.contractGone (w.control.trim.get (feedOf p))) w)⟩
    · exact ⟨⟨_, .refl _, rfl, rfl, rfl, rfl, rfl, rfl, rfl, fun _ => .inl⟩, hkept _ rfl⟩

theorem dropContract_of_none {p : Port} {w : Ev} (h : (w.port p).contract = none) : dropContract p w = w := by
  simp [dropContract, h]

theorem dropContract_of_some {p : Port} {w : Ev} (h : (w.port p).contract.isSome = true) : dropContract p w =
    reportRemoved p (setNotice .contractChanged (updPort p (fun r => { r with contract := none }) w)) := by
  simp [dropContract, h]

/-- What the removal of a contract does beside its port's record and its feed: what the allocator may do. -/
structure ContractGone (p : Port) (w v : Ev) : Prop where
  port : ({ w.port p with contract := none } : PortRec).poolTouched (w.outlet.hasEntry p) (v.port p)
  others : ∀ q, q ≠ p → (w.port q).poolTouched (w.outlet.hasEntry q) (v.port q)
  feed : v.feed (feedOf p) = if (w.port p).contract.isSome ∧ w.closedOn p = true then
    (w.feed (feedOf p)).contractGone (w.control.trim.get (feedOf p)) else w.feed (feedOf p)
  feeds : ∀ f, f ≠ feedOf p → v.feed f = w.feed f
  control : v.control = w.control
  trig : v.trig = w.trig
  ended : v.ended = w.ended
  readmit : w.readmit = true → v.readmit = true
  notices : ∀ n, w.link.noticeSet n = true → v.link.noticeSet n = true
  notice : (w.port p).contract.isSome = true → v.link.noticeSet .contractChanged = true
  only : ∀ n, v.link.noticeSet n = true → w.link.noticeSet n = true ∨ n = .contractChanged ∨ n = .outletCut
  entries : ∀ q, v.outlet.hasEntry q = true → w.outlet.hasEntry q = true
  drive : w.outlet.hasEntry p = true → v.outlet.hasEntry p = false → v.outlet.drives.get p = .opened
  alone : ∀ q, w.outlet.hasEntry q = false →
    v.outlet.parkTime.get q = w.outlet.parkTime.get q ∧ v.outlet.drives.get q = w.outlet.drives.get q

theorem dropContract_spec (p : Port) (w : Ev) : ContractGone p w (dropContract p w) := by
  cases hc : (w.port p).contract with
  | none =>
    rw [dropContract_of_none hc]
    have hself : ({ w.port p with contract := none } : PortRec) = w.port p := by rw [← hc]
    exact ⟨hself ▸ poolTouched_refl _ _, fun _ _ => poolTouched_refl _ _, by simp [hc], fun _ _ => rfl, rfl, rfl, rfl, id,
      fun _ => id, by simp [hc], fun _ => .inl, fun _ => id, (fun h hgone => by rw [h] at hgone; cases hgone), fun _ _ => ⟨rfl, rfl⟩⟩
  | some c =>
    have hsome : (w.port p).contract.isSome = true := by simp [hc]
    rw [dropContract_of_some hsome]
    generalize hx : setNotice .contractChanged (updPort p (fun r => { r with contract := none }) w) = x
    have hxp : x.port p = { w.port p with contract := none } := by rw [← hx]; simp
    have hxo : ∀ q, q ≠ p → x.port q = w.port q := fun q hq => by rw [← hx]; simp [hq]
    have houtlet : x.outlet = w.outlet := by rw [← hx]; rfl
    have hnotice : ∀ n, w.link.noticeSet n = true → x.link.noticeSet n = true := fun n hn => by
      rw [← hx]; exact noticeSet_setNotice n _ _ hn
    have hset : x.link.noticeSet .contractChanged = true := by rw [← hx]; exact noticeSet_setNotice_self _ _
    have hfeed : ∀ f, x.feed f = w.feed f := fun f => by rw [← hx]; rfl
    have hclosed : x.closedOn p = w.closedOn p := by rw [← hx]; rfl
    have hcontrol : x.control = w.control := by rw [← hx]; rfl
    have htrig : x.trig = w.trig ∧ x.ended = w.ended ∧ x.readmit = w.readmit := by rw [← hx]; exact ⟨rfl, rfl, rfl⟩
    obtain ⟨⟨u, hact, hports, huoutlet, hucontrol, hulink, hutrig, huended, hureadmit, honly⟩, hdrive⟩ := reportRemoved_spec p x
    have huport : ∀ q, u.port q = x.port q := fun q => by rw [State.port, hports]; rfl
    rw [← huoutlet] at hact
    have htouched := hact.touched
    rw [huoutlet, houtlet] at htouched
    refine ⟨?_, fun q hq => ?_, ?_, fun f hf => ?_, ?_, ?_, ?_, fun h => ?_, fun n hn => ?_, fun _ => ?_, fun n hn => ?_,
      fun q hq => ?_, ?_, fun q hq => ?_⟩
    · rw [← hxp, ← huport]
      exact htouched p
    · rw [← hxo q hq, ← huport]
      exact htouched q
    · rw [reportRemoved_feed, hfeed, hclosed, hcontrol]
      simp [hsome]
    · rw [reportRemoved_feed, if_neg (fun h => hf h.1), hfeed]
    · rw [hact.control, hucontrol, hcontrol]
    · rw [hact.trig, hutrig, htrig.1]
    · rw [hact.ended, huended, htrig.2.1]
    · exact hact.readmit (by rw [hureadmit, htrig.2.2, h])
    · exact hact.notices n (by rw [hulink]; exact hnotice n hn)
    · exact hact.notices _ (by rw [hulink]; exact hset)
    · rcases honly n hn with h | h
      · rw [← hx] at h
        exact ((noticeSet_setNotice_iff n _ _).1 h).imp_right .inl
      · exact .inr (.inr h)
    · have := hact.entries q hq
      rwa [huoutlet, houtlet] at this
    · rw [houtlet] at hdrive
      exact hdrive
    · have := hact.alone q (by rw [huoutlet, houtlet, hq]; decide)
      rw [huoutlet, houtlet] at this
      exact this.2

end Sys2Proof.Machine
end

