-- ==== Sys2Proof/Proofs/Negotiations.lean ====
section
/-! PROOFS. A negotiation cleared and a port restarted (R47 to R49): the record left, its feed and outlet entry. -/
namespace Sys2Proof.Machine

/-! ## Entering a state, leaving HELD, dropping a claim -/

@[simp] theorem updPort_closedOn (p q : Port) (g : PortRec → PortRec) (w : Ev) : (updPort p g w).closedOn q = w.closedOn q :=
  rfl

section
variable (p : Port) (st : PortState) (w : Ev)

@[simp] theorem enter_outlet : (enter p st w).outlet = w.outlet := by obtain ⟨_, h⟩ := enter_eq p st w; rw [h]; rfl
@[simp] theorem enter_control : (enter p st w).control = w.control := by obtain ⟨_, h⟩ := enter_eq p st w; rw [h]; rfl
@[simp] theorem enter_link : (enter p st w).link = w.link := by obtain ⟨_, h⟩ := enter_eq p st w; rw [h]; rfl
@[simp] theorem enter_traps : (enter p st w).traps = w.traps := by obtain ⟨_, h⟩ := enter_eq p st w; rw [h]; rfl
@[simp] theorem enter_tables : (enter p st w).tables = w.tables := by obtain ⟨_, h⟩ := enter_eq p st w; rw [h]; rfl
@[simp] theorem enter_trig : (enter p st w).trig = w.trig := by obtain ⟨_, h⟩ := enter_eq p st w; rw [h]; rfl
@[simp] theorem enter_ended : (enter p st w).ended = w.ended := by obtain ⟨_, h⟩ := enter_eq p st w; rw [h]; rfl
@[simp] theorem enter_readmit : (enter p st w).readmit = w.readmit := by obtain ⟨_, h⟩ := enter_eq p st w; rw [h]; rfl
@[simp] theorem enter_time : (enter p st w).time = w.time := by obtain ⟨_, h⟩ := enter_eq p st w; rw [h]; rfl

theorem enter_port_of_ne {q : Port} (h : q ≠ p) : (enter p st w).port q = w.port q := by
  unfold enter
  dsimp only
  split <;> simp [h]

theorem enter_feed (f : Feed) : (enter p st w).feed f =
    if f = feedOf p ∧ st ≠ .contract ∧ w.closedOn p = true then { w.feed f with underVolt := .off } else w.feed f := by
  unfold enter
  dsimp only
  rw [updPort_closedOn]
  by_cases hc : st ≠ .contract ∧ w.closedOn p = true
  · rw [if_pos hc]
    by_cases hf : f = feedOf p
    · subst hf
      rw [updFeed_feed_self, if_pos ⟨rfl, hc⟩]
      rfl
    · rw [updFeed_feed_of_ne _ _ hf, if_neg (fun h => hf h.1)]
      rfl
  · rw [if_neg hc, if_neg (fun h => hc h.2)]
    rfl

@[simp] theorem enter_closedOn (q : Port) : (enter p st w).closedOn q = w.closedOn q := by
  apply closedOn_congr <;> rw [enter_feed] <;> split <;> rfl

end

theorem updFeed_const (f : Feed) (w : Ev) : updFeed f (fun _ => w.feed f) w = w := by simp [updFeed, State.feed]

theorem contractChecking_iff (s : State) (p : Port) :
    s.contractChecking p = true ↔ ∃ v t, (s.feed (feedOf p)).check = .contract p v t := by
  unfold State.contractChecking
  cases (s.feed (feedOf p)).check <;> simp

/-- A port's CONTRACT_CHECK abandoned (R133). -/
def State.uncheckedFeed (s : State) (p : Port) : FeedRec :=
  if s.contractChecking p then { s.feed (feedOf p) with check := .idle } else s.feed (feedOf p)

theorem dropClaim_eq (p : Port) (w : Ev) : dropClaim p w =
    updFeed (feedOf p) (fun _ => w.uncheckedFeed p) (updPort p (fun r => { r with claim := none }) w) := by
  unfold dropClaim abandonCheck State.uncheckedFeed
  have hc : (updPort p (fun r => { r with claim := none }) w).contractChecking p = w.contractChecking p := rfl
  rw [hc]
  split
  · exact updFeed_congr rfl
  · exact (updFeed_const (feedOf p) (updPort p (fun r => { r with claim := none }) w)).symm

section
variable (p : Port) (w : Ev)

@[simp] theorem dropClaim_port_self : (dropClaim p w).port p = { w.port p with claim := none } := by simp [dropClaim_eq]
theorem dropClaim_port_of_ne {q : Port} (h : q ≠ p) : (dropClaim p w).port q = w.port q := by simp [dropClaim_eq, h]
theorem dropClaim_feed_self : (dropClaim p w).feed (feedOf p) = w.uncheckedFeed p := by simp [dropClaim_eq]
theorem dropClaim_feed_of_ne {f : Feed} (h : f ≠ feedOf p) : (dropClaim p w).feed f = w.feed f := by simp [dropClaim_eq, h]
@[simp] theorem dropClaim_outlet : (dropClaim p w).outlet = w.outlet := by rw [dropClaim_eq]; rfl
@[simp] theorem dropClaim_control : (dropClaim p w).control = w.control := by rw [dropClaim_eq]; rfl
@[simp] theorem dropClaim_link : (dropClaim p w).link = w.link := by rw [dropClaim_eq]; rfl
@[simp] theorem dropClaim_trig : (dropClaim p w).trig = w.trig := by rw [dropClaim_eq]; rfl
@[simp] theorem dropClaim_ended : (dropClaim p w).ended = w.ended := by rw [dropClaim_eq]; rfl
@[simp] theorem dropClaim_readmit : (dropClaim p w).readmit = w.readmit := by rw [dropClaim_eq]; rfl

/-- An abandoned check changes nothing of a feed but the check, unless a CONTRACT_CHECK of the port ran. -/
theorem uncheckedFeed_eq : ∃ c, w.uncheckedFeed p = { w.feed (feedOf p) with check := c }
    ∧ c = if w.contractChecking p then .idle else (w.feed (feedOf p)).check := by
  unfold State.uncheckedFeed
  split <;> exact ⟨_, rfl, rfl⟩

@[simp] theorem dropClaim_closedOn (q : Port) : (dropClaim p w).closedOn q = w.closedOn q := by
  obtain ⟨c, hc, -⟩ := uncheckedFeed_eq p w
  by_cases h : feedOf q = feedOf p
  · exact closedOn_congr (by rw [h, dropClaim_feed_self, hc]; rfl) (by rw [h, dropClaim_feed_self, hc])
  · apply closedOn_congr <;> rw [dropClaim_feed_of_ne p w h]

/-- A CLOSE_CHECK is no CONTRACT_CHECK. -/
@[simp] theorem dropClaim_closeChecking : (dropClaim p w).closeChecking p = w.closeChecking p := by
  obtain ⟨c, hc, hcheck⟩ := uncheckedFeed_eq p w
  unfold State.closeChecking
  rw [dropClaim_feed_self, hc, hcheck]
  by_cases h : w.contractChecking p = true
  · obtain ⟨v, t, hk⟩ := (contractChecking_iff w.toState p).1 h
    rw [if_pos h, hk]
    cases (w.feed (feedOf p)).state <;> rfl
  · rw [if_neg h]

theorem dropClaim_exchangeOn : (dropClaim p w).exchangeOn p = w.exchangeOn p := by
  simp only [State.exchangeOn, State.inFlight, dropClaim_control]

end

/-- What leaving HELD writes on the feed (R129). -/
def State.leftFeed (s : State) (p : Port) : FeedRec :=
  if s.closeChecking p then { (s.feed (feedOf p)).setDrive p .opened with selected := none, check := .idle }
  else if s.closeHeld p then { s.feed (feedOf p) with heldLost := true }
  else s.feed (feedOf p)

theorem leaveHeld_eq (p : Port) (w : Ev) : leaveHeld p w =
    if w.closeChecking p then failClose p .superseded (updFeed (feedOf p) (fun _ => w.leftFeed p) w)
    else updFeed (feedOf p) (fun _ => w.leftFeed p) w := by
  unfold leaveHeld dropCloseCheck State.leftFeed
  split
  · exact congrArg (failClose p .superseded) (updFeed_congr rfl)
  · split
    · exact updFeed_congr rfl
    · exact (updFeed_const (feedOf p) w).symm

/-- What leaving HELD does: its feed's record, and a CLOSE in flight on the port fails. -/
structure LeavesHeld (p : Port) (w v : Ev) : Prop where
  port : v.port p = { w.port p with
    lastFailure := if w.closeChecking p ∧ w.closeStepOn p then .superseded else (w.port p).lastFailure }
  others : ∀ q, q ≠ p → v.port q = w.port q
  feed : v.feed (feedOf p) = w.leftFeed p
  feeds : ∀ f, f ≠ feedOf p → v.feed f = w.feed f
  outlet : v.outlet = w.outlet
  trim : v.control.trim = w.control.trim
  readmit : v.readmit = w.readmit
  trig : w.trig = true → v.trig = true
  notices : ∀ n, w.link.noticeSet n = true → v.link.noticeSet n = true
  quiet : w.closeStepOn p = false ∨ w.closeChecking p = false →
    v.control = w.control ∧ v.ended = w.ended ∧ v.link = w.link ∧ v.trig = w.trig

theorem leaveHeld_leaves (p : Port) (w : Ev) : LeavesHeld p w (leaveHeld p w) := by
  have hquiet : LeavesHeld p w (updFeed (feedOf p) (fun _ => w.leftFeed p) w) ∨ w.closeChecking p = true ∧ w.closeStepOn p = true := by
    by_cases h : w.closeChecking p = true ∧ w.closeStepOn p = true
    · exact .inr h
    · refine .inl ⟨?_, fun _ _ => rfl, updFeed_feed_self _ _ _, fun f hf => updFeed_feed_of_ne _ _ hf, rfl, rfl, rfl, id,
        fun _ => id, fun _ => ⟨rfl, rfl, rfl, rfl⟩⟩
      rw [if_neg h]
      rfl
  rw [leaveHeld_eq]
  cases hc : w.closeChecking p with
  | false => exact hquiet.resolve_right (by simp [hc])
  | true =>
    rw [if_pos rfl]
    cases hs : w.closeStepOn p with
    | false =>
      rw [failClose_of_off (w := updFeed _ _ w) hs]
      exact hquiet.resolve_right (by simp [hs])
    | true =>
      have hfails := (failClose_of_on (w := updFeed (feedOf p) (fun _ => w.leftFeed p) w) hs .superseded).2
      refine ⟨?_, fun q hq => hfails.others q hq, ?_, fun f hf => ?_, by simp, by simp, ?_, fun _ => hfails.trig, fun n hn => ?_,
        fun h => ?_⟩
      · rw [hfails.port, if_pos ⟨hc, hs⟩]
        rfl
      · simp
      · simp [hf]
      · rw [(failClose_of_on (w := updFeed (feedOf p) (fun _ => w.leftFeed p) w) hs .superseded).1]
        simp
      · rw [hfails.link]
        exact noticeSet_setNotice n _ _ hn
      · simp [hc, hs] at h

/-! ## A negotiation cleared (R47, R48) -/

section
variable (p : Port) (w : Ev)

@[simp] theorem removeEntry_port (q : Port) : (removeEntry p w).port q = w.port q := by unfold removeEntry; split <;> rfl
@[simp] theorem removeEntry_ports : (removeEntry p w).ports = w.ports := by unfold removeEntry; split <;> rfl
@[simp] theorem removeEntry_feeds : (removeEntry p w).feeds = w.feeds := by unfold removeEntry; split <;> rfl
@[simp] theorem removeEntry_feed (f : Feed) : (removeEntry p w).feed f = w.feed f := by unfold removeEntry; split <;> rfl
@[simp] theorem removeEntry_control : (removeEntry p w).control = w.control := by unfold removeEntry; split <;> rfl
@[simp] theorem removeEntry_link : (removeEntry p w).link = w.link := by unfold removeEntry; split <;> rfl
@[simp] theorem removeEntry_trig : (removeEntry p w).trig = w.trig := by unfold removeEntry; split <;> rfl
@[simp] theorem removeEntry_ended : (removeEntry p w).ended = w.ended := by unfold removeEntry; split <;> rfl
@[simp] theorem removeEntry_parkTime : (removeEntry p w).outlet.parkTime = w.outlet.parkTime := by
  unfold removeEntry; split <;> rfl
@[simp] theorem removeEntry_closedOn (q : Port) : (removeEntry p w).closedOn q = w.closedOn q := by simp [State.closedOn]

theorem removeEntry_readmit (h : w.readmit = true) : (removeEntry p w).readmit = true := by
  unfold removeEntry; split
  · rfl
  · exact h

@[simp] theorem removeEntry_hasEntry_self : (removeEntry p w).outlet.hasEntry p = false := by
  unfold removeEntry
  split
  · rw [← Bool.not_eq_true, hasEntry_iff]
    simp
  · simpa using ‹¬ w.outlet.hasEntry p = true›

theorem removeEntry_hasEntry_of_ne {q : Port} (h : q ≠ p) : (removeEntry p w).outlet.hasEntry q = w.outlet.hasEntry q := by
  unfold removeEntry
  split
  · rw [Bool.eq_iff_iff, hasEntry_iff, hasEntry_iff]
    simp only [List.mem_map, List.mem_filter, bne_iff_ne]
    exact ⟨fun ⟨g, ⟨hg, _⟩, hp⟩ => ⟨g, hg, hp⟩, fun ⟨g, hg, hp⟩ => ⟨g, ⟨hg, fun hgp => h (hp.symm.trans hgp)⟩, hp⟩⟩
  · rfl

theorem removeEntry_drive (h : w.outlet.hasEntry p = true ∨ w.outlet.drives.get p = .opened) :
    (removeEntry p w).outlet.drives.get p = .opened := by
  unfold removeEntry
  split
  · simp
  · exact h.resolve_left ‹_›

theorem removeEntry_drive_of_ne {q : Port} (h : q ≠ p) :
    (removeEntry p w).outlet.drives.get q = w.outlet.drives.get q := by
  unfold removeEntry
  split
  · simp [h]
  · rfl

end

/-- The feed record after a negotiation is cleared (R132, R133). -/
def State.clearedFeed (s : State) (p : Port) : FeedRec :=
  if (s.port p).contract.isSome ∧ s.closedOn p = true then
    (s.uncheckedFeed p).contractGone (s.control.trim.get (feedOf p)) else s.uncheckedFeed p

/-- What the clearing of a negotiation leaves (R47, R48). -/
structure NegotiationCleared (p : Port) (w v : Ev) : Prop where
  port : ∃ st o, v.port p = { w.port p with
      claim := none, contract := none, sheet := [], partner := none, parkReason := none, state := st, order := o }
    ∧ (∀ f ∈ (w.port p).order, f.kindCode ≠ 0x0D#8 → f ∈ o)
    ∧ (w.outlet.hasEntry p = false → st = (w.port p).state ∧ o = (w.port p).order)
  frames : ∀ f ∈ (v.port p).order, f ∈ (w.port p).order ∨ f.kindCode = 0x0D#8
  others : ∀ q, q ≠ p → (w.port q).poolTouched (w.outlet.hasEntry q) (v.port q)
  feed : v.feed (feedOf p) = w.clearedFeed p
  feeds : ∀ f, f ≠ feedOf p → v.feed f = w.feed f
  control : v.control = w.control
  trig : v.trig = w.trig
  ended : v.ended = w.ended
  readmit : w.readmit = true → v.readmit = true
  notices : ∀ n, w.link.noticeSet n = true → v.link.noticeSet n = true
  notice : (w.port p).contract.isSome = true → v.link.noticeSet .contractChanged = true
  only : ∀ n, v.link.noticeSet n = true → w.link.noticeSet n = true ∨ n = .contractChanged ∨ n = .outletCut
  entry : v.outlet.hasEntry p = false
  entries : ∀ q, v.outlet.hasEntry q = true → w.outlet.hasEntry q = true
  drive : w.outlet.hasEntry p = true ∨ w.outlet.drives.get p = .opened → v.outlet.drives.get p = .opened
  parkTime : v.outlet.parkTime.get p = none
  alone : ∀ q, q ≠ p → w.outlet.hasEntry q = false →
    v.outlet.parkTime.get q = w.outlet.parkTime.get q ∧ v.outlet.drives.get q = w.outlet.drives.get q

theorem clearNegotiation_cleared (p : Port) (w : Ev) : NegotiationCleared p w (clearNegotiation p w) := by
  have hgone := dropContract_spec p (dropClaim p w)
  unfold clearNegotiation
  dsimp only
  generalize hv : dropContract p (dropClaim p w) = v at hgone ⊢
  generalize hu : unpark p (updPort p (fun r => { r with sheet := [], partner := none }) v) = u
  have huport : u.port p = { v.port p with sheet := [], partner := none, parkReason := none } := by
    rw [← hu]; simp [unpark, forgetParkTime]
  have huothers : ∀ q, q ≠ p → u.port q = v.port q := fun q hq => by rw [← hu]; simp [unpark, forgetParkTime, hq]
  have hugrants : u.outlet.grants = v.outlet.grants ∧ u.outlet.drives = v.outlet.drives := by rw [← hu]; exact ⟨rfl, rfl⟩
  have huentry : ∀ q, u.outlet.hasEntry q = v.outlet.hasEntry q := fun q => by rw [Outlet.hasEntry, hugrants.1]; rfl
  have hutime : u.outlet.parkTime = v.outlet.parkTime.set p none := by rw [← hu]; rfl
  have hurest : u.feeds = v.feeds ∧ u.control = v.control ∧ u.link = v.link ∧ u.trig = v.trig ∧ u.ended = v.ended
      ∧ u.readmit = v.readmit := by rw [← hu]; exact ⟨rfl, rfl, rfl, rfl, rfl, rfl⟩
  obtain ⟨hufeeds, hucontrol, hulink, hutrig, huended, hureadmit⟩ := hurest
  have hufeed : ∀ f, u.feed f = v.feed f := fun f => by rw [State.feed, hufeeds]; rfl
  refine ⟨?_, fun f hf => ?_, fun q hq => ?_, ?_, fun f hf => ?_, ?_, ?_, ?_, fun h => ?_, fun n hn => ?_, fun h => ?_,
    fun n hn => ?_, by simp, fun q hq => ?_, fun h => ?_, ?_, fun q hq h => ?_⟩
  · obtain ⟨⟨st, pr, o, hport, horder, -⟩, hfree, -⟩ := hgone.port
    rw [dropClaim_port_self] at hport horder
    refine ⟨st, o, by rw [removeEntry_port, huport, hport], horder, fun h => ?_⟩
    have hport' := hfree (by simpa using h)
    rw [dropClaim_port_self, hport] at hport'
    simp only [PortRec.mk.injEq] at hport'
    exact ⟨hport'.1, hport'.2.2.2.2.2.2.2.2.2.2.2.2.2.1⟩
  · obtain ⟨-, -, hframes⟩ := hgone.port
    rw [removeEntry_port, huport] at hf
    have := hframes f hf
    rwa [dropClaim_port_self] at this
  · have := hgone.others q hq
    rw [dropClaim_port_of_ne p w hq, dropClaim_outlet] at this
    rwa [removeEntry_port, huothers q hq]
  · rw [removeEntry_feed, hufeed, hgone.feed, dropClaim_feed_self, dropClaim_closedOn, dropClaim_control]
    simp [State.clearedFeed]
  · rw [removeEntry_feed, hufeed, hgone.feeds f hf, dropClaim_feed_of_ne p w hf]
  · rw [removeEntry_control, hucontrol, hgone.control, dropClaim_control]
  · rw [removeEntry_trig, hutrig, hgone.trig, dropClaim_trig]
  · rw [removeEntry_ended, huended, hgone.ended, dropClaim_ended]
  · exact removeEntry_readmit p u (by rw [hureadmit]; exact hgone.readmit (by rw [dropClaim_readmit, h]))
  · rw [removeEntry_link, hulink]
    exact hgone.notices n (by rw [dropClaim_link, hn])
  · rw [removeEntry_link, hulink]
    exact hgone.notice (by rw [dropClaim_port_self]; exact h)
  · rw [removeEntry_link, hulink] at hn
    have := hgone.only n hn
    rwa [dropClaim_link] at this
  · have hne : q ≠ p := fun h => by rw [h, removeEntry_hasEntry_self] at hq; cases hq
    rw [removeEntry_hasEntry_of_ne p u hne, huentry] at hq
    have := hgone.entries q hq
    rwa [dropClaim_outlet] at this
  · refine removeEntry_drive p u ?_
    rw [huentry, hugrants.2]
    cases hkept : v.outlet.hasEntry p with
    | true => exact .inl rfl
    | false =>
      cases hentry : w.outlet.hasEntry p with
      | true => exact .inr (hgone.drive (by rw [dropClaim_outlet, hentry]) hkept)
      | false =>
        have hsame := (hgone.alone p (by rw [dropClaim_outlet, hentry])).2
        rw [dropClaim_outlet] at hsame
        exact .inr (hsame.trans (h.resolve_left (by simp [hentry])))
  · rw [removeEntry_parkTime, hutime]
    simp
  · obtain ⟨htime, hdrive⟩ := hgone.alone q (by rw [dropClaim_outlet, h])
    rw [dropClaim_outlet] at htime hdrive
    rw [removeEntry_parkTime, hutime, removeEntry_drive_of_ne p u hq, hugrants.2, ← hdrive, ← htime]
    simp [hq]

/-! ## Restarts (R48, R49) -/

/-- The part of a restart that both directions share: HELD is left, the negotiation cleared, and RECOVERY entered with an order
and a timer. -/
def intoRecovery (p : Port) (o : List OutFrame) (t : ExchangeTimer) (w : Ev) : Ev :=
  enter p .recovery (updPort p (fun r => { r with order := o, timer := t }) (clearNegotiation p (leaveHeld p w)))

theorem decideRestart_eq {p : Port} {w : Ev} (h : (w.port p).state ≠ .recovery) :
    decideRestart p w = raiseTrigger (intoRecovery p [.restart] .stopped w) := by
  simp [decideRestart, h, intoRecovery]

theorem decideRestart_of_recovery {p : Port} {w : Ev} (h : (w.port p).state = .recovery) :
    decideRestart p w = raiseTrigger (updPort p (fun r => { r with order := [.restart] }) w) := by
  simp [decideRestart, h]

theorem partnerSendsRestart_eq (p : Port) (w : Ev) : partnerSendsRestart p w =
    raiseTrigger (intoRecovery p [] (.armed .holdOff) (failExchange p .partnerRestart w)) := rfl

/-- What a restart leaves of its port, its feed and its outlet entry. -/
structure Recovers (p : Port) (o : List OutFrame) (t : ExchangeTimer) (w v : Ev) : Prop where
  port : v.port p = { w.port p with
    state := .recovery, partner := none, sheet := [], contract := none, claim := none, parkReason := none, order := o, timer := t
    lastFailure := if w.closeChecking p ∧ w.closeStepOn p then .superseded else (w.port p).lastFailure }
  others : ∀ q, q ≠ p → (w.port q).poolTouched (w.outlet.hasEntry q) (v.port q)
  entry : v.outlet.hasEntry p = false
  entries : ∀ q, v.outlet.hasEntry q = true → w.outlet.hasEntry q = true
  drive : w.outlet.hasEntry p = true ∨ w.outlet.drives.get p = .opened → v.outlet.drives.get p = .opened
  alone : ∀ q, q ≠ p → w.outlet.hasEntry q = false →
    v.outlet.parkTime.get q = w.outlet.parkTime.get q ∧ v.outlet.drives.get q = w.outlet.drives.get q
  closed : w.closedOn p = true → v.feed (feedOf p) = { w.clearedFeed p with underVolt := .off }
  opened : w.closedOn p = false → w.closeChecking p = false → v.feed (feedOf p) = { w.feed (feedOf p) with
    heldLost := (w.feed (feedOf p)).heldLost || w.closeHeld p
    check := if w.contractChecking p then .idle else (w.feed (feedOf p)).check }
  feeds : ∀ f, f ≠ feedOf p → v.feed f = w.feed f
  trim : v.control.trim = w.control.trim
  trig : w.trig = true → v.trig = true
  readmit : w.readmit = true → v.readmit = true
  notices : ∀ n, w.link.noticeSet n = true → v.link.noticeSet n = true
  notice : (w.port p).contract.isSome = true → v.link.noticeSet .contractChanged = true
  quiet : w.closeStepOn p = false ∨ w.closeChecking p = false → v.control = w.control ∧ v.ended = w.ended
    ∧ ∀ n, v.link.noticeSet n = true → w.link.noticeSet n = true ∨ n = .contractChanged ∨ n = .outletCut

theorem closedOn_of_closeChecking {s : State} {p : Port} (h : s.closeChecking p = true) : s.closedOn p = false := by
  rw [← Bool.not_eq_true]
  intro hc
  rw [(closeChecking_of_closedOn hc rfl).1] at h
  cases h

theorem LeavesHeld.closedOn {p : Port} {w u : Ev} (h : LeavesHeld p w u) : u.closedOn p = w.closedOn p := by
  cases hc : w.closeChecking p with
  | true =>
    rw [closedOn_of_closeChecking hc, ← Bool.not_eq_true, closedOn_iff]
    rw [h.feed, State.leftFeed, if_pos hc]
    simp
  | false =>
    apply closedOn_congr <;> rw [h.feed, State.leftFeed, if_neg (by simp [hc])] <;> split <;> rfl

theorem NegotiationCleared.closedOn {p : Port} {u v : Ev} (h : NegotiationCleared p u v) : v.closedOn p = u.closedOn p := by
  have hcleared : (u.clearedFeed p).powered = (u.feed (feedOf p)).powered
      ∧ (u.clearedFeed p).selected = (u.feed (feedOf p)).selected := by
    obtain ⟨c, hc, -⟩ := uncheckedFeed_eq p u
    unfold State.clearedFeed
    split
    · rename_i hk
      have hp := ((closedOn_iff u.toState p).1 hk.2).1
      obtain ⟨⟨st, vw, ot, tg, m, heq⟩, hbase, -⟩ := contractGone_spec (u.control.trim.get (feedOf p)) (u.uncheckedFeed p)
      have hpow : (u.uncheckedFeed p).powered = true := by rw [hc]; exact hp
      refine ⟨?_, by rw [heq, hc]⟩
      rw [hp, powered_iff]
      exact .inl (hbase hpow)
    · rw [hc]
      exact ⟨rfl, rfl⟩
  exact closedOn_congr (by rw [h.feed, hcleared.1]) (by rw [h.feed, hcleared.2])

/-- The feed of a port with an open switch, once HELD is left and the negotiation cleared: a held close is lost (R129). -/
theorem NegotiationCleared.opened {p : Port} {w u v : Ev} (hclear : NegotiationCleared p u v) (hleave : LeavesHeld p w u)
    (h : w.closedOn p = false) (hno : w.closeChecking p = false) : v.feed (feedOf p) = { w.feed (feedOf p) with
      heldLost := (w.feed (feedOf p)).heldLost || w.closeHeld p
      check := if w.contractChecking p then .idle else (w.feed (feedOf p)).check } := by
  rw [hclear.feed, State.clearedFeed, hleave.closedOn, if_neg (by simp [h])]
  obtain ⟨c, hc, hcheck⟩ := uncheckedFeed_eq p u
  have hleft : u.feed (feedOf p) = { w.feed (feedOf p) with
      heldLost := (w.feed (feedOf p)).heldLost || w.closeHeld p } := by
    rw [hleave.feed, State.leftFeed, if_neg (by simp [hno])]
    cases w.closeHeld p <;> simp
  have hchecking : u.contractChecking p = w.contractChecking p := by
    rw [State.contractChecking, hleft]
    rfl
  rw [hc, hcheck, hchecking, hleft]

theorem intoRecovery_recovers (p : Port) (o : List OutFrame) (t : ExchangeTimer) (w : Ev) :
    Recovers p o t w (intoRecovery p o t w) := by
  have hleave := leaveHeld_leaves p w
  have hclear := clearNegotiation_cleared p (leaveHeld p w)
  unfold intoRecovery
  generalize hu : leaveHeld p w = u at hleave hclear ⊢
  generalize clearNegotiation p u = v at hclear ⊢
  have hclosed : u.closedOn p = w.closedOn p := hleave.closedOn
  have hvclosed : v.closedOn p = u.closedOn p := hclear.closedOn
  have hfeed : (enter p .recovery (updPort p (fun r => { r with order := o, timer := t }) v)).feed (feedOf p)
      = if u.closedOn p = true then { u.clearedFeed p with underVolt := .off } else u.clearedFeed p := by
    rw [enter_feed, ← hvclosed, ← hclear.feed]
    by_cases h : v.closedOn p = true
    · rw [if_pos h, if_pos ⟨rfl, by decide, h⟩]
      rfl
    · rw [if_neg h, if_neg (fun k => h k.2.2)]
      rfl
  refine ⟨?_, fun q hq => ?_, ?_, fun q hq => ?_, fun h => ?_, fun q hq h => ?_, fun h => ?_, fun h hno => ?_, fun f hf => ?_, ?_,
    fun h => ?_, fun h => ?_, fun n hn => ?_, fun h => ?_, fun h => ?_⟩
  · obtain ⟨st, o', hport, -, -⟩ := hclear.port
    rw [enter_port, updPort_port_self, hport, hleave.port]
  · rw [enter_port_of_ne _ _ _ hq, updPort_port_of_ne _ _ hq, ← hleave.others q hq, ← hleave.outlet]
    exact hclear.others q hq
  · rw [enter_outlet]
    exact hclear.entry
  · rw [enter_outlet] at hq
    rw [← hleave.outlet]
    exact hclear.entries q hq
  · rw [enter_outlet]
    exact hclear.drive (by rwa [hleave.outlet])
  · rw [enter_outlet, ← hleave.outlet]
    exact hclear.alone q hq (by rw [hleave.outlet, h])
  · have huw : u = w := by rw [← hu]; exact leaveHeld_of_closedOn h rfl
    rw [hfeed, hclosed, if_pos h, huw]
  · rw [hfeed, hclosed, if_neg (by simp [h]), ← hclear.feed]
    exact hclear.opened hleave h hno
  · rw [enter_feed, if_neg (fun k => hf k.1)]
    exact (hclear.feeds f hf).trans (hleave.feeds f hf)
  · rw [enter_control]
    exact (congrArg (·.trim) hclear.control).trans hleave.trim
  · rw [enter_trig]
    exact hclear.trig.trans (hleave.trig h)
  · rw [enter_readmit]
    exact hclear.readmit (by rw [hleave.readmit, h])
  · rw [enter_link]
    exact hclear.notices n (hleave.notices n hn)
  · rw [enter_link]
    exact hclear.notice (by rw [hleave.port]; exact h)
  · obtain ⟨hcontrol, hended, hlink, -⟩ := hleave.quiet h
    rw [enter_control, enter_ended, enter_link]
    exact ⟨hclear.control.trans hcontrol, hclear.ended.trans hended, fun n hn => hlink ▸ hclear.only n hn⟩

/-- What a RESTART decided by the part leaves (R49). -/
theorem decideRestart_recovers {p : Port} {w : Ev} (h : (w.port p).state ≠ .recovery) :
    Recovers p [.restart] .stopped w (decideRestart p w) ∧ (decideRestart p w).trig = true := by
  have hr := intoRecovery_recovers p [.restart] .stopped w
  rw [decideRestart_eq h]
  exact ⟨{ hr with trig := fun _ => rfl }, rfl⟩

/-- A closed feed after its port's restart: BASE where a contract ended, its switch and over-draw as they were. -/
theorem Recovers.closedFeed {p : Port} {o : List OutFrame} {t : ExchangeTimer} {w v : Ev} (h : Recovers p o t w v)
    (hc : w.closedOn p = true) :
    v.closedOn p = true ∧ (v.feed (feedOf p)).drive p = (w.feed (feedOf p)).drive p
      ∧ (v.feed (feedOf p)).selected = some p ∧ (v.feed (feedOf p)).overdraw = (w.feed (feedOf p)).overdraw
      ∧ (v.feed (feedOf p)).underVolt = .off
      ∧ ((w.port p).contract.isSome = true → (v.feed (feedOf p)).state = .base
        ∧ ((w.feed (feedOf p)).state = .contract → (v.feed (feedOf p)).view = none ∧ (v.feed (feedOf p)).output ≤ 900)) := by
  have hfeed := h.closed hc
  obtain ⟨hpow, hsel⟩ := (closedOn_iff w.toState p).1 hc
  obtain ⟨c, hcheck, -⟩ := uncheckedFeed_eq p w
  have hupow : (w.uncheckedFeed p).powered = true := by rw [hcheck]; exact hpow
  rw [hfeed, closedOn_iff, hfeed]
  by_cases hk : (w.port p).contract.isSome = true
  · have heq : w.clearedFeed p = (w.uncheckedFeed p).contractGone (w.control.trim.get (feedOf p)) := by
      rw [State.clearedFeed, if_pos ⟨hk, hc⟩]
    obtain ⟨⟨st, vw, ot, tg, m, hgone⟩, hbase, hview⟩ :=
      contractGone_spec (w.control.trim.get (feedOf p)) (w.uncheckedFeed p)
    rw [heq]
    have hst := hbase hupow
    refine ⟨⟨?_, ?_⟩, ?_, ?_, ?_, rfl, fun _ => ⟨hst, fun hs => hview (by rw [hcheck]; exact hs)⟩⟩
    · rw [powered_iff]
      exact .inl hst
    all_goals rw [hgone, hcheck]
    · exact hsel
    · rfl
    · exact hsel
  · have heq : w.clearedFeed p = w.uncheckedFeed p := by
      rw [State.clearedFeed, if_neg (fun h => hk h.1)]
    rw [heq, hcheck]
    exact ⟨⟨hpow, hsel⟩, rfl, hsel, rfl, rfl, fun h => absurd h hk⟩

/-- A restart starts no check. -/
theorem Recovers.check_idle {p : Port} {o : List OutFrame} {t : ExchangeTimer} {w v : Ev} (h : Recovers p o t w v)
    (hi : (w.feed (feedOf p)).check = .idle) : (v.feed (feedOf p)).check = .idle := by
  have hclose : w.closeChecking p = false := by
    unfold State.closeChecking
    rw [hi]
    cases (w.feed (feedOf p)).state <;> rfl
  obtain ⟨c, hc, hcheck⟩ := uncheckedFeed_eq p w
  have hidle : c = .idle := by
    rw [hcheck, hi, ite_self]
  cases hclosed : w.closedOn p with
  | true =>
    rw [h.closed hclosed, State.clearedFeed]
    split
    · obtain ⟨⟨st, vw, ot, tg, m, hgone⟩, -, -⟩ := contractGone_spec (w.control.trim.get (feedOf p)) (w.uncheckedFeed p)
      rw [hgone, hc]
      exact hidle
    · rw [hc]
      exact hidle
  | false =>
    rw [h.opened hclosed hclose, hi]
    exact ite_self _

end Sys2Proof.Machine
end

