-- ==== Sys2Proof/Proofs/Answers.lean ====
section
/-! PROOFS. The partner's answers and the deadlines of an exchange: GRANT, DECLINE (O33), DEFER and its limit (O34), SETTLED and
the settle deadline (O35). -/
namespace Sys2Proof.Machine

/-! ## Reception -/

@[simp] theorem endReception_port_self (p : Port) (w : Ev) :
    (endReception p w).port p = { w.port p with rxBusy := false } := by simp [endReception]

/-- The states in which a port hears no frame (R8). -/
theorem deaf_eq_false {r : PortRec} (htx : r.tx = none) (h : r.state ∉ [PortState.detached, .debounce, .disabled]) :
    r.deaf = false := by
  simp only [List.mem_cons, List.not_mem_nil, or_false, not_or] at h
  simp [PortRec.deaf, htx, h]

/-- An answer heard outside RECOVERY reaches the port's state machine (R9). -/
theorem receiveFrame_answer {p : Port} {k : RxKind} {w : Ev} (hk : k ∈ [RxKind.settled, .grant, .decline, .defer, .restart])
    (htx : (w.port p).tx = none) (h : (w.port p).state ∉ [PortState.detached, .debounce, .disabled, .recovery]) :
    receiveFrame p k [] w = takeAnswer p k (endReception p w) := by
  have hdeaf : (w.port p).deaf = false := deaf_eq_false htx fun hm => h (by
    simp only [List.mem_cons, List.not_mem_nil, or_false] at hm ⊢
    tauto)
  have hrec : (w.port p).state ≠ .recovery := fun he => h (by simp [he])
  unfold receiveFrame
  simp only [List.mem_cons, List.not_mem_nil, or_false] at hk
  rcases hk with rfl | rfl | rfl | rfl | rfl <;> simp [hdeaf, hrec, lengthPermitted, endReception]

/-- An answer that the state machine does not take, RESTART aside, ends its reception alone (R8, R50, R59). -/
theorem receiveFrame_ignored {p : Port} {k : RxKind} {w : Ev} (hk : k ∈ [RxKind.settled, .grant, .decline, .defer])
    (h : takeAnswer p k (endReception p w) = endReception p w) : receiveFrame p k [] w = endReception p w := by
  have hk' : k ≠ .restart := by rintro rfl; simp at hk
  unfold receiveFrame
  dsimp only
  split
  · rfl
  · split
    · rfl
    · simp only [List.mem_cons, List.not_mem_nil, or_false] at hk
      rcases hk with rfl | rfl | rfl | rfl <;> exact h

theorem receive_ignored {s : State} (hs : s.running = true) {p : Port} {k : RxKind}
    (hk : k ∈ [RxKind.settled, .grant, .decline, .defer])
    (h : takeAnswer p k (endReception p (Ev.start s)) = endReception p (Ev.start s)) :
    takeEvent (receiveFrame p k []) s = .next (s.withPort p (fun r => { r with rxBusy := false })) :=
  takeEvent_updPort hs (receiveFrame_ignored hk h)

/-! ## Declined lines (R32) -/

theorem markDeclined_spec (n : Nat) (ls : List Line) (l : Line) : (markDeclined n ls).length = ls.length
    ∧ (ls[n]? = some l → (markDeclined (n + 1) ls)[n]? = some { l with declined := true })
    ∧ ∀ m, m ≠ n → (markDeclined (n + 1) ls)[m]? = ls[m]? := by
  have hlength : ∀ (n : Nat) (ls : List Line), (markDeclined n ls).length = ls.length := by
    intro n ls
    induction n, ls using markDeclined.induct <;> simp_all [markDeclined]
  refine ⟨hlength n ls, ?_⟩
  induction ls generalizing n with
  | nil => simp [markDeclined]
  | cons x xs ih =>
    cases n with
    | zero =>
      refine ⟨fun h => ?_, fun m hm => ?_⟩
      · obtain rfl := Option.some.inj h
        rfl
      · cases m with
        | zero => exact absurd rfl hm
        | succ m => rfl
    | succ n =>
      obtain ⟨h1, h2⟩ := ih n
      refine ⟨fun h => h1 (by simpa using h), fun m hm => ?_⟩
      cases m with
      | zero => rfl
      | succ m => exact h2 m (by omega)

/-! ## The end of an exchange -/

@[simp] theorem raiseTrigger_closedOn (w : Ev) (p : Port) : (raiseTrigger w).closedOn p = w.closedOn p := rfl
@[simp] theorem setNotice_closedOn (n : Notice) (w : Ev) (p : Port) : (setNotice n w).closedOn p = w.closedOn p := rfl

/-- What the failure of an exchange leaves (R39, R40): RECOVERY, the reason recorded, the step in flight failed with it. -/
theorem exchangeFails_spec {p : Port} {r : FailReason} {w : Ev} (h : (w.port p).state ≠ .recovery) :
    (exchangeFails p r w).trig = true
      ∧ (exchangeFails p r w).port p = { w.port p with
          state := .recovery, partner := none, sheet := [], contract := none, claim := none, parkReason := none
          order := [.restart], timer := .stopped, lastFailure := ((exchangeFails p r w).port p).lastFailure }
      ∧ (w.closeChecking p = false → ((exchangeFails p r w).port p).lastFailure = r)
      ∧ (∀ n, w.link.noticeSet n = true → (exchangeFails p r w).link.noticeSet n = true)
      ∧ ((w.port p).contract.isSome = true → (exchangeFails p r w).link.noticeSet .contractChanged = true)
      ∧ (w.exchangeOn p = true → (exchangeFails p r w).link.noticeSet .stepFailed = true
        ∧ ∀ st, w.inFlight = some st → (exchangeFails p r w).ended = some { st with status := .failed r })
      ∧ ((w.feed (feedOf p)).check = .idle → ((exchangeFails p r w).feed (feedOf p)).check = .idle) := by
  unfold exchangeFails
  generalize hx : recordFailure p r (dropClaim p w) = x
  have hxport : x.port p = { w.port p with claim := none, lastFailure := r } := by rw [← hx]; simp [recordFailure]
  have hxlink : x.link = w.link := by rw [← hx]; simp [recordFailure]
  have hxon : x.exchangeOn p = w.exchangeOn p := by rw [← hx]; exact dropClaim_exchangeOn p w
  have hxflight : x.inFlight = w.inFlight := by rw [← hx]; simp [State.inFlight, recordFailure]
  have hxcheck : x.closeChecking p = w.closeChecking p := by rw [← hx]; exact dropClaim_closeChecking p w
  have hxfeed : x.feed (feedOf p) = w.uncheckedFeed p := by rw [← hx]; exact dropClaim_feed_self p w
  obtain ⟨hrec, htrig⟩ := decideRestart_recovers (p := p) (w := failExchange p r x) (by
    rw [failExchange_port_self, hxport]; exact h)
  have hpx : (failExchange p r x).port p = { w.port p with claim := none, lastFailure := r } := by
    rw [failExchange_port_self, hxport]
    simp
  refine ⟨htrig, ?_, fun hno => ?_, fun n hn => hrec.notices n ?_, fun hk => hrec.notice ?_, fun hon => ⟨hrec.notices _ ?_,
    fun st hst => ?_⟩, fun hidle => ?_⟩
  · rw [hrec.port, hpx]
  · rw [hrec.port, hpx]
    simp [hxcheck, hno]
  · cases hon : x.exchangeOn p with
    | true =>
      rw [(failExchange_of_on hon r).2.link]
      exact noticeSet_setNotice n _ _ (by rw [hxlink]; exact hn)
    | false => rw [failExchange_of_off hon, hxlink, hn]
  · rw [hpx]
    exact hk
  · exact (failExchange_notice (by rw [hxon, hon]) r).1
  · have hfails := (failExchange_of_on (p := p) (w := x) (by rw [hxon, hon]) r).2
    rw [(hrec.quiet (.inl (closeStepOn_of_none hfails.inFlight p))).2.1]
    exact hfails.ended st (by rw [hxflight, hst])
  · refine hrec.check_idle ?_
    rw [failExchange_feed, hxfeed]
    unfold State.uncheckedFeed
    split
    · rfl
    · exact hidle

/-- A DECLINE accepted: the record after it, by the claim's origin (R37, R44). -/
theorem claimDeclined_spec {p : Port} {w : Ev} {c : Claim} (hc : (w.port p).claim = some c) :
    ∃ x : Ev, x.port p = { w.port p with
        sheet := markDeclined c.line (w.port p).sheet, timer := .stopped, claim := none, lastFailure := .declined }
      ∧ x.closedOn p = w.closedOn p ∧ x.closeChecking p = w.closeChecking p ∧ x.exchangeOn p = w.exchangeOn p
      ∧ claimDeclined p w = match c.origin with
        | .raise => enter p (if c.contractHeld then .contract else .held) (failExchange p .declined x)
        | .lower => decideRestart p (failExchange p .declined x)
        | .protective => raiseTrigger (enter p .held (dropContract p x)) := by
  refine ⟨recordFailure p .declined (dropClaim p (stopTimer p
    (updPort p (fun r => { r with sheet := markDeclined c.line r.sheet }) w))), ?_, ?_, ?_, ?_, ?_⟩
  · simp [recordFailure, stopTimer]
  · simp [recordFailure, stopTimer]
  · exact dropClaim_closeChecking p _
  · exact dropClaim_exchangeOn p _
  · cases ho : c.origin <;> simp only [claimDeclined, hc, ho]

/-- Settles O33. -/
theorem grantAndDeclineAnswerTheClaim : Obligations.GrantAndDeclineAnswerTheClaim := by
  refine ⟨fun p s c hs hst htx hc => ?_, fun p s c hs hst htx hc => ?_, fun p s hs hst htx => ⟨?_, ?_⟩, markDeclined_spec⟩
  · have hact : receiveFrame p .grant [] (Ev.start s) = claimGranted p (endReception p (Ev.start s)) := by
      rw [receiveFrame_answer (by simp) htx (by simp [hst])]
      simp [takeAnswer, hst]
    have hquiet : ∀ v : Ev, v = claimGranted p (endReception p (Ev.start s)) → v.trig = false ∧ v.ended = none
        ∧ v.readmit = false := by
      rintro v rfl
      simp [claimGranted, discardClaims, endReception]
    refine ⟨_, takeEvent_quiet hs _ (hact ▸ (hquiet _ rfl).1) (hact ▸ (hquiet _ rfl).2.1) (hact ▸ (hquiet _ rfl).2.2), ?_⟩
    rw [hact]
    refine ⟨?_, ?_, ?_, ?_, ?_, fun q hq => ?_⟩
    · simp [claimGranted, discardClaims, endReception]
    · simp [claimGranted, discardClaims, endReception]
    · simp [claimGranted, discardClaims, endReception]
    · simp [claimGranted, discardClaims, endReception]
    · simp [claimGranted, discardClaims, enter_port, hc, endReception]
    · simp [claimGranted, discardClaims, enter_port_of_ne _ _ _ hq, endReception, hq]
  · have hact : receiveFrame p .decline [] (Ev.start s) = claimDeclined p (endReception p (Ev.start s)) := by
      rw [receiveFrame_answer (by simp) htx (by simp [hst])]
      simp [takeAnswer, hst]
    refine ⟨_, takeEvent_running hs _, ?_⟩
    obtain ⟨x, hport, hclosed, hchecking, hon, heq⟩ := claimDeclined_spec (p := p) (w := endReception p (Ev.start s)) (c := c)
      (by simpa using hc)
    rw [endReception_port_self] at hport
    have hfail : (failExchange p .declined x).port p = x.port p := by
      rw [failExchange_port_self, hport]
      simp
    rw [hact, heq]
    cases ho : c.origin with
    | raise =>
      dsimp only
      rw [enter_port, hfail, hport]
      refine ⟨rfl, rfl, fun _ => rfl, fun _ => ⟨rfl, rfl, rfl⟩, (by simp), (by simp), fun h _ => ?_⟩
      rw [enter_trig, enter_link]
      exact (failExchange_notice (hon.trans h) _).symm
    | lower =>
      dsimp only
      obtain ⟨hrec, htrig⟩ := decideRestart_recovers (p := p) (w := failExchange p .declined x) (by
        rw [hfail, hport]
        simp [hst])
      rw [hrec.port, hfail, hport]
      refine ⟨rfl, rfl, fun h => ?_, (by simp), fun _ => ⟨rfl, rfl, rfl, rfl, htrig⟩, (by simp), fun h _ => ⟨htrig, ?_⟩⟩
      · rw [failExchange_closeChecking, hchecking, if_neg]
        rw [show (endReception p (Ev.start s)).closeChecking p = s.closeChecking p from rfl, h]
        simp
      · exact hrec.notices _ (failExchange_notice (hon.trans h) _).1
    | protective =>
      have hgone := dropContract_spec p x
      obtain ⟨⟨st, pr, o, htouched, -, -⟩, -⟩ := hgone.port
      dsimp only
      rw [raiseTrigger_port, enter_port, htouched, hport]
      refine ⟨rfl, rfl, fun _ => rfl, (by simp), (by simp), fun _ => ⟨rfl, rfl, rfl, rfl, fun h => ⟨?_, fun hcl => ?_⟩⟩, (by simp)⟩
      · rw [raiseTrigger_link, enter_link]
        exact hgone.notice (by rw [hport]; exact h)
      · have hxc : x.closedOn p = true := hclosed.trans hcl
        have hbase := (contractGone_spec (x.control.trim.get (feedOf p)) (x.feed (feedOf p))).2.1
          ((closedOn_iff x.toState p).1 hxc).1
        rw [raiseTrigger_feed, enter_feed, hgone.feed, if_pos (⟨by rw [hport]; exact h, hxc⟩ : _ ∧ _)]
        split <;> exact hbase
  · exact receive_ignored hs (by simp) (by simp [takeAnswer, hst])
  · exact receive_ignored hs (by simp) (by simp [takeAnswer, hst])

/-! ## The repeat limit (R38, R39) -/

theorem portDue_of {s : State} {p : Port} {u : TimerUse} {st : PortState} (ht : (s.port p).timer = .running u 0)
    (hst : (s.port p).state = st) : (Ev.start s).portDue p u st = true := by
  simp [State.portDue, ht, hst, ExchangeTimer.expiredAs]

theorem decideFrame_eq (p : Port) (f : OutFrame) (w : Ev) : decideFrame p f w = updPort p (fun r =>
    { r with order := if r.restartOwed then r.order else placeFrame f r.order }) w := by
  refine updPort_congr ?_
  split <;> rfl

/-- Settles O34. -/
theorem claimsRepeatUpToTheirLimit : Obligations.ClaimsRepeatUpToTheirLimit := by
  refine ⟨fun p s hs hst htx => receive_ignored hs (by simp) (by simp [takeAnswer, hst]), fun p s c hs hst hc =>
    ⟨fun htx hlt => ?_, fun ht => ?_, fun ht hlt => ?_, fun i hi hle => ?_⟩⟩
  · refine takeEvent_updPort hs ?_
    rw [receiveFrame_answer (by simp) htx (by simp [hst])]
    simp only [takeAnswer, endReception_port_self, start_toState, hst, claimDeferred]
    rw [if_pos (by simp [PortRec.mayRepeat, hc, hlt])]
    simp only [startTimer, countRepeat, endReception, updPort_updPort]
  · refine takeEvent_updPort hs ?_
    unfold expireDeferral
    rw [if_pos (portDue_of ht hst)]
    simp only [repeatClaim, stopTimer, updPort_port_self, start_toState, hc, decideFrame_eq, updPort_updPort]
    rfl
  · refine takeEvent_updPort hs ?_
    unfold expireAnswer answerMissed
    rw [if_pos (portDue_of ht hst), if_pos (by simp [PortRec.mayRepeat, hc, hlt])]
    simp only [repeatClaim, stopTimer, countRepeat, updPort_port_self, start_toState, hc, decideFrame_eq, updPort_updPort]
    rfl
  · have hno : ∀ w : Ev, w.port p = { s.port p with rxBusy := (w.port p).rxBusy } → (w.port p).mayRepeat = false := by
      intro w hw
      rw [hw]
      simp [PortRec.mayRepeat, hc, hle]
    obtain ⟨w, hw, hchecking, hon, hexec⟩ : ∃ w : Ev, w.port p = { s.port p with rxBusy := (w.port p).rxBusy }
        ∧ w.closeChecking p = s.closeChecking p ∧ w.exchangeOn p = s.exchangeOn p
        ∧ exec i s = .next (closeEvent (exchangeFails p .noAnswer w)) := by
      rcases hi with ⟨rfl, ht⟩ | ⟨rfl, htx⟩
      · refine ⟨Ev.start s, rfl, rfl, rfl, (takeEvent_running hs _).trans ?_⟩
        unfold expireAnswer answerMissed
        rw [if_pos (portDue_of ht hst), if_neg (by rw [hno (Ev.start s) rfl]; decide)]
      · refine ⟨endReception p (Ev.start s), by simp, rfl, rfl, (takeEvent_running hs _).trans ?_⟩
        rw [receiveFrame_answer (by simp) htx (by simp [hst])]
        simp only [takeAnswer, endReception_port_self, start_toState, hst, claimDeferred]
        rw [if_neg]
        simp [PortRec.mayRepeat, hc, hle]
    obtain ⟨htrig, hport, hlast, -, -, hstep, -⟩ := exchangeFails_spec (p := p) (r := .noAnswer) (w := w) (by
      rw [hw]; simp [hst])
    refine ⟨_, hexec, htrig, ?_, fun h => hlast (hchecking.trans h), ?_, ?_, ?_, fun h => (hstep (hon.trans h)).1⟩ <;>
      rw [hport]

/-! ## SETTLED and the settle deadline (R40, R42) -/

theorem dropContract_closeChecking (p : Port) (w : Ev) : (dropContract p w).closeChecking p = w.closeChecking p := by
  have hfeed := (dropContract_spec p w).feed
  by_cases h : (w.port p).contract.isSome = true ∧ w.closedOn p = true
  · have hpow := ((closedOn_iff w.toState p).1 h.2).1
    rw [(closeChecking_of_closedOn h.2 rfl).1]
    rw [if_pos h] at hfeed
    unfold State.closeChecking
    rw [hfeed, (contractGone_spec _ _).2.1 hpow]
  · rw [if_neg h] at hfeed
    unfold State.closeChecking
    rw [hfeed]

/-- What the settle deadline leaves in RELEASING (R42): the contract gone, the step DONE, the port restarted. -/
theorem releaseTimedOut_spec {p : Port} {w : Ev} (h : (w.port p).state ≠ .recovery) :
    (releaseTimedOut p w).trig = true
      ∧ (releaseTimedOut p w).port p = { w.port p with
          state := .recovery, partner := none, sheet := [], contract := none, claim := none, parkReason := none
          order := [.restart], timer := .stopped, lastFailure := ((releaseTimedOut p w).port p).lastFailure }
      ∧ (w.closeChecking p = false → ((releaseTimedOut p w).port p).lastFailure = (w.port p).lastFailure)
      ∧ ((w.port p).contract.isSome = true → (releaseTimedOut p w).link.noticeSet .contractChanged = true)
      ∧ ∀ st, w.inFlight = some st → w.exchangeOn p = true → (releaseTimedOut p w).ended = some { st with status := .done }
        ∧ (releaseTimedOut p w).link.noticeSet .stepFailed = w.link.noticeSet .stepFailed := by
  have hgone := dropContract_spec p w
  have hchecking := dropContract_closeChecking p w
  unfold releaseTimedOut
  generalize dropContract p w = x at hgone hchecking ⊢
  obtain ⟨⟨st, pr, o, hport, -, hst⟩, -⟩ := hgone.port
  have hdport : (doneExchange p x).port p = { w.port p with contract := none, state := st, parkReason := pr, order := o } := by
    rw [doneExchange_port, hport]
  have hdchecking : (doneExchange p x).closeChecking p = w.closeChecking p := by
    rw [← hchecking]
    simp [State.closeChecking]
  obtain ⟨hrec, htrig⟩ := decideRestart_recovers (p := p) (w := doneExchange p x) (by
    rw [hdport]
    rcases hst with rfl | rfl
    · exact h
    · simp)
  have hnotice : ∀ n, x.link.noticeSet n = true → (decideRestart p (doneExchange p x)).link.noticeSet n = true := fun n hn =>
    hrec.notices n (by rw [doneExchange_link, hn])
  refine ⟨htrig, ?_, fun hno => ?_, fun hk => hnotice _ (hgone.notice hk), fun st hf hon => ?_⟩
  · rw [hrec.port, hdport]
  · rw [hrec.port, hdport]
    simp [hdchecking, hno]
  · have hxflight : x.inFlight = some st := by rw [State.inFlight, hgone.control]; exact hf
    have hxon : x.exchangeOn p = true := by rw [State.exchangeOn, State.inFlight, hgone.control]; exact hon
    have hdone : (doneExchange p x).inFlight = none := by
      simp only [doneExchange, hxon, if_true]
      exact endStep_inFlight (by decide) x
    obtain ⟨-, hended, honly⟩ := hrec.quiet (.inl (closeStepOn_of_none hdone p))
    refine ⟨hended.trans (doneExchange_ended hxflight hxon), ?_⟩
    rw [Bool.eq_iff_iff]
    refine ⟨fun hn => ?_, fun hn => hnotice _ (hgone.notices _ hn)⟩
    have hx := (honly _ hn).resolve_right (by decide)
    rw [doneExchange_link] at hx
    exact (hgone.only _ hx).resolve_right (by decide)

/-- Settles O35. -/
theorem settledAndItsDeadlineEndTheExchange : Obligations.SettledAndItsDeadlineEndTheExchange := by
  refine ⟨fun p s hs htx => ⟨fun c hst hc hclosed hno => ?_, fun c hst hc hclosed hno => ?_, fun h => ?_, fun hst hk => ?_⟩,
    fun p s hs ht hst => ?_⟩
  · have hact : receiveFrame p .settled [] (Ev.start s) = updFeed (feedOf p) (fun r =>
        { r with check := .contract p c.voltage .armed })
        (updPort p (fun r => { r with rxBusy := false, timer := .stopped }) (Ev.start s)) := by
      rw [receiveFrame_answer (by simp) htx (by simp [hst])]
      simp only [takeAnswer, endReception_port_self, start_toState, hst]
      rw [if_neg (by rw [show (endReception p (Ev.start s)).contractChecking p = s.contractChecking p from rfl, hno]; decide)]
      simp only [askSettleCheck, endReception_port_self, start_toState, hc]
      rw [if_pos (show (stopTimer p (endReception p (Ev.start s))).closedOn p = true from hclosed)]
      simp only [stopTimer, endReception, updPort_updPort]
    refine (takeEvent_quiet hs _ ?_ ?_ ?_).trans ?_ <;> rw [hact] <;> rfl
  · have hact : receiveFrame p .settled [] (Ev.start s)
        = exchangeFails p .voltageOut (stopTimer p (endReception p (Ev.start s))) := by
      rw [receiveFrame_answer (by simp) htx (by simp [hst])]
      simp only [takeAnswer, endReception_port_self, start_toState, hst]
      rw [if_neg (by rw [show (endReception p (Ev.start s)).contractChecking p = s.contractChecking p from rfl, hno]; decide)]
      simp only [askSettleCheck, endReception_port_self, start_toState, hc]
      rw [if_neg]
      rw [show (stopTimer p (endReception p (Ev.start s))).closedOn p = s.closedOn p from rfl, hclosed]
      decide
    obtain ⟨htrig, hport, hlast, -, -, hstep, -⟩ := exchangeFails_spec (p := p) (r := .voltageOut)
      (w := stopTimer p (endReception p (Ev.start s))) (by simp [stopTimer, hst])
    refine ⟨_, takeEvent_running hs _, ?_⟩
    rw [hact]
    refine ⟨htrig, ?_, ?_, ?_, fun h => hlast h, fun h => (hstep h).1⟩ <;> rw [hport]
  · refine receive_ignored hs (by simp) ?_
    unfold takeAnswer
    rw [endReception_port_self]
    rcases h with h | ⟨hst, hchecking⟩
    · simp only [List.mem_cons, List.not_mem_nil, or_false, not_or] at h
      cases hst : (s.port p).state <;> simp_all
    · simp only [start_toState, hst]
      exact if_pos hchecking
  · have hact : receiveFrame p .settled [] (Ev.start s) = releaseSettled p (endReception p (Ev.start s)) := by
      rw [receiveFrame_answer (by simp) htx (by simp [hst])]
      simp [takeAnswer, hst]
    refine ⟨_, takeEvent_running hs _, ?_⟩
    rw [hact, releaseSettled]
    generalize hx : stopTimer p (endReception p (Ev.start s)) = x
    have hport : x.port p = { s.port p with rxBusy := false, timer := .stopped } := by rw [← hx]; simp [stopTimer]
    have hclosed : x.closedOn p = s.closedOn p := by rw [← hx]; rfl
    have hcontrol : x.control = s.control := by rw [← hx]; rfl
    have hgone := dropContract_spec p x
    obtain ⟨⟨st, pr, o, htouched, -, -⟩, -⟩ := hgone.port
    have hk' : (x.port p).contract.isSome = true := by rw [hport]; exact hk
    rw [doneExchange_port, doneExchange_link, doneExchange_feed, enter_port, enter_link, enter_feed, htouched, hport]
    refine ⟨rfl, rfl, rfl, hgone.notice hk', fun hc => ?_, fun st hst hon => doneExchange_ended ?_ ?_⟩
    · have hxc := hclosed.trans hc
      have hbase := (contractGone_spec (x.control.trim.get (feedOf p)) (x.feed (feedOf p))).2.1
        ((closedOn_iff x.toState p).1 hxc).1
      rw [hgone.feed, if_pos (⟨hk', hxc⟩ : _ ∧ _)]
      split <;> exact hbase
    · rw [State.inFlight, enter_control, hgone.control, hcontrol]
      exact hst
    · rw [State.exchangeOn, State.inFlight, enter_control, hgone.control, hcontrol]
      exact hon
  · have hcases : (s.port p).state = .settling ∨ (s.port p).state = .releasing := by simpa using hst
    rcases hcases with hst | hst
    · have hact : expireSettle p (Ev.start s) = exchangeFails p .settleTimeout (Ev.start s) := by
        unfold expireSettle
        rw [if_pos (portDue_of ht hst)]
      obtain ⟨htrig, hport, hlast, -, hnotice, hstep, -⟩ := exchangeFails_spec (p := p) (r := .settleTimeout)
        (w := Ev.start s) (by simp [hst])
      refine ⟨_, takeEvent_running hs _, ?_⟩
      rw [hact]
      refine ⟨htrig, ?_, ?_, ?_, ?_, fun _ h => hlast h, (by simp [hst]), hnotice, fun st hf hon =>
        ⟨fun _ => ⟨(hstep hon).2 st hf, (hstep hon).1⟩, (by simp [hst])⟩⟩ <;> rw [hport]
    · have hact : expireSettle p (Ev.start s) = releaseTimedOut p (Ev.start s) := by
        unfold expireSettle
        rw [if_neg (by simp [State.portDue, hst]), if_pos (portDue_of ht hst)]
      obtain ⟨htrig, hport, hlast, hnotice, hended⟩ := releaseTimedOut_spec (p := p) (w := Ev.start s) (by simp [hst])
      refine ⟨_, takeEvent_running hs _, ?_⟩
      rw [hact]
      refine ⟨htrig, ?_, ?_, ?_, ?_, (by simp [hst]), fun _ h => hlast h, hnotice, fun st hf hon =>
        ⟨(by simp [hst]), fun _ => hended st hf hon⟩⟩ <;> rw [hport]

end Sys2Proof.Machine
end

