-- ==== Sys2Proof/Proofs/RestartsAndChecks.lean ====
section
/-! PROOFS. Restarts by request and by the partner (O20, O30), the windows of the two checks (O38, O39), and expired monitor
periods (O41). -/
namespace Sys2Proof.Machine

/-! ## PORT RESTART and CLEAR FAULT (R57, R142) -/

/-- What the failure of an exchange and a restart make of an event, the port outside RECOVERY. -/
theorem failThenRestart_spec {p : Port} {r : FailReason} {w : Ev} (h : (w.port p).state ≠ .recovery) :
    Recovers p [.restart] .stopped (failExchange p r w) (decideRestart p (failExchange p r w))
      ∧ (decideRestart p (failExchange p r w)).trig = true
      ∧ (w.exchangeOn p = true → (decideRestart p (failExchange p r w)).link.noticeSet .stepFailed = true
        ∧ ((decideRestart p (failExchange p r w)).port p).lastFailure = r
        ∧ ∀ st, w.inFlight = some st → (decideRestart p (failExchange p r w)).ended = some { st with status := .failed r }) := by
  obtain ⟨hrec, htrig⟩ := decideRestart_recovers (p := p) (w := failExchange p r w) (by
    rw [failExchange_port_self]; exact h)
  refine ⟨hrec, htrig, fun hon => ?_⟩
  have hfails := (failExchange_of_on hon r).2
  have hno := closeStepOn_of_none hfails.inFlight p
  refine ⟨hrec.notices _ (failExchange_notice hon r).1, ?_, fun st hst => ?_⟩
  · rw [hrec.port, hfails.port, hno]
    simp
  · rw [(hrec.quiet (.inl hno)).2.1]
    exact hfails.ended st hst

/-- Settles O20. -/
theorem portRestartAndClearFaultByState : Obligations.PortRestartAndClearFaultByState := by
  refine ⟨fun a s hs => ⟨fun ha => ?_, fun p hp => ⟨fun hst => ?_, fun hst => ?_⟩⟩, fun a s hs => ⟨fun ha => ?_, fun f hf =>
    ⟨fun hst => ?_, fun hst => ?_⟩⟩⟩
  · refine requestEvent_answered hs (by simp) ?_
    simp [withLength, decidePortRestart, field_first, (portOfCode_eq_none_iff _).2 ha, answer]
  · refine requestEvent_answered hs (by simp) ?_
    have hrefuses : (s.port p).state.refusesRestart = true := by
      simp only [List.mem_cons, List.not_mem_nil, or_false] at hst
      rcases hst with h | h | h <;> rw [h] <;> rfl
    simp only [withLength, decidePortRestart, field_first, hp]
    exact (if_pos rfl).trans (if_pos hrefuses)
  · have hrefuses : (s.port p).state.refusesRestart = false := by
      cases h : (s.port p).state <;> simp_all [PortState.refusesRestart]
    generalize hu : Ev.start (s.holding 0x95#8) = u
    have hport : u.port p = s.port p := by rw [← hu]; rfl
    have hgives := requestEvent_gives (code := 0x95#8) (params := [a]) (dec := fun _ w =>
      withLength 1 [a] (decidePortRestart (field [a] 0 1)) w) (a := answer (decideRestart p (failExchange p .commanded u)) .done)
      hs (by simp) (by
        simp only [withLength, decidePortRestart, field_first, hp, hu, hport]
        exact (if_pos rfl).trans (if_neg (by simp [hrefuses])))
    by_cases hrecovery : (s.port p).state = .recovery
    · have heq := decideRestart_of_recovery (p := p) (w := failExchange p .commanded u) (by
        rw [failExchange_port_self, hport]; exact hrecovery)
      refine ⟨_, hgives, ?_, ?_, ?_, rfl, fun h => absurd hrecovery h⟩
      · rw [heq]
        rfl
      · show ((decideRestart p (failExchange p .commanded u)).port p).state = _
        rw [heq, raiseTrigger_port, updPort_port_self, failExchange_port_self, hport]
        exact hrecovery
      · show ((decideRestart p (failExchange p .commanded u)).port p).order = _
        rw [heq, raiseTrigger_port, updPort_port_self]
    · obtain ⟨hrec, htrig, hstep⟩ := failThenRestart_spec (r := .commanded) (hport ▸ hrecovery)
      have hclosed : (failExchange p .commanded u).closedOn p = s.closedOn p := by
        rw [failExchange_closedOn, ← hu]; rfl
      have hcontract : ((failExchange p .commanded u).port p).contract = (s.port p).contract := by
        rw [failExchange_port_self, hport]
      have hfeed : ∀ f, (failExchange p .commanded u).feed f = s.feed f := fun f => by
        rw [failExchange_feed, ← hu]; rfl
      have hentry : (failExchange p .commanded u).outlet = s.outlet := by rw [failExchange_outlet, ← hu]; rfl
      have hcontrol : u.control = s.control := by rw [← hu]; rfl
      have hflight : u.inFlight = s.inFlight := by rw [← hu]; rfl
      have hon : u.exchangeOn p = s.exchangeOn p := by rw [← hu]; rfl
      refine ⟨_, hgives, htrig, ?_⟩
      generalize decideRestart p (failExchange p .commanded u) = v at hrec htrig hstep
      show (v.port p).state = _ ∧ (v.port p).order = _ ∧ _ ∧ (_ → (v.port p).partner = _ ∧ (v.port p).sheet = _
        ∧ (v.port p).contract = _ ∧ (v.port p).claim = _ ∧ (v.port p).parkReason = _ ∧ (v.port p).timer = _
        ∧ v.outlet.hasEntry p = _ ∧ (_ → v.outlet.drives.get p = _) ∧ (_ → v.link.noticeSet .contractChanged = _)
        ∧ (_ → v.closedOn p = _ ∧ (v.feed (feedOf p)).drive p = _ ∧ (_ → (v.feed (feedOf p)).state = _
          ∧ (_ → (v.feed (feedOf p)).view = _ ∧ (v.feed (feedOf p)).output ≤ 900)))
        ∧ ∀ st, _ → _ → v.link.noticeSet .stepFailed = _ ∧ (v.port p).lastFailure = _ ∧ v.ended = _)
      have hport' := hrec.port
      refine ⟨by rw [hport'], by rw [hport'], rfl, fun _ => ⟨by rw [hport'], by rw [hport'], by rw [hport'], by rw [hport'],
        by rw [hport'], by rw [hport'], hrec.entry, fun h => hrec.drive (.inl (by rw [hentry, h])),
        fun h => hrec.notice (by rw [hcontract, h]), fun h => ?_, fun st hf h => ?_⟩⟩
      · obtain ⟨h1, h2, -, -, -, h3⟩ := hrec.closedFeed (hclosed.trans h)
        rw [hfeed] at h2 h3
        rw [hcontract] at h3
        exact ⟨h1, h2, h3⟩
      · obtain ⟨h1, h2, h3⟩ := hstep (hon.trans h)
        exact ⟨h1, h2, h3 st (hflight.trans hf)⟩
  · refine requestEvent_answered hs (by simp) ?_
    simp [withLength, decideClearFault, field_first, (feedOfCode_eq_none_iff _).2 ha, answer]
  · refine requestEvent_answered hs (by simp) ?_
    simp only [withLength, decideClearFault, field_first, hf]
    exact (if_pos rfl).trans (if_neg hst)
  · refine requestEvent_gives hs (by simp) (a := answer (raiseTrigger (updFeed f (fun r => { r with state := .idle })
      (Ev.start (s.holding 0x96#8)))) .done) ?_
    simp only [withLength, decideClearFault, field_first, hf]
    exact (if_pos rfl).trans (if_pos hst)

/-! ## A partner's RESTART (R48, R50) -/

/-- Settles O30. -/
theorem partnerRestartEntersRecovery : Obligations.PartnerRestartEntersRecovery := by
  refine fun p s hs htx => ⟨fun hst => ?_, fun hst => ?_⟩
  · have hact : receiveFrame p .restart [] (Ev.start s) = partnerSendsRestart p (endReception p (Ev.start s)) := by
      rw [receiveFrame_answer (by simp) htx (by
        simp only [List.mem_cons, List.not_mem_nil, or_false] at hst ⊢
        exact hst)]
      rfl
    refine ⟨_, takeEvent_running hs _, ?_⟩
    rw [hact]
    have hrest := partnerSendsRestart_rest p (endReception p (Ev.start s))
    rw [partnerSendsRestart_eq] at hrest ⊢
    generalize hu : endReception p (Ev.start s) = u at hrest ⊢
    have hport : u.port p = { s.port p with rxBusy := false } := by rw [← hu]; simp
    have hsame : u.rest = s.rest ∧ u.outlet = s.outlet ∧ (∀ f, u.feed f = s.feed f) ∧ u.closedOn p = s.closedOn p
        ∧ u.inFlight = s.inFlight ∧ u.exchangeOn p = s.exchangeOn p := by
      rw [← hu]; exact ⟨rfl, rfl, fun _ => rfl, rfl, rfl, rfl⟩
    obtain ⟨hurest, houtlet, hfeed, hclosed, hflight, hon⟩ := hsame
    have hrec := intoRecovery_recovers p [] (.armed .holdOff) (failExchange p .partnerRestart u)
    have hcontract : ((failExchange p .partnerRestart u).port p).contract = (s.port p).contract := by
      rw [failExchange_port_self, hport]
    generalize intoRecovery p [] (.armed .holdOff) (failExchange p .partnerRestart u) = v at hrec hrest ⊢
    have hport' := hrec.port
    rw [hurest] at hrest
    refine ⟨rfl, by rw [raiseTrigger_port, hport'], by rw [raiseTrigger_port, hport'], by rw [raiseTrigger_port, hport'],
      by rw [raiseTrigger_port, hport'], by rw [raiseTrigger_port, hport'], by rw [raiseTrigger_port, hport'],
      by rw [raiseTrigger_port, hport'], by rw [raiseTrigger_port, hport'], hrec.entry, congrArg Rest.traps hrest,
      congrArg Rest.tables hrest, fun h => hrec.drive (.inl (by rw [failExchange_outlet, houtlet, h])),
      fun h => hrec.notice (by rw [hcontract, h]), fun h => ?_, fun st hf h => ?_⟩
    · obtain ⟨h1, h2, -, -, -, h3⟩ := hrec.closedFeed (by rw [failExchange_closedOn, hclosed, h])
      rw [failExchange_feed, hfeed] at h2 h3
      rw [hcontract] at h3
      exact ⟨h1, h2, h3⟩
    · have hfails := (failExchange_of_on (hon.trans h) .partnerRestart).2
      have hno := closeStepOn_of_none hfails.inFlight p
      refine ⟨hrec.notices _ (failExchange_notice (hon.trans h) _).1, ?_, ?_⟩
      · rw [raiseTrigger_port, hport', hfails.port, hno]
        simp
      · rw [raiseTrigger_ended, (hrec.quiet (.inl hno)).2.1]
        exact hfails.ended st (hflight.trans hf)
  · refine takeEvent_updPort hs ?_
    have hdeaf : (s.port p).deaf = false := deaf_eq_false htx (by simp [hst])
    unfold receiveFrame
    simp only [start_toState, hdeaf, lengthPermitted, List.length_nil, beq_self_eq_true, Bool.not_true, Bool.or_self, hst]
    unfold restartInRecovery startTimer
    rw [updPort_port_self]
    by_cases h : (s.port p).timer.runsAs .holdOff = true
    · simp only [start_toState, h, Bool.false_eq_true, if_false, if_true, updPort_updPort]
      refine updPort_congr ?_
      simp [h]
    · simp only [start_toState, h, Bool.false_eq_true, if_false, if_true]
      refine updPort_congr ?_
      simp [h]

/-! ## The window of a CLOSE_CHECK (R128) -/

@[simp] theorem setDrive_drive (r : FeedRec) (p : Port) (d : Drive) : (r.setDrive p d).drive p = d := by
  cases p <;> rfl

theorem setDrive_eq (r : FeedRec) (p : Port) (d : Drive) : r.setDrive p d =
    { r with driveLead := (r.setDrive p d).driveLead, driveOther := (r.setDrive p d).driveOther } := by
  cases p <;> rfl

/-- Settles O38. -/
theorem closeCheckClosesOrFails : Obligations.CloseCheckClosesOrFails := by
  rintro f p s hs rfl hidle hcheck hst
  refine ⟨fun hfloor => ?_, fun hfloor => ?_⟩
  · have hact : expireCloseCheck (feedOf p) (Ev.start s) = passCloseCheck (feedOf p) p (Ev.start s) := by
      simp only [expireCloseCheck, start_toState, hcheck, Timer.expired]
      exact (if_pos ⟨trivial, trivial⟩).trans (if_pos hfloor)
    refine ⟨_, takeEvent_running hs _, ?_⟩
    rw [hact]
    unfold passCloseCheck
    dsimp only
    generalize hu : updFeed (feedOf p) _ (Ev.start s) = u
    have hfeed : u.feed (feedOf p) = (fun r : FeedRec =>
        { r with output := limitTarget r (s.control.trim.get (feedOf p)), target := limitTarget r (s.control.trim.get (feedOf p)),
                 ramp := .stopped })
        { (s.feed (feedOf p)).setDrive p .closed with state := .base, selected := some p, check := .idle } := by
      rw [← hu, updFeed_feed_self]
      rfl
    have hports : u.ports = s.ports := by rw [← hu]; rfl
    have hcap : ((s.feed (feedOf p)).setDrive p .closed).stepCap = (s.feed (feedOf p)).stepCap := by
      rw [setDrive_eq]
    have hclose : u.closeStepOn p = s.closeStepOn p := by rw [← hu]; rfl
    have hflight : u.inFlight = s.inFlight := by rw [← hu]; rfl
    have hdone : ∀ v, v = (if u.closeStepOn p then endStep .done u else u) → v.feed (feedOf p) = u.feed (feedOf p)
        ∧ v.ports = u.ports := by
      rintro v rfl
      split
      · exact ⟨endStep_feed _ _ _, endStep_ports _ _⟩
      · exact ⟨rfl, rfl⟩
    obtain ⟨hvfeed, hvports⟩ := hdone _ rfl
    rw [hvfeed, hvports, hfeed, hports]
    refine ⟨rfl, rfl, ?_, rfl, fun hstep htrim => ?_, rfl, fun st hf hon => ?_⟩
    · cases p <;> rfl
    · rw [htrim]
      simp [limitTarget, capBy, hcap, hstep, Config.baseCurrent]
    · rw [if_pos (hclose.trans hon), endStep_eq (hflight.trans hf)]
  · have hact : expireCloseCheck (feedOf p) (Ev.start s) = failCloseCheck (feedOf p) p (Ev.start s) := by
      simp only [expireCloseCheck, start_toState, hcheck, Timer.expired]
      exact (if_pos ⟨trivial, trivial⟩).trans (if_neg (Nat.not_le.2 hfloor))
    refine ⟨_, takeEvent_running hs _, ?_⟩
    rw [hact]
    unfold failCloseCheck
    dsimp only
    generalize hu : recordFailure p .voltageOut (setTrim (feedOf p) none (dropCloseCheck p (Ev.start s))) = u
    have hport : u.port p = { s.port p with lastFailure := .voltageOut } := by
      rw [← hu]; simp [recordFailure, dropCloseCheck]
    have hfeed : u.feed (feedOf p) = { (s.feed (feedOf p)).setDrive p .opened with selected := none, check := .idle } := by
      rw [← hu]; simp [recordFailure, dropCloseCheck]
    have hustate : (u.feed (feedOf p)).state = .idle := by
      rw [hfeed, setDrive_eq]
      exact hidle
    have htrim : u.control.trim.get (feedOf p) = none := by rw [← hu]; simp [recordFailure]
    have hclose : u.closeStepOn p = s.closeStepOn p := by rw [← hu]; rfl
    have hflight : u.inFlight = s.inFlight := by rw [← hu]; rfl
    have hyfeed : (failClose p .voltageOut u).feed (feedOf p) = u.feed (feedOf p) := failClose_feed _ _ _ _
    have hyport : (failClose p .voltageOut u).port p = { s.port p with lastFailure := .voltageOut } := by
      rw [failClose_port_self, hport]
      simp
    have hchecking : (failClose p .voltageOut u).closeChecking p = false := by
      unfold State.closeChecking
      rw [hyfeed, hfeed]
      split
      · rename_i heq
        cases heq
      · rfl
    have hheld : (failClose p .voltageOut u).closeHeld p = false := by
      unfold State.closeHeld
      rw [hyfeed, hustate]
      rfl
    have hopen : (failClose p .voltageOut u).closedOn p = false := by
      rw [← Bool.not_eq_true, closedOn_iff, hyfeed, hfeed]
      simp
    obtain ⟨hrec, htrig⟩ := decideRestart_recovers (p := p) (w := failClose p .voltageOut u) (by
      rw [hyport]
      simp [hst])
    have hvfeed := hrec.opened hopen hchecking
    rw [hheld, hyfeed] at hvfeed
    have hquiet := hrec.quiet (.inr hchecking)
    refine ⟨htrig, ?_, ?_, ?_, ?_, ?_, ?_, ?_, ?_, fun st hf hon => ?_⟩
    · rw [hvfeed]
      exact hustate
    · rw [hvfeed, hfeed]
    · rw [hvfeed, hfeed]
      cases p <;> rfl
    · refine hrec.check_idle ?_
      rw [hyfeed, hfeed]
    · rw [hrec.trim, failClose_trim, htrim]
    · rw [hrec.port]
    · rw [hrec.port, hyport, hchecking]
      simp
    · rw [hrec.port]
    · have hfails := (failClose_of_on (hclose.trans hon) .voltageOut).2
      refine ⟨hrec.notices _ ?_, ?_⟩
      · rw [hfails.link]
        exact noticeSet_setNotice_self _ u
      · rw [hquiet.2.1]
        exact hfails.ended st (hflight.trans hf)

/-! ## The window of a CONTRACT_CHECK (R41, R133) -/

/-- A contract told to its feed (R132): the feed's record, and what the allocator may do where the feed leaves BASE. -/
theorem reportEntered_spec (p : Port) (v i : Nat) (w : Ev) :
    (∃ u, PoolAct (fun q => w.outlet.hasEntry q = true) u (reportEntered p v i w) ∧ u.ports = w.ports ∧ u.outlet = w.outlet
      ∧ u.control = w.control ∧ u.link = w.link ∧ u.trig = w.trig)
      ∧ (reportEntered p v i w).feed (feedOf p) = if w.closedOn p then FeedRec.retarget (w.control.trim.get (feedOf p))
        { w.feed (feedOf p) with state := .contract, view := some ⟨v, i⟩, underVolt := .off } else w.feed (feedOf p) := by
  unfold reportEntered
  split
  · dsimp only
    split
    · rename_i hbase
      have hact := recomputePool_act (retarget (feedOf p) (updFeed (feedOf p) (fun r =>
        { r with state := .contract, view := some ⟨v, i⟩, underVolt := .off }) w))
      refine ⟨⟨_, hact, rfl, rfl, rfl, rfl, rfl⟩, ?_⟩
      rw [recomputePool_feed, retarget, updFeed_feed_self, updFeed_feed_self]
      rfl
    · refine ⟨⟨_, .refl _, rfl, rfl, rfl, rfl, rfl⟩, ?_⟩
      rw [retarget, updFeed_feed_self, updFeed_feed_self]
      rfl
  · exact ⟨⟨_, .refl _, rfl, rfl, rfl, rfl, rfl⟩, rfl⟩

theorem limitTarget_le_view {r : FeedRec} {v : ContractView} (hs : r.state = .contract) (hv : r.view = some v)
    (t : Option Nat) : limitTarget r t ≤ v.current := by
  unfold limitTarget
  rw [hs, hv]
  exact (capBy_le _ _).trans (capBy_le _ _)

/-- Settles O39. -/
theorem contractCheckEntersOrFails : Obligations.ContractCheckEntersOrFails := by
  rintro f p v c t s hs rfl hcheck hst hc hgrant hentry
  generalize hu : updFeed (feedOf p) (fun r => { r with check := .idle }) (Ev.start s) = u
  have hact : expireContractCheck (feedOf p) (Ev.start s)
      = if inBand v (s.avgVoltage (feedOf p)) then enterContract p u else exchangeFails p .voltageOut u := by
    simp only [expireContractCheck, start_toState, hcheck, Timer.expired, hu]
    rfl
  have hsame : u.ports = s.ports ∧ u.outlet = s.outlet ∧ u.control = s.control ∧ u.closedOn p = s.closedOn p
      ∧ u.exchangeOn p = s.exchangeOn p := by
    rw [← hu]
    refine ⟨rfl, rfl, rfl, ?_, rfl⟩
    apply closedOn_congr <;> rw [updFeed_feed_self] <;> rfl
  obtain ⟨huports, huoutlet, hucontrol, huclosed, huon⟩ := hsame
  have huport : u.port p = s.port p := by rw [State.port, huports]; rfl
  have hufeed : u.feed (feedOf p) = { s.feed (feedOf p) with check := .idle } := by rw [← hu, updFeed_feed_self]; rfl
  refine ⟨fun hlow hhigh => ?_, fun hout => ?_⟩
  · rw [if_pos (by simp [inBand, hlow, hhigh])] at hact
    refine ⟨_, takeEvent_running hs _, ?_⟩
    rw [hact]
    unfold enterContract
    rw [huport, hc]
    dsimp only
    generalize hx : enter p .contract (setNotice .contractChanged (updPort p (fun r =>
      { r with
        contract := some ⟨c.line, c.voltage, c.current, c.voltage * c.current / 1000, c.grantTime.getD u.time⟩
        claim := none
        repeatCount := 0 }) u)) = x
    have hxport : x.port p = { s.port p with
        state := .contract, claim := none, repeatCount := 0
        contract := some ⟨c.line, c.voltage, c.current, c.voltage * c.current / 1000, t⟩ } := by
      rw [← hx, enter_port, setNotice_port, updPort_port_self, huport, hgrant]
      rfl
    have hxfeed : x.feed (feedOf p) = u.feed (feedOf p) := by
      rw [← hx, enter_feed, if_neg (fun h => h.2.1 rfl)]
      rfl
    have hxclosed : x.closedOn p = s.closedOn p := by rw [← hx, enter_closedOn, ← huclosed]; rfl
    have hxlink : x.link.noticeSet .contractChanged = true := by
      rw [← hx, enter_link]; exact noticeSet_setNotice_self _ _
    have hxoutlet : x.outlet = s.outlet := by rw [← hx, enter_outlet, ← huoutlet]; rfl
    have hxcontrol : x.control = s.control := by rw [← hx, enter_control, ← hucontrol]; rfl
    obtain ⟨⟨y, hpool, hyports, hyoutlet, hycontrol, hylink, -⟩, hfeed⟩ := reportEntered_spec p c.voltage c.current x
    generalize reportEntered p c.voltage c.current x = z at hpool hfeed ⊢
    have hzport : z.port p = x.port p := by
      rw [(hpool.alone p (by rw [hxoutlet, hentry]; decide)).1, State.port, hyports]
      rfl
    have hzlink : z.link.noticeSet .contractChanged = true := hpool.notices _ (by rw [hylink]; exact hxlink)
    have hzcontrol : z.control = s.control := hpool.control.trans (hycontrol.trans hxcontrol)
    have hzcheck : (z.feed (feedOf p)).check = .idle := by
      rw [hfeed]
      split
      · obtain ⟨m, hm⟩ := retarget_spec (x.control.trim.get (feedOf p))
          { x.feed (feedOf p) with state := .contract, view := some ⟨c.voltage, c.current⟩, underVolt := .off }
        rw [hm]
        exact congrArg (·.check) (hxfeed.trans hufeed)
      · rw [hxfeed, hufeed]
    have hzclosed : s.closedOn p = true → (z.feed (feedOf p)).state = .contract
        ∧ (z.feed (feedOf p)).view = some ⟨c.voltage, c.current⟩ ∧ (z.feed (feedOf p)).output ≤ c.current := by
      intro h
      rw [hfeed, if_pos (hxclosed.trans h)]
      exact ⟨by simp, by simp, (retarget_output_le _ _).trans (limitTarget_le_view (v := ⟨c.voltage, c.current⟩) rfl rfl _)⟩
    have hended : ∀ st, s.inFlight = some st → s.exchangeOn p = true →
        (doneExchange p z).ended = some { st with status := .done } := fun st hf hon =>
      doneExchange_ended (by rw [State.inFlight, hzcontrol]; exact hf)
        (by rw [State.exchangeOn, State.inFlight, hzcontrol]; exact hon)
    cases ho : c.origin with
    | protective =>
      exact ⟨hzport.trans hxport, hzlink, hzcheck, hzclosed, fun _ => rfl, fun _ _ _ h => absurd rfl h⟩
    | raise | lower =>
      dsimp only
      rw [doneExchange_port, doneExchange_link, doneExchange_feed]
      exact ⟨hzport.trans hxport, hzlink, hzcheck, hzclosed, (by simp), fun st hf hon _ => hended st hf hon⟩
  · rw [if_neg (by simp only [inBand, Bool.and_eq_true, decide_eq_true_eq]; omega)] at hact
    refine ⟨_, takeEvent_running hs _, ?_⟩
    rw [hact]
    have hchecking : u.closeChecking p = false := by
      unfold State.closeChecking
      rw [hufeed]
      cases (s.feed (feedOf p)).state <;> rfl
    obtain ⟨htrig, hport, hlast, -, -, hstep, hidle⟩ := exchangeFails_spec (p := p) (r := .voltageOut) (w := u) (by
      rw [huport]
      simp [hst])
    refine ⟨htrig, ?_, hlast hchecking, ?_, ?_, ?_, hidle (by rw [hufeed]), fun h => (hstep (huon.trans h)).1⟩ <;> rw [hport]

end Sys2Proof.Machine
end

