-- ==== Sys2Proof/Proofs/Monitors.lean ====
section
/-! PROOFS. What the monitors do when their periods expire (O41). -/
namespace Sys2Proof.Machine

theorem failExchange_notices (p : Port) (r : FailReason) (w : Ev) (n : Notice) (h : w.link.noticeSet n = true) :
    (failExchange p r w).link.noticeSet n = true := by
  cases hon : w.exchangeOn p with
  | true =>
    rw [(failExchange_of_on hon r).2.link]
    exact noticeSet_setNotice n _ w h
  | false => rwa [failExchange_of_off hon]

/-- What a fault leaves beside its feed: the ports as the allocator may leave them, no trim, FEED_FAULT (R140, R146). -/
theorem faultFeed_leaves (f : Feed) (p : Port) (w : Ev) :
    (∀ q, (w.port q).poolTouched (w.outlet.hasEntry q) ((faultFeed f p w).port q))
      ∧ ((w.feed f).state ≠ .contract → (faultFeed f p w).ports = w.ports)
      ∧ (faultFeed f p w).control.trim.get f = none ∧ (faultFeed f p w).link.noticeSet .feedFault = true
      ∧ ∀ n, w.link.noticeSet n = true → (faultFeed f p w).link.noticeSet n = true := by
  have hopen : ∃ u, PoolAct (fun q => w.outlet.hasEntry q = true) u (openInto .fault f w) ∧ u.ports = w.ports
      ∧ u.outlet = w.outlet ∧ u.control.trim.get f = none ∧ u.link = w.link
      ∧ ((w.feed f).state ≠ .contract → openInto .fault f w = u) := by
    unfold openInto
    dsimp only
    split
    · rename_i hc
      have hact := recomputePool_act (setTrim f none (updFeed f (fun r => { r.openSwitch with state := .fault }) w))
      exact ⟨_, hact, rfl, rfl, by simp, rfl, fun h => absurd (by simpa using hc) h⟩
    · exact ⟨_, .refl _, rfl, rfl, by simp, rfl, fun _ => rfl⟩
  obtain ⟨u, hact, hports, houtlet, htrim, hlink, hno⟩ := hopen
  have huport : ∀ q, u.port q = w.port q := fun q => by rw [State.port, hports]; rfl
  rw [← houtlet] at hact
  refine ⟨fun q => ?_, fun h => ?_, ?_, noticeSet_setNotice_self _ _, fun n hn => ?_⟩
  · have := hact.touched q
    rw [houtlet, huport] at this
    exact this
  · show (openInto .fault f w).ports = w.ports
    rw [hno h, hports]
  · show (openInto .fault f w).control.trim.get f = none
    rw [hact.control, htrim]
  · refine noticeSet_setNotice n _ _ ?_
    show (openInto .fault f w).link.noticeSet n = true
    exact hact.notices n (by rw [hlink]; exact hn)

/-- What the over-draw of a feed leaves (R140). -/
theorem expireOverdraw_spec {f : Feed} {p : Port} {w : Ev} (hi : (w.feed f).incumbent = some p)
    (hd : (w.feed f).overdraw.expired = true) :
    (expireOverdraw f w).trig = true ∧ (expireOverdraw f w).link.noticeSet .feedFault = true
      ∧ (∀ n, w.link.noticeSet n = true → (expireOverdraw f w).link.noticeSet n = true)
      ∧ (expireOverdraw f w).control.trim.get f = none
      ∧ (expireOverdraw f w).feed f = { (w.feed f).openSwitch with
        state := .fault, faultReason := .overdraw, faultPort := some p, faultTime := some w.time }
      ∧ ((w.port p).restartsOnFault = true → (w.port p).state ≠ .recovery →
        ((expireOverdraw f w).port p).state = .recovery ∧ ((expireOverdraw f w).port p).contract = none
          ∧ ((expireOverdraw f w).port p).order = [.restart])
      ∧ ((w.port p).restartsOnFault = false → (w.feed f).state ≠ .contract → (expireOverdraw f w).ports = w.ports) := by
  obtain ⟨hfeed, htrig, -⟩ := faultFeed_spec f p w
  obtain ⟨htouched, hports, htrim, hfault, hnotices⟩ := faultFeed_leaves f p w
  unfold expireOverdraw
  rw [hi]
  dsimp only
  rw [if_pos hd]
  generalize faultFeed f p w = u at hfeed htrig htouched hports htrim hfault hnotices ⊢
  cases hr : (w.port p).restartsOnFault with
  | false =>
    rw [if_neg (by decide)]
    exact ⟨htrig, hfault, hnotices, htrim, hfeed, (by simp), fun _ => hports⟩
  | true =>
    rw [if_pos rfl]
    by_cases hrecovery : (u.port p).state = .recovery
    · have heq := decideRestart_of_recovery (p := p) (w := failExchange p .superseded u) (by
        rw [failExchange_port_self]; exact hrecovery)
      have hback : (w.port p).state = .recovery := by
        obtain ⟨⟨st, pr, o, hport, -, hst⟩, -⟩ := htouched p
        rw [hport] at hrecovery
        rcases hst with h | h
        · exact h.symm.trans hrecovery
        · rw [h] at hrecovery
          cases hrecovery
      rw [heq]
      exact ⟨rfl, failExchange_notices _ _ _ _ hfault, fun n hn => failExchange_notices _ _ _ n (hnotices n hn),
        by simp [htrim], by simp [hfeed], fun _ h => absurd hback h, (by simp)⟩
    · obtain ⟨hrec, htrig', -⟩ := failThenRestart_spec (r := .superseded) hrecovery
      have hfe : (failExchange p .superseded u).feed f = u.feed f := failExchange_feed _ _ _ _
      refine ⟨htrig', hrec.notices _ (failExchange_notices _ _ _ _ hfault),
        fun n hn => hrec.notices _ (failExchange_notices _ _ _ n (hnotices n hn)), ?_, ?_, fun _ _ => ?_, (by simp)⟩
      · rw [hrec.trim, failExchange_trim, htrim]
      · rw [← hfeed]
        by_cases hf : f = feedOf p
        · subst hf
          have hstate : ((failExchange p .superseded u).feed (feedOf p)).state = .fault := by rw [hfe, hfeed]
          have hopen : (failExchange p .superseded u).closedOn p = false := by
            rw [← Bool.not_eq_true, closedOn_iff, powered_iff, hstate]
            simp
          have hcheck : ((failExchange p .superseded u).feed (feedOf p)).check = .idle := by rw [hfe, hfeed]; rfl
          have hheld : (failExchange p .superseded u).closeHeld p = false := by
            unfold State.closeHeld
            rw [hstate]
            rfl
          have hchecking : (failExchange p .superseded u).closeChecking p = false := by
            unfold State.closeChecking
            rw [hstate]
          rw [hrec.opened hopen hchecking, hheld, hcheck, ite_self, hfe, hfeed]
          simp [FeedRec.openSwitch]
        · rw [hrec.feeds f hf, hfe]
      · rw [hrec.port]
        exact ⟨rfl, rfl, rfl⟩

/-- Settles O41. -/
theorem expiredPeriodsAct : Obligations.ExpiredPeriodsAct := by
  refine fun s hs => ⟨?_, fun f p hi hd => ?_, fun p g hg hport hperiod hst => ?_⟩
  · rintro f p hstate hsel rfl hexp hst hk
    generalize hu : recordFailure p .voltageOut (updFeed (feedOf p) (fun r => { r with underVolt := .off }) (Ev.start s)) = u
    have hact : expireUnderVoltage (feedOf p) (Ev.start s) = expireOverdraw (feedOf p) (decideRestart p u) := by
      simp only [expireUnderVoltage, start_toState, hsel]
      exact (if_pos ⟨hexp, hstate⟩).trans (by rw [hu])
    have hport : u.port p = { s.port p with lastFailure := .voltageOut } := by rw [← hu]; simp [recordFailure]
    have hfeed : u.feed (feedOf p) = { s.feed (feedOf p) with underVolt := .off } := by rw [← hu]; simp [recordFailure]
    have hclosed : u.closedOn p = true := by
      rw [closedOn_iff, powered_iff, hfeed]
      exact ⟨.inr hstate, hsel⟩
    obtain ⟨hrec, htrig⟩ := decideRestart_recovers (p := p) (w := u) (by rw [hport]; simp [hst])
    have hchecking := (closeChecking_of_closedOn hclosed (q := p) rfl).1
    have hcontract := hrec.notice (by rw [hport]; exact hk)
    obtain ⟨hclosed', -, hsel', hover, hunder, hbase⟩ := hrec.closedFeed hclosed
    obtain ⟨hbase, hview⟩ := hbase (by rw [hport]; exact hk)
    obtain ⟨hview, hout⟩ := hview (by rw [hfeed]; exact hstate)
    have hrest : (decideRestart p u).rest = u.rest := decideRestart_rest p u
    have htime : (decideRestart p u).time = s.time := by
      have h := congrArg Rest.time hrest
      rw [← hu] at h ⊢
      exact h
    have hvport : (decideRestart p u).port p = { s.port p with
        state := .recovery, partner := none, sheet := [], contract := none, claim := none, parkReason := none
        order := [.restart], timer := .stopped, lastFailure := .voltageOut } := by
      rw [hrec.port, hport, hchecking]
      simp
    generalize decideRestart p u = v at *
    rw [hfeed] at hover
    refine ⟨_, takeEvent_running hs _, ?_⟩
    rw [hact]
    cases hd : (s.feed (feedOf p)).overdraw.expired with
    | true =>
      have hi : (v.feed (feedOf p)).incumbent = some p := by
        simp [FeedRec.incumbent, FeedRec.powered, hbase, hsel']
      obtain ⟨htrig', hfault, hnotices, htrim, hvfeed, -, hports⟩ := expireOverdraw_spec hi (by rw [hover]; exact hd)
      have hxport : (expireOverdraw (feedOf p) v).port p = v.port p := by
        have := hports (by rw [hvport]; rfl) (by rw [hbase]; decide)
        rw [State.port, this]
        rfl
      rw [hxport, hvport, hvfeed, htime]
      exact ⟨htrig', rfl, rfl, rfl, rfl, rfl, Nat.zero_le _, rfl, hnotices _ hcontract, rfl, rfl, rfl, rfl, rfl, rfl, rfl, rfl,
        rfl, rfl, hfault, htrim⟩
    | false =>
      have heq : expireOverdraw (feedOf p) v = v := by
        unfold expireOverdraw
        split
        · rfl
        · rw [if_neg]
          rw [hover, hd]
          decide
      rw [heq, hvport]
      exact ⟨htrig, rfl, rfl, rfl, rfl, hview, hout, hunder, hcontract, hbase, hsel', hover⟩
  · obtain ⟨htrig, hfault, -, htrim, hfeed, hport, -⟩ := expireOverdraw_spec (w := Ev.start s) hi hd
    refine ⟨_, takeEvent_running hs _, htrig, hfault, htrim, ?_⟩
    rw [hfeed]
    refine ⟨rfl, rfl, rfl, rfl, rfl, rfl, rfl, rfl, rfl, rfl, rfl, rfl, fun h hst => hport ?_ hst⟩
    simp only [List.mem_cons, List.not_mem_nil, or_false] at h
    show (s.port p).restartsOnFault = true
    unfold PortRec.restartsOnFault
    rcases h with h | h | h | h <;> simp [h]
  · have hdue : s.outlet.overdrawDue p = true := by
      rw [Outlet.overdrawDue, List.any_eq_true]
      exact ⟨g, hg, by simp [hport, hperiod]⟩
    have hentry : s.outlet.hasEntry p = true := (hasEntry_iff _ _).2 (hport ▸ List.mem_map_of_mem hg)
    have hact : expireOutletOverdraw p (Ev.start s)
        = decideRestart p (setNotice .outletCut (removeEntry p (Ev.start s))) := if_pos hdue
    have huport : (setNotice .outletCut (removeEntry p (Ev.start s))).port p = s.port p := by simp
    obtain ⟨hrec, htrig⟩ := decideRestart_recovers (p := p) (w := setNotice .outletCut (removeEntry p (Ev.start s))) (by
      rw [huport]
      intro h
      simp [h] at hst)
    refine ⟨_, takeEvent_running hs _, ?_⟩
    rw [hact]
    refine ⟨htrig, hrec.readmit ?_, ?_, ?_, ?_, hrec.entry, hrec.drive (.inr ?_), hrec.notices _ (noticeSet_setNotice_self _ _)⟩
    · rw [setNotice_readmit, removeEntry, start_toState, if_pos hentry]
    · rw [hrec.port]
    · rw [hrec.port]
    · rw [hrec.port]
    · exact removeEntry_drive p (Ev.start s) (.inl hentry)

end Sys2Proof.Machine
end

