-- ==== Sys2Proof/Proofs/Openings.lean ====
section
/-! PROOFS. Closed switches opened (R130, R131): the feed record left, and what the allocator may do beside it. -/
namespace Sys2Proof.Machine

/-- What the allocator may do beside an operation that writes no port: as `PoolAct`, for every port at once. -/
structure PoolSide (w v : Ev) : Prop where
  port : ∀ q, (w.port q).poolTouched (w.outlet.hasEntry q) (v.port q)
  trig : v.trig = w.trig
  ended : v.ended = w.ended
  rest : v.rest = w.rest
  readmit : w.readmit = true → v.readmit = true
  notices : ∀ n, w.link.noticeSet n = true → v.link.noticeSet n = true
  only : ∀ n, v.link.noticeSet n = true → w.link.noticeSet n = true ∨ n = .outletCut
  entries : ∀ q, v.outlet.hasEntry q = true → w.outlet.hasEntry q = true
  drive : ∀ q, w.outlet.hasEntry q = true → v.outlet.hasEntry q = false → v.outlet.drives.get q = .opened
  alone : ∀ q, w.outlet.hasEntry q = false →
    v.outlet.parkTime.get q = w.outlet.parkTime.get q ∧ v.outlet.drives.get q = w.outlet.drives.get q

theorem PoolSide.refl (w : Ev) : PoolSide w w :=
  ⟨fun _ => poolTouched_refl _ _, rfl, rfl, rfl, id, fun _ => id, fun _ => .inl, fun _ => id,
    (fun q h hno => by rw [h] at hno; cases hno), fun _ _ => ⟨rfl, rfl⟩⟩

theorem recomputePool_side (w : Ev) : PoolSide w (recomputePool w) := by
  have h := recomputePool_act w
  exact ⟨h.touched, h.trig, h.ended, h.rest, h.readmit, h.notices, recomputePool_notices w, h.entries,
    fun _ => recomputePool_drive, fun q hq => (h.alone q (by simp [hq])).2⟩

/-- An entry of the grant list stays where the pool is computed again, or its drive opens. -/
theorem PoolSide.parked {w v : Ev} (h : PoolSide w v) {q : Port} (hq : w.outlet.hasEntry q = false) : v.port q = w.port q :=
  (h.port q).2.1 hq

theorem openInto_eq (st : FeedState) (f : Feed) (w : Ev) : openInto st f w =
    if (w.feed f).state = .contract then
      recomputePool (setTrim f none (updFeed f (fun r => { r.openSwitch with state := st }) w))
    else setTrim f none (updFeed f (fun r => { r.openSwitch with state := st }) w) := by
  simp only [openInto, beq_iff_eq]

theorem openInto_side (st : FeedState) (f : Feed) (w : Ev) : PoolSide w (openInto st f w) := by
  rw [openInto_eq]
  split
  · exact { recomputePool_side (setTrim f none (updFeed f (fun r => { r.openSwitch with state := st }) w)) with }
  · exact { PoolSide.refl w with }

theorem openInto_control (st : FeedState) (f : Feed) (w : Ev) :
    (openInto st f w).control = { w.control with trim := w.control.trim.set f none } := by
  rw [openInto_eq]
  split
  · rw [recomputePool_control]; rfl
  · rfl

/-- The feed of a port opened with a gap (R130). -/
def State.gapFeed (s : State) (p : Port) : FeedRec :=
  if s.closedOn p then { (s.feed (feedOf p)).openSwitch with state := .gap, gap := .armed } else s.feed (feedOf p)

/-- What the opening of a port's closed switch leaves. -/
structure SwitchOpened (p : Port) (r : FeedRec) (w v : Ev) : Prop extends PoolSide w v where
  feed : v.feed (feedOf p) = r
  feeds : ∀ f, f ≠ feedOf p → v.feed f = w.feed f
  closed : v.closedOn p = false
  control : v.control = if w.closedOn p then { w.control with trim := w.control.trim.set (feedOf p) none } else w.control

theorem closedOn_of_state {s : State} {p : Port} (h : (s.feed (feedOf p)).powered = false) : s.closedOn p = false := by
  rw [← Bool.not_eq_true, closedOn_iff, h]
  simp

theorem openIfClosedOn_opens (p : Port) (w : Ev) : SwitchOpened p (w.gapFeed p) w (openIfClosedOn p w) := by
  unfold openIfClosedOn
  cases hc : w.closedOn p with
  | false =>
    rw [if_neg (by decide)]
    refine ⟨.refl w, ?_, fun _ _ => rfl, hc, ?_⟩
    · simp [State.gapFeed, hc]
    · simp [hc]
  | true =>
    have hpow := ((closedOn_iff w.toState p).1 hc).1
    have hside := openInto_side .gap (feedOf p) w
    have hfeed := openInto_feed .gap (feedOf p) w
    rw [if_pos rfl, openWithGap, if_pos hpow]
    refine ⟨{ hside with }, ?_, fun f hf => ?_, closedOn_of_state ?_, ?_⟩
    · rw [updFeed_feed_self, hfeed, State.gapFeed, if_pos hc]
    · rw [updFeed_feed_of_ne _ _ hf, openInto_feed_of_ne hf]
    · rw [updFeed_feed_self, hfeed]
      rfl
    · rw [updFeed_control, openInto_control, if_pos hc]

theorem openForDetach_opens (p : Port) (w : Ev) : SwitchOpened p
    (if w.closedOn p then { (w.feed (feedOf p)).openSwitch with state := .idle } else w.feed (feedOf p))
    w (openForDetach p w) := by
  unfold openForDetach
  cases hc : w.closedOn p with
  | false =>
    rw [if_neg (by decide)]
    exact ⟨.refl w, by simp, fun _ _ => rfl, hc, by simp [hc]⟩
  | true =>
    rw [if_pos rfl, if_pos rfl]
    refine ⟨openInto_side .idle (feedOf p) w, ?_, fun f hf => openInto_feed_of_ne hf _ _, closedOn_of_state ?_, ?_⟩
    · rw [openInto_feed]
    · rw [openInto_feed]; rfl
    · rw [openInto_control, if_pos hc]

theorem openIfClosedOn_of_open {p : Port} {w : Ev} (h : w.closedOn p = false) : openIfClosedOn p w = w := by
  simp [openIfClosedOn, h]

/-! ## A state entered by a port whose switch is open -/

theorem enter_of_open {p : Port} {w : Ev} (h : w.closedOn p = false) (st : PortState) :
    enter p st w = updPort p (fun r => { r with state := st }) w := by
  unfold enter
  dsimp only
  rw [if_neg (fun k => by rw [updPort_closedOn, h] at k; cases k.2)]

theorem park_of_open {p : Port} {w : Ev} (h : w.closedOn p = false) (reason : ParkReason) : park p reason w =
    raiseTrigger (updPort p (fun r => { r with state := .parked, parkReason := some reason }) w) := by
  rw [park, enter_of_open (by rwa [updPort_closedOn])]
  simp [updPort]

/-- Settles O28. -/
theorem greetingDeadlineTakesThePartnerAsSilent : Obligations.GreetingDeadlineTakesThePartnerAsSilent := by
  refine fun p s hs ht => ⟨fun hst hrole hentry => ?_, fun hst hrole => ?_, fun hst => ?_⟩
  · generalize hu : updPort p (fun r => { r with partner := some ⟨.intake, .unknown, 3000, 0, 1, true⟩, timer := .stopped })
      (Ev.start s) = u
    have hact : expireGreeting p (Ev.start s) = raiseTrigger (enter p .held (openIfClosedOn p u)) := by
      rw [← hu]
      simp [expireGreeting, State.portDue, ht, hst, ExchangeTimer.expiredAs, silentPartner, hrole, Config.lowCable]
    have hport : u.port p = { s.port p with partner := some ⟨.intake, .unknown, 3000, 0, 1, true⟩, timer := .stopped } := by
      rw [← hu]; simp
    have hopen := openIfClosedOn_opens p u
    have hsame : u.closedOn p = s.closedOn p := by rw [← hu]; rfl
    have hfeed : u.feed (feedOf p) = s.feed (feedOf p) := by rw [← hu]; rfl
    have hrest : u.feeds = s.feeds ∧ u.link = s.link ∧ u.outlet = s.outlet := by rw [← hu]; exact ⟨rfl, rfl, rfl⟩
    have hid := openIfClosedOn_of_open (p := p) (w := u)
    generalize openIfClosedOn p u = v at *
    refine ⟨_, takeEvent_running hs _, ?_⟩
    rw [hact, enter_of_open hopen.closed]
    refine ⟨rfl, ?_, hopen.closed, fun hc => ?_, fun hc => ?_⟩
    · rw [raiseTrigger_port, updPort_port_self, hopen.parked (by rw [hrest.2.2, hentry]), hport]
    · show (v.feed (feedOf p)).state = _ ∧ (v.feed (feedOf p)).gap = _ ∧ (v.feed (feedOf p)).output = _
      rw [hopen.feed, State.gapFeed, hsame, if_pos hc]
      exact ⟨rfl, rfl, rfl⟩
    · rw [hid (hsame.trans hc)]
      exact hrest
  · generalize hu : updPort p (fun r => { r with partner := some ⟨.refused, .unknown, 3000, 0, 1, true⟩, timer := .stopped })
      (Ev.start s) = u
    have hact : expireGreeting p (Ev.start s) = park p .role (openIfClosedOn p u) := by
      rw [← hu]
      simp [expireGreeting, State.portDue, ht, hst, ExchangeTimer.expiredAs, silentPartner, hrole, Config.lowCable]
    have hport : (u.port p).partner = some ⟨.refused, .unknown, 3000, 0, 1, true⟩ := by rw [← hu]; simp
    have hopen := openIfClosedOn_opens p u
    generalize openIfClosedOn p u = v at *
    refine ⟨_, takeEvent_running hs _, ?_⟩
    rw [hact, park_of_open hopen.closed]
    obtain ⟨⟨st, pr, o, htouched, -⟩, -⟩ := hopen.port p
    refine ⟨rfl, by simp, by simp, ?_, hopen.closed⟩
    rw [raiseTrigger_port, updPort_port_self, htouched]
    exact hport
  · have hact : expireGreeting p (Ev.start s) = raiseTrigger (enter p .held (stopTimer p (Ev.start s))) := by
      simp [expireGreeting, State.portDue, ht, hst, ExchangeTimer.expiredAs]
    refine ⟨_, takeEvent_running hs _, ?_⟩
    rw [hact]
    refine ⟨rfl, ?_, by simp [stopTimer]⟩
    rw [raiseTrigger_port, enter_port]
    simp [stopTimer]

end Sys2Proof.Machine
end

