-- ==== Sys2Proof/Proofs/Announces.lean ====
section
/-! PROOFS. The way of a trapped frame to its state machine (R9, R174), and an ANNOUNCE welcomed by the role its class asks for
(O29). -/
namespace Sys2Proof.Machine

/-! ## What stands beside ports, feeds and outlet -/

section
variable {w v : Ev} (h : v.rest = w.rest)
include h

theorem traps_of_rest : v.traps = w.traps := congrArg Rest.traps h
theorem tables_of_rest : v.tables = w.tables := congrArg Rest.tables h
theorem time_of_rest : v.time = w.time := congrArg Rest.time h
theorem factory_of_rest : v.factory = w.factory := congrArg Rest.factory h
theorem link_of_rest : v.link = { w.link with notices := v.link.notices } :=
  congrArg (fun r => { r.link with notices := v.link.notices }) h

end

theorem welcomeCeiling_of_rest {w v : Ev} (h : v.rest = w.rest) (role : Role) : v.welcomeCeiling role = w.welcomeCeiling role := by
  have hmode : v.attended = w.attended := congrArg (fun r => r.link.mode == .attended) h
  have hvalues : v.factoryValues = w.factoryValues := congrArg (fun r => r.factory.values) h
  unfold State.welcomeCeiling
  rw [hmode, hvalues, tables_of_rest h]

/-! ## Trapped frames (R9, R174) -/

/-- A trapped frame that a port hears meets the trap check (R8, R9). -/
theorem receiveFrame_trapped {p : Port} {rk : RxKind} {k : TrapKind} (hk : trapKindOf rk = some k) (hopen : ∀ c, k ≠ .openRange c)
    {payload : List Byte} {w : Ev} (htx : (w.port p).tx = none) (hlen : lengthPermitted rk payload.length = true)
    (h : (w.port p).state ∉ [PortState.detached, .debounce, .disabled, .recovery]) :
    receiveFrame p rk payload w = trapCheck p k payload (endReception p w) := by
  have hdeaf : (w.port p).deaf = false := deaf_eq_false htx fun hm => h (by
    simp only [List.mem_cons, List.not_mem_nil, or_false] at hm ⊢
    tauto)
  have hrec : (w.port p).state ≠ .recovery := fun he => h (by simp [he])
  unfold receiveFrame
  dsimp only
  rw [if_neg (by simp [hdeaf, hlen]), if_neg hrec]
  cases rk with
  | openRange c => cases hk; exact absurd rfl (hopen c)
  | _ => cases hk <;> rfl

/-- No entry is superseded by an ANNOUNCE (R180). -/
theorem supersede_announce (p : Port) (w : Ev) : supersede p .announce w = w := by
  unfold supersede
  simp

theorem trapCheck_pass {p : Port} {k : TrapKind} {payload : List Byte} {w : Ev} (h : w.modeInForce p k = .pass) :
    trapCheck p k payload w = deliverReceived p k payload (supersede p k w) := by
  unfold trapCheck
  dsimp only
  rw [show (supersede p k w).modeInForce p k = .pass from h]

/-- An ANNOUNCE passed to its port reaches the state machine (R27, R47). -/
theorem receiveFrame_announce {p : Port} {payload : List Byte} {s : State} (htx : (s.port p).tx = none)
    (hlen : payload.length = 6) (hmode : s.modeInForce p .announce = .pass)
    (h : (s.port p).state ∉ [PortState.detached, .debounce, .disabled, .recovery]) :
    receiveFrame p .announce payload (Ev.start s) =
      deliverAnnounce p (decodeAnnounce payload) .allow (endReception p (Ev.start s)) := by
  rw [receiveFrame_trapped (k := .announce) rfl (by simp) htx (by simp [lengthPermitted, hlen]) h, trapCheck_pass hmode,
    supersede_announce]
  rfl

/-! ## WELCOME (R28) -/

/-- A port record after a WELCOME was decided. -/
def PortRec.welcomed (role : Role) (ceiling : Nat) (r : PortRec) : PortRec :=
  { r with
    partner := r.partner.map (fun q => { q with role := role })
    order := if r.restartOwed then r.order else placeFrame (.welcome role ceiling) r.order
    timer := .stopped }

theorem decideWelcome_eq (p : Port) (role : Role) (w : Ev) :
    decideWelcome p role w = updPort p (PortRec.welcomed role (w.welcomeCeiling role)) w := by
  unfold decideWelcome stopTimer setRole
  rw [decideFrame_eq, updPort_updPort, updPort_updPort]
  rfl

theorem welcomePartner_intake {p : Port} {cls : PartnerClass} {w : Ev}
    (h : (w.tables.port.get p).roles.allows (roleAsked cls) = true) (hrole : roleAsked cls = .intake) :
    welcomePartner p cls w = enter p .awaitSheet (decideWelcome p .intake w) := by
  rw [hrole] at h
  simp [welcomePartner, hrole, h]

theorem welcomePartner_outlet {p : Port} {cls : PartnerClass} {w : Ev}
    (h : (w.tables.port.get p).roles.allows (roleAsked cls) = true) (hrole : roleAsked cls = .outlet) :
    welcomePartner p cls w = requestAdmission p (openIfClosedOn p (decideWelcome p .outlet w)) := by
  rw [hrole] at h
  simp [welcomePartner, hrole, h]

theorem welcomePartner_refused {p : Port} {cls : PartnerClass} {w : Ev}
    (h : (w.tables.port.get p).roles.allows (roleAsked cls) = false) :
    welcomePartner p cls w = park p .role (openIfClosedOn p (decideWelcome p .refused w)) := by
  simp [welcomePartner, h]

theorem roleAsked_cases (cls : PartnerClass) : roleAsked cls = .intake ∨ roleAsked cls = .outlet := by
  cases cls <;> simp [roleAsked]

/-- A port that welcomes a partner in another role than INTAKE: its closed switch opens first (R28). -/
structure WelcomedOpen (p : Port) (role : Role) (w v : Ev) : Prop extends SwitchOpened p (w.gapFeed p) (decideWelcome p role w) v where
  self : ∃ st pr o, v.port p = { (w.port p).welcomed role (w.welcomeCeiling role) with state := st, parkReason := pr, order := o }
    ∧ ((w.port p).restartOwed = false → OutFrame.welcome role (w.welcomeCeiling role) ∈ o)
  same : w.closedOn p = false → v = decideWelcome p role w

theorem openWelcome_spec (p : Port) (role : Role) (w : Ev) :
    WelcomedOpen p role w (openIfClosedOn p (decideWelcome p role w)) := by
  have hopen := openIfClosedOn_opens p (decideWelcome p role w)
  have heq := decideWelcome_eq p role w
  refine ⟨?_, ?_, fun h => openIfClosedOn_of_open (by rw [heq]; exact h)⟩
  · rw [heq] at hopen ⊢
    exact hopen
  · obtain ⟨⟨st, pr, o, hport, horder, -⟩, -⟩ := hopen.port p
    have hself : (decideWelcome p role w).port p = (w.port p).welcomed role (w.welcomeCeiling role) := by
      rw [heq, updPort_port_self]
    rw [hself] at hport horder
    refine ⟨st, pr, o, by rw [hport], fun h => horder _ ?_ (by simp [OutFrame.kindCode])⟩
    rw [PortRec.welcomed, h]
    exact mem_placeFrame _ _

/-- A partner refused: parked with a reason, its closed switch opened (R28, R185). -/
theorem parkRefused_spec (p : Port) (reason : ParkReason) (w : Ev) :
    (park p reason (openIfClosedOn p (decideWelcome p .refused w))).trig = true
      ∧ (∃ o, (park p reason (openIfClosedOn p (decideWelcome p .refused w))).port p =
          { (w.port p).welcomed .refused 0 with state := .parked, parkReason := some reason, order := o }
        ∧ ((w.port p).restartOwed = false → OutFrame.welcome .refused 0 ∈ o))
      ∧ (park p reason (openIfClosedOn p (decideWelcome p .refused w))).closedOn p = false
      ∧ (park p reason (openIfClosedOn p (decideWelcome p .refused w))).feed (feedOf p) = w.gapFeed p
      ∧ (park p reason (openIfClosedOn p (decideWelcome p .refused w))).rest = w.rest
      ∧ (∀ n, w.link.noticeSet n = true →
        (park p reason (openIfClosedOn p (decideWelcome p .refused w))).link.noticeSet n = true)
      ∧ ∀ q, (park p reason (openIfClosedOn p (decideWelcome p .refused w))).outlet.hasEntry q = true →
        w.outlet.hasEntry q = true := by
  have hw := openWelcome_spec p .refused w
  have heq := decideWelcome_eq p .refused w
  generalize openIfClosedOn p (decideWelcome p .refused w) = v at hw ⊢
  rw [park_of_open hw.closed]
  obtain ⟨st, pr, o, hport, horder⟩ := hw.self
  refine ⟨rfl, ⟨o, ?_, horder⟩, hw.closed, hw.feed, hw.rest.trans (by rw [heq]; rfl), fun n hn => hw.notices n ?_,
    fun q hq => ?_⟩
  · rw [raiseTrigger_port, updPort_port_self, hport]
    rfl
  · rw [heq]; exact hn
  · have := hw.entries q hq
    rw [heq] at this
    exact this

/-- A partner welcomed in the role INTAKE (R28). -/
theorem welcomeIntake_spec {p : Port} {cls : PartnerClass} {w : Ev}
    (h : (w.tables.port.get p).roles.allows (roleAsked cls) = true) (hrole : roleAsked cls = .intake) :
    (welcomePartner p cls w).port p = { (w.port p).welcomed .intake (w.welcomeCeiling .intake) with state := .awaitSheet }
      ∧ (welcomePartner p cls w).rest = w.rest ∧ (welcomePartner p cls w).link = w.link
      ∧ (welcomePartner p cls w).outlet = w.outlet ∧ (welcomePartner p cls w).trig = w.trig
      ∧ (welcomePartner p cls w).ended = w.ended ∧ (welcomePartner p cls w).readmit = w.readmit
      ∧ (welcomePartner p cls w).closedOn p = w.closedOn p
      ∧ ((welcomePartner p cls w).feed (feedOf p)).state = (w.feed (feedOf p)).state := by
  rw [welcomePartner_intake h hrole, decideWelcome_eq]
  refine ⟨?_, enter_rest _ _ _, enter_link _ _ _, enter_outlet _ _ _, enter_trig _ _ _, enter_ended _ _ _,
    enter_readmit _ _ _, enter_closedOn _ _ _ _, ?_⟩
  · rw [enter_port, updPort_port_self]
  · rw [enter_feed]
    split <;> rfl

/-- A port asks for admission: it is admitted as the newest of the list, or parked with reason POOL (R147). -/
theorem requestAdmission_spec (p : Port) (w : Ev) :
    ∃ st pr, (requestAdmission p w).port p = { w.port p with state := st, parkReason := pr }
      ∧ (500 ≤ w.outlet.freeRoom ∧ st = .outletBase ∧ pr = none
          ∧ (requestAdmission p w).outlet = { w.outlet with
              grants := w.outlet.grants.filter (·.port != p) ++ [⟨p, .base, 500, w.time, .off⟩]
              drives := w.outlet.drives.set p .closed
              parkTime := w.outlet.parkTime.set p none }
        ∨ w.outlet.freeRoom < 500 ∧ st = .parked ∧ pr = some .pool
          ∧ (requestAdmission p w).outlet = { w.outlet with parkTime := w.outlet.parkTime.set p (some w.time) }) := by
  unfold requestAdmission
  split
  · rename_i h
    exact ⟨.outletBase, none, by simp [admitPort], .inl ⟨h, rfl, rfl, rfl⟩⟩
  · rename_i h
    exact ⟨.parked, some .pool, by simp [parkForPool], .inr ⟨Nat.not_le.1 h, rfl, rfl, rfl⟩⟩

section
variable (p : Port) (w : Ev)
theorem requestAdmission_feeds : (requestAdmission p w).feeds = w.feeds := by unfold requestAdmission; split <;> rfl
theorem requestAdmission_link : (requestAdmission p w).link = w.link := by unfold requestAdmission; split <;> rfl
theorem requestAdmission_owed : (requestAdmission p w).trig = w.trig ∧ (requestAdmission p w).ended = w.ended
    ∧ (requestAdmission p w).readmit = w.readmit := by
  unfold requestAdmission
  split <;> exact ⟨rfl, rfl, rfl⟩
theorem requestAdmission_feed (f : Feed) : (requestAdmission p w).feed f = w.feed f := by
  rw [State.feed, requestAdmission_feeds]; rfl
theorem requestAdmission_closedOn (q : Port) : (requestAdmission p w).closedOn q = w.closedOn q := by
  simp only [State.closedOn, requestAdmission_feed]
end

/-- A partner welcomed in the role OUTLET: admitted or parked, its closed switch opened first (R28, R147). -/
theorem welcomeOutlet_spec {p : Port} {cls : PartnerClass} {w : Ev}
    (h : (w.tables.port.get p).roles.allows (roleAsked cls) = true) (hrole : roleAsked cls = .outlet) :
    (∃ st pr o, (welcomePartner p cls w).port p =
          { (w.port p).welcomed .outlet 5000 with state := st, parkReason := pr, order := o }
        ∧ ((w.port p).restartOwed = false → OutFrame.welcome .outlet 5000 ∈ o)
        ∧ (st = .outletBase ∧ pr = none
            ∧ (welcomePartner p cls w).outlet.grants.getLast? = some ⟨p, .base, 500, w.time, .off⟩
            ∧ (welcomePartner p cls w).outlet.drives.get p = .closed
            ∧ sumCurrents (welcomePartner p cls w).outlet.grants ≤ (welcomePartner p cls w).outlet.pool
          ∨ st = .parked ∧ pr = some .pool ∧ (welcomePartner p cls w).outlet.freeRoom < 500
            ∧ (w.outlet.hasEntry p = false → (welcomePartner p cls w).outlet.hasEntry p = false)
            ∧ (welcomePartner p cls w).outlet.parkTime.get p = some w.time))
      ∧ (welcomePartner p cls w).closedOn p = false ∧ (welcomePartner p cls w).feed (feedOf p) = w.gapFeed p
      ∧ (welcomePartner p cls w).rest = w.rest ∧ (welcomePartner p cls w).trig = w.trig
      ∧ ∀ n, w.link.noticeSet n = true → (welcomePartner p cls w).link.noticeSet n = true := by
  rw [welcomePartner_outlet h hrole]
  have hw := openWelcome_spec p .outlet w
  have heq := decideWelcome_eq p .outlet w
  generalize openIfClosedOn p (decideWelcome p .outlet w) = v at hw ⊢
  have hdecided : (decideWelcome p .outlet w).rest = w.rest ∧ (decideWelcome p .outlet w).trig = w.trig
      ∧ (decideWelcome p .outlet w).link = w.link ∧ (decideWelcome p .outlet w).outlet = w.outlet := by
    rw [heq]; exact ⟨rfl, rfl, rfl, rfl⟩
  obtain ⟨hdrest, hdtrig, hdlink, hdoutlet⟩ := hdecided
  have hrest : v.rest = w.rest := hw.rest.trans hdrest
  obtain ⟨_, _, o, hport, horder⟩ := hw.self
  obtain ⟨st, pr, hadmit, hcases⟩ := requestAdmission_spec p v
  refine ⟨⟨st, pr, o, by rw [hadmit, hport]; rfl, horder, ?_⟩, by rw [requestAdmission_closedOn]; exact hw.closed,
    by rw [requestAdmission_feed]; exact hw.feed, (requestAdmission_rest p v).trans hrest, ?_, fun n hn => ?_⟩
  · rcases hcases with ⟨hroom, rfl, rfl, houtlet⟩ | ⟨hroom, rfl, rfl, houtlet⟩
    · refine .inl ⟨rfl, rfl, ?_, ?_, ?_⟩ <;> rw [houtlet]
      · simp [time_of_rest hrest]
      · simp
      · have hfits := admit_fits (o := v.outlet) hroom
        have hle := sumCurrents_filter_le (·.port != p) v.outlet.grants
        simp only [sumCurrents_append, sumCurrents_cons, sumCurrents_nil]
        omega
    · refine .inr ⟨rfl, rfl, ?_, fun hno => ?_, ?_⟩ <;> rw [houtlet]
      · exact hroom
      · rw [← Bool.not_eq_true]
        intro hk
        have := hw.entries p hk
        rw [hdoutlet, hno] at this
        cases this
      · simp [time_of_rest hrest]
  · rw [(requestAdmission_owed p v).1, hw.trig, hdtrig]
  · rw [requestAdmission_link]
    exact hw.notices n (by rw [hdlink]; exact hn)

/-! ## ANNOUNCE in GREETING (R27, R28) -/

/-- The partner record created by an ANNOUNCE, the role still to be written (R27). -/
def recordPartner (p : Port) (cls : PartnerClass) (cable : Nat) (tag : BitVec 16) (w : Ev) : Ev :=
  updPort p (fun r => { r with partner := some ⟨.refused, cls, cable, tag, 1, false⟩ }) w

theorem greetPartner_allow (p : Port) (a : Announcement) (w : Ev) :
    greetPartner p a .allow w = welcomePartner p a.cls (recordPartner p a.cls a.cable a.tag w) := rfl
theorem greetPartner_deny (p : Port) (a : Announcement) (w : Ev) : greetPartner p a .deny w =
    park p .denied (openIfClosedOn p (decideWelcome p .refused (recordPartner p a.cls a.cable a.tag w))) := rfl
theorem greetPartner_amend (p : Port) (a : Announcement) (cls : PartnerClass) (cable : Nat) (w : Ev) :
    greetPartner p a (.amendAnnounce cls cable) w = welcomePartner p cls (recordPartner p cls cable a.tag w) := rfl

/-! ## The old partner cleared (R47) -/

/-- A port whose waiting frames gained CUT alone owes no RESTART that it did not owe. -/
theorem restartOwed_of_frames {r q : PortRec} (htx : q.tx = r.tx) (h : ∀ f ∈ q.order, f ∈ r.order ∨ f.kindCode = 0x0D#8)
    (hr : r.restartOwed = false) : q.restartOwed = false := by
  simp only [PortRec.restartOwed, Bool.or_eq_false_iff, List.any_eq_false, beq_iff_eq, htx] at hr ⊢
  refine ⟨fun f hf he => ?_, hr.2⟩
  rcases h f hf with h | h
  · exact hr.1 f h he
  · rw [he] at h
    simp [OutFrame.kindCode] at h

/-- What clearing the old partner leaves. -/
structure OldPartnerCleared (p : Port) (w v : Ev) : Prop where
  port : ∃ st o l, v.port p = { w.port p with
      claim := none, contract := none, sheet := [], partner := none, parkReason := none, timer := .stopped, repeatCount := 0
      state := st, order := o, lastFailure := l }
    ∧ (w.exchangeOn p = true → l = .partnerRestart)
  owed : (w.port p).restartOwed = false → (v.port p).restartOwed = false
  trig : v.trig = true
  rest : v.rest = w.rest
  closedOn : v.closedOn p = w.closedOn p
  feed : w.closedOn p = true → v.feed (feedOf p) = w.clearedFeed p
  opened : w.closedOn p = false → w.closeChecking p = false → v.feed (feedOf p) = { w.feed (feedOf p) with
    heldLost := (w.feed (feedOf p)).heldLost || w.closeHeld p
    check := if w.contractChecking p then .idle else (w.feed (feedOf p)).check }
  entry : v.outlet.hasEntry p = false
  notice : (w.port p).contract.isSome = true → v.link.noticeSet .contractChanged = true
  failed : w.exchangeOn p = true → v.link.noticeSet .stepFailed = true

theorem clearOldPartner_clears (p : Port) (w : Ev) : OldPartnerCleared p w (clearOldPartner p w) := by
  have hrest := clearOldPartner_rest p w
  unfold clearOldPartner at hrest ⊢
  dsimp only at hrest ⊢
  generalize hx : failExchange p .partnerRestart w = x at hrest ⊢
  have hxport : x.port p = { w.port p with
      lastFailure := if w.exchangeOn p then .partnerRestart else (w.port p).lastFailure } := by rw [← hx]; simp
  have hxfeed : x.feed (feedOf p) = w.feed (feedOf p) := by rw [← hx]; simp
  have hxclosed : x.closedOn p = w.closedOn p := by rw [← hx]; simp
  have hxtrim : x.control.trim = w.control.trim := by rw [← hx]; simp
  have hxfails : w.exchangeOn p = true → x.link.noticeSet .stepFailed = true ∧ x.closeStepOn p = false := by
    intro hon
    rw [← hx]
    exact ⟨(failExchange_notice hon _).1, closeStepOn_of_none (failExchange_of_on hon _).2.inFlight p⟩
  have hleave := leaveHeld_leaves p x
  have hleft := leaveHeld_of_closedOn (p := p) (w := x) (q := p)
  generalize leaveHeld p x = y at *
  have hclear := clearNegotiation_cleared p y
  generalize clearNegotiation p y = v at *
  have hyport := hleave.port
  rw [hxport] at hyport
  obtain ⟨st, o, hport, -⟩ := hclear.port
  refine ⟨⟨st, o, (y.port p).lastFailure, ?_, fun hon => ?_⟩, fun ho => ?_, rfl, hrest, ?_, fun hc => ?_, fun hc hno => ?_, hclear.entry,
    fun hk => hclear.notice ?_, fun hon => hclear.notices _ (hleave.notices _ (hxfails hon).1)⟩
  · rw [raiseTrigger_port, updPort_port_self, hport, hyport]
  · rw [hyport]
    simp [(hxfails hon).2, hon]
  · rw [raiseTrigger_port, updPort_port_self]
    refine restartOwed_of_frames (r := y.port p) ?_ hclear.frames ?_
    · rw [hport]
    · rw [hyport]
      exact ho
  · exact hclear.closedOn.trans (hleave.closedOn.trans hxclosed)
  · have hy : y = x := hleft (by rw [hxclosed, hc]) rfl
    show v.feed (feedOf p) = _
    rw [hclear.feed, hy]
    unfold State.clearedFeed State.uncheckedFeed State.contractChecking
    rw [hxfeed, hxclosed, hxport, hxtrim]
  · have hx := hclear.opened hleave (by rw [hxclosed, hc]) (by
      unfold State.closeChecking
      rw [hxfeed]
      exact hno)
    show v.feed (feedOf p) = _
    rw [hx]
    unfold State.closeHeld State.contractChecking
    rw [hxfeed]
  · rw [hyport]
    exact hk

end Sys2Proof.Machine
end

