-- ==== Sys2Proof/Proofs/AnnounceRule.lean ====
section
/-! PROOFS. What an ANNOUNCE does in greeting, after it and by its verdict (O29). -/
namespace Sys2Proof.Machine

theorem deliverAnnounce_greeting {p : Port} {a : Announcement} {d : Decision} {w : Ev} (h : (w.port p).state = .greeting) :
    deliverAnnounce p a d w = greetPartner p a d w := by
  simp only [deliverAnnounce, h]

theorem deliverAnnounce_later {p : Port} {a : Announcement} {d : Decision} {w : Ev}
    (h : (w.port p).state ∈ [PortState.awaitSheet, .held, .claiming, .settling, .contract, .releasing, .outletBase,
      .outletGranted, .parked]) : deliverAnnounce p a d w = greetPartner p a d (clearOldPartner p w) := by
  simp only [List.mem_cons, List.not_mem_nil, or_false] at h
  unfold deliverAnnounce
  rcases h with h | h | h | h | h | h | h | h | h <;> rw [h]

/-- The event of an ANNOUNCE passed to a port in GREETING, the partner recorded. -/
theorem receiveAnnounce_greeting {p : Port} {payload : List Byte} {s : State} (hst : (s.port p).state = .greeting)
    (htx : (s.port p).tx = none) (hlen : payload.length = 6) (hmode : s.modeInForce p .announce = .pass) :
    ∃ u : Ev, receiveFrame p .announce payload (Ev.start s) = welcomePartner p (decodeAnnounce payload).cls u
      ∧ u.port p = { s.port p with rxBusy := false, partner := some ⟨.refused, (decodeAnnounce payload).cls,
          (decodeAnnounce payload).cable, (decodeAnnounce payload).tag, 1, false⟩ }
      ∧ u.rest = s.rest ∧ u.link = s.link ∧ u.outlet = s.outlet ∧ u.feeds = s.feeds ∧ u.trig = false ∧ u.ended = none
      ∧ u.readmit = false := by
  refine ⟨recordPartner p (decodeAnnounce payload).cls (decodeAnnounce payload).cable (decodeAnnounce payload).tag
    (endReception p (Ev.start s)), ?_, ?_, rfl, rfl, rfl, rfl, rfl, rfl, rfl⟩
  · rw [receiveFrame_announce htx hlen hmode (by simp [hst]), deliverAnnounce_greeting (by simp [hst]), greetPartner_allow]
  · simp [recordPartner]

theorem closedOn_of_feeds {s t : State} (h : t.feeds = s.feeds) (p : Port) : t.closedOn p = s.closedOn p := by
  simp only [State.closedOn, State.feed, h]

/-- A partner welcomed in the role OUTLET on a port whose switch is open: nothing but its port and the outlet changes. -/
theorem welcomeOutlet_of_open {p : Port} {cls : PartnerClass} {w : Ev}
    (h : (w.tables.port.get p).roles.allows (roleAsked cls) = true) (hrole : roleAsked cls = .outlet)
    (hopen : w.closedOn p = false) :
    (∃ st pr, (welcomePartner p cls w).port p = { (w.port p).welcomed .outlet 5000 with state := st, parkReason := pr }
      ∧ (500 ≤ w.outlet.freeRoom ∧ st = .outletBase ∧ pr = none
          ∧ (welcomePartner p cls w).outlet = { w.outlet with
              grants := w.outlet.grants.filter (·.port != p) ++ [⟨p, .base, 500, w.time, .off⟩]
              drives := w.outlet.drives.set p .closed
              parkTime := w.outlet.parkTime.set p none }
        ∨ w.outlet.freeRoom < 500 ∧ st = .parked ∧ pr = some .pool
          ∧ (welcomePartner p cls w).outlet = { w.outlet with parkTime := w.outlet.parkTime.set p (some w.time) }))
      ∧ (welcomePartner p cls w).rest = w.rest ∧ (welcomePartner p cls w).feeds = w.feeds
      ∧ (welcomePartner p cls w).link = w.link ∧ (welcomePartner p cls w).trig = w.trig
      ∧ (welcomePartner p cls w).ended = w.ended ∧ (welcomePartner p cls w).readmit = w.readmit := by
  rw [welcomePartner_outlet h hrole, (openWelcome_spec p .outlet w).same hopen]
  have heq := decideWelcome_eq p .outlet w
  generalize decideWelcome p .outlet w = v at heq ⊢
  obtain ⟨st, pr, hport, hcases⟩ := requestAdmission_spec p v
  obtain ⟨htrig, hended, hreadmit⟩ := requestAdmission_owed p v
  have hout : v.outlet = w.outlet ∧ v.time = w.time := by rw [heq]; exact ⟨rfl, rfl⟩
  rw [hout.1, hout.2] at hcases
  refine ⟨⟨st, pr, ?_, hcases⟩, ?_, ?_, ?_, ?_, ?_, ?_⟩
  · rw [hport, heq, updPort_port_self]
    rfl
  · rw [requestAdmission_rest, heq]; rfl
  · rw [requestAdmission_feeds, heq]; rfl
  · rw [requestAdmission_link, heq]; rfl
  · rw [htrig, heq]; rfl
  · rw [hended, heq]; rfl
  · rw [hreadmit, heq]; rfl

/-- The state of an event in which an ANNOUNCE found a partner: the old one cleared, the new one recorded (R47). -/
structure NewPartner (p : Port) (a : Announcement) (s : State) (u : Ev) : Prop where
  port : ∃ st o l, u.port p = { s.port p with
      rxBusy := false, claim := none, contract := none, sheet := [], parkReason := none, timer := .stopped, repeatCount := 0
      partner := some ⟨.refused, a.cls, a.cable, a.tag, 1, false⟩, state := st, order := o, lastFailure := l }
    ∧ (s.exchangeOn p = true → l = .partnerRestart)
  owed : (s.port p).restartOwed = false → (u.port p).restartOwed = false
  trig : u.trig = true
  rest : u.rest = s.rest
  closedOn : u.closedOn p = s.closedOn p
  base : s.closedOn p = true → (s.port p).contract.isSome = true → (u.feed (feedOf p)).state = .base
  opened : s.closedOn p = false → s.closeChecking p = false → u.feed (feedOf p) = { s.feed (feedOf p) with
    heldLost := (s.feed (feedOf p)).heldLost || s.closeHeld p
    check := if s.contractChecking p then .idle else (s.feed (feedOf p)).check }
  entry : u.outlet.hasEntry p = false
  notice : (s.port p).contract.isSome = true → u.link.noticeSet .contractChanged = true
  failed : s.exchangeOn p = true → u.link.noticeSet .stepFailed = true

theorem receiveAnnounce_later {p : Port} {payload : List Byte} {s : State} (htx : (s.port p).tx = none)
    (hlen : payload.length = 6) (hmode : s.modeInForce p .announce = .pass)
    (hst : (s.port p).state ∈ [PortState.awaitSheet, .held, .claiming, .settling, .contract, .releasing, .outletBase,
      .outletGranted, .parked]) :
    ∃ u : Ev, receiveFrame p .announce payload (Ev.start s) = welcomePartner p (decodeAnnounce payload).cls u
      ∧ NewPartner p (decodeAnnounce payload) s u := by
  have hnot : (s.port p).state ∉ [PortState.detached, .debounce, .disabled, .recovery] := by
    simp only [List.mem_cons, List.not_mem_nil, or_false] at hst
    rcases hst with h | h | h | h | h | h | h | h | h <;> simp [h]
  have hclear := clearOldPartner_clears p (endReception p (Ev.start s))
  generalize hv : clearOldPartner p (endReception p (Ev.start s)) = v at hclear
  refine ⟨recordPartner p (decodeAnnounce payload).cls (decodeAnnounce payload).cable (decodeAnnounce payload).tag v, ?_, ?_⟩
  · rw [receiveFrame_announce htx hlen hmode hnot, deliverAnnounce_later (by simpa using hst), hv, greetPartner_allow]
  obtain ⟨⟨st, o, l, hport, hl⟩, howed, htrig, hrest, hclosed, hfeed, hopened, hentry, hnotice, hfailed⟩ := hclear
  have hself := endReception_port_self p (Ev.start s)
  refine ⟨⟨st, o, l, ?_, hl⟩, fun h => ?_, htrig, hrest, hclosed, fun hc hk => ?_, hopened, hentry,
    fun h => hnotice (by rw [hself]; exact h), hfailed⟩
  · rw [recordPartner, updPort_port_self, hport, hself]
    rfl
  · rw [recordPartner, updPort_port_self]
    exact howed (by rw [hself]; exact h)
  · show (v.feed (feedOf p)).state = .base
    rw [hfeed hc, State.clearedFeed, if_pos ⟨by rw [hself]; exact hk, hc⟩]
    obtain ⟨c, hcheck, -⟩ := uncheckedFeed_eq p (endReception p (Ev.start s))
    refine (contractGone_spec _ _).2.1 ?_
    rw [hcheck]
    exact ((closedOn_iff s p).1 hc).1

/-- A feed opened with a gap (R130). -/
theorem gapFeed_spec {s : State} {p : Port} (h : s.closedOn p = true) : (s.gapFeed p).state = .gap ∧ (s.gapFeed p).gap = .armed
    ∧ (s.gapFeed p).output = 0 ∧ (s.gapFeed p).drive p = .opened := by
  rw [State.gapFeed, if_pos h]
  refine ⟨rfl, rfl, rfl, ?_⟩
  unfold FeedRec.drive
  split <;> rfl

theorem deliverDecision_announce {e : TrapEntry} (h : e.kind = .announce) (d : Decision) (w : Ev) :
    deliverDecision e d w = deliverAnnounce e.port (decodeAnnounce e.payload) d w := by
  unfold deliverDecision
  rw [h]

/-- A verdict on a held ANNOUNCE whose port stands in GREETING. -/
theorem execVerdict_announce {s : State} (hs : s.takes = true) {d : Byte} {content : List Byte} (hc : content.length ≤ 126)
    {e : TrapEntry} (he : s.traps.heldTag e.tag = some e) (hkind : e.kind = .announce)
    (hst : (s.port e.port).state = .greeting) {x : Decision} {clamped : Bool}
    (hx : verdictDecision e d content = some (x, clamped)) :
    exec (.verdict (e.tag :: d :: content)) s = .next (closeEvent (placeResult 0x92#8
      (answer (greetPartner e.port (decodeAnnounce e.payload) x (removeTag e.tag (Ev.start (s.holding 0x92#8))))
        (if clamped then .doneClamped else .done)))) := by
  rw [execVerdict_applies hs hc he hx, applyDecision, deliverDecision_announce hkind,
    deliverAnnounce_greeting (w := removeTag e.tag (Ev.start (s.holding 0x92#8))) hst]

/-- Settles O29. -/
theorem announceIsWelcomedByRole : Obligations.AnnounceIsWelcomedByRole := by
  intro p payload s cls cable
  dsimp only
  refine ⟨fun hs hst htx hlen hmode hcls hcable => ?_, fun hs htx hlen hmode hst hcls => ?_,
    fun e d content clamped hs hc he hkind hport hpayload hst => ⟨fun hd hallow hrole => ?_, fun hd => ?_⟩⟩
  · obtain ⟨u, hact, hport, hrest, hlink, houtlet, hfeeds, htrig, hended, hreadmit⟩ :=
      receiveAnnounce_greeting (payload := payload) hst htx hlen hmode
    subst hcls
    have htables : u.tables = s.tables := tables_of_rest (w := Ev.start s) hrest
    have htime : u.time = s.time := time_of_rest (w := Ev.start s) hrest
    have hclosed : u.closedOn p = s.closedOn p := closedOn_of_feeds hfeeds p
    have howed : (u.port p).restartOwed = (s.port p).restartOwed := by rw [hport]; rfl
    refine ⟨fun hallow hrole => ?_, fun hallow hrole hopen hroom => ?_, fun hallow hrole hopen hroom => ?_, fun hdeny => ?_⟩
    · obtain ⟨hwport, hwrest, hwlink, -, hwtrig, hwended, hwreadmit, -, -⟩ :=
        welcomeIntake_spec (p := p) (w := u) (by rw [htables]; exact hallow) hrole
      refine ⟨_, takeEvent_quiet hs _ ?_ ?_ ?_, ?_⟩ <;> rw [hact]
      · rw [hwtrig, htrig]
      · rw [hwended, hended]
      · rw [hwreadmit, hreadmit]
      · refine ⟨hwrest.trans hrest, hwlink.trans hlink, ?_⟩
        rw [hwport, hport, PortRec.welcomed, welcomeCeiling_of_rest (w := Ev.start s) hrest]
        rfl
    · obtain ⟨⟨st, pr, hwport, hcases⟩, hwrest, hwfeeds, hwlink, hwtrig, hwended, hwreadmit⟩ :=
        welcomeOutlet_of_open (p := p) (w := u) (by rw [htables]; exact hallow) hrole (hclosed.trans hopen)
      rw [houtlet, htime] at hcases
      obtain ⟨-, rfl, rfl, hwoutlet⟩ := hcases.resolve_right (fun h => absurd h.1 (Nat.not_lt.2 hroom))
      refine ⟨_, takeEvent_quiet hs _ ?_ ?_ ?_, ?_⟩ <;> rw [hact]
      · rw [hwtrig, htrig]
      · rw [hwended, hended]
      · rw [hwreadmit, hreadmit]
      · refine ⟨hwrest.trans hrest, hwlink.trans hlink, ?_, ?_, ?_, hwfeeds.trans hfeeds⟩
        · rw [hwport, hport]
          rfl
        · rw [hwoutlet]
        · rw [hwoutlet]
          simp
    · obtain ⟨⟨st, pr, hwport, hcases⟩, hwrest, hwfeeds, hwlink, hwtrig, hwended, hwreadmit⟩ :=
        welcomeOutlet_of_open (p := p) (w := u) (by rw [htables]; exact hallow) hrole (hclosed.trans hopen)
      rw [houtlet, htime] at hcases
      obtain ⟨-, rfl, rfl, hwoutlet⟩ := hcases.resolve_left (fun h => absurd hroom (Nat.not_lt.2 h.1))
      refine ⟨_, takeEvent_quiet hs _ ?_ ?_ ?_, ?_⟩ <;> rw [hact]
      · rw [hwtrig, htrig]
      · rw [hwended, hended]
      · rw [hwreadmit, hreadmit]
      · refine ⟨hwrest.trans hrest, hwlink.trans hlink, ?_, hwoutlet, hwfeeds.trans hfeeds⟩
        rw [hwport, hport]
        rfl
    · have hwelcome := welcomePartner_refused (p := p) (w := u) (by rw [htables]; exact hdeny)
      obtain ⟨htrig', ⟨o, hwport, horder⟩, hwclosed, hwfeed, -, -, -⟩ := parkRefused_spec p .role u
      rw [← hwelcome] at htrig' hwport hwclosed hwfeed
      refine ⟨_, takeEvent_running hs _, ?_⟩
      rw [hact, hwport, hwfeed, hport]
      refine ⟨htrig', rfl, rfl, hwclosed, rfl, rfl, fun h => horder (howed.trans h), fun h => ?_⟩
      rw [State.gapFeed, if_pos (hclosed.trans h)]
  · subst hcls
    obtain ⟨u, hact, ⟨⟨st, o, l, hport, hl⟩, howed, htrig, hrest, hclosed, hbase, -, hentry, hnotice, hfailed⟩⟩ :=
      receiveAnnounce_later htx hlen hmode hst
    have htables : u.tables = s.tables := tables_of_rest (w := Ev.start s) hrest
    have htraps : u.traps = s.traps := traps_of_rest (w := Ev.start s) hrest
    have htime : u.time = s.time := time_of_rest (w := Ev.start s) hrest
    have hceiling : u.welcomeCeiling .intake = s.welcomeCeiling .intake := welcomeCeiling_of_rest (w := Ev.start s) hrest _
    refine ⟨_, takeEvent_running hs _, ?_⟩
    rw [hact]
    cases hallow : (s.tables.port.get p).roles.allows (roleAsked (decodeAnnounce payload).cls) with
    | false =>
      have hwelcome := welcomePartner_refused (p := p) (w := u) (by rw [htables]; exact hallow)
      obtain ⟨hwtrig, ⟨o', hwport, horder⟩, hwclosed, hwfeed, hwrest, hwnotices, hwentries⟩ := parkRefused_spec p .role u
      rw [← hwelcome] at hwtrig hwport hwclosed hwfeed hwrest hwnotices hwentries
      have hwentry : (welcomePartner p (decodeAnnounce payload).cls u).outlet.hasEntry p = false := by
        rw [← Bool.not_eq_true]
        intro h
        have := hwentries p h
        rw [hentry] at this
        cases this
      rw [hwport, hwfeed, hport, traps_of_rest hwrest, htraps]
      exact ⟨hwtrig, rfl, rfl, rfl, rfl, rfl, rfl, (by simp), (by simp),
        fun _ => ⟨rfl, rfl, hwentry, rfl, fun h => horder (howed h)⟩,
        fun _ => ⟨hwclosed, fun h => gapFeed_spec (hclosed.trans h)⟩, fun h => hwnotices _ (hnotice h),
        fun h => ⟨hwnotices _ (hfailed h), hl h⟩⟩
    | true =>
      rcases roleAsked_cases (decodeAnnounce payload).cls with hrole | hrole
      · obtain ⟨hwport, hwrest, hwlink, hwoutlet, hwtrig, -, -, hwclosed, hwstate⟩ :=
          welcomeIntake_spec (p := p) (w := u) (by rw [htables]; exact hallow) hrole
        rw [hwport, hport, traps_of_rest hwrest, htraps, hwtrig, htrig, hwoutlet, hentry, hwclosed, hclosed, hwlink, hwstate,
          hrole, hceiling]
        refine ⟨rfl, rfl, rfl, rfl, rfl, rfl, rfl, fun _ _ => ⟨rfl, rfl, rfl, rfl, fun h => ?_, fun h => ⟨h, hbase h⟩⟩,
          (by simp), (by simp), (by simp), hnotice, fun h => ⟨hfailed h, hl h⟩⟩
        have := howed h
        rw [hport] at this
        rw [PortRec.welcomed, this]
        exact mem_placeFrame _ _
      · obtain ⟨⟨st', pr, o', hwport, horder, hcases⟩, hwclosed, hwfeed, hwrest, hwtrig, hwnotices⟩ :=
          welcomeOutlet_spec (p := p) (w := u) (by rw [htables]; exact hallow) hrole
        rw [htime] at hcases
        rw [hwport, hport, traps_of_rest hwrest, htraps, hwtrig, htrig, hwfeed, hrole]
        refine ⟨rfl, rfl, rfl, rfl, rfl, rfl, rfl, (by simp), fun _ _ => ⟨rfl, fun h => horder (howed h), ?_⟩, (by simp),
          fun _ => ⟨hwclosed, fun h => gapFeed_spec (hclosed.trans h)⟩, fun h => hwnotices _ (hnotice h),
          fun h => ⟨hwnotices _ (hfailed h), hl h⟩⟩
        exact hcases.imp_right fun ⟨h1, h2, h3, h4, h5⟩ => ⟨h1, h2, h3, h4 hentry, h5⟩
  · subst hport hpayload
    generalize hu : recordPartner e.port cls cable (decodeAnnounce e.payload).tag (removeTag e.tag (Ev.start (s.holding 0x92#8)))
      = u
    have hexec : exec (.verdict (e.tag :: d :: content)) s = .next (closeEvent (placeResult 0x92#8
        (answer (welcomePartner e.port cls u) (if clamped then .doneClamped else .done)))) := by
      rcases hd with ⟨rfl, rfl, rfl, rfl⟩ | ⟨rfl, hamend⟩
      · rw [execVerdict_announce hs hc he hkind hst (x := .allow) (clamped := false) rfl, greetPartner_allow, hu]
      · rw [execVerdict_announce hs hc he hkind hst (d := 2) (x := .amendAnnounce cls cable) (clamped := clamped)
          (show amendDecision e content = _ from hamend),
          greetPartner_amend, hu]
    have huport : u.port e.port = { s.port e.port with
        partner := some ⟨.refused, cls, cable, (decodeAnnounce e.payload).tag, 1, false⟩ } := by
      rw [← hu, recordPartner, updPort_port_self]
      rfl
    have hceiling : u.welcomeCeiling .intake = s.welcomeCeiling .intake := by rw [← hu]; rfl
    have hutables : u.tables = s.tables := by rw [← hu]; rfl
    have hulink : u.link = (s.holding 0x92#8).link := by rw [← hu]; rfl
    have hutraps : u.traps = { s.traps with queue := s.traps.queue.filter (·.tag != e.tag) } := by rw [← hu]; rfl
    have huowed : u.trig = false ∧ u.ended = none ∧ u.readmit = false := by rw [← hu]; exact ⟨rfl, rfl, rfl⟩
    obtain ⟨hwport, hwrest, hwlink, -, hwtrig, hwended, hwreadmit, -, -⟩ :=
      welcomeIntake_spec (p := e.port) (w := u) (by rw [hutables]; exact hallow) hrole
    rw [closeEvent_quiet (w := placeResult 0x92#8 (answer (welcomePartner e.port cls u) _)) (hwtrig.trans huowed.1)
      (hwended.trans huowed.2.1) (hwreadmit.trans huowed.2.2)] at hexec
    refine ⟨_, hexec, ?_, ?_, ?_⟩
    · rw [placeResult, updLink_link]
      show ({ (welcomePartner e.port cls u).link with pendingResult := _ } : Link) = _
      rw [hwlink, hulink]
      rfl
    · exact (traps_of_rest hwrest).trans hutraps
    · show (welcomePartner e.port cls u).port e.port = _
      rw [hwport, huport, hceiling]
      rfl
  · subst hport hpayload hd
    generalize hu : recordPartner e.port (decodeAnnounce e.payload).cls (decodeAnnounce e.payload).cable
      (decodeAnnounce e.payload).tag (removeTag e.tag (Ev.start (s.holding 0x92#8))) = u
    have hexec := execVerdict_announce hs hc he hkind hst (d := 1) (content := content) (x := .deny) (clamped := false) rfl
    rw [greetPartner_deny, hu] at hexec
    have huport : u.port e.port = { s.port e.port with partner := some ⟨.refused, (decodeAnnounce e.payload).cls,
        (decodeAnnounce e.payload).cable, (decodeAnnounce e.payload).tag, 1, false⟩ } := by
      rw [← hu, recordPartner, updPort_port_self]
      rfl
    have hutraps : u.traps = { s.traps with queue := s.traps.queue.filter (·.tag != e.tag) } := by rw [← hu]; rfl
    obtain ⟨hwtrig, ⟨o, hwport, horder⟩, hwclosed, -, hwrest, -, -⟩ := parkRefused_spec e.port .denied u
    generalize park e.port .denied (openIfClosedOn e.port (decideWelcome e.port .refused u)) = v at *
    refine ⟨_, hexec, hwtrig, rfl, (traps_of_rest hwrest).trans hutraps, ?_, ?_, hwclosed, ?_, fun h => ?_⟩
    all_goals rw [show (placeResult 0x92#8 (answer v _)).port e.port = v.port e.port from rfl, hwport]
    · rw [huport]
      rfl
    · refine horder ?_
      rw [huport]
      exact h

end Sys2Proof.Machine
end

