-- ==== Sys2Proof/Proofs/FeedTimers.lean ====
section
/-! PROOFS. The gap and the ramp timer of a feed, and a held close that its port has left (O40). -/
namespace Sys2Proof.Machine

theorem takeEvent_updFeed {s : State} (h : s.running = true) {act : Ev → Ev} {f : Feed} {g : FeedRec → FeedRec}
    (hact : act (Ev.start s) = updFeed f g (Ev.start s)) : takeEvent act s = .next (s.withFeed f g) := by
  rw [takeEvent_quiet h act] <;> rw [hact] <;> rfl

/-- A port that welcomes a partner has left HELD, and a feed whose switch is open on it stands. -/
theorem welcomePartner_leaves {p : Port} {cls : PartnerClass} {w : Ev} (hopen : w.closedOn p = false) :
    ((welcomePartner p cls w).port p).state ≠ .held ∧ (welcomePartner p cls w).feed (feedOf p) = w.feed (feedOf p) := by
  have hgap : w.gapFeed p = w.feed (feedOf p) := by rw [State.gapFeed, if_neg (by simp [hopen])]
  cases hallow : (w.tables.port.get p).roles.allows (roleAsked cls) with
  | false =>
    obtain ⟨-, ⟨o, hport, -⟩, -, hfeed, -, -, -⟩ := parkRefused_spec p .role w
    rw [welcomePartner_refused hallow, hport, hfeed, hgap]
    exact ⟨by simp, rfl⟩
  | true =>
    rcases roleAsked_cases cls with hrole | hrole
    · refine ⟨by rw [(welcomeIntake_spec hallow hrole).1]; simp, ?_⟩
      rw [welcomePartner_intake hallow hrole, decideWelcome_eq, enter_feed, updPort_closedOn, hopen, if_neg (by simp)]
      rfl
    · obtain ⟨⟨st, pr, o, hport, -, hcases⟩, -, hfeed, -⟩ := welcomeOutlet_spec (p := p) (w := w) hallow hrole
      rw [hport, hfeed, hgap]
      refine ⟨?_, rfl⟩
      rcases hcases with ⟨rfl, -⟩ | ⟨rfl, -⟩ <;> simp

/-- Settles O40. -/
theorem gapAndRampTimersAct : Obligations.GapAndRampTimersAct := by
  refine fun f s hs => ⟨fun hgap hst hno => ?_, fun p hgap hst hheld hf hport hlost => ?_, fun p hgap hst hheld hlost => ?_,
    fun p i hst hheld hf hport htx hi => ?_, fun hramp => ?_⟩
  · refine takeEvent_updFeed hs ?_
    unfold expireGap
    rw [if_pos ⟨by simp [hgap, Timer.expired], hst⟩]
    simp [hno]
  · refine takeEvent_updFeed hs ?_
    unfold expireGap
    rw [if_pos ⟨by simp [hgap, Timer.expired], hst⟩]
    dsimp only
    rw [updFeed_feed_self, show (Ev.start s).feed f = s.feed f from rfl, hheld]
    subst hf
    dsimp only [takeHeldClose]
    rw [updFeed_feed_self, if_pos ⟨by simpa using hport, by simpa using hlost⟩, startCloseCheck, updFeed_updFeed, updFeed_updFeed]
    refine updFeed_congr ?_
    have hkept : s.feed (feedOf p) = { s.feed (feedOf p) with heldLost := false } := by rw [← hlost]
    show _ = (fun r : FeedRec => { r.setDrive p .softStart with
      state := .idle, gap := .stopped, heldClose := none, selected := some p, check := .close p .armed
      output := 0, target := 0 }) (s.feed (feedOf p))
    rw [hkept]
    cases p <;> rfl
  · have hact : expireGap f (Ev.start s) = failClose p .superseded (updFeed f (fun r => { r with
        state := .idle, gap := .stopped, heldClose := none, heldLost := false, selected := none }) (Ev.start s)) := by
      unfold expireGap
      rw [if_pos ⟨by simp [hgap, Timer.expired], hst⟩]
      dsimp only
      rw [updFeed_feed_self, show (Ev.start s).feed f = s.feed f from rfl, hheld]
      dsimp only [takeHeldClose]
      rw [updFeed_feed_self, if_neg, updFeed_updFeed, updFeed_updFeed]
      rintro ⟨h1, h2⟩
      rcases hlost with h | h
      · exact h (by simpa using h1)
      · simp [h] at h2
    generalize hu : updFeed f _ (Ev.start s) = u at hact
    have hfeed : u.feed f = { s.feed f with
        state := .idle, gap := .stopped, heldClose := none, heldLost := false, selected := none } := by rw [← hu]; simp
    have hon : u.closeStepOn p = s.closeStepOn p := by rw [← hu]; rfl
    refine ⟨_, takeEvent_running hs _, ?_⟩
    rw [hact, failClose_feed, hfeed]
    refine ⟨rfl, fun st _ hstep => ?_⟩
    have hfails := (failClose_of_on (hon.trans hstep) .superseded).2
    rw [hfails.link, hfails.port]
    exact ⟨hfails.trig, noticeSet_setNotice_self _ u, rfl⟩
  · subst hf
    have hopen : s.closedOn p = false := closedOn_of_state (by simp [FeedRec.powered, hst])
    have hchecking : s.closeChecking p = false := by simp [State.closeChecking, hst]
    have hclose : s.closeHeld p = true := by simp [State.closeHeld, hst, hheld]
    rcases hi with rfl | ⟨payload, rfl, hlen, hmode⟩
    · have hact : receiveFrame p .restart [] (Ev.start s) = partnerSendsRestart p (endReception p (Ev.start s)) := by
        rw [receiveFrame_answer (by simp) htx (by simp [hport])]
        simp [takeAnswer]
      have hrec := intoRecovery_recovers p [] (.armed .holdOff) (failExchange p .partnerRestart (endReception p (Ev.start s)))
      have hfeed := hrec.opened (by rw [failExchange_closedOn]; exact hopen) (by rw [failExchange_closeChecking]; exact hchecking)
      refine ⟨_, takeEvent_running hs _, ?_⟩
      rw [hact, partnerSendsRestart_eq, raiseTrigger_port, raiseTrigger_feed, hfeed, hrec.port]
      simp only [State.closeHeld, failExchange_feed]
      have hfeed : (endReception p (Ev.start s)).feed (feedOf p) = s.feed (feedOf p) := rfl
      exact ⟨by simp, hst, hheld, by rw [hfeed]; simp [hst, hheld], rfl⟩
    · obtain ⟨u, hact, hnew⟩ := receiveAnnounce_later (payload := payload) htx hlen hmode (by simp [hport])
      obtain ⟨hstate, hfeed⟩ := welcomePartner_leaves (p := p) (cls := (decodeAnnounce payload).cls) (hnew.closedOn.trans hopen)
      rw [hnew.opened hopen hchecking, hclose] at hfeed
      refine ⟨_, takeEvent_running hs _, ?_⟩
      rw [hact, hfeed]
      exact ⟨hstate, hst, hheld, by simp, rfl⟩
  · refine takeEvent_updFeed hs ?_
    unfold expireRamp
    rw [if_pos (by simp [hramp, Timer.expired])]
    rfl

end Sys2Proof.Machine
end

