-- ==== Sys2Proof/Proofs/Sheets.lean ====
section
/-! PROOFS. A delivered sheet by the state of its port, and the protective reaction of a contract to it (R31, R43, R45). -/
namespace Sys2Proof.Machine

/-! ## The protective reaction (R43) -/

/-- The feed of a port whose contract was rewritten to a current (R132). -/
theorem reportRewritten_spec (p : Port) (i : Nat) (w : Ev) :
    (∃ r, reportRewritten p i w = updFeed (feedOf p) (fun _ => r) w ∧ r.powered = (w.feed (feedOf p)).powered
      ∧ r.selected = (w.feed (feedOf p)).selected)
      ∧ (w.closedOn p = true → (w.feed (feedOf p)).state = .contract → (w.feed (feedOf p)).view.isSome = true →
        ((reportRewritten p i w).feed (feedOf p)).output ≤ i) := by
  unfold reportRewritten
  split
  · rename_i h
    refine ⟨⟨FeedRec.retarget (w.control.trim.get (feedOf p)) { w.feed (feedOf p) with
        view := (w.feed (feedOf p)).view.map (fun v => { v with current := i }), underVolt := .off }, ?_, ?_, ?_⟩,
      fun _ hs hv => ?_⟩
    · rw [retarget, updFeed_updFeed]
      exact updFeed_congr rfl
    · simp [FeedRec.powered]
    · simp
    · obtain ⟨v, hv⟩ := Option.isSome_iff_exists.1 hv
      rw [retarget, updFeed_feed_self, updFeed_feed_self]
      refine (retarget_output_le _ _).trans (limitTarget_le_view (v := { v with current := i }) ?_ ?_ _)
      · exact hs
      · dsimp only
        rw [hv]
        rfl
  · rename_i h
    exact ⟨⟨w.feed (feedOf p), (updFeed_const _ _).symm, rfl, rfl⟩, fun hc hs _ => absurd ⟨hc, hs⟩ h⟩

theorem rewritten_eq {c : Contract} {i : Nat} (h : i ≤ c.current) (j : Nat) : c.rewritten j i =
    { c with line := j, current := i, power := if i < c.current then c.voltage * i / 1000 else c.power } := by
  unfold Contract.rewritten
  split
  · rfl
  · rw [show i = c.current by omega]

/-- The reaction where a line carries the contract's voltage: a protective claim of it. -/
theorem protectiveReaction_carries {p : Port} {w : Ev} {c : Contract} {q : Partner} (hc : (w.port p).contract = some c)
    (hq : (w.port p).partner = some q) {j : Nat} {l : Line} (hl : carryingLine c.voltage 1 (w.port p).sheet = some (j, l)) {i : Nat}
    (hi : i = min (min (min l.current q.cable) w.factoryValues.portCurrent) c.current) :
    (protectiveReaction p w).trig = true
      ∧ (protectiveReaction p w).port p = { w.port p with
          state := .claiming, repeatCount := 0, timer := .stopped
          contract := some { c with line := j, current := i, power := if i < c.current then c.voltage * i / 1000 else c.power }
          claim := some ⟨j, c.voltage, i, .protective, true, w.tables.timing.repeatLimit, none⟩
          order := if (w.port p).restartOwed then (w.port p).order else placeFrame (.claim j c.voltage i) (w.port p).order }
      ∧ (protectiveReaction p w).link = (setNotice .contractChanged w).link
      ∧ (w.closedOn p = true → (w.feed (feedOf p)).state = .contract → (w.feed (feedOf p)).view.isSome = true →
        ((protectiveReaction p w).feed (feedOf p)).output ≤ i) := by
  have hact : protectiveReaction p w = raiseTrigger (openClaim p j c.voltage i .protective true
      (setNotice .contractChanged (reportRewritten p i (rewriteContract p j i w)))) := by
    simp only [protectiveReaction, hc, hl, hq]
    rw [hi]
  obtain ⟨⟨r, hr, -, -⟩, hout⟩ := reportRewritten_spec p i (rewriteContract p j i w)
  generalize hx : setNotice .contractChanged (reportRewritten p i (rewriteContract p j i w)) = x at hact
  have hxport : x.port p = { w.port p with contract := some (c.rewritten j i) } := by
    rw [← hx, hr]
    simp [rewriteContract, hc]
  have hxtables : x.tables = w.tables := by rw [← hx, hr]; rfl
  have hxlink : x.link = (setNotice .contractChanged w).link := by rw [← hx, hr]; rfl
  have hxfeed : x.feed (feedOf p) = (reportRewritten p i (rewriteContract p j i w)).feed (feedOf p) := by rw [← hx]; rfl
  rw [hact, openClaim, decideFrame_eq]
  refine ⟨rfl, ?_, ?_, fun h hs hv => ?_⟩
  · rw [raiseTrigger_port, enter_port, updPort_port_self, updPort_port_self, hxport, rewritten_eq (by omega), hxtables]
    rfl
  · rw [raiseTrigger_link, enter_link]
    exact hxlink
  · rw [raiseTrigger_feed, enter_feed]
    have hle := hout h hs hv
    rw [← hxfeed] at hle
    split <;> exact hle

/-- The reaction where no line carries it: the contract ends. -/
theorem protectiveReaction_ends {p : Port} {w : Ev} {c : Contract} (hc : (w.port p).contract = some c)
    (hl : carryingLine c.voltage 1 (w.port p).sheet = none) :
    (protectiveReaction p w).trig = true
      ∧ (∃ pr o, (protectiveReaction p w).port p = { w.port p with state := .held, contract := none, parkReason := pr, order := o })
      ∧ (protectiveReaction p w).link.noticeSet .contractChanged = true
      ∧ (∀ n, w.link.noticeSet n = true → (protectiveReaction p w).link.noticeSet n = true)
      ∧ (w.closedOn p = true → (w.feed (feedOf p)).state = .contract →
        ((protectiveReaction p w).feed (feedOf p)).state = .base ∧ ((protectiveReaction p w).feed (feedOf p)).view = none
          ∧ ((protectiveReaction p w).feed (feedOf p)).output ≤ 900) := by
  have hact : protectiveReaction p w = raiseTrigger (enter p .held (dropContract p w)) := by
    simp only [protectiveReaction, hc, hl]
  have hgone := dropContract_spec p w
  obtain ⟨⟨st, pr, o, hport, -⟩, -⟩ := hgone.port
  have hk : (w.port p).contract.isSome = true := by simp [hc]
  rw [hact]
  refine ⟨rfl, ⟨pr, o, ?_⟩, ?_, fun n hn => ?_, fun h hs => ?_⟩
  · rw [raiseTrigger_port, enter_port, hport]
  · rw [raiseTrigger_link, enter_link]
    exact hgone.notice hk
  · rw [raiseTrigger_link, enter_link]
    exact hgone.notices n hn
  · obtain ⟨-, hbase, hview⟩ := contractGone_spec (w.control.trim.get (feedOf p)) (w.feed (feedOf p))
    have hpow := hbase ((closedOn_iff w.toState p).1 h).1
    obtain ⟨hview, hout⟩ := hview hs
    have hfeed := hgone.feed
    rw [if_pos ⟨hk, h⟩] at hfeed
    rw [raiseTrigger_feed, enter_feed, hfeed]
    split <;> exact ⟨hpow, hview, hout⟩

/-- What the reaction leaves of its port beside contract, claim and order. -/
theorem protectiveReaction_keeps {p : Port} {w : Ev} {c : Contract} (hc : (w.port p).contract = some c) :
    (protectiveReaction p w).trig = true ∧ ((protectiveReaction p w).port p).state ∈ [PortState.claiming, .held]
      ∧ ((protectiveReaction p w).port p).sheet = (w.port p).sheet
      ∧ ((protectiveReaction p w).port p).lastFailure = (w.port p).lastFailure
      ∧ (protectiveReaction p w).link.noticeSet .contractChanged = true
      ∧ ∀ n, w.link.noticeSet n = true → (protectiveReaction p w).link.noticeSet n = true := by
  cases hl : carryingLine c.voltage 1 (w.port p).sheet with
  | none =>
    obtain ⟨htrig, ⟨pr, o, hport⟩, hnotice, hnotices, -⟩ := protectiveReaction_ends hc hl
    rw [hport]
    exact ⟨htrig, by simp, rfl, rfl, hnotice, hnotices⟩
  | some jl =>
    obtain ⟨j, l⟩ := jl
    have hact : ∃ i x, protectiveReaction p w = raiseTrigger (openClaim p j c.voltage i .protective true
        (setNotice .contractChanged x)) ∧ (x.port p).sheet = (w.port p).sheet
          ∧ (x.port p).lastFailure = (w.port p).lastFailure ∧ x.link = w.link := by
      simp only [protectiveReaction, hc, hl]
      refine ⟨_, _, rfl, ?_⟩
      generalize min _ c.current = i
      obtain ⟨⟨r, hr, -, -⟩, -⟩ := reportRewritten_spec p i (rewriteContract p j i w)
      rw [hr]
      simp [rewriteContract]
    obtain ⟨i, x, hact, hsheet, hlast, hlink⟩ := hact
    rw [hact, openClaim, decideFrame_eq]
    refine ⟨rfl, ?_, ?_, ?_, ?_, fun n hn => ?_⟩
    · rw [raiseTrigger_port, enter_port]
      simp
    · rw [raiseTrigger_port, enter_port]
      simpa using hsheet
    · rw [raiseTrigger_port, enter_port]
      simpa using hlast
    · rw [raiseTrigger_link, enter_link]
      exact noticeSet_setNotice_self _ x
    · rw [raiseTrigger_link, enter_link]
      exact noticeSet_setNotice n _ x (by rw [hlink]; exact hn)

/-- The reaction meets what R43 says of it, for a state that agrees with the event on the feed, the tables and the ceilings. -/
theorem protectiveReaction_reacts {s : State} {p : Port} {w : Ev} {c : Contract} {q : Partner}
    (hc : (w.port p).contract = some c) (hq : (w.port p).partner = some q) (hclaim : (w.port p).claim = none)
    (howed : (s.port p).restartOwed = false → (w.port p).restartOwed = false) (hclosed : w.closedOn p = s.closedOn p)
    (hstate : (w.feed (feedOf p)).state = (s.feed (feedOf p)).state) (hview : (w.feed (feedOf p)).view = (s.feed (feedOf p)).view)
    (htables : w.tables = s.tables) (hvalues : w.factoryValues = s.factoryValues)
    (hsheet : w.link.noticeSet .sheetChanged = true) :
    s.reactsTo p c q.cable (w.port p).sheet (protectiveReaction p w) := by
  obtain ⟨htrig, -, hkept, -, hnotice, hnotices⟩ := protectiveReaction_keeps (p := p) hc
  refine ⟨htrig, hkept, hnotices _ hsheet, hnotice, ?_⟩
  cases hl : carryingLine c.voltage 1 (w.port p).sheet with
  | none =>
    obtain ⟨-, ⟨pr, o, hport⟩, -, -, hfeed⟩ := protectiveReaction_ends hc hl
    dsimp only
    rw [hport]
    exact ⟨rfl, rfl, hclaim, fun h hs => hfeed (hclosed.trans h) (hstate.trans hs)⟩
  | some jl =>
    obtain ⟨j, l⟩ := jl
    obtain ⟨-, hport, -, hout⟩ := protectiveReaction_carries hc hq hl rfl
    dsimp only
    rw [hport, ← htables, ← hvalues]
    refine ⟨rfl, rfl, rfl, rfl, fun h => ?_, fun h hs hv => hout (hclosed.trans h) (hstate.trans hs) (by rw [hview]; exact hv)⟩
    rw [howed h]
    exact mem_placeFrame _ _

/-! ## A sheet that ends an exchange (R45) -/

/-- Entering a port state leaves the states and contract views of the feeds (R138). -/
theorem enter_feed_kept (p : Port) (st : PortState) (w : Ev) (f : Feed) :
    ((enter p st w).feed f).state = (w.feed f).state ∧ ((enter p st w).feed f).view = (w.feed f).view := by
  rw [enter_feed]
  split <;> exact ⟨rfl, rfl⟩

/-- What a sheet in CLAIMING makes of its port, its feed and the step in flight before it is stored. -/
structure ClaimEndedBySheet (p : Port) (c : Claim) (w v : Ev) : Prop where
  port : v.port p = { w.port p with
    state := if c.contractHeld then .contract else .held
    claim := none, timer := .stopped
    order := (w.port p).order.filter (fun g => g.kindCode != 0x04#8)
    lastFailure := if w.exchangeOn p then .superseded else (w.port p).lastFailure }
  closedOn : v.closedOn p = w.closedOn p
  feed : (v.feed (feedOf p)).state = (w.feed (feedOf p)).state ∧ (v.feed (feedOf p)).view = (w.feed (feedOf p)).view
  rest : v.rest = w.rest
  notices : ∀ n, w.link.noticeSet n = true → v.link.noticeSet n = true
  failed : w.exchangeOn p = true → v.link.noticeSet .stepFailed = true

theorem endClaimBySheet_ends {p : Port} {c : Claim} {w : Ev} (hc : (w.port p).claim = some c) :
    ClaimEndedBySheet p c w (endClaimBySheet p w) := by
  have hrest := endClaimBySheet_rest p w
  generalize hx : dropClaim p (failExchange p .superseded w) = x
  have hact : endClaimBySheet p w = enter p (if c.contractHeld then .contract else .held) (updPort p (fun r =>
      { r with order := r.order.filter (fun g => g.kindCode != 0x04#8), timer := .stopped }) x) := by
    rw [endClaimBySheet, hc, hx, discardClaims, stopTimer, updPort_updPort]
  have hxport : x.port p = { w.port p with
      claim := none, lastFailure := if w.exchangeOn p then .superseded else (w.port p).lastFailure } := by
    rw [← hx, dropClaim_port_self, failExchange_port_self]
  have hxlink : x.link = (failExchange p .superseded w).link := by rw [← hx, dropClaim_link]
  have hxfeed : ∃ k, x.feed (feedOf p) = { w.feed (feedOf p) with check := k } := by
    obtain ⟨k, hk, -⟩ := uncheckedFeed_eq p (failExchange p .superseded w)
    exact ⟨k, by rw [← hx, dropClaim_feed_self, hk, failExchange_feed]⟩
  obtain ⟨k, hk⟩ := hxfeed
  refine ⟨?_, ?_, ?_, hrest, fun n hn => ?_, fun h => ?_⟩
  · rw [hact, enter_port, updPort_port_self, hxport]
  · rw [hact, enter_closedOn, updPort_closedOn]
    exact closedOn_congr (by rw [hk]; rfl) (by rw [hk])
  · rw [hact, (enter_feed_kept _ _ _ _).1, (enter_feed_kept _ _ _ _).2, updPort_feed, hk]
    exact ⟨rfl, rfl⟩
  · rw [hact, enter_link, updPort_link, hxlink]
    exact failExchange_notices _ _ _ n hn
  · rw [hact, enter_link, updPort_link, hxlink]
    exact (failExchange_notice h _).1

/-- Waiting CLAIMs discarded leave no RESTART owed that was not. -/
theorem restartOwed_of_filter {r q : PortRec} (htx : q.tx = r.tx) (g : OutFrame → Bool) (ho : q.order = r.order.filter g)
    (hr : r.restartOwed = false) : q.restartOwed = false :=
  restartOwed_of_frames htx (fun _ hf => .inl (List.mem_of_mem_filter (ho ▸ hf))) hr

/-! ## Sheets by the state of the port (R31, R33, R43, R45) -/

section
variable {p : Port} {lines : List Line} {w : Ev}

theorem deliverSheet_stored (h : (w.port p).state ∈ [PortState.held, .releasing]) :
    deliverSheet p lines w = storeSheet p lines w := by
  simp only [List.mem_cons, List.not_mem_nil, or_false] at h
  unfold deliverSheet
  rcases h with h | h <;> rw [h]

theorem deliverSheet_contract (h : (w.port p).state = .contract) :
    deliverSheet p lines w = protectiveReaction p (storeSheet p lines w) := by
  unfold deliverSheet
  rw [h]

theorem deliverSheet_settling (h : (w.port p).state = .settling) :
    deliverSheet p lines w = decideRestart p (failExchange p .superseded w) := by
  unfold deliverSheet
  rw [h]
  rfl

theorem deliverSheet_ignored (h : (w.port p).state ∈ [PortState.greeting, .outletBase, .outletGranted, .parked]) :
    deliverSheet p lines w = w := by
  simp only [List.mem_cons, List.not_mem_nil, or_false] at h
  unfold deliverSheet
  rcases h with h | h | h | h <;> rw [h]

theorem deliverSheet_claiming {c : Claim} (h : (w.port p).state = .claiming) (hc : (w.port p).claim = some c) :
    deliverSheet p lines w = if c.contractHeld = true then protectiveReaction p (storeSheet p lines (endClaimBySheet p w))
      else storeSheet p lines (endClaimBySheet p w) := by
  have hstate : ((storeSheet p lines (endClaimBySheet p w)).port p).state = if c.contractHeld then .contract else .held := by
    simp [storeSheet, (endClaimBySheet_ends hc).port]
  unfold deliverSheet
  rw [h]
  dsimp only
  rw [hstate]
  cases c.contractHeld <;> rfl

@[simp] theorem storeSheet_port_self : (storeSheet p lines w).port p = { w.port p with sheet := lines } := by
  simp [storeSheet]

/-- A sheet delivered to a contracted port with no claim is reacted to (R43). -/
theorem deliverSheet_reacts {s : State} {c : Contract} {q : Partner} (hst : (s.port p).state = .contract)
    (hc : (s.port p).contract = some c) (hclaim : (s.port p).claim = none) (hq : (s.port p).partner = some q)
    (hport : w.port p = { s.port p with rxBusy := (w.port p).rxBusy }) (hfeeds : w.feeds = s.feeds) (hrest : w.tables = s.tables)
    (hfactory : w.factory = s.factory) : s.reactsTo p c q.cable lines (deliverSheet p lines w) := by
  have hw : (w.port p).state = .contract := by rw [hport]; exact hst
  rw [deliverSheet_contract hw]
  have h := protectiveReaction_reacts (s := s) (p := p) (w := storeSheet p lines w) (c := c) (q := q)
    (by rw [storeSheet_port_self, hport]; exact hc) (by rw [storeSheet_port_self, hport]; exact hq)
    (by rw [storeSheet_port_self, hport]; exact hclaim) (by rw [storeSheet_port_self, hport]; exact id)
    (closedOn_of_feeds hfeeds p) (by rw [State.feed, State.feed, ← hfeeds]; rfl) (by rw [State.feed, State.feed, ← hfeeds]; rfl)
    hrest (congrArg Factory.values hfactory) (noticeSet_setNotice_self _ _)
  rwa [storeSheet_port_self] at h

end

end Sys2Proof.Machine
end

