-- ==== Sys2Proof/Proofs/SheetRules.lean ====
section
/-! PROOFS. OFFERS and RESHEET passed to their port (O31, O32), and a held sheet delivered by its verdict or default (O17). -/
namespace Sys2Proof.Machine

/-! ## A sheet passed to its port -/

/-- The event in which a port has heard a sheet, its held sheet superseded (R180). -/
def sheetHeard (p : Port) (s : State) : Ev := supersede p .offers (endReception p (Ev.start s))

@[simp] theorem sheetHeard_port_self (p : Port) (s : State) : (sheetHeard p s).port p = { s.port p with rxBusy := false } :=
  endReception_port_self p (Ev.start s)
theorem sheetHeard_port_of_ne {p q : Port} (s : State) (h : q ≠ p) : (sheetHeard p s).port q = s.port q :=
  updPort_port_of_ne (fun r => { r with rxBusy := false }) (Ev.start s) h
/-- OFFERS and RESHEET that pass are delivered alike (R33, R174). -/
theorem receiveFrame_sheet {p : Port} {rk : RxKind} (hrk : rk = .offers ∨ rk = .resheet) {payload : List Byte} {s : State}
    (htx : (s.port p).tx = none) (h9 : payload.length % 9 = 0) (h63 : payload.length ≤ 63) (hmode : s.modeInForce p .offers = .pass)
    (h : (s.port p).state ∉ [PortState.detached, .debounce, .disabled, .recovery]) :
    receiveFrame p rk payload (Ev.start s) = deliverSheet p (decodeSheet payload) (sheetHeard p s) := by
  rcases hrk with rfl | rfl
  · rw [receiveFrame_trapped (k := .offers) rfl (by simp) htx (by simp [lengthPermitted, h9, h63]) h, trapCheck_pass hmode]
    rfl
  · rw [receiveFrame_trapped (k := .resheet) rfl (by simp) htx (by simp [lengthPermitted, h9, h63]) h,
      trapCheck_pass (k := .resheet) hmode]
    rfl

theorem exec_sheet {p : Port} {payload : List Byte} {i : Instr} (hi : i = .offers p payload ∨ i = .resheet p payload) (s : State) :
    ∃ rk, (rk = .offers ∨ rk = .resheet) ∧ exec i s = takeEvent (receiveFrame p rk payload) s := by
  rcases hi with rfl | rfl
  · exact ⟨.offers, .inl rfl, rfl⟩
  · exact ⟨.resheet, .inr rfl, rfl⟩

/-- Settles O31. -/
theorem offersTakeThePortToHeld : Obligations.OffersTakeThePortToHeld := by
  intro p payload s hs htx h9 h63 hmode i hi
  obtain ⟨rk, hrk, hexec⟩ := exec_sheet hi s
  have hact : (s.port p).state ∉ [PortState.detached, .debounce, .disabled, .recovery] → receiveFrame p rk payload (Ev.start s)
      = deliverSheet p (decodeSheet payload) (sheetHeard p s) := receiveFrame_sheet hrk htx h9 h63 hmode
  have hrun := hexec.trans (takeEvent_running hs _)
  have hport := sheetHeard_port_self p s
  have hothers := fun q => sheetHeard_port_of_ne (p := p) (q := q) s
  refine ⟨fun hst => ?_, fun hst => ?_, fun c hst hc hheld => ?_, fun c k q hst hc hheld hk hq => ?_, fun hst => ?_, fun hst => ?_⟩
  · rw [hact (by simp [hst])] at hrun
    refine ⟨_, hrun, ?_⟩
    have hdeliver : deliverSheet p (decodeSheet payload) (sheetHeard p s)
        = enter p .held (stopTimer p (storeSheet p (decodeSheet payload) (sheetHeard p s))) := by
      unfold deliverSheet
      rw [hport, hst]
    rw [hdeliver, enter_trig, enter_port, enter_link, enter_traps, enter_outlet, enter_tables]
    refine ⟨rfl, ?_, rfl, rfl, fun q hq => ?_, rfl, rfl⟩
    · rw [stopTimer, updPort_port_self, storeSheet_port_self, hport]
    · rw [enter_port_of_ne _ _ _ hq, ← hothers q hq]
      simp [stopTimer, storeSheet, hq]
  · have hmem : (s.port p).state = .held ∨ (s.port p).state = .releasing := by simpa using hst
    rw [hact (by rcases hmem with h | h <;> simp [h]), deliverSheet_stored (by rw [hport]; exact hst)] at hrun
    refine ⟨_, hrun, rfl, ?_, rfl, fun q hq => ?_, rfl, rfl⟩
    · rw [storeSheet_port_self, hport]
    · rw [← hothers q hq]
      simp [storeSheet, hq]
  · rw [hact (by simp [hst]), deliverSheet_claiming (c := c) (by rw [hport]; exact hst) (by rw [hport]; exact hc),
      if_neg (by simp [hheld])] at hrun
    have hend := endClaimBySheet_ends (p := p) (c := c) (w := sheetHeard p s) (by rw [hport]; exact hc)
    refine ⟨_, hrun, rfl, ?_⟩
    rw [storeSheet_port_self, hend.port, hport, if_neg (by simp [hheld])]
    refine ⟨rfl, rfl, rfl, rfl, rfl, noticeSet_setNotice_self _ _, fun hon => ⟨?_, if_pos hon⟩⟩
    exact noticeSet_setNotice _ _ _ (hend.failed hon)
  · rw [hact (by simp [hst]), deliverSheet_claiming (c := c) (by rw [hport]; exact hst) (by rw [hport]; exact hc),
      if_pos hheld] at hrun
    have hend := endClaimBySheet_ends (p := p) (c := c) (w := sheetHeard p s) (by rw [hport]; exact hc)
    generalize hu : storeSheet p (decodeSheet payload) (endClaimBySheet p (sheetHeard p s)) = u at hrun
    have huport : u.port p = { s.port p with
        rxBusy := false, state := .contract, claim := none, timer := .stopped, sheet := decodeSheet payload
        order := (s.port p).order.filter (fun g => g.kindCode != 0x04#8)
        lastFailure := if s.exchangeOn p then .superseded else (s.port p).lastFailure } := by
      rw [← hu, storeSheet_port_self, hend.port, hport, if_pos hheld]
      rfl
    have hufeed : u.feed (feedOf p) = (endClaimBySheet p (sheetHeard p s)).feed (feedOf p) := by rw [← hu]; rfl
    have huclosed : u.closedOn p = s.closedOn p := by rw [← hu]; exact hend.closedOn
    have hurest : u.rest = (sheetHeard p s).rest := by rw [← hu]; exact hend.rest
    have hulink : u.link = (setNotice .sheetChanged (endClaimBySheet p (sheetHeard p s))).link := by rw [← hu]; rfl
    have huk : (u.port p).contract = some k := by rw [huport]; exact hk
    have hreacts := protectiveReaction_reacts (s := s) (p := p) (w := u) (c := k) (q := q) huk
      (by rw [huport]; exact hq) (by rw [huport]) (fun h => restartOwed_of_filter (r := s.port p) (by rw [huport]) _
        (by rw [huport]) h) huclosed (by rw [hufeed]; exact hend.feed.1) (by rw [hufeed]; exact hend.feed.2)
      (tables_of_rest hurest) (congrArg Factory.values (factory_of_rest hurest))
      (by rw [hulink]; exact noticeSet_setNotice_self _ _)
    obtain ⟨-, -, -, hlast, -, hnotices⟩ := protectiveReaction_keeps (p := p) huk
    have hsheet : (u.port p).sheet = decodeSheet payload := by rw [huport]
    rw [hsheet] at hreacts
    refine ⟨_, hrun, hreacts, fun hon => ⟨hnotices _ ?_, ?_⟩⟩
    · rw [hulink]
      exact noticeSet_setNotice _ _ _ (hend.failed hon)
    · rw [hlast, huport]
      exact if_pos hon
  · rw [hact (by simp [hst]), deliverSheet_settling (by rw [hport]; exact hst)] at hrun
    obtain ⟨hrec, htrig, hstep⟩ := failThenRestart_spec (p := p) (r := .superseded) (w := sheetHeard p s)
      (by rw [hport]; simp [hst])
    refine ⟨_, hrun, htrig, ?_, ?_, ?_, ?_, ?_, fun hon => ⟨(hstep hon).1, (hstep hon).2.1⟩⟩ <;> rw [hrec.port]
  · have hmem : (s.port p).state = .greeting ∨ (s.port p).state = .outletBase ∨ (s.port p).state = .outletGranted
        ∨ (s.port p).state = .parked := by simpa using hst
    have hheard := hact (by rcases hmem with h | h | h | h <;> simp [h])
    rw [deliverSheet_ignored (by rw [hport]; exact hst)] at hheard
    refine ⟨_, hexec.trans (takeEvent_quiet hs _ ?_ ?_ ?_), ?_⟩ <;> rw [hheard]
    · rfl
    · rfl
    · rfl
    · exact ⟨hport, rfl, hothers, rfl, rfl, rfl⟩

/-- Settles O32. -/
theorem resheetBoundsOrEndsTheContract : Obligations.ResheetBoundsOrEndsTheContract := by
  intro p payload s c q k hk hs hst htx h9 h63 hmode hc hq
  obtain ⟨rk, hrk, hexec⟩ := exec_sheet hk s
  have hrun := hexec.trans (takeEvent_running hs _)
  have hport := sheetHeard_port_self p s
  rw [receiveFrame_sheet hrk htx h9 h63 hmode (by simp [hst]), deliverSheet_contract (by rw [hport]; exact hst)] at hrun
  generalize hu : storeSheet p (decodeSheet payload) (sheetHeard p s) = u at hrun
  have huport : u.port p = { s.port p with rxBusy := false, sheet := decodeSheet payload } := by
    rw [← hu, storeSheet_port_self, hport]
  have huc : (u.port p).contract = some c := by rw [huport]; exact hc
  have hsheet : u.link.noticeSet .sheetChanged = true := by rw [← hu]; exact noticeSet_setNotice_self _ _
  have hufeed : u.feed (feedOf p) = s.feed (feedOf p) ∧ u.closedOn p = s.closedOn p ∧ u.tables = s.tables
      ∧ u.factoryValues = s.factoryValues := by rw [← hu]; exact ⟨rfl, rfl, rfl, rfl⟩
  obtain ⟨hufeed, huclosed, hutables, huvalues⟩ := hufeed
  obtain ⟨htrig, -, hkept, -, hnotice, hnotices⟩ := protectiveReaction_keeps (p := p) huc
  refine ⟨fun j l hl => ⟨_, hrun, htrig, ?_⟩, fun hl => ⟨_, hrun, htrig, ?_⟩⟩
  · obtain ⟨-, hvport, -, hout⟩ := protectiveReaction_carries huc (by rw [huport]; exact hq)
      (by rw [huport]; exact hl) rfl
    rw [hufeed, huclosed, huvalues] at hout
    rw [hvport, huport, hutables, huvalues]
    refine ⟨rfl, rfl, rfl, rfl, rfl, fun h => ?_, hnotices _ hsheet, hnotice, hout⟩
    rw [show ({ s.port p with rxBusy := false, sheet := decodeSheet payload } : PortRec).restartOwed = false from h]
    exact mem_placeFrame _ _
  · obtain ⟨-, ⟨pr, o, hvport⟩, -, -, hfeed⟩ := protectiveReaction_ends huc (by rw [huport]; exact hl)
    rw [hufeed, huclosed] at hfeed
    rw [hvport, huport]
    exact ⟨rfl, rfl, rfl, hnotice, hfeed⟩

/-! ## A held sheet decided (R183, R185, R186) -/

/-- The sheet that a decision delivers for a held one. -/
def decidesSheet (e : TrapEntry) (x : Decision) (lines : List Line) : Prop :=
  (x = .allow ∧ e.early = false ∧ lines = decodeSheet e.payload) ∨ (x = .deny ∧ lines = []) ∨ x = .amendSheet lines

theorem deliverDecision_sheet {e : TrapEntry} (hk : e.kind = .offers ∨ e.kind = .resheet) {x : Decision} {lines : List Line}
    (h : decidesSheet e x lines) (w : Ev) : deliverDecision e x w = deliverSheet e.port lines w := by
  unfold deliverDecision
  rcases h with ⟨rfl, he, rfl⟩ | ⟨rfl, rfl⟩ | rfl <;> rcases hk with hk | hk <;> rw [hk]
  · exact if_neg (by simp [he])
  · exact if_neg (by simp [he])

theorem deliverDecision_early {e : TrapEntry} (hk : e.kind = .offers ∨ e.kind = .resheet) (he : e.early = true) (w : Ev) :
    deliverDecision e .allow w = w := by
  unfold deliverDecision
  rcases hk with hk | hk <;> rw [hk] <;> exact if_pos he

/-- A delivered sheet in HELD and RELEASING. -/
theorem deliverSheet_stores {p : Port} {lines : List Line} {w : Ev} (h : (w.port p).state ∈ [PortState.held, .releasing]) :
    (deliverSheet p lines w).trig = true
      ∧ (deliverSheet p lines w).link = { w.link with notices := w.link.notices ||| noticeMask .sheetChanged }
      ∧ (deliverSheet p lines w).port p = { w.port p with sheet := lines }
      ∧ (∀ q, q ≠ p → (deliverSheet p lines w).port q = w.port q) ∧ (deliverSheet p lines w).feeds = w.feeds := by
  rw [deliverSheet_stored h]
  exact ⟨rfl, rfl, storeSheet_port_self, fun q hq => by simp [storeSheet, hq], rfl⟩

theorem execTrapDeadline {s : State} (hs : s.running = true) {e : TrapEntry} (he : s.traps.dueEntry = some e) :
    exec .trapDeadlineExpiry s = .next (closeEvent (applyDefault (Ev.start s) e)) := by
  have hact : expireTrap (Ev.start s) = applyDefault (Ev.start s) e := by
    unfold expireTrap
    rw [show (Ev.start s).traps.dueEntry = some e from he]
  rw [← hact]
  exact takeEvent_running hs expireTrap

/-- Settles O17. -/
theorem heldSheetsAreDeliveredByTheirVerdict : Obligations.HeldSheetsAreDeliveredByTheirVerdict := by
  intro d content e s hk left
  refine ⟨fun hs hc he => ⟨fun clamped lines hcases => ?_, fun hd hearly => ?_⟩, fun hs he => ⟨fun lines hcases => ?_,
    fun hallow hearly => ?_⟩⟩
  · have hdecide : ∃ x, verdictDecision e d content = some (x, clamped) ∧ decidesSheet e x lines := by
      rcases hcases with ⟨rfl, hearly, hlines, rfl⟩ | ⟨rfl, hlines, rfl⟩ | ⟨rfl, hamend⟩
      · exact ⟨.allow, rfl, .inl ⟨rfl, hearly, hlines⟩⟩
      · exact ⟨.deny, rfl, .inr (.inl ⟨rfl, hlines⟩)⟩
      · exact ⟨.amendSheet lines, hamend, .inr (.inr rfl)⟩
    obtain ⟨x, hx, hlines⟩ := hdecide
    have hexec := execVerdict_applies hs hc he hx
    rw [applyDecision, deliverDecision_sheet hk hlines] at hexec
    generalize hu : removeTag e.tag (Ev.start (s.holding 0x92#8)) = u at hexec
    have hv : Ev.start { s.holding 0x92#8 with traps := left } = u := by rw [← hu]; rfl
    have huport : ∀ q, u.port q = s.port q := fun q => by rw [← hu]; rfl
    have hulink : u.link = (s.holding 0x92#8).link := by rw [← hu]; rfl
    have hutraps : u.traps = left := by rw [← hu]; rfl
    have hurest : u.feeds = s.feeds ∧ u.tables = s.tables ∧ u.factory = s.factory := by rw [← hu]; exact ⟨rfl, rfl, rfl⟩
    obtain ⟨hufeeds, hutables, hufactory⟩ := hurest
    have hrest := deliverSheet_rest e.port lines u
    have hlink := link_of_rest hrest
    refine ⟨_, hexec, ?_, ?_, ?_, fun hst => ?_, fun c q hst hcon hclaim hq => ?_⟩
    · rw [placeResult, updLink_link]
      show ({ (deliverSheet e.port lines u).link with pendingResult := _ } : Link) = _
      rw [hlink, hulink]
      rfl
    · exact (traps_of_rest hrest).trans hutraps
    · rw [hv]
      exact ⟨rfl, rfl, rfl, rfl, rfl, rfl, rfl⟩
    · obtain ⟨htrig, hlink', hport, hothers, hfeeds⟩ :=
        deliverSheet_stores (p := e.port) (lines := lines) (w := u) (by rw [huport]; exact hst)
      refine ⟨htrig, ?_, hport.trans (by rw [huport]), fun q hq => (hothers q hq).trans (huport q), hfeeds.trans hufeeds⟩
      show (deliverSheet e.port lines u).link.notices = _
      rw [hlink', hulink]
      rfl
    · exact deliverSheet_reacts (w := u) hst hcon hclaim hq (by rw [huport]) hufeeds hutables hufactory
  · subst hd
    have hexec := execVerdict_applies hs hc he (d := 0) (content := content) (x := .allow) (clamped := false) rfl
    rw [applyDecision, deliverDecision_early hk hearly] at hexec
    rw [hexec, closeEvent_quiet rfl rfl rfl]
    rfl
  · have hdecide : ∃ x, defaultDecision (s.tables.port.get e.port).verdict = x ∧ decidesSheet e x lines := by
      rcases hcases with ⟨h, hearly, hlines⟩ | ⟨h, hlines⟩ <;> rw [h]
      · exact ⟨.allow, rfl, .inl ⟨rfl, hearly, hlines⟩⟩
      · exact ⟨.deny, rfl, .inr (.inl ⟨rfl, hlines⟩)⟩
    obtain ⟨x, hx, hlines⟩ := hdecide
    have hexec := execTrapDeadline hs he
    rw [applyDefault, show defaultDecision ((Ev.start s).tables.port.get e.port).verdict = x from hx, applyDecision,
      deliverDecision_sheet hk hlines] at hexec
    refine ⟨hexec, fun hst => ?_, fun c q hst hcon hclaim hq => ?_⟩
    · obtain ⟨htrig, hlink, hport, hothers, hfeeds⟩ := deliverSheet_stores (p := e.port) (lines := lines)
        (w := removeTag e.tag (Ev.start s)) hst
      exact ⟨_, hexec, htrig, traps_of_rest (deliverSheet_rest _ _ _), hlink, hport, hothers, hfeeds⟩
    · exact ⟨_, hexec, traps_of_rest (deliverSheet_rest _ _ _), deliverSheet_reacts (w := removeTag e.tag (Ev.start s)) hst hcon
        hclaim hq rfl rfl rfl rfl⟩
  · have hexec := execTrapDeadline hs he
    rw [applyDefault, show (Ev.start s).tables = s.tables from rfl, hallow, applyDecision,
      show defaultDecision .allow = .allow from rfl, deliverDecision_early hk hearly] at hexec
    rw [hexec, closeEvent_quiet rfl rfl rfl]
    rfl

end Sys2Proof.Machine
end

