-- ==== Sys2Proof/Proofs/TrapRules.lean ====
section
/-! PROOFS. What the trap check makes of a frame by its mode and the room of the queue (O37). -/
namespace Sys2Proof.Machine

/-! ## Entries joined and superseded (R178, R180) -/

/-- A queue with the port's held entry of a kind taken out (R180). -/
def leftQueue (p : Port) (k : TrapKind) (q : List TrapEntry) : List TrapEntry :=
  q.filter (fun e => !(e.port == p
    && ((e.isHeldSheet && (k == .offers || k == .resheet)) || (e.isHeldDraw && k == .draw))))

theorem supersede_eq (p : Port) (k : TrapKind) (w : Ev) :
    supersede p k w = { w with traps := { w.traps with queue := leftQueue p k w.traps.queue } } := by
  have hbeq : ∀ a b : TrapKind, (a == b) = decide (a = b) := fun _ _ => rfl
  unfold supersede leftQueue
  cases k <;> simp [hbeq]

/-- Where the queue has room the tag of the next entry is free (R178, R179). -/
theorem freeTag_of_room {t : TrapUnit} {p : Port} (h : t.hasRoom p = true) :
    ∀ e ∈ t.queue, e.tag ≠ freeTag t.queue 9 t.nextTag :=
  freeTag_fresh (by have := ((hasRoom_iff t p).1 h).1; omega) (by omega) _

/-! ## The trap check by mode and room (R174 to R176, R179) -/

section
variable {p : Port} {k : TrapKind} {payload : List Byte} {w : Ev}

theorem trapCheck_hold (h : w.modeInForce p k = .hold) (hroom : (supersede p k w).traps.hasRoom p = true) :
    trapCheck p k payload w
      = acceptHeld p k payload (addEntry p k .hold payload (earlyMark (w.port p) k) (supersede p k w)) := by
  unfold trapCheck
  dsimp only
  rw [show (supersede p k w).modeInForce p k = .hold from h]
  exact if_pos hroom

theorem trapCheck_copy (h : w.modeInForce p k = .copy) (hroom : (supersede p k w).traps.hasRoom p = true) :
    trapCheck p k payload w = deliverReceived p k payload (addEntry p k .copy payload false (supersede p k w)) := by
  unfold trapCheck
  dsimp only
  rw [show (supersede p k w).modeInForce p k = .copy from h]
  exact if_pos hroom

theorem trapCheck_full (h : w.modeInForce p k ≠ .pass) (hroom : (supersede p k w).traps.hasRoom p = false) :
    trapCheck p k payload w = deliverReceived p k payload (setNotice .trapOverflow (supersede p k w)) := by
  have hmode : (supersede p k w).modeInForce p k = w.modeInForce p k := rfl
  unfold trapCheck
  dsimp only
  rw [hmode]
  cases hm : w.modeInForce p k with
  | pass => exact absurd hm h
  | copy => exact if_neg (by simp [hroom])
  | hold => exact if_neg (by simp [hroom])

/-- An open-range frame that a port hears meets its open-range mode (R20, R177). -/
theorem receiveOpenRange_heard {kind : Byte} (h40 : 0x40 ≤ kind.toNat) (h7F : kind.toNat ≤ 0x7F) (hlen : payload.length ≤ 64)
    (htx : (w.port p).tx = none) (h : (w.port p).state ∉ [PortState.detached, .debounce, .disabled, .recovery]) :
    receiveOpenRange p kind payload w = openRangeCheck p kind payload (endReception p w) := by
  have hdeaf : (w.port p).deaf = false := deaf_eq_false htx fun hm => h (by
    simp only [List.mem_cons, List.not_mem_nil, or_false] at hm ⊢
    tauto)
  have hrec : (w.port p).state ≠ .recovery := fun he => h (by simp [he])
  have hopen : inOpenRange kind = true := by
    unfold inOpenRange
    rw [Bool.and_eq_true, decide_eq_true_eq, decide_eq_true_eq]
    exact ⟨h40, h7F⟩
  rw [receiveOpenRange, if_pos hopen]
  unfold receiveFrame
  dsimp only
  rw [if_neg (by simp [hdeaf, lengthPermitted, Config.maxChargePayload, hlen]), if_neg hrec]
  rfl

end

/-! ## Held sheets at acceptance (R46, R176) -/

/-- The event in which a held sheet has joined the queue, before its port takes note of it. -/
def sheetJoined (p : Port) (payload : List Byte) (early : Bool) (s : State) : Ev :=
  addEntry p .offers .hold payload early (sheetHeard p s)

theorem sheetJoined_port_self (p : Port) (payload : List Byte) (early : Bool) (s : State) :
    (sheetJoined p payload early s).port p = { s.port p with rxBusy := false } := sheetHeard_port_self p s

/-- A held sheet is accepted: its entry joins, early where the port stores it at once (R46, R176). -/
theorem receiveFrame_heldSheet {p : Port} {payload : List Byte} {s : State} (htx : (s.port p).tx = none)
    (h9 : payload.length % 9 = 0) (h63 : payload.length ≤ 63) (hmode : s.modeInForce p .offers = .hold)
    (hroom : (sheetHeard p s).traps.hasRoom p = true)
    (h : (s.port p).state ∉ [PortState.detached, .debounce, .disabled, .recovery]) :
    receiveFrame p .offers payload (Ev.start s) =
      acceptHeldSheet p (decodeSheet payload) (sheetJoined p payload (s.port p).storesHeldSheet s) := by
  rw [receiveFrame_trapped (k := .offers) rfl (by simp) htx (by simp [lengthPermitted, h9, h63]) h, trapCheck_hold hmode hroom]
  have hearly : earlyMark ((endReception p (Ev.start s)).port p) .offers = (s.port p).storesHeldSheet := by
    rw [endReception_port_self]
    rfl
  rw [hearly]
  rfl

/-- Settles O37. -/
theorem trappedFramesJoinTheQueue : Obligations.TrappedFramesJoinTheQueue := by
  refine ⟨fun p kind payload s hs hst htx h40 h7F hlen => ?_, fun p payload s hs htx hst => ⟨fun hlen hmode hroom => ?_,
    fun h9 h63 hmode hroom hout => ?_, fun h9 h63 hmode hroom => ?_⟩, fun p payload s k kind hs htx hst hk hlen => ?_⟩
  · have hact := receiveOpenRange_heard (w := Ev.start s) h40 h7F hlen htx hst
    have htables : (endReception p (Ev.start s)).tables = s.tables := rfl
    unfold openRangeCheck at hact
    rw [htables] at hact
    dsimp only
    refine ⟨fun hmode => ?_, fun hmode hroom => ?_, fun hmode hroom => ?_⟩
    · rw [hmode] at hact
      exact (takeEvent_quiet hs _ (by rw [hact]; rfl) (by rw [hact]; rfl) (by rw [hact]; rfl)).trans (by rw [hact]; rfl)
    · rw [hmode] at hact
      have hfull := hact.trans (if_neg (by rw [show (endReception p (Ev.start s)).traps = s.traps from rfl, hroom]; decide))
      exact (takeEvent_quiet hs _ (by rw [hfull]; rfl) (by rw [hfull]; rfl) (by rw [hfull]; rfl)).trans (by rw [hfull]; rfl)
    · rw [hmode] at hact
      have hjoin := hact.trans (if_pos hroom)
      exact ⟨_, freeTag_of_room hroom,
        (takeEvent_quiet hs _ (by rw [hjoin]; rfl) (by rw [hjoin]; rfl) (by rw [hjoin]; rfl)).trans (by rw [hjoin]; rfl)⟩
  · have hact : receiveFrame p .announce payload (Ev.start s)
        = addEntry p .announce .hold payload false (endReception p (Ev.start s)) := by
      rw [receiveFrame_trapped (k := .announce) rfl (by simp) htx (by simp [lengthPermitted, hlen]) hst,
        trapCheck_hold hmode (by rw [supersede_announce]; exact hroom), supersede_announce]
      rfl
    exact ⟨_, freeTag_of_room hroom,
      (takeEvent_quiet hs _ (by rw [hact]; rfl) (by rw [hact]; rfl) (by rw [hact]; rfl)).trans (by rw [hact]; rfl)⟩
  · have hstored : (s.port p).storesHeldSheet = false := by
      simp only [List.mem_cons, List.not_mem_nil, or_false, not_or] at hout
      simp [PortRec.storesHeldSheet, hout]
    have hignored : ∀ w : Ev, (w.port p).state = (s.port p).state → acceptHeldSheet p (decodeSheet payload) w = w := by
      intro w hw
      simp only [List.mem_cons, List.not_mem_nil, or_false, not_or] at hout
      unfold acceptHeldSheet
      rw [hw]
      cases hcase : (s.port p).state <;> simp_all
    have hoffers := receiveFrame_heldSheet htx h9 h63 hmode hroom hst
    rw [hstored, hignored _ (by rw [sheetJoined_port_self])] at hoffers
    have hresheet : receiveFrame p .resheet payload (Ev.start s) = addEntry p .resheet .hold payload false (sheetHeard p s) := by
      rw [receiveFrame_trapped (k := .resheet) rfl (by simp) htx (by simp [lengthPermitted, h9, h63]) hst,
        trapCheck_hold (p := p) (k := .resheet) (w := endReception p (Ev.start s)) hmode hroom]
      have hearly : earlyMark ((endReception p (Ev.start s)).port p) .resheet = false := by
        rw [endReception_port_self]
        exact hstored
      rw [hearly]
      exact hignored (addEntry p .resheet .hold payload false (sheetHeard p s)) (by
        rw [show (addEntry p .resheet .hold payload false (sheetHeard p s)).port p = (sheetHeard p s).port p from rfl,
          sheetHeard_port_self])
    exact ⟨_, freeTag_of_room hroom,
      (takeEvent_quiet hs _ (by rw [hoffers]; rfl) (by rw [hoffers]; rfl) (by rw [hoffers]; rfl)).trans (by rw [hoffers]; rfl),
      (takeEvent_quiet hs _ (by rw [hresheet]; rfl) (by rw [hresheet]; rfl) (by rw [hresheet]; rfl)).trans
        (by rw [hresheet]; rfl)⟩
  · have hact := receiveFrame_heldSheet htx h9 h63 hmode hroom hst
    have hrun := takeEvent_running hs (receiveFrame p .offers payload)
    have hport := fun early => sheetJoined_port_self p payload early s
    rw [hact] at hrun
    refine ⟨_, freeTag_of_room hroom, fun hst hk => ?_, fun c hst hc hheld hk => ?_, fun c hst hc hheld => ?_, fun hst => ?_⟩
    · obtain ⟨k, hk⟩ := Option.isSome_iff_exists.1 hk
      have haccept : acceptHeldSheet p (decodeSheet payload) (sheetJoined p payload true s)
          = protectiveReaction p (storeSheet p (decodeSheet payload) (sheetJoined p payload true s)) := by
        unfold acceptHeldSheet
        rw [hport, hst]
        exact deliverSheet_contract (by rw [hport]; exact hst)
      rw [show (s.port p).storesHeldSheet = true by simp [PortRec.storesHeldSheet, hst], haccept] at hrun
      obtain ⟨htrig, hstate, hsheet, -, hnotice, hnotices⟩ := protectiveReaction_keeps (p := p) (c := k)
        (w := storeSheet p (decodeSheet payload) (sheetJoined p payload true s)) (by rw [storeSheet_port_self, hport]; exact hk)
      refine ⟨_, hrun, htrig, by rw [hsheet, storeSheet_port_self], hnotices _ (noticeSet_setNotice_self _ _), hnotice, hstate, ?_⟩
      exact traps_of_rest (protectiveReaction_rest _ _)
    · obtain ⟨k, hk⟩ := Option.isSome_iff_exists.1 hk
      have haccept : acceptHeldSheet p (decodeSheet payload) (sheetJoined p payload true s) = protectiveReaction p
          (storeSheet p (decodeSheet payload) (endClaimBySheet p (sheetJoined p payload true s))) := by
        unfold acceptHeldSheet
        rw [hport, hst, hc]
        exact (if_pos (by simpa using hheld)).trans ((deliverSheet_claiming (by rw [hport]; exact hst)
          (by rw [hport]; exact hc)).trans (if_pos hheld))
      rw [show (s.port p).storesHeldSheet = true by simp [PortRec.storesHeldSheet, hst, hc, hheld], haccept] at hrun
      have hend := endClaimBySheet_ends (p := p) (c := c) (w := sheetJoined p payload true s) (by rw [hport]; exact hc)
      have hrest : (storeSheet p (decodeSheet payload) (endClaimBySheet p (sheetJoined p payload true s))).rest
          = (sheetJoined p payload true s).rest := hend.rest
      have hself : (storeSheet p (decodeSheet payload) (endClaimBySheet p (sheetJoined p payload true s))).port p = { s.port p with
          rxBusy := false, state := .contract, claim := none, timer := .stopped, sheet := decodeSheet payload
          order := (s.port p).order.filter (fun g => g.kindCode != 0x04#8)
          lastFailure := if s.exchangeOn p then .superseded else (s.port p).lastFailure } := by
        rw [storeSheet_port_self, hend.port, hport, if_pos hheld]
        rfl
      obtain ⟨htrig, hstate, hsheet, hlast, hnotice, hnotices⟩ := protectiveReaction_keeps (p := p) (c := k)
        (w := storeSheet p (decodeSheet payload) (endClaimBySheet p (sheetJoined p payload true s))) (by rw [hself]; exact hk)
      refine ⟨_, hrun, htrig, by rw [hsheet, hself], hnotices _ (noticeSet_setNotice_self _ _), hnotice, hstate,
        fun hon => ⟨hnotices _ (noticeSet_setNotice _ _ _ (hend.failed hon)), ?_⟩, ?_⟩
      · rw [hlast, hself]
        exact if_pos hon
      · exact traps_of_rest ((protectiveReaction_rest _ _).trans hrest)
    · have haccept : acceptHeldSheet p (decodeSheet payload) (sheetJoined p payload false s)
          = endClaimBySheet p (sheetJoined p payload false s) := by
        unfold acceptHeldSheet
        rw [hport, hst, hc]
        exact if_neg (by simp [hheld])
      rw [show (s.port p).storesHeldSheet = false by simp [PortRec.storesHeldSheet, hst, hc, hheld], haccept] at hrun
      have hend := endClaimBySheet_ends (p := p) (c := c) (w := sheetJoined p payload false s) (by rw [hport]; exact hc)
      refine ⟨_, hrun, ?_⟩
      rw [hend.port, hport, if_neg (by simp [hheld])]
      exact ⟨rfl, rfl, rfl, rfl, fun hon => ⟨hend.failed hon, if_pos hon⟩, traps_of_rest hend.rest⟩
    · have haccept : acceptHeldSheet p (decodeSheet payload) (sheetJoined p payload false s)
          = decideRestart p (failExchange p .superseded (sheetJoined p payload false s)) := by
        unfold acceptHeldSheet
        rw [hport, hst]
        rfl
      rw [show (s.port p).storesHeldSheet = false by simp [PortRec.storesHeldSheet, hst], haccept] at hrun
      obtain ⟨hrec, htrig, -⟩ := failThenRestart_spec (p := p) (r := .superseded) (w := sheetJoined p payload false s)
        (by rw [hport]; simp [hst])
      refine ⟨_, hrun, htrig, ?_, ?_, ?_⟩
      · rw [hrec.port]
      · rw [hrec.port]
      · exact traps_of_rest ((decideRestart_rest _ _).trans (failExchange_rest _ _ _))
  · have hroute : exec (chargeCommand p payload k) s = takeEvent (receiveFrame p k payload) s
        ∧ receiveFrame p k payload (Ev.start s) = trapCheck p kind payload (endReception p (Ev.start s)) := by
      simp only [List.mem_cons, List.not_mem_nil, or_false, Prod.mk.injEq] at hk
      rcases hk with ⟨rfl, rfl⟩ | ⟨rfl, rfl⟩ | ⟨rfl, rfl⟩ | ⟨rfl, rfl⟩
      all_goals exact ⟨rfl, receiveFrame_trapped rfl (by simp) htx hlen hst⟩
    obtain ⟨hexec, hact⟩ := hroute
    have hleft := supersede_eq p kind (endReception p (Ev.start s))
    have hrun := hexec.trans (takeEvent_running hs _)
    rw [hact] at hrun
    dsimp only
    refine ⟨fun hmode => ?_, fun hmode hroom => ⟨_, freeTag_of_room hroom, ?_⟩, fun hmode hroom => ?_⟩
    · rw [trapCheck_pass hmode, hleft] at hrun
      exact hrun
    · rw [trapCheck_copy hmode (by rw [hleft]; exact hroom), hleft] at hrun
      exact hrun
    · rw [trapCheck_full hmode (by rw [hleft]; exact hroom), hleft] at hrun
      exact hrun

end Sys2Proof.Machine
end

