-- ==== Sys2Proof/Proofs/Draws.lean ====
section
/-! PROOFS. A DRAW granted, declined or deferred (O47). -/
namespace Sys2Proof.Machine

/-- The record of a port on which a frame was decided (R5). -/
def PortRec.deciding (f : OutFrame) (r : PortRec) : PortRec :=
  { r with order := if r.restartOwed then r.order else placeFrame f r.order }

theorem decideFrame_deciding (p : Port) (f : OutFrame) (w : Ev) : decideFrame p f w = updPort p (PortRec.deciding f) w :=
  decideFrame_eq p f w

/-- The outlet supply with a granted current on a port's entry (R149). -/
def Outlet.granting (o : Outlet) (p : Port) (g : Nat) : Outlet :=
  { o with grants := o.grants.map (fun x => if x.port = p then { x with kind := .granted, current := g } else x) }

theorem decideDraw_grants {p : Port} {i : Nat} {w : Ev} (h : 500 ≤ w.drawGrant p i) :
    (decideDraw p i w).port p = { (w.port p).deciding (.grant (w.drawGrant p i)) with state := .outletGranted }
      ∧ (∀ q, q ≠ p → (decideDraw p i w).port q = w.port q)
      ∧ (decideDraw p i w).outlet = w.outlet.granting p (w.drawGrant p i)
      ∧ (w.readmit = false → ((decideDraw p i w).readmit = true ↔ w.drawGrant p i < w.outlet.currentOf p))
      ∧ (decideDraw p i w).trig = w.trig ∧ (decideDraw p i w).link = w.link := by
  have hact : decideDraw p i w = if w.drawGrant p i < w.outlet.currentOf p then
      { updPort p (fun r => { r with state := .outletGranted }) (setGrant p (w.drawGrant p i)
        (decideFrame p (.grant (w.drawGrant p i)) w)) with readmit := true }
      else updPort p (fun r => { r with state := .outletGranted }) (setGrant p (w.drawGrant p i)
        (decideFrame p (.grant (w.drawGrant p i)) w)) := if_pos h
  generalize hx : updPort p (fun r => { r with state := .outletGranted }) (setGrant p (w.drawGrant p i)
    (decideFrame p (.grant (w.drawGrant p i)) w)) = x at hact
  have hport : x.port p = { (w.port p).deciding (.grant (w.drawGrant p i)) with state := .outletGranted } := by
    rw [← hx, decideFrame_deciding]
    simp [setGrant]
  have hothers : ∀ q, q ≠ p → x.port q = w.port q := fun q hq => by
    rw [← hx, decideFrame_deciding]
    simp [setGrant, hq]
  have hrest : x.outlet = w.outlet.granting p (w.drawGrant p i) ∧ x.trig = w.trig ∧ x.link = w.link ∧ x.readmit = w.readmit := by
    rw [← hx]
    exact ⟨rfl, rfl, rfl, rfl⟩
  obtain ⟨houtlet, htrig, hlink, hreadmit⟩ := hrest
  rw [hact]
  split
  · rename_i hlow
    exact ⟨hport, hothers, houtlet, fun _ => ⟨fun _ => hlow, fun _ => rfl⟩, htrig, hlink⟩
  · rename_i hlow
    exact ⟨hport, hothers, houtlet, fun hr => ⟨fun h => absurd (hr.symm.trans (hreadmit.symm.trans h)) (by decide),
      fun h => absurd h hlow⟩, htrig, hlink⟩

theorem decideDraw_declines {p : Port} {i : Nat} {w : Ev} (h : w.drawGrant p i < 500) :
    decideDraw p i w = updPort p (PortRec.deciding .decline) w := by
  rw [← decideFrame_deciding]
  exact if_neg (Nat.not_le.2 h)

theorem inOutlet_of {r : PortRec} (h : r.state ∈ [PortState.outletBase, .outletGranted]) : r.inOutlet = true := by
  simp only [List.mem_cons, List.not_mem_nil, or_false] at h
  rcases h with h | h <;> simp [PortRec.inOutlet, h]

theorem deliverDraw_decides {p : Port} {i : Nat} {w : Ev} (h : (w.port p).state ∈ [PortState.outletBase, .outletGranted]) :
    deliverDraw p i w = decideDraw p i w := if_pos (inOutlet_of h)

theorem denyDraw_declines {p : Port} {w : Ev} (h : (w.port p).state ∈ [PortState.outletBase, .outletGranted]) :
    denyDraw p w = updPort p (PortRec.deciding .decline) w := by
  rw [← decideFrame_deciding]
  exact if_pos (inOutlet_of h)

/-- The event in which a port has heard a DRAW, its held one superseded (R180). -/
def drawHeard (p : Port) (s : State) : Ev := supersede p .draw (endReception p (Ev.start s))

@[simp] theorem drawHeard_port_self (p : Port) (s : State) : (drawHeard p s).port p = { s.port p with rxBusy := false } :=
  endReception_port_self p (Ev.start s)
theorem drawHeard_port_of_ne {p q : Port} (s : State) (h : q ≠ p) : (drawHeard p s).port q = s.port q :=
  updPort_port_of_ne (fun r => { r with rxBusy := false }) (Ev.start s) h

/-- What a verdict on a held DRAW delivers: a current, or a denial (R185). -/
def decidesDraw (e : TrapEntry) (x : Decision) (i : Nat) : Prop := x = .allow ∧ i = decodeDraw e.payload ∨ x = .amendDraw i

theorem deliverDecision_draw {e : TrapEntry} (hk : e.kind = .draw) {x : Decision} {i : Nat} (h : decidesDraw e x i) (w : Ev) :
    deliverDecision e x w = deliverDraw e.port i w := by
  unfold deliverDecision
  rcases h with ⟨rfl, rfl⟩ | rfl <;> rw [hk]

theorem deliverDecision_denyDraw {e : TrapEntry} (hk : e.kind = .draw) (w : Ev) :
    deliverDecision e .deny w = denyDraw e.port w := by
  unfold deliverDecision
  rw [hk]

/-- A verdict that declines: the answer is placed, the frame decided, nothing is owed. -/
theorem closeEvent_declined {s : State} (p : Port) (tag : Byte) (r : ResultCode) :
    closeEvent (placeResult 0x92#8 (answer (updPort p (PortRec.deciding .decline) (removeTag tag (Ev.start (s.holding 0x92#8)))) r))
      = { (s.answered 0x92#8 r []).withPort p (PortRec.deciding .decline) with
          traps := { s.traps with queue := s.traps.queue.filter (·.tag != tag) } } := by
  rw [closeEvent_quiet rfl rfl rfl]
  rfl

/-- Settles O47. -/
theorem drawIsGrantedDeclinedOrDeferred : Obligations.DrawIsGrantedDeclinedOrDeferred := by
  intro p payload s hst
  have hmem : (s.port p).state = .outletBase ∨ (s.port p).state = .outletGranted := by simpa using hst
  have hnot : (s.port p).state ∉ [PortState.detached, .debounce, .disabled, .recovery] := by
    rcases hmem with h | h <;> simp [h]
  have hport := drawHeard_port_self p s
  have hdeliver := fun i => deliverDraw_decides (i := i) (w := drawHeard p s) (p := p) (by rw [hport]; exact hst)
  have hpass : (s.port p).tx = none → payload.length = 2 → s.modeInForce p .draw = .pass →
      receiveFrame p .draw payload (Ev.start s) = decideDraw p (decodeDraw payload) (drawHeard p s) := by
    intro htx hlen hmode
    rw [receiveFrame_trapped (k := .draw) rfl (by simp) htx (by simp [lengthPermitted, hlen]) hnot, trapCheck_pass hmode]
    exact hdeliver _
  refine ⟨fun hs htx hlen => ⟨fun hmode hg => ?_, fun hmode hg => ?_, fun hmode hroom => ?_⟩,
    fun e d content i clamped hs hc he hkind hport' hpayload => ⟨fun hd => ?_, fun hd hclamped => ?_⟩⟩
  · have hact := hpass htx hlen hmode
    obtain ⟨hvport, hvothers, hvoutlet, hvreadmit, hvtrig, hvlink⟩ := decideDraw_grants (p := p) (i := decodeDraw payload)
      (w := drawHeard p s) hg
    rw [hport] at hvport
    refine ⟨_, takeEvent_running hs _, ?_⟩
    rw [hact]
    exact ⟨hvport, hvoutlet, hvreadmit rfl, hvtrig, traps_of_rest (decideDraw_rest _ _ _),
      fun q hq => (hvothers q hq).trans (drawHeard_port_of_ne s hq), hvlink⟩
  · have hact := (hpass htx hlen hmode).trans (decideDraw_declines hg)
    have hboth : updPort p (PortRec.deciding .decline) (drawHeard p s)
        = supersede p .draw (updPort p (fun r => PortRec.deciding .decline { r with rxBusy := false }) (Ev.start s)) :=
      congrArg (supersede p .draw) (updPort_updPort p (fun r => { r with rxBusy := false }) (PortRec.deciding .decline) (Ev.start s))
    rw [hboth] at hact
    exact (takeEvent_quiet hs _ (by rw [hact]; rfl) (by rw [hact]; rfl) (by rw [hact]; rfl)).trans (by rw [hact]; rfl)
  · have hact : receiveFrame p .draw payload (Ev.start s)
        = updPort p (PortRec.deciding .defer) (addEntry p .draw .hold payload false (drawHeard p s)) := by
      rw [receiveFrame_trapped (k := .draw) rfl (by simp) htx (by simp [lengthPermitted, hlen]) hnot,
        trapCheck_hold (p := p) (k := .draw) (w := endReception p (Ev.start s)) hmode hroom, ← decideFrame_deciding]
      refine if_pos (inOutlet_of ?_)
      rw [show (addEntry p .draw .hold payload _ (supersede p .draw (endReception p (Ev.start s)))).port p
        = (drawHeard p s).port p from rfl, hport]
      exact hst
    have hboth : updPort p (PortRec.deciding .defer) (addEntry p .draw .hold payload false (drawHeard p s))
        = addEntry p .draw .hold payload false (supersede p .draw
          (updPort p (fun r => PortRec.deciding .defer { r with rxBusy := false }) (Ev.start s))) :=
      congrArg (fun w => addEntry p .draw .hold payload false (supersede p .draw w))
        (updPort_updPort p (fun r => { r with rxBusy := false }) (PortRec.deciding .defer) (Ev.start s))
    rw [hboth] at hact
    exact ⟨_, freeTag_of_room hroom,
      (takeEvent_quiet hs _ (by rw [hact]; rfl) (by rw [hact]; rfl) (by rw [hact]; rfl)).trans (by rw [hact]; rfl)⟩
  · subst hport' hpayload
    have hdecide : ∃ x, verdictDecision e d content = some (x, clamped) ∧ decidesDraw e x i := by
      rcases hd with ⟨rfl, hi, rfl⟩ | ⟨rfl, hamend⟩
      · exact ⟨.allow, rfl, .inl ⟨rfl, hi⟩⟩
      · exact ⟨.amendDraw i, hamend, .inr rfl⟩
    obtain ⟨x, hx, hi⟩ := hdecide
    have hexec := execVerdict_applies hs hc he hx
    rw [applyDecision, deliverDecision_draw hkind hi,
      deliverDraw_decides (w := removeTag e.tag (Ev.start (s.holding 0x92#8))) hst] at hexec
    refine ⟨fun hg => ?_, fun hg => ?_⟩
    · obtain ⟨hvport, -, hvoutlet, hvreadmit, -, hvlink⟩ := decideDraw_grants (p := e.port) (i := i)
        (w := removeTag e.tag (Ev.start (s.holding 0x92#8))) hg
      refine ⟨_, hexec, ?_, hvport, hvoutlet, hvreadmit rfl, traps_of_rest (decideDraw_rest _ _ _)⟩
      rw [placeResult, updLink_link]
      show ({ (decideDraw e.port i (removeTag e.tag (Ev.start (s.holding 0x92#8)))).link with pendingResult := _ } : Link) = _
      rw [hvlink]
      rfl
    · rw [decideDraw_declines (w := removeTag e.tag (Ev.start (s.holding 0x92#8))) hg, closeEvent_declined] at hexec
      exact hexec
  · subst hport' hpayload hd hclamped
    have hexec := execVerdict_applies hs hc he (d := 1) (content := content) (x := .deny) (clamped := false) rfl
    rw [applyDecision, deliverDecision_denyDraw hkind,
      denyDraw_declines (w := removeTag e.tag (Ev.start (s.holding 0x92#8))) hst, closeEvent_declined] at hexec
    exact hexec

end Sys2Proof.Machine
end

