-- ==== Sys2Proof/Proofs/Detaches.lean ====
section
/-! PROOFS. What a detach leaves of its partner (O27). -/
namespace Sys2Proof.Machine

/-! ## The feed's exit from FAULT (R142) -/

section
variable (f : Feed) (w : Ev)

theorem faultExit_eq : (faultExit f w = w ∨ (w.feed f).state = .fault
    ∧ faultExit f w = raiseTrigger (updFeed f (fun r => { r with state := .idle }) w)) := by
  unfold faultExit
  split
  · rename_i h
    exact .inr ⟨h.1, rfl⟩
  · exact .inl rfl

@[simp] theorem faultExit_ports : (faultExit f w).ports = w.ports := by unfold faultExit; split <;> rfl
@[simp] theorem faultExit_port (p : Port) : (faultExit f w).port p = w.port p := by unfold faultExit; split <;> rfl
@[simp] theorem faultExit_outlet : (faultExit f w).outlet = w.outlet := by unfold faultExit; split <;> rfl
@[simp] theorem faultExit_link : (faultExit f w).link = w.link := by unfold faultExit; split <;> rfl
@[simp] theorem faultExit_readmit : (faultExit f w).readmit = w.readmit := by unfold faultExit; split <;> rfl
@[simp] theorem faultExit_traps : (faultExit f w).traps = w.traps := traps_of_rest (faultExit_rest f w)

theorem faultExit_trig (h : w.trig = true) : (faultExit f w).trig = true := by
  unfold faultExit
  split
  · rfl
  · exact h

theorem faultExit_of_state {g : Feed} (h : (w.feed g).state ≠ .fault) : (faultExit f w).feed g = w.feed g := by
  rcases faultExit_eq f w with hid | ⟨hf, hid⟩
  · rw [hid]
  · have hne : g ≠ f := fun hg => h (hg ▸ hf)
    rw [hid, raiseTrigger_feed, updFeed_feed_of_ne _ _ hne]

end

/-! ## A contract and a claim gone -/

/-- The removal of a contract leaves the switch as it was (R132). -/
theorem ContractGone.closedOn {p : Port} {w v : Ev} (h : ContractGone p w v) : v.closedOn p = w.closedOn p := by
  obtain ⟨⟨st, vw, o, g, m, hgone⟩, hbase, -⟩ := contractGone_spec (w.control.trim.get (feedOf p)) (w.feed (feedOf p))
  cases hc : w.closedOn p with
  | false =>
    have hfeed := h.feed
    rw [if_neg (by simp [hc])] at hfeed
    rw [← hc]
    exact closedOn_congr (by rw [hfeed]) (by rw [hfeed])
  | true =>
    obtain ⟨hpow, hsel⟩ := (closedOn_iff w.toState p).1 hc
    have hfeed := h.feed
    rw [closedOn_iff]
    split at hfeed <;> rw [hfeed]
    · exact ⟨(powered_iff _).2 (.inl (hbase hpow)), by rw [hgone]; exact hsel⟩
    · exact ⟨hpow, hsel⟩

/-- A detach of a port whose CLOSE is held or checked touches its feed alone (R129). -/
theorem detachClose_spec (p : Port) (w : Ev) : (∃ r, detachClose p w = updFeed (feedOf p) (fun _ => r) w)
    ∧ (w.closedOn p = true → detachClose p w = w) := by
  have hdrop : ∀ w : Ev, ∃ r, (if w.closeChecking p then dropCloseCheck p w else w) = updFeed (feedOf p) (fun _ => r) w := by
    intro w
    split
    · exact ⟨_, updFeed_congr rfl⟩
    · exact ⟨_, (updFeed_const _ _).symm⟩
  refine ⟨?_, fun hc => ?_⟩
  · obtain ⟨r, hr⟩ := hdrop w
    unfold detachClose
    dsimp only
    rw [hr]
    split
    · exact ⟨_, updFeed_updFeed _ _ _ _⟩
    · exact ⟨r, rfl⟩
  · obtain ⟨hno, hheld⟩ := closeChecking_of_closedOn hc (q := p) rfl
    have hfirst : (if w.closeChecking p = true then dropCloseCheck p w else w) = w := if_neg (by simp [hno])
    unfold detachClose
    dsimp only
    rw [hfirst, if_neg (by simp [hheld])]

/-- The steps of a detached port fail with it (R115). -/
theorem failDetached_port (p : Port) (w : Ev) : (failClose p .detached (failExchange p .detached w)).port p =
    { w.port p with lastFailure := if w.exchangeOn p || w.closeStepOn p then .detached else (w.port p).lastFailure } := by
  rw [failClose_port_self, failExchange_port_self]
  cases hon : w.exchangeOn p with
  | true => simp
  | false =>
    rw [failExchange_of_off hon]
    simp

theorem forgetPort_port (p : Port) (w : Ev) : (abandonFrames p (updPort p (fun r =>
      { r with partner := none, sheet := [], relay := none, timer := .stopped, repeatCount := 0 }) w)).port p =
    { w.port p with partner := none, sheet := [], relay := none, timer := .stopped, repeatCount := 0, order := [], tx := none
                    rxBusy := false } := by
  simp [abandonFrames]

/-- Settles O27. -/
theorem detachCleansThePort : Obligations.DetachCleansThePort := by
  refine fun p s hs hraised => ⟨fun hst => ?_, fun hst => ?_⟩
  · generalize hx : updPort p (fun r => { r with detachRaised := false }) (Ev.start s) = x
    have hxport : x.port p = { s.port p with detachRaised := false } := by rw [← hx]; simp
    have hxs : x.closedOn p = s.closedOn p ∧ x.exchangeOn p = s.exchangeOn p ∧ x.closeStepOn p = s.closeStepOn p := by
      rw [← hx]; exact ⟨rfl, rfl, rfl⟩
    obtain ⟨hxclosed, hxon, hxclose⟩ := hxs
    have hact : expireFilter p (Ev.start s) = detachPort p x := by
      refine (if_pos hraised).trans ?_
      simp only [List.mem_cons, List.not_mem_nil, or_false, not_or] at hst
      unfold takeDetach
      dsimp only
      rw [hx, hxport]
      dsimp only
      cases hcase : (s.port p).state <;> simp_all
    have hfailed := failDetached_port p x
    generalize hy : failClose p .detached (failExchange p .detached x) = y at hfailed
    have hyclosed : y.closedOn p = x.closedOn p := by rw [← hy]; simp
    obtain ⟨⟨r, hr⟩, hkept⟩ := detachClose_spec p y
    generalize hz : detachClose p y = z at hr hkept
    have hzport : z.port p = y.port p := by rw [hr]; rfl
    have hzclosed : y.closedOn p = true → z.closedOn p = true := fun h => by rw [hkept h]; exact h
    have hgone := dropContract_spec p (dropClaim p z)
    generalize hv : dropContract p (dropClaim p z) = v at hgone
    have hvclosed : v.closedOn p = z.closedOn p := hgone.closedOn.trans (dropClaim_closedOn p z p)
    obtain ⟨⟨st, pr, o, hvport, -⟩, -⟩ := hgone.port
    rw [dropClaim_port_self, hzport, hfailed, hxport, hxon, hxclose] at hvport
    have hforget := forgetPort_port p v
    generalize hq : abandonFrames p (updPort p (fun r =>
      { r with partner := none, sheet := [], relay := none, timer := .stopped, repeatCount := 0 }) v) = q at hforget
    have hqclosed : q.closedOn p = v.closedOn p := by rw [← hq]; rfl
    generalize hu : removeEntry p (purgeTraps p (unpark p q)) = u
    have huport : u.port p = { q.port p with parkReason := none } := by
      rw [← hu, removeEntry_port]
      simp [purgeTraps, unpark, forgetParkTime, State.port]
    have huclosed : u.closedOn p = q.closedOn p := by rw [← hu, removeEntry_closedOn]; rfl
    have huentry : u.outlet.hasEntry p = false := by rw [← hu]; exact removeEntry_hasEntry_self _ _
    have hutraps : ∀ e ∈ u.traps.queue, e.port ≠ p := by
      rw [← hu, traps_of_rest (removeEntry_rest _ _)]
      intro e he
      simpa using (List.mem_filter.1 he).2
    have hutime : u.outlet.parkTime.get p = none := by
      rw [← hu, removeEntry_parkTime]
      simp [purgeTraps, unpark, forgetParkTime]
    have hopen := openForDetach_opens p u
    have hdetach : detachPort p x = faultExit (feedOf p) (raiseTrigger (setNotice .detach
        (updPort p (fun r => { r with state := .detached }) (openForDetach p u)))) := by
      rw [detachPort, hy, hz, hv, hq, hu, enter_of_open hopen.closed]
    generalize openForDetach p u = t at hopen hdetach
    refine ⟨_, takeEvent_running hs _, ?_⟩
    rw [hact, hdetach]
    refine ⟨faultExit_trig _ _ rfl, ?_, ?_, ?_, ?_, ?_, fun hc => ?_⟩
    · rw [faultExit_port, raiseTrigger_port, setNotice_port, updPort_port_self, hopen.parked huentry, huport, hforget, hvport]
      rfl
    · rw [faultExit_link]
      exact noticeSet_setNotice_self _ _
    · rw [faultExit_traps]
      show ∀ e ∈ t.traps.queue, e.port ≠ p
      rw [traps_of_rest hopen.rest]
      exact hutraps
    · rw [faultExit_outlet, ← Bool.not_eq_true]
      intro h
      have := hopen.entries p h
      rw [huentry] at this
      cases this
    · rw [faultExit_outlet]
      exact (hopen.alone p huentry).1.trans hutime
    · have hu' : u.closedOn p = true := by
        rw [huclosed, hqclosed, hvclosed]
        exact hzclosed (hyclosed.trans (hxclosed.trans hc))
      have hfeed : t.feed (feedOf p) = { (u.feed (feedOf p)).openSwitch with state := .idle } := by rw [hopen.feed, if_pos hu']
      have hsame := faultExit_of_state (feedOf p) (raiseTrigger (setNotice .detach
        (updPort p (fun r => { r with state := .detached }) t))) (g := feedOf p) (by
        show (t.feed (feedOf p)).state ≠ .fault
        rw [hfeed]
        simp)
      rw [hsame]
      show (t.feed (feedOf p)).state = _ ∧ (t.feed (feedOf p)).output = _ ∧ (t.feed (feedOf p)).driveLead = _
        ∧ (t.feed (feedOf p)).driveOther = _
      rw [hfeed]
      exact ⟨rfl, rfl, rfl, rfl⟩
  · have hact : expireFilter p (Ev.start s) = faultExit (feedOf p)
        (updPort p (fun r => { r with detachRaised := false, presence := false }) (Ev.start s)) := by
      refine (if_pos hraised).trans ?_
      unfold takeDetach
      dsimp only
      rw [updPort_port_self, start_toState, hst]
      dsimp only
      rw [updPort_updPort]
    refine ⟨_, takeEvent_running hs _, ?_⟩
    rw [hact, faultExit_port, faultExit_link, faultExit_traps, faultExit_outlet]
    refine ⟨by simp, fun q hq => ?_, rfl, rfl, rfl⟩
    rw [faultExit_port, updPort_port_of_ne _ _ hq]
    rfl

end Sys2Proof.Machine
end

