-- ==== Sys2Proof/Proofs/PortChanges.lean ====
section
/-! PROOFS. The consequences of a port entry (R53 to R56, R151): a port disabled or enabled, a role withdrawn or permitted, an
outlet cap lowered. -/
namespace Sys2Proof.Machine

/-! ## Triggers stay raised -/

theorem failExchange_trig_mono {p : Port} {r : FailReason} {w : Ev} (h : w.trig = true) : (failExchange p r w).trig = true := by
  cases hon : w.exchangeOn p with
  | true => exact (failExchange_of_on hon r).2.trig
  | false => rwa [failExchange_of_off hon]

/-! ## Leaving an exchange by command -/

/-- The exchange of a port failed COMMANDED and HELD left (R54, R55). -/
def leaveCommanded (p : Port) (w : Ev) : Ev := leaveHeld p (failExchange p .commanded w)

/-- What that leaves: port and feed but for the failure and the check. -/
structure LeavesCommanded (p : Port) (w v : Ev) : Prop where
  port : ∃ l, v.port p = { w.port p with lastFailure := l }
  outlet : v.outlet = w.outlet
  closedOn : v.closedOn p = w.closedOn p
  rest : v.rest = w.rest
  trig : w.trig = true → v.trig = true

theorem leaveCommanded_leaves (p : Port) (w : Ev) : LeavesCommanded p w (leaveCommanded p w) := by
  have h := leaveHeld_leaves p (failExchange p .commanded w)
  refine ⟨⟨_, h.port.trans (by rw [failExchange_port_self])⟩, h.outlet.trans (failExchange_outlet _ _ _),
    h.closedOn.trans (failExchange_closedOn _ _ _ _), (leaveHeld_rest _ _).trans (failExchange_rest _ _ _),
    fun ht => h.trig (failExchange_trig_mono ht)⟩

/-! ## Disabling (R55) -/

theorem owesRelease_iff (r : PortRec) :
    r.owesRelease = true ↔ r.contract.isSome = true ∨ r.state ∈ [PortState.claiming, .settling, .releasing] := by
  simp [PortRec.owesRelease, or_assoc]

/-- A port that holds no entry, its contract dropped: an exact record, and an open switch left alone. -/
theorem dropContract_free {p : Port} {w : Ev} (h : w.outlet.hasEntry p = false) :
    (dropContract p w).port p = { w.port p with contract := none }
      ∧ (w.closedOn p = false → (dropContract p w).feed (feedOf p) = w.feed (feedOf p))
      ∧ (dropContract p w).outlet.hasEntry p = false := by
  have hgone := dropContract_spec p w
  refine ⟨hgone.port.2.1 h, fun hc => ?_, ?_⟩
  · rw [hgone.feed, if_neg (by simp [hc])]
  · rw [← Bool.not_eq_true]
    intro hk
    rw [hgone.entries p hk] at h
    cases h

/-- What disabling leaves of a port (R55). -/
structure PortDisabled (p : Port) (w v : Ev) : Prop where
  port : (v.port p).state = .disabled ∧ (v.port p).partner = none ∧ (v.port p).sheet = [] ∧ (v.port p).contract = none
    ∧ (v.port p).claim = none ∧ (v.port p).parkReason = none ∧ (v.port p).relay = none ∧ (v.port p).timer = .stopped
    ∧ (v.port p).order = (if (w.port p).owesRelease then [.release] else [])
    ∧ (v.port p).presence = ((w.port p).state != .detached)
  traps : ∀ x ∈ v.traps.queue, x.port ≠ p
  entry : v.outlet.hasEntry p = false
  feed : w.closedOn p = true → (v.feed (feedOf p)).state = .gap ∧ (v.feed (feedOf p)).output = 0
  trig : (w.port p).state ∉ [PortState.detached, .debounce] → v.trig = true
  keptTrig : w.trig = true → v.trig = true
  rest : v.rest = { w.rest with traps := v.traps }

theorem disablePort_disables (p : Port) (w : Ev) : PortDisabled p w (disablePort p w) := by
  have hleft := leaveCommanded_leaves p w
  generalize hx : leaveCommanded p w = x at hleft
  generalize hy : updPort p (fun r => { r with
    order := if (w.port p).owesRelease then [.release] else [], presence := (w.port p).state != .detached }) x = y
  have hyport : ∃ l, y.port p = { w.port p with
      lastFailure := l
      order := if (w.port p).owesRelease then [.release] else [], presence := (w.port p).state != .detached } := by
    obtain ⟨l, hl⟩ := hleft.port
    exact ⟨l, by rw [← hy, updPort_port_self, hl]⟩
  obtain ⟨l, hyport⟩ := hyport
  have hyclosed : y.closedOn p = w.closedOn p := by rw [← hy]; exact hleft.closedOn
  have hyrest : y.rest = w.rest := by rw [← hy]; exact hleft.rest
  have hytrig : w.trig = true → y.trig = true := by rw [← hy]; exact hleft.trig
  have hopen := openIfClosedOn_opens p (removeEntry p y)
  have hgapped : w.closedOn p = true → ((removeEntry p y).gapFeed p).state = .gap ∧ ((removeEntry p y).gapFeed p).output = 0 := by
    intro hc
    obtain ⟨h1, -, h2, -⟩ := gapFeed_spec (s := (removeEntry p y).toState) (p := p) (by
      rw [removeEntry_closedOn, hyclosed, hc])
    exact ⟨h1, h2⟩
  generalize hz : openIfClosedOn p (removeEntry p y) = z at hopen
  have hzport : z.port p = y.port p := by
    rw [hopen.parked (removeEntry_hasEntry_self _ _), removeEntry_port]
  have hzentry : z.outlet.hasEntry p = false := by
    rw [← Bool.not_eq_true]
    intro h
    have := hopen.entries p h
    rw [removeEntry_hasEntry_self] at this
    cases this
  obtain ⟨hcport, hcfeed, hcentry⟩ := dropContract_free (p := p) (w := dropClaim p z) (by rw [dropClaim_outlet, hzentry])
  have hcclosed := (dropContract_spec p (dropClaim p z)).closedOn
  have hcrest : (dropContract p (dropClaim p z)).rest = w.rest := by
    rw [dropContract_rest, dropClaim_rest, hopen.rest, removeEntry_rest, hyrest]
  have hctrig : (dropContract p (dropClaim p z)).trig = y.trig := by
    rw [(dropContract_spec p (dropClaim p z)).trig, dropClaim_trig, hopen.trig, removeEntry_trig]
  rw [dropClaim_closedOn, hopen.closed] at hcfeed hcclosed
  rw [dropClaim_feed_self] at hcfeed
  have hcstate := hcfeed rfl
  obtain ⟨k, hk, -⟩ := uncheckedFeed_eq p z
  rw [hk, hopen.feed] at hcstate
  rw [dropClaim_port_self, hzport, hyport] at hcport
  generalize hc : dropContract p (dropClaim p z) = c at hcport hcstate hcentry hcclosed hcrest hctrig
  generalize hu : stopTimer p (purgeTraps p (emptySlot p (unpark p (updPort p (fun r => { r with partner := none, sheet := [] }) c))))
    = u
  have huport : ∃ t, u.port p = { c.port p with
      partner := none, sheet := [], parkReason := none, relay := none, timer := .stopped, tx := t } := by
    rw [← hu]
    exact ⟨_, by simp [stopTimer, purgeTraps, emptySlot, unpark, forgetParkTime, State.port]; rfl⟩
  obtain ⟨t, huport⟩ := huport
  rw [hcport] at huport
  have hufeed : u.feed (feedOf p) = c.feed (feedOf p) := by rw [← hu]; rfl
  have huclosed : u.closedOn p = false := by rw [← hcclosed, ← hu]; rfl
  have huentry : u.outlet.hasEntry p = false := by rw [← hu]; exact hcentry
  have hutraps : u.traps.queue = c.traps.queue.filter (·.port != p) := by rw [← hu]; rfl
  have hurest : u.rest = { c.rest with traps := u.traps } := by rw [← hu]; rfl
  have hutrig : u.trig = c.trig := by rw [← hu]; rfl
  have hact : disablePort p w = if (w.port p).state = .detached ∨ (w.port p).state = .debounce
      then faultExit (feedOf p) (updPort p (fun r => { r with state := .disabled }) u)
      else raiseTrigger (faultExit (feedOf p) (updPort p (fun r => { r with state := .disabled }) u)) := by
    rw [← enter_of_open huclosed, ← hu, ← hc, ← hz, ← hy, ← hx]
    rfl
  generalize he : updPort p (fun r => { r with state := .disabled }) u = e at hact
  have heport : e.port p = { u.port p with state := .disabled } := by rw [← he]; simp
  have hefeed : e.feed (feedOf p) = c.feed (feedOf p) := by rw [← hufeed, ← he]; rfl
  have herest : e.rest = { w.rest with traps := e.traps } := by rw [← hcrest, ← he]; exact hurest
  have hetraps : ∀ x ∈ e.traps.queue, x.port ≠ p := by
    rw [← he, updPort_traps, hutraps]
    intro x hx
    simpa using (List.mem_filter.1 hx).2
  have heentry : e.outlet.hasEntry p = false := by rw [← he]; exact huentry
  have hetrig : w.trig = true → e.trig = true := fun h => by
    rw [← he, updPort_trig, hutrig, hctrig]
    exact hytrig h
  have hexit : ∀ v : Ev, v = faultExit (feedOf p) e → v.port p = e.port p ∧ v.traps = e.traps ∧ v.outlet = e.outlet
      ∧ v.rest = { w.rest with traps := v.traps } ∧ (w.trig = true → v.trig = true)
      ∧ (w.closedOn p = true → (v.feed (feedOf p)).state = .gap ∧ (v.feed (feedOf p)).output = 0) := by
    rintro v rfl
    refine ⟨faultExit_port _ _ _, faultExit_traps _ _, faultExit_outlet _ _, by rw [faultExit_rest, faultExit_traps, ← herest],
      fun h => faultExit_trig _ _ (hetrig h), fun h => ?_⟩
    obtain ⟨h1, h2⟩ := hgapped h
    rw [faultExit_of_state _ _ (by rw [hefeed, hcstate]; simp [h1]), hefeed, hcstate]
    exact ⟨h1, h2⟩
  obtain ⟨hvport, hvtraps, hvoutlet, hvrest, hvtrig, hvfeed⟩ := hexit _ rfl
  rw [heport, huport] at hvport
  rw [hact]
  by_cases hst : (w.port p).state = .detached ∨ (w.port p).state = .debounce
  · rw [if_pos hst]
    refine ⟨?_, by rw [hvtraps]; exact hetraps, by rw [hvoutlet]; exact heentry, hvfeed, fun h => absurd hst (by simpa using h),
      hvtrig, hvrest⟩
    rw [hvport]
    exact ⟨rfl, rfl, rfl, rfl, rfl, rfl, rfl, rfl, rfl, rfl⟩
  · rw [if_neg hst]
    refine ⟨?_, ?_, ?_, hvfeed, fun _ => rfl, fun _ => rfl, hvrest⟩
    · rw [raiseTrigger_port, hvport]
      exact ⟨rfl, rfl, rfl, rfl, rfl, rfl, rfl, rfl, rfl, rfl⟩
    · rw [raiseTrigger_traps, hvtraps]
      exact hetraps
    · rw [raiseTrigger_outlet, hvoutlet]
      exact heentry

/-! ## Enabling (R56) -/

theorem enablePort_enables (p : Port) (w : Ev) : (enablePort p w).trig = true
    ∧ ((enablePort p w).port p).state = (if (w.port p).presence then .debounce else .detached)
    ∧ ((w.port p).presence = true → ((enablePort p w).port p).timer = .running .debounce w.tables.timing.debounce)
    ∧ (enablePort p w).rest = w.rest := by
  refine ⟨faultExit_trig _ _ rfl, ?_, fun h => ?_, enablePort_rest p w⟩
  · rw [enablePort, faultExit_port, raiseTrigger_port]
    split
    · rw [enterDebounce_port]
    · rw [enter_port]
  · rw [enablePort, faultExit_port, raiseTrigger_port, if_pos h, enterDebounce_port]

/-! ## A role withdrawn (R54) -/

/-- A port whose waiting frames gained no RESTART owes none that it did not owe. -/
theorem restartOwed_of_gained {r q : PortRec} (htx : q.tx = r.tx) (h : ∀ f ∈ q.order, f ∈ r.order ∨ f ≠ .restart)
    (hr : r.restartOwed = false) : q.restartOwed = false := by
  simp only [PortRec.restartOwed, Bool.or_eq_false_iff, List.any_eq_false, beq_iff_eq, htx] at hr ⊢
  exact ⟨fun f hf he => (h f hf).elim (fun hf => hr.1 f hf he) (fun hn => hn he), hr.2⟩

theorem restartOwed_deciding {f : OutFrame} (hf : f ≠ .restart) {r : PortRec} (h : r.restartOwed = false) :
    (r.deciding f).restartOwed = false := by
  refine restartOwed_of_gained (r := r) rfl (fun g hg => ?_) h
  rw [PortRec.deciding, h] at hg
  exact (mem_of_mem_placeFrame hg).imp_right fun e => by rw [e]; exact hf

theorem restartOwed_touched {entry : Bool} {r q : PortRec} (ht : r.poolTouched entry q) (h : r.restartOwed = false) :
    q.restartOwed = false := by
  obtain ⟨⟨st, pr, o, rfl, -⟩, -, hframes⟩ := ht
  exact restartOwed_of_frames (r := r) rfl hframes h

/-- What the withdrawal of a role leaves of a port (R54). -/
structure RoleWithdrawn (p : Port) (w v : Ev) : Prop where
  trig : v.trig = true
  port : (v.port p).state = .parked ∧ (v.port p).parkReason = some .role ∧ (v.port p).sheet = [] ∧ (v.port p).contract = none
    ∧ (v.port p).claim = none
  entry : v.outlet.hasEntry p = false
  welcome : (w.port p).restartOwed = false → OutFrame.welcome .refused 0 ∈ (v.port p).order
  feed : w.closedOn p = true → (v.feed (feedOf p)).state = .gap ∧ (v.feed (feedOf p)).output = 0
  rest : v.rest = w.rest

theorem withdrawRole_withdraws (p : Port) (w : Ev) : RoleWithdrawn p w (withdrawRole p w) := by
  have hrest := withdrawRole_rest p w
  have hleft := leaveCommanded_leaves p w
  generalize hx : leaveCommanded p w = x at hleft
  obtain ⟨l, hxport⟩ := hleft.port
  generalize hy : (if (w.port p).owesRelease then decideFrame p .release x else x) = y
  have hyport : ∃ o, y.port p = { w.port p with order := o, lastFailure := l }
      ∧ ((w.port p).restartOwed = false → (y.port p).restartOwed = false) := by
    have howed : (w.port p).restartOwed = false → (x.port p).restartOwed = false := by rw [hxport]; exact id
    rw [← hy]
    split
    · rw [decideFrame_deciding, updPort_port_self]
      exact ⟨_, by rw [hxport]; rfl, fun h => restartOwed_deciding (by simp) (howed h)⟩
    · exact ⟨_, hxport, howed⟩
  obtain ⟨o, hyport, hyowed⟩ := hyport
  have hyclosed : y.closedOn p = w.closedOn p := by
    rw [← hleft.closedOn, ← hy]
    split <;> rfl
  have hgone := dropContract_spec p (dropClaim p y)
  generalize hc : dropContract p (dropClaim p y) = c at hgone
  have hctouched := hgone.port
  rw [dropClaim_port_self] at hctouched
  have hcowed : (w.port p).restartOwed = false → (c.port p).restartOwed = false :=
    fun h => restartOwed_touched hctouched (hyowed h)
  obtain ⟨⟨st, pr, o', hcport, -⟩, -⟩ := hctouched
  have hcclosed : c.closedOn p = w.closedOn p := by rw [hgone.closedOn, dropClaim_closedOn, hyclosed]
  generalize hd : updPort p (fun r => { r with sheet := [] }) c = d
  have hdport : d.port p = { c.port p with sheet := [] } := by rw [← hd]; simp
  have hdclosed : d.closedOn p = w.closedOn p := by rw [← hd]; exact hcclosed
  have hopen := openIfClosedOn_opens p d
  generalize hz : openIfClosedOn p d = z at hopen
  have hztouched := hopen.port p
  have hzowed : (w.port p).restartOwed = false → (z.port p).restartOwed = false := fun h =>
    restartOwed_touched hztouched (by rw [hdport]; exact hcowed h)
  obtain ⟨⟨st', pr', o'', hzport, -⟩, -⟩ := hztouched
  generalize hu : unpark p (removeEntry p z) = u
  have huport : u.port p = { z.port p with parkReason := none } := by
    rw [← hu]
    simp [unpark, forgetParkTime]
  have hufeed : u.feed (feedOf p) = z.feed (feedOf p) := by
    rw [← hu]
    exact removeEntry_feed p z (feedOf p)
  have huclosed : u.closedOn p = false := by
    rw [← hopen.closed, ← removeEntry_closedOn p z, ← hu]
    rfl
  have huentry : u.outlet.hasEntry p = false := by
    rw [← removeEntry_hasEntry_self p z, ← hu]
    rfl
  have hact : withdrawRole p w = raiseTrigger (updPort p (fun r => { r with state := .parked, parkReason := some .role })
      (updPort p (PortRec.welcomed .refused 0) u)) := by
    have hpark := park_of_open (p := p) (w := decideWelcome p .refused u) (by rw [decideWelcome_eq]; exact huclosed) .role
    rw [decideWelcome_eq] at hpark
    have hdef : withdrawRole p w = park p .role (decideWelcome p .refused u) := by
      rw [← hu, ← hz, ← hd, ← hc, ← hy, ← hx]
      rfl
    rw [hdef, decideWelcome_eq, hpark]
    rfl
  rw [hact] at hrest ⊢
  refine ⟨rfl, ?_, huentry, fun h => ?_, fun h => ?_, hrest⟩
  · rw [raiseTrigger_port, updPort_port_self, updPort_port_self, huport, hzport, hdport, hcport]
    exact ⟨rfl, rfl, rfl, rfl, rfl⟩
  · rw [raiseTrigger_port, updPort_port_self, updPort_port_self]
    have hno : (u.port p).restartOwed = false := by rw [huport]; exact hzowed h
    show OutFrame.welcome .refused 0 ∈ ((u.port p).welcomed .refused 0).order
    rw [PortRec.welcomed, hno]
    exact mem_placeFrame _ _
  · show (u.feed (feedOf p)).state = _ ∧ (u.feed (feedOf p)).output = _
    rw [hufeed, hopen.feed]
    obtain ⟨h1, -, h2, -⟩ := gapFeed_spec (s := d.toState) (hdclosed.trans h)
    exact ⟨h1, h2⟩

/-! ## A role permitted (R53) -/

/-- What the permission of the role that a parked partner asked for leaves, on a port with an open switch and no entry. -/
structure RolePermitted (p : Port) (q : Partner) (w v : Ev) : Prop where
  trig : v.trig = true
  silent : q.silent = true → (v.port p).state = .held ∧ (v.port p).partner = some { q with role := .intake }
    ∧ (v.port p).order = (w.port p).order ∧ v.outlet.hasEntry p = false
  intake : q.silent = false → roleAsked q.cls = .intake →
    (v.port p).state = .awaitSheet ∧ (v.port p).partner = some { q with role := .intake }
      ∧ ((w.port p).restartOwed = false → ∃ u, OutFrame.welcome .intake u ∈ (v.port p).order)
  outlet : q.silent = false → roleAsked q.cls = .outlet →
    (v.port p).state = (if w.outlet.freeRoom < 500 then .parked else .outletBase)
      ∧ (v.port p).parkReason = (if w.outlet.freeRoom < 500 then some .pool else none)
      ∧ ((w.port p).restartOwed = false → OutFrame.welcome .outlet 5000 ∈ (v.port p).order)

theorem leaveParkedRole_permits {p : Port} {q : Partner} {w : Ev} (hst : (w.port p).state = .parked)
    (hreason : (w.port p).parkReason = some .role) (hq : (w.port p).partner = some q)
    (hallow : (w.tables.port.get p).roles.allows (roleAsked q.cls) = true) (hopen : w.closedOn p = false)
    (hentry : w.outlet.hasEntry p = false) : RolePermitted p q w (leaveParkedRole p w) := by
  generalize hu : updPort p (fun r => { r with parkReason := none }) w = u
  have huport : u.port p = { w.port p with parkReason := none } := by rw [← hu]; simp
  have hrest : u.tables = w.tables ∧ u.closedOn p = w.closedOn p ∧ u.outlet = w.outlet := by rw [← hu]; exact ⟨rfl, rfl, rfl⟩
  obtain ⟨hutables, huclosed, huoutlet⟩ := hrest
  have hact : leaveParkedRole p w
      = raiseTrigger (if q.silent then enter p .held (setRole p .intake u) else welcomePartner p q.cls u) := by
    rw [leaveParkedRole, hq, ← hu]
    exact if_pos ⟨hst, hreason, hallow⟩
  rw [← hutables] at hallow
  rw [hact]
  cases hsilent : q.silent with
  | true =>
    refine ⟨rfl, fun _ => ?_, fun h => absurd (hsilent.symm.trans h) (by decide), fun h => absurd (hsilent.symm.trans h) (by decide)⟩
    rw [if_pos rfl, raiseTrigger_port, enter_port, setRole, updPort_port_self, huport]
    refine ⟨rfl, by dsimp only; rw [hq]; rfl, rfl, ?_⟩
    rw [raiseTrigger_outlet, enter_outlet, updPort_outlet, huoutlet, hentry]
  | false =>
    rw [if_neg (by decide)]
    refine ⟨rfl, fun h => absurd (hsilent.symm.trans h) (by decide), fun _ hrole => ?_, fun _ hrole => ?_⟩
    · obtain ⟨hport, -⟩ := welcomeIntake_spec (p := p) (w := u) hallow hrole
      rw [raiseTrigger_port, hport, huport]
      refine ⟨rfl, by simp [PortRec.welcomed, hq], fun h => ⟨u.welcomeCeiling .intake, ?_⟩⟩
      rw [PortRec.welcomed, show ({ w.port p with parkReason := none } : PortRec).restartOwed = false from h]
      exact mem_placeFrame _ _
    · obtain ⟨⟨st, pr, hport, hcases⟩, -⟩ := welcomeOutlet_of_open (p := p) (w := u) hallow hrole (huclosed.trans hopen)
      rw [huoutlet] at hcases
      rw [raiseTrigger_port, hport, huport]
      have hwelcome : (w.port p).restartOwed = false →
          OutFrame.welcome .outlet 5000 ∈ (PortRec.welcomed .outlet 5000 { w.port p with parkReason := none }).order := by
        intro h
        rw [PortRec.welcomed, show ({ w.port p with parkReason := none } : PortRec).restartOwed = false from h]
        exact mem_placeFrame _ _
      rcases hcases with ⟨hroom, rfl, rfl, -⟩ | ⟨hroom, rfl, rfl, -⟩
      · rw [if_neg (by omega), if_neg (by omega)]
        exact ⟨rfl, rfl, hwelcome⟩
      · rw [if_pos hroom, if_pos hroom]
        exact ⟨rfl, rfl, hwelcome⟩

/-! ## A lowered outlet cap (R151) -/

/-- Without an entry a lowered cap does nothing. -/
theorem applyCap_free {p : Port} {cap : Nat} {w : Ev} (h : w.outlet.hasEntry p = false) : applyCap p cap w = w := by
  have hnone : w.outlet.grants.find? (·.port == p) = none := by
    rw [List.find?_eq_none]
    intro g hg
    simp only [Outlet.hasEntry, List.any_eq_false] at h
    exact h g hg
  unfold applyCap
  rw [hnone]

/-- A lowered cap cuts the port's GRANTED entry above both the cap and 500 mA, and nothing else. -/
theorem applyCap_spec (p : Port) (cap : Nat) (w : Ev) :
    applyCap p cap w = w ∨ ∃ g, w.outlet.grants.find? (·.port == p) = some g ∧ g.kind = .granted ∧ cap < g.current
      ∧ 500 < g.current
      ∧ applyCap p cap w = { announceCut (setGrant p (max 500 cap) w) (p, max 500 cap) with readmit := true } := by
  unfold applyCap
  cases hg : w.outlet.grants.find? (·.port == p) with
  | none => exact .inl rfl
  | some g =>
    dsimp only
    split
    · rename_i h
      exact .inr ⟨g, rfl, h.1, h.2.1, h.2.2, rfl⟩
    · exact .inl rfl

/-- A lowered cap leaves of its port everything but the waiting frames, of which it takes none but a CUT. -/
theorem applyCap_port (p : Port) (cap : Nat) (w : Ev) :
    (∃ o, (applyCap p cap w).port p = { w.port p with order := o } ∧ ∀ f ∈ (w.port p).order, f.kindCode ≠ 0x0D#8 → f ∈ o)
      ∧ (applyCap p cap w).trig = w.trig ∧ (applyCap p cap w).feeds = w.feeds := by
  rcases applyCap_spec p cap w with h | ⟨g, -, -, -, -, h⟩
  · rw [h]
    exact ⟨⟨_, rfl, fun _ hf _ => hf⟩, rfl, rfl⟩
  · rw [h]
    refine ⟨⟨_, decideFrame_port_self p (.cut (max 500 cap)) (setGrant p (max 500 cap) w), fun f hf hk => ?_⟩, rfl, rfl⟩
    have hf' : f ∈ ((setGrant p (max 500 cap) w).port p).order := hf
    split
    · exact hf'
    · exact mem_placeFrame_of_mem hf' hk

theorem applyLoweredCap_spec (old : PerPort PortEntry) (w : Ev) (p : Port) :
    (∃ o, (applyLoweredCap old w p).port p = { w.port p with order := o }
      ∧ ∀ f ∈ (w.port p).order, f.kindCode ≠ 0x0D#8 → f ∈ o)
      ∧ (applyLoweredCap old w p).trig = w.trig ∧ (applyLoweredCap old w p).feeds = w.feeds
      ∧ (w.outlet.hasEntry p = false → applyLoweredCap old w p = w) := by
  unfold applyLoweredCap
  dsimp only
  split
  · obtain ⟨h1, h2, h3⟩ := applyCap_port p (w.tables.port.get p).outletCap w
    exact ⟨h1, h2, h3, applyCap_free⟩
  · exact ⟨⟨_, rfl, fun _ hf _ => hf⟩, rfl, rfl, fun _ => rfl⟩

/-! ## The consequences of an entry together (R71) -/

section
variable {p : Port} {w : Ev}

theorem applyPortEntry_disables (he : (w.tables.port.get p).enabled = false) (hst : (w.port p).state ≠ .disabled) :
    applyPortEntry p w = disablePort p w := (if_neg hst).trans (if_pos he)

theorem applyPortEntry_enables (he : (w.tables.port.get p).enabled = true) (hst : (w.port p).state = .disabled) :
    applyPortEntry p w = enablePort p w := (if_pos hst).trans (if_pos he)

theorem applyPortEntry_withdraws (he : (w.tables.port.get p).enabled = true) {role : Role}
    (hserved : (w.port p).servedRole = some role) (hno : (w.tables.port.get p).roles.allows role = false) :
    applyPortEntry p w = withdrawRole p w := by
  have hst : (w.port p).state ≠ .disabled := by
    intro h
    simp [PortRec.servedRole, h] at hserved
  unfold applyPortEntry
  dsimp only
  rw [if_neg hst, if_neg (by simp [he]), hserved]
  exact if_neg (by simp [hno])

theorem applyPortEntry_serves (he : (w.tables.port.get p).enabled = true) {role : Role}
    (hserved : (w.port p).servedRole = some role) (hallow : (w.tables.port.get p).roles.allows role = true) :
    applyPortEntry p w = w := by
  have hst : (w.port p).state ≠ .disabled := by
    intro h
    simp [PortRec.servedRole, h] at hserved
  unfold applyPortEntry
  dsimp only
  rw [if_neg hst, if_neg (by simp [he]), hserved]
  exact if_pos hallow

theorem applyPortEntry_leaves (he : (w.tables.port.get p).enabled = true) (hst : (w.port p).state ≠ .disabled)
    (hserved : (w.port p).servedRole = none) : applyPortEntry p w = leaveParkedRole p w := by
  unfold applyPortEntry
  dsimp only
  rw [if_neg hst, if_neg (by simp [he]), hserved]

theorem leaveParkedRole_id (hst : (w.port p).state ≠ .parked) : leaveParkedRole p w = w := by
  unfold leaveParkedRole
  split
  · rfl
  · exact if_neg fun h => hst h.1

theorem leaveParkedRole_trig (h : w.trig = true) : (leaveParkedRole p w).trig = true := by
  unfold leaveParkedRole
  split
  · exact h
  · split
    · rfl
    · exact h

/-- The consequences keep a trigger raised, and of the rest touch the traps alone. -/
theorem applyPortEntry_keeps (p : Port) (w : Ev) : (w.trig = true → (applyPortEntry p w).trig = true)
    ∧ (applyPortEntry p w).rest = { w.rest with traps := (applyPortEntry p w).traps } := by
  have hself : ∀ v : Ev, v.rest = w.rest → v.rest = { w.rest with traps := v.traps } := by
    intro v h
    rw [traps_of_rest h, h]
    rfl
  unfold applyPortEntry
  dsimp only
  split
  · split
    · exact ⟨fun _ => (enablePort_enables p w).1, hself _ (enablePort_rest p w)⟩
    · exact ⟨id, rfl⟩
  · split
    · exact ⟨(disablePort_disables p w).keptTrig, (disablePort_disables p w).rest⟩
    · split
      · split
        · exact ⟨id, rfl⟩
        · exact ⟨fun _ => (withdrawRole_withdraws p w).trig, hself _ (withdrawRole_rest p w)⟩
      · exact ⟨leaveParkedRole_trig, hself _ (leaveParkedRole_rest p w)⟩

end

end Sys2Proof.Machine
end

