-- ==== Sys2Proof/Proofs/PortLoads.lean ====
section
/-! PROOFS. An accepted LOAD PORT: its entry stored, and acted on (O25). -/
namespace Sys2Proof.Machine

/-- The tables with a port's entry replaced. -/
def Tables.withPort (t : Tables) (p : Port) (e : PortEntry) : Tables := { t with port := t.port.set p e }

/-- A port entry is read by selection for its feed intake limit, on ports A and C alone (R64, R72). -/
theorem withPort_selectionFields (t : Tables) (p : Port) (e : PortEntry) :
    (t.withPort p e).selectionFields ≠ t.selectionFields ↔
      (p = .A ∨ p = .C) ∧ e.feedLimit ≠ (t.port.get p).feedLimit := by
  cases p <;> simp [Tables.withPort, Tables.selectionFields, PerPort.set, PerPort.get]

/-- The event of an accepted LOAD PORT (R61, R71, R151). -/
theorem execLoadPort_stores {a : Byte} {p : Port} {bs : List Byte} {e : PortEntry} {clamped : Bool} {s : State}
    (hs : s.takes = true) (hlock : s.tables.lock = false) (hp : portOfCode a.toNat = some p)
    (hload : loadedPort s.factoryValues bs = .stored e clamped) :
    ∃ x : Ev, exec (.loadPort (a :: bs)) s = .next (closeEvent (placeResult 0x81#8
        (answer (applyLoweredCap s.tables.port (applyPortEntry p x) p) (loadResult clamped))))
      ∧ x.tables = s.tables.withPort p e ∧ x.ports = s.ports ∧ x.feeds = s.feeds ∧ x.outlet = s.outlet ∧ x.traps = s.traps
      ∧ x.control = s.control ∧ x.sense = s.sense ∧ x.time = s.time ∧ x.watches = s.watches ∧ x.readmit = false
      ∧ (x.trig = true ↔ (p = .A ∨ p = .C) ∧ e.feedLimit ≠ (s.tables.port.get p).feedLimit) := by
  have hlen := length_of_loadedPort hload
  have ha : a.toNat ≤ 3 := by
    by_contra h
    rw [(portOfCode_eq_none_iff _).2 (by omega)] at hp
    cases hp
  refine ⟨storeTables (s.tables.withPort p e) (Ev.start (s.holding 0x81#8)), ?_, storeTables_tables _ _, ?_⟩
  · refine requestEvent_gives hs (by simp; omega) ?_
    refine (loadAt_stored (w := Ev.start (s.holding 0x81#8)) hlock ha hload storePort).trans ?_
    rw [storePort, hp]
    rfl
  · rw [storeTables_trig, storeTables_eq]
    refine ⟨rfl, rfl, rfl, rfl, rfl, rfl, rfl, rfl, rfl, ?_⟩
    rw [← withPort_selectionFields, start_trig, Bool.false_or, decide_eq_true_eq]
    rfl

theorem servedRole_parked {r : PortRec} (hst : r.state = .parked) (hreason : r.parkReason = some .role) :
    r.servedRole = none := by
  simp [PortRec.servedRole, hst, hreason]

/-- A granted entry cut by a lowered cap (R151). -/
theorem currentOf_setGrant {p : Port} {i : Nat} {w : Ev} {g : GrantEntry}
    (hg : w.outlet.grants.find? (fun x => x.port == p) = some g) : (setGrant p i w).outlet.currentOf p = i := by
  have hport : g.port = p := by simpa using List.find?_some hg
  have hmap : (setGrant p i w).outlet.grants.find? (fun x => x.port == p) = some { g with kind := .granted, current := i } := by
    rw [setGrant, updOutlet_outlet]
    dsimp only
    rw [List.find?_map]
    have hsame : ((fun x : GrantEntry => x.port == p) ∘ fun g : GrantEntry =>
        if g.port = p then { g with kind := .granted, current := i } else g) = fun x => x.port == p := by
      funext x
      simp only [Function.comp_apply]
      split <;> rfl
    rw [hsame, hg, Option.map_some, if_pos hport]
  unfold Outlet.currentOf
  rw [hmap]

/-- Settles O25. -/
theorem loadPortStoresAndActsOnItsEntry : Obligations.LoadPortStoresAndActsOnItsEntry := by
  intro a p bs e clamped s hs hlock hp hload
  obtain ⟨x, hexec, htables, hports, hfeeds, houtlet, htraps, hcontrol, hsense, htime, hwatches, hreadmit, htrig⟩ :=
    execLoadPort_stores hs hlock hp hload
  have hport : ∀ q, x.port q = s.port q := fun q => by rw [State.port, hports]; rfl
  have hfeed : ∀ f, x.feed f = s.feed f := fun f => by rw [State.feed, hfeeds]; rfl
  have hclosed : x.closedOn p = s.closedOn p := closedOn_of_feeds hfeeds p
  have hentry : x.tables.port.get p = e := by rw [htables, Tables.withPort]; simp
  obtain ⟨hkeptTrig, hkeptRest⟩ := applyPortEntry_keeps p x
  have hcases := applyPortEntry_disables (p := p) (w := x)
  have henables := applyPortEntry_enables (p := p) (w := x)
  have hwithdraws := fun he role => applyPortEntry_withdraws (p := p) (w := x) he (role := role)
  have hserves := fun he role => applyPortEntry_serves (p := p) (w := x) he (role := role)
  have hleaves := applyPortEntry_leaves (p := p) (w := x)
  rw [hentry, hport] at hcases henables hwithdraws hserves hleaves
  generalize hy : applyPortEntry p x = y at *
  obtain ⟨⟨o, hvport, horder⟩, hvtrig, hvfeeds, hvfree⟩ := applyLoweredCap_spec s.tables.port y p
  have hvrest := applyLoweredCap_rest s.tables.port y p
  generalize hv : applyLoweredCap s.tables.port y p = v at *
  have hvfeed : ∀ f, v.feed f = y.feed f := fun f => by rw [State.feed, hvfeeds]; rfl
  refine ⟨_, hexec, ?_, rfl, ?_, ?_, ?_, fun he hst => ?_, fun he hst => ?_, fun hp' hlimit => ?_, fun he hst hpark hserved hcap => ?_,
    fun role he hserved hno => ?_, fun q he hst hreason hq hallow hopen hfree => ?_, fun g he hst hallow hg hkind hcap => ?_⟩
  · exact (tables_of_rest hvrest).trans ((congrArg Rest.tables hkeptRest).trans htables)
  · exact (congrArg Rest.sense (hvrest.trans hkeptRest)).trans hsense
  · exact (congrArg Rest.time (hvrest.trans hkeptRest)).trans htime
  · exact (congrArg Rest.watches (hvrest.trans hkeptRest)).trans hwatches
  · have hdis := disablePort_disables p x
    rw [← hcases he hst] at hdis
    obtain ⟨⟨h1, h2, h3, h4, h5, h6, h7, h8, h9, h10⟩, hdtraps, hdentry, hdfeed, hdtrig, -, -⟩ := hdis
    rw [hclosed] at hdfeed
    rw [hport] at hdtrig h9 h10
    have howes : (if (s.port p).owesRelease = true then [OutFrame.release] else [])
        = if (s.port p).contract.isSome = true ∨ (s.port p).state ∈ [PortState.claiming, .settling, .releasing]
          then [OutFrame.release] else [] := if_congr (owesRelease_iff _) rfl rfl
    have hpresence : ((s.port p).state != PortState.detached) = decide ((s.port p).state ≠ .detached) := by
      cases (s.port p).state <;> rfl
    rw [hvfree hdentry]
    exact ⟨h1, h2, h3, h4, h5, h6, h7, h8, h9.trans howes, h10.trans hpresence, hdtraps, hdentry, hdfeed, hdtrig⟩
  · obtain ⟨htrig', hstate, htimer, -⟩ := enablePort_enables p x
    rw [← henables he hst, hport] at hstate htimer
    rw [← henables he hst] at htrig'
    rw [htables] at htimer
    refine ⟨hvtrig.trans htrig', ?_, fun h => ?_⟩
    · exact (congrArg PortRec.state hvport).trans hstate
    · exact (congrArg PortRec.timer hvport).trans (htimer h)
  · exact hvtrig.trans (hkeptTrig (htrig.2 ⟨hp', hlimit⟩))
  · have hyx : y = x := by
      cases hrole : (s.port p).servedRole with
      | some role => exact hserves he role hrole (hserved role hrole)
      | none => exact (hleaves he hst hrole).trans (leaveParkedRole_id (by rw [hport]; exact hpark))
    have hvx : v = x := by
      rw [← hv, hyx, applyLoweredCap]
      exact if_neg (by rw [hentry]; omega)
    rw [hvx]
    exact ⟨htrig, hports, hfeeds, houtlet, htraps, hcontrol⟩
  · have hout := withdrawRole_withdraws p x
    rw [← hwithdraws he role hserved hno] at hout
    obtain ⟨hwtrig, ⟨h1, h2, h3, h4, h5⟩, hwentry, hwelcome, hwfeed, -⟩ := hout
    rw [hvfree hwentry]
    rw [hport] at hwelcome
    rw [hclosed] at hwfeed
    exact ⟨hwtrig, h1, h2, h3, h4, h5, hwentry, hwelcome, hwfeed⟩
  · have hstate : (s.port p).state ≠ .disabled := by rw [hst]; decide
    have hyleaves := hleaves he hstate (servedRole_parked hst hreason)
    have hout := leaveParkedRole_permits (p := p) (q := q) (w := x) (by rw [hport]; exact hst) (by rw [hport]; exact hreason)
      (by rw [hport]; exact hq) (by rw [hentry]; exact hallow) (hclosed.trans hopen) (by rw [houtlet]; exact hfree)
    rw [← hyleaves] at hout
    obtain ⟨hptrig, hsilent, hintake, houtlets⟩ := hout
    rw [hport] at hsilent hintake houtlets
    rw [houtlet] at houtlets
    refine ⟨hvtrig.trans hptrig, fun h => ?_, fun h hrole => ?_, fun h hrole => ?_⟩
    · obtain ⟨h1, h2, h3, h4⟩ := hsilent h
      rw [hvfree h4]
      exact ⟨h1, h2, h3⟩
    · obtain ⟨h1, h2, h3⟩ := hintake h hrole
      refine ⟨(congrArg PortRec.state hvport).trans h1, (congrArg PortRec.partner hvport).trans h2, fun hr => ?_⟩
      obtain ⟨u, hu⟩ := h3 hr
      exact ⟨u, (congrArg PortRec.order hvport) ▸ horder _ hu (by simp [OutFrame.kindCode])⟩
    · obtain ⟨h1, h2, h3⟩ := houtlets h hrole
      exact ⟨(congrArg PortRec.state hvport).trans h1, (congrArg PortRec.parkReason hvport).trans h2,
        fun hr => (congrArg PortRec.order hvport) ▸ horder _ (h3 hr) (by simp [OutFrame.kindCode])⟩
  · have hyx : y = x := hserves he .outlet (by simp [PortRec.servedRole, hst]) hallow
    have hvcap : v = applyCap p e.outletCap x := by
      rw [← hv, hyx, applyLoweredCap, hentry]
      exact if_pos hcap
    have hgx : x.outlet.grants.find? (fun x => x.port == p) = some g := by rw [houtlet]; exact hg
    refine ⟨fun hcut => ?_, fun hkept => ?_⟩
    · have hcutEq : v = { announceCut (setGrant p (max 500 e.outletCap) x) (p, max 500 e.outletCap) with readmit := true } := by
        rw [hvcap, applyCap, hgx]
        exact if_pos ⟨hkind, hcut.1, hcut.2⟩
      rw [hcutEq]
      refine ⟨currentOf_setGrant hgx, rfl, noticeSet_setNotice_self _ _, fun hr => ?_⟩
      have hself := decideFrame_port_self p (.cut (max 500 e.outletCap)) (setGrant p (max 500 e.outletCap) x)
      have hown : ((setGrant p (max 500 e.outletCap) x).port p).restartOwed = false := by
        rw [show (setGrant p (max 500 e.outletCap) x).port p = x.port p from rfl, hport]
        exact hr
      rw [hown] at hself
      exact (congrArg PortRec.order hself) ▸ mem_placeFrame _ _
    · have hsame : v = x := by
        rw [hvcap, applyCap, hgx]
        exact if_neg fun ⟨_, hcut, hbase⟩ => hkept.elim (Nat.not_le.2 hcut) (Nat.not_le.2 hbase)
      rw [hsame]
      exact ⟨houtlet, hreadmit, hports⟩

end Sys2Proof.Machine
end

