-- ==== Sys2Proof/Proofs/DefaultVerdicts.lean ====
section
/-! PROOFS. The default verdicts of R186 and R188: one entry's, all of them at once, and the liveness expiry that applies them
(R206, R208). -/
namespace Sys2Proof.Machine

/-! ## A notice that is set stays set when a held frame is delivered -/

/-- Every notice of one event stands in the other. -/
def Tells (w v : Ev) : Prop := ∀ n, w.link.noticeSet n = true → v.link.noticeSet n = true

section
variable {w v u : Ev} {p : Port}

theorem Tells.refl (w : Ev) : Tells w w := fun _ => id
theorem Tells.trans (h : Tells w v) (k : Tells v u) : Tells w u := fun n hn => k n (h n hn)
theorem tells_of_link (h : v.link = w.link) : Tells w v := fun n hn => by rw [h]; exact hn
theorem tells_ite {c : Prop} [Decidable c] {a b : Ev} (ha : Tells w a) (hb : Tells w b) : Tells w (if c then a else b) := by
  split
  · exact ha
  · exact hb

theorem decideRestart_tells (p : Port) (w : Ev) : Tells w (decideRestart p w) := by
  by_cases h : (w.port p).state = .recovery
  · rw [decideRestart_of_recovery h]
    exact .refl _
  · exact (decideRestart_recovers h).1.notices

theorem welcomePartner_tells (p : Port) (cls : PartnerClass) (w : Ev) : Tells w (welcomePartner p cls w) := by
  by_cases hallow : (w.tables.port.get p).roles.allows (roleAsked cls) = true
  · rcases roleAsked_cases cls with hrole | hrole
    · exact tells_of_link (welcomeIntake_spec hallow hrole).2.2.1
    · exact (welcomeOutlet_spec hallow hrole).2.2.2.2.2
  · rw [welcomePartner_refused (by simpa using hallow)]
    exact (parkRefused_spec p .role w).2.2.2.2.2.1

theorem greetPartner_tells (p : Port) (a : Announcement) (d : Decision) (w : Ev) : Tells w (greetPartner p a d w) := by
  have hallow : ∀ cls cable, Tells w (welcomePartner p cls (recordPartner p cls cable a.tag w)) := fun cls cable =>
    welcomePartner_tells p cls (recordPartner p cls cable a.tag w)
  cases d with
  | deny => exact (parkRefused_spec p .denied (recordPartner p a.cls a.cable a.tag w)).2.2.2.2.2.1
  | amendAnnounce cls cable => exact hallow cls cable
  | allow => exact hallow a.cls a.cable
  | amendSheet _ => exact hallow a.cls a.cable
  | amendDraw _ => exact hallow a.cls a.cable

theorem clearOldPartner_tells (p : Port) (w : Ev) : Tells w (clearOldPartner p w) := fun n hn =>
  (clearNegotiation_cleared p (leaveHeld p (failExchange p .partnerRestart w))).notices n
    ((leaveHeld_leaves p _).notices n (failExchange_notices p _ w n hn))

theorem deliverAnnounce_tells (p : Port) (a : Announcement) (d : Decision) (w : Ev) : Tells w (deliverAnnounce p a d w) := by
  have hlater := (clearOldPartner_tells p w).trans (greetPartner_tells p a d (clearOldPartner p w))
  unfold deliverAnnounce
  split
  · exact greetPartner_tells p a d w
  iterate 9 exact hlater
  all_goals exact .refl w

theorem storeSheet_tells (p : Port) (ls : List Line) (w : Ev) : Tells w (storeSheet p ls w) := fun n =>
  noticeSet_setNotice n .sheetChanged (updPort p (fun r => { r with sheet := ls }) w)

theorem protectiveReaction_tells (p : Port) (w : Ev) : Tells w (protectiveReaction p w) := by
  cases hc : (w.port p).contract with
  | none =>
    unfold protectiveReaction
    rw [hc]
    exact .refl w
  | some c => exact (protectiveReaction_keeps hc).2.2.2.2.2

theorem deliverSheet_tells (p : Port) (ls : List Line) (w : Ev) : Tells w (deliverSheet p ls w) := by
  have hended : Tells w (endClaimBySheet p w) := by
    intro n hn
    unfold endClaimBySheet
    rw [enter_link, discardClaims, updPort_link, stopTimer, updPort_link, dropClaim_link]
    exact failExchange_notices p _ w n hn
  unfold deliverSheet
  split
  · exact (storeSheet_tells p ls w).trans (tells_of_link (by rw [enter_link]; rfl))
  · exact storeSheet_tells p ls w
  · exact storeSheet_tells p ls w
  · have hstored : Tells w (storeSheet p ls (endClaimBySheet p w)) :=
      hended.trans (storeSheet_tells p ls _)
    exact tells_ite (hstored.trans (protectiveReaction_tells p _)) hstored
  · exact Tells.trans (fun n hn => failExchange_notices p _ w n hn) (decideRestart_tells p _)
  · exact (storeSheet_tells p ls w).trans (protectiveReaction_tells p _)
  all_goals exact .refl w

theorem deliverDraw_tells (p : Port) (i : Nat) (w : Ev) : Tells w (deliverDraw p i w) := by
  have hdraw : (decideDraw p i w).link = w.link := by
    unfold decideDraw
    dsimp only
    split
    · split <;> rfl
    · rfl
  exact tells_ite (tells_of_link hdraw) (.refl w)

theorem denyDraw_tells (p : Port) (w : Ev) : Tells w (denyDraw p w) := tells_ite (.refl w) (.refl w)

theorem deliverDecision_tells (e : TrapEntry) (d : Decision) (w : Ev) : Tells w (deliverDecision e d w) := by
  unfold deliverDecision
  split
  · exact deliverAnnounce_tells _ _ _ w
  · split
    · exact deliverSheet_tells _ _ w
    · exact deliverSheet_tells _ _ w
    · exact tells_ite (.refl w) (deliverSheet_tells _ _ w)
  · split
    · exact deliverSheet_tells _ _ w
    · exact deliverSheet_tells _ _ w
    · exact tells_ite (.refl w) (deliverSheet_tells _ _ w)
  · split
    · exact denyDraw_tells _ w
    · exact deliverDraw_tells _ _ w
    · exact deliverDraw_tells _ _ w
  · exact .refl w

end

/-! ## The default verdict of one entry (R186) -/

theorem applyDefault_tells (e : TrapEntry) (w : Ev) : Tells w (applyDefault w e) :=
  deliverDecision_tells e _ (removeTag e.tag w)

theorem applyDefault_rest (w : Ev) (e : TrapEntry) : (applyDefault w e).rest
    = { w.rest with traps := { w.traps with queue := w.traps.queue.filter (·.tag != e.tag) } } :=
  deliverDecision_rest e _ (removeTag e.tag w)

theorem applyDefault_queue (w : Ev) (e : TrapEntry) :
    (applyDefault w e).traps.queue = w.traps.queue.filter (·.tag != e.tag) :=
  congrArg (fun r => r.traps.queue) (applyDefault_rest w e)

/-- The default verdict by the kind of its entry (R185, R186). -/
theorem applyDefault_eq (w : Ev) (e : TrapEntry) :
    let v : Ev := { w with traps := { w.traps with queue := w.traps.queue.filter (·.tag != e.tag) } }
    let allow : Bool := (w.tables.port.get e.port).verdict == .allow
    applyDefault w e = match e.kind with
      | .announce => deliverAnnounce e.port (decodeAnnounce e.payload) (if allow then .allow else .deny) v
      | .offers | .resheet =>
        if allow && e.early then v else deliverSheet e.port (if allow then decodeSheet e.payload else []) v
      | .draw => if allow then deliverDraw e.port (decodeDraw e.payload) v else denyDraw e.port v
      | .openRange _ => v := by
  intro v allow
  have happly : applyDefault w e = deliverDecision e (defaultDecision (w.tables.port.get e.port).verdict) v := rfl
  rw [happly]
  cases hverdict : (w.tables.port.get e.port).verdict with
  | allow =>
    have hallow : allow = true := by simp [allow, hverdict]
    rw [hallow]
    unfold deliverDecision
    cases e.kind <;> rfl
  | deny =>
    have hallow : allow = false := by simp [allow, hverdict]
    rw [hallow]
    unfold deliverDecision
    cases e.kind <;> rfl

/-! ## The whole queue (R188) -/

theorem held_eq_nil {t : TrapUnit} (h : ∀ e ∈ t.queue, e.mode = .copy) : t.held = [] :=
  List.filter_eq_nil_iff.2 fun e he => by simp [h e he]

/-- A queue of COPY entries is emptied without effect. -/
theorem flushTraps_copies {w : Ev} (h : ∀ e ∈ w.traps.queue, e.mode = .copy) :
    flushTraps w = { w with traps := { w.traps with queue := [] } } := by
  simp [flushTraps, held_eq_nil h]

/-- In a queue of unique tags the removal of one entry's tag removes that entry alone. -/
theorem filter_tag {older newer : List TrapEntry} {e : TrapEntry} (h : ((older ++ e :: newer).map (·.tag)).Nodup) :
    (older ++ e :: newer).filter (·.tag != e.tag) = older ++ newer := by
  simp only [List.map_append, List.map_cons, List.nodup_append, List.nodup_cons, List.mem_map, List.mem_cons] at h
  obtain ⟨-, ⟨hnewer, -⟩, holder⟩ := h
  rw [List.filter_append, List.filter_cons_of_neg (by simp), List.filter_eq_self.2, List.filter_eq_self.2]
  · exact fun x hx => by simpa using fun he => hnewer ⟨x, hx, he⟩
  · exact fun x hx => by simpa using holder _ ⟨x, hx, rfl⟩ _ (.inl rfl)

/-- The oldest HOLD entry is decided first; the others as if it had never been. -/
theorem flushTraps_oldest {w : Ev} {older newer : List TrapEntry} {e : TrapEntry} (hq : w.traps.queue = older ++ e :: newer)
    (hcopies : ∀ x ∈ older, x.mode = .copy) (he : e.mode = .hold) (hn : (w.traps.queue.map (·.tag)).Nodup) :
    flushTraps w = flushTraps (applyDefault w e) ∧ (applyDefault w e).traps.queue = older ++ newer := by
  have hqueue : (applyDefault w e).traps.queue = older ++ newer := by
    rw [applyDefault_queue, hq]
    exact filter_tag (hq ▸ hn)
  have holder : older.filter (·.mode == .hold) = [] := List.filter_eq_nil_iff.2 fun x hx => by simp [hcopies x hx]
  have hheld : w.traps.held = e :: (applyDefault w e).traps.held := by
    rw [TrapUnit.held, TrapUnit.held, hqueue, hq, List.filter_append, List.filter_append, holder,
      List.filter_cons_of_pos (by simp [he])]
    rfl
  exact ⟨by simp only [flushTraps, hheld, List.foldl_cons], hqueue⟩

theorem foldl_applyDefault (es : List TrapEntry) (w : Ev) : Tells w (es.foldl applyDefault w)
    ∧ ∃ q, (es.foldl applyDefault w).rest = { w.rest with traps := ⟨q, w.traps.nextTag⟩ } := by
  induction es generalizing w with
  | nil => exact ⟨.refl w, w.traps.queue, rfl⟩
  | cons e es ih =>
    obtain ⟨htells, q, hrest⟩ := ih (applyDefault w e)
    have hfirst := applyDefault_rest w e
    have htag : (applyDefault w e).traps.nextTag = w.traps.nextTag := congrArg (fun r => r.traps.nextTag) hfirst
    refine ⟨(applyDefault_tells e w).trans htells, q, ?_⟩
    rw [List.foldl_cons, hrest, hfirst, htag]

/-- What the emptying of the queue leaves beside ports, feeds, controller and outlet. -/
theorem flushTraps_rest (w : Ev) : Tells w (flushTraps w)
    ∧ (flushTraps w).rest = { w.rest with traps := { w.traps with queue := [] } } := by
  obtain ⟨htells, q, hrest⟩ := foldl_applyDefault w.traps.held w
  refine ⟨htells, ?_⟩
  show ({ (w.traps.held.foldl applyDefault w).rest with
    traps := ⟨[], (w.traps.held.foldl applyDefault w).traps.nextTag⟩ } : Rest) = _
  rw [show (w.traps.held.foldl applyDefault w).traps.nextTag = w.traps.nextTag from congrArg (fun r => r.traps.nextTag) hrest, hrest]

/-! ## The liveness expiry (R206, R208) -/

/-- The link of a part that the liveness expiry has made unattended, its notice set. -/
def Link.unattended (l : Link) : Link :=
  { l with mode := .unattended, liveness := .stopped, notices := l.notices ||| noticeMask .livenessLost }

theorem exec_livenessTimerExpiry {s : State} (hs : s.running = true) (hm : s.link.mode = .attended)
    (hl : s.link.liveness = .running 0) : exec .livenessTimerExpiry s
      = .next (closeEvent (raiseTrigger (trimForCeiling (flushTraps (Ev.start (s.withLink Link.unattended)))))) := by
  have hact : expireLiveness (Ev.start s)
      = raiseTrigger (trimForCeiling (flushTraps (Ev.start (s.withLink Link.unattended)))) :=
    if_pos ⟨by simp [State.attended, hm], by simp [hl, Timer.expired]⟩
  rw [← hact]
  exact takeEvent_running hs expireLiveness

/-- Settles O15. -/
theorem livenessExpiryUnattends : Obligations.LivenessExpiryUnattends := by
  refine ⟨fun s hs hm hl => ?_, fun w => ⟨flushTraps_copies, fun _ _ _ => flushTraps_oldest, applyDefault_eq w⟩,
    fun _ _ hs => execTrapDeadline hs⟩
  obtain ⟨htells, hrest⟩ := flushTraps_rest (Ev.start (s.withLink Link.unattended))
  have hlost : (Ev.start (s.withLink Link.unattended)).link.noticeSet .livenessLost = true :=
    noticeSet_setNotice_self .livenessLost (Ev.start s)
  have hexec := exec_livenessTimerExpiry hs hm hl
  generalize hv : flushTraps (Ev.start (s.withLink Link.unattended)) = v at *
  have hlink : v.link = { s.link.unattended with notices := v.link.notices } :=
    congrArg (fun r => { r.link with notices := v.link.notices }) hrest
  have htables : v.tables = s.tables := congrArg (fun r => r.tables) hrest
  have hfactory : v.factory = s.factory := congrArg (fun r => r.factory) hrest
  have htime : v.time = s.time := congrArg (fun r => r.time) hrest
  have htraps : v.traps = { s.traps with queue := [] } := congrArg (fun r => r.traps) hrest
  have hceiling : v.effectiveCeiling = s.factoryValues.fallbackCeiling := by
    have hmode : v.link.mode = .unattended := congrArg (·.mode) hlink
    simp [State.effectiveCeiling, State.attended, hmode, State.factoryValues, hfactory]
  have htrims := trimForCeiling_trimsTo v
  obtain ⟨fs, c, htrim⟩ := trimForCeiling_feedsOnly v
  rw [hceiling, htrim] at htrims
  rw [htrim] at hexec
  refine ⟨_, hexec, rfl, ?_, ?_, htells _ hlost, ?_, ?_, htables, htime, ?_, ?_⟩
  · exact congrArg (·.mode) hlink
  · exact congrArg (·.liveness) hlink
  · exact congrArg (·.queue) htraps
  · exact congrArg (·.nextTag) htraps
  · exact congrArg (·.held) hlink
  · subst hv
    refine ⟨htrims, rfl, rfl, fun hall => ?_⟩
    rw [flushTraps_copies hall]
    exact ⟨rfl, rfl, rfl⟩

end Sys2Proof.Machine
end

