-- ==== Sys2Proof/Proofs/ReadBacks.lean ====
section
/-! PROOFS. A burn read back (R213, R214): the caps it lowers, the ports it restarts, the trim and the trigger. -/
namespace Sys2Proof.Machine

/-! ## Lowered caps (R151) -/

/-- What a cap lowered on one port leaves: feeds and controller, and of every port all but its waiting frames. -/
structure CapsLowered (w v : Ev) : Prop where
  port : ∀ p, ∃ o, v.port p = { w.port p with order := o }
  feeds : v.feeds = w.feeds
  control : v.control = w.control
  tells : Tells w v

theorem CapsLowered.refl (w : Ev) : CapsLowered w w := ⟨fun _ => ⟨_, rfl⟩, rfl, rfl, .refl w⟩

theorem CapsLowered.trans {u v w : Ev} (h : CapsLowered u v) (k : CapsLowered v w) : CapsLowered u w := by
  refine ⟨fun p => ?_, k.feeds.trans h.feeds, k.control.trans h.control, h.tells.trans k.tells⟩
  obtain ⟨o, ho⟩ := h.port p
  obtain ⟨o', ho'⟩ := k.port p
  exact ⟨o', by rw [ho', ho]⟩

theorem applyLoweredCap_lowers (old : PerPort PortEntry) (w : Ev) (p : Port) : CapsLowered w (applyLoweredCap old w p) := by
  unfold applyLoweredCap
  dsimp only
  split
  · rcases applyCap_spec p (w.tables.port.get p).outletCap w with h | ⟨g, -, -, -, -, h⟩
    · rw [h]
      exact .refl w
    · rw [h]
      generalize max 500 (w.tables.port.get p).outletCap = i
      refine ⟨fun q => ?_, rfl, rfl, fun n => noticeSet_setNotice n .outletCut (decideFrame p (.cut i) (setGrant p i w))⟩
      by_cases hq : q = p
      · subst hq
        exact ⟨_, decideFrame_port_self q (.cut i) (setGrant q i w)⟩
      · exact ⟨_, decideFrame_port_of_ne hq (.cut i) (setGrant p i w)⟩
  · exact .refl w

theorem lowerCaps (old : PerPort PortEntry) (ps : List Port) (w : Ev) : CapsLowered w (ps.foldl (applyLoweredCap old) w) := by
  induction ps generalizing w with
  | nil => exact .refl w
  | cons p ps ih => exact (applyLoweredCap_lowers old w p).trans (ih _)

/-! ## The restart of a port above the new ceiling (R214 step 3) -/

/-- What the restart of one port leaves of the other ports, the feeds and the rest. -/
structure RestartsOne (q : Port) (w v : Ev) : Prop where
  others : ∀ p, p ≠ q → (w.port p).poolTouched (w.outlet.hasEntry p) (v.port p)
  entries : ∀ p, v.outlet.hasEntry p = true → w.outlet.hasEntry p = true
  feeds : ∀ f, f ≠ feedOf q → v.feed f = w.feed f
  closed : ∀ p, p ≠ q → w.closedOn p = true →
    v.closedOn p = true ∧ (v.feed (feedOf p)).state = (w.feed (feedOf p)).state
  exchange : ∀ p, p ≠ q → w.exchangeOn p = true → v.exchangeOn p = true
  trim : v.control.trim = w.control.trim
  trig : w.trig = true → v.trig = true
  tells : Tells w v

theorem RestartsOne.refl (q : Port) (w : Ev) : RestartsOne q w w :=
  ⟨fun _ _ => poolTouched_refl _ _, fun _ => id, fun _ _ => rfl, fun _ _ h => ⟨h, rfl⟩, fun _ _ => id, rfl, id, .refl w⟩

/-- A switch closed on one port is closed on no other port of the feed. -/
theorem closedOn_of_ne {s : State} {p q : Port} (h : s.closedOn p = true) (hf : feedOf q = feedOf p) (hq : q ≠ p) :
    s.closedOn q = false := by
  rw [← Bool.not_eq_true, closedOn_iff, hf, ((closedOn_iff s p).1 h).2]
  exact fun ⟨_, k⟩ => hq (Option.some.inj k).symm

theorem exchangeOn_congr {s t : State} (h : t.control = s.control) (p : Port) : t.exchangeOn p = s.exchangeOn p := by
  simp only [State.exchangeOn, State.inFlight, h]

theorem failThenRestart_one (q : Port) (w : Ev) : RestartsOne q w (decideRestart q (failExchange q .commanded w)) := by
  have hother : ∀ p, p ≠ q → (failExchange q .commanded w).port p = w.port p := fun p hp => failExchange_port_of_ne q _ w hp
  have hexchange : ∀ p, p ≠ q → w.exchangeOn p = true → failExchange q .commanded w = w ∧ w.closeStepOn q = false :=
    fun p hp h => ⟨failExchange_of_off (exchangeOn_of_ne h (Ne.symm hp)) _, closeStepOn_of_exchangeOn h q⟩
  have htells : Tells w (failExchange q .commanded w) := fun n hn => failExchange_notices q _ w n hn
  by_cases hst : ((failExchange q .commanded w).port q).state = .recovery
  · rw [decideRestart_of_recovery hst]
    refine ⟨fun p hp => ?_, fun p h => ?_, fun f _ => ?_, fun p _ h => ?_, fun p hp h => ?_, ?_, fun _ => rfl, htells⟩
    · rw [raiseTrigger_port, updPort_port_of_ne _ _ hp, hother p hp]
      exact poolTouched_refl _ _
    · rwa [raiseTrigger_outlet, updPort_outlet, failExchange_outlet] at h
    · exact failExchange_feed q _ w f
    · exact ⟨(failExchange_closedOn q _ w p).trans h, congrArg (·.state) (failExchange_feed q _ w (feedOf p))⟩
    · rw [(hexchange p hp h).1]
      exact h
    · exact failExchange_trim q _ w
  · obtain ⟨hrec, -⟩ := decideRestart_recovers hst
    refine ⟨fun p hp => ?_, fun p h => ?_, fun f hf => ?_, fun p hp h => ?_, fun p hp h => ?_, ?_, fun h => ?_,
      htells.trans hrec.notices⟩
    · rw [← hother p hp, ← failExchange_outlet q .commanded w]
      exact hrec.others p hp
    · have := hrec.entries p h
      rwa [failExchange_outlet] at this
    · rw [hrec.feeds f hf, failExchange_feed]
    · rw [← failExchange_closedOn q .commanded w p] at h
      rw [← failExchange_feed q .commanded w (feedOf p)]
      by_cases hf : feedOf q = feedOf p
      · have hopened := hrec.opened (closedOn_of_ne h hf (Ne.symm hp)) (closeChecking_of_closedOn h hf).1
        rw [hf] at hopened
        rw [hopened]
        exact ⟨(closedOn_congr (by rw [hopened]; rfl) (by rw [hopened])).trans h, rfl⟩
      · have hfeed := hrec.feeds (feedOf p) (Ne.symm hf)
        exact ⟨(closedOn_congr (by rw [hfeed]) (by rw [hfeed])).trans h, by rw [hfeed]⟩
    · obtain ⟨hsame, hclose⟩ := hexchange p hp h
      rw [hsame] at hrec ⊢
      rw [exchangeOn_congr (hrec.quiet (.inl hclose)).1, h]
    · rw [hrec.trim, failExchange_trim]
    · exact hrec.trig (failExchange_trig_mono h)

section
variable {p q : Port} {s : State} {w v : Ev}

theorem restartAbove_one (q : Port) (w : Ev) : RestartsOne q w (restartAbove w q) := by
  unfold restartAbove
  split
  · exact failThenRestart_one q w
  · exact .refl q w

theorem restartAbove_below (h : (w.port q).aboveCeiling w.factoryValues.portCurrent = false) : restartAbove w q = w :=
  if_neg (by simp [h])

theorem poolTouched_above {entry : Bool} {r r' : PortRec} (h : r.poolTouched entry r') (n : Nat) :
    r'.aboveCeiling n = r.aboveCeiling n := by
  obtain ⟨⟨st, pr, o, rfl, -⟩, -⟩ := h
  rfl

theorem factoryValues_of_rest (h : v.rest = w.rest) : v.factoryValues = w.factoryValues :=
  congrArg Factory.values (factory_of_rest h)

/-- A port that is yet to be restarted: as the burn found it but for its waiting frames and what the pool did. -/
structure AwaitsRestart (p : Port) (s : State) (w : Ev) : Prop where
  contract : (w.port p).contract = (s.port p).contract
  claim : (w.port p).claim = (s.port p).claim
  state : (w.port p).state ≠ .recovery
  closed : s.closedOn p = true → w.closedOn p = true
  exchange : s.exchangeOn p = true → w.exchangeOn p = true

/-- A port that the burn has restarted. -/
structure RestartedByBurn (p : Port) (s : State) (w : Ev) : Prop where
  port : (w.port p).state = .recovery ∧ (w.port p).contract = none ∧ (w.port p).claim = none
  entry : w.outlet.hasEntry p = false
  trig : w.trig = true
  ended : (s.port p).contract.isSome = true → s.closedOn p = true →
    w.closedOn p = true ∧ (w.feed (feedOf p)).state = .base ∧ w.link.noticeSet .contractChanged = true
  failed : s.exchangeOn p = true → w.link.noticeSet .stepFailed = true ∧ (w.port p).lastFailure = .commanded

theorem AwaitsRestart.other (h : AwaitsRestart p s w) (k : RestartsOne q w v) (hpq : p ≠ q) : AwaitsRestart p s v := by
  obtain ⟨⟨st, pr, o, hport, -, hst⟩, -⟩ := k.others p hpq
  rw [← show (v.port p).state = st by rw [hport]] at hst
  refine ⟨by rw [hport]; exact h.contract, by rw [hport]; exact h.claim, fun he => ?_, fun hc => (k.closed p hpq (h.closed hc)).1,
    fun hon => k.exchange p hpq (h.exchange hon)⟩
  rcases hst with hst | hst
  · exact h.state (hst.symm.trans he)
  · rw [he] at hst
    cases hst

theorem RestartedByBurn.other (h : RestartedByBurn p s w) (k : RestartsOne q w v) (hpq : p ≠ q) : RestartedByBurn p s v := by
  have hport : v.port p = w.port p := (k.others p hpq).2.1 h.entry
  refine ⟨by rw [hport]; exact h.port, ?_, k.trig h.trig, fun hk hc => ?_, fun hon => ?_⟩
  · rw [← Bool.not_eq_true]
    exact fun he => absurd (h.entry.symm.trans (k.entries p he)) (by decide)
  · obtain ⟨hclosed, hstate, hnotice⟩ := h.ended hk hc
    obtain ⟨hclosed', hstate'⟩ := k.closed p hpq hclosed
    exact ⟨hclosed', hstate'.trans hstate, k.tells _ hnotice⟩
  · obtain ⟨hnotice, hlast⟩ := h.failed hon
    exact ⟨k.tells _ hnotice, by rw [hport, hlast]⟩

/-- A port's own turn. -/
theorem AwaitsRestart.restart (h : AwaitsRestart p s w)
    (habove : (s.port p).aboveCeiling w.factoryValues.portCurrent = true) : RestartedByBurn p s (restartAbove w p) := by
  have hact : restartAbove w p = decideRestart p (failExchange p .commanded w) := by
    refine if_pos ?_
    rw [PortRec.aboveCeiling, h.contract, h.claim]
    exact habove
  obtain ⟨hrec, htrig, hstep⟩ := failThenRestart_spec (r := .commanded) h.state
  rw [hact]
  refine ⟨by rw [hrec.port]; exact ⟨rfl, rfl, rfl⟩, hrec.entry, htrig, fun hk hc => ?_, fun hon => ?_⟩
  · have hk' : ((failExchange p .commanded w).port p).contract.isSome = true := by
      rw [failExchange_port_self, h.contract, hk]
    obtain ⟨hclosed, -, -, -, -, hgone⟩ := hrec.closedFeed ((failExchange_closedOn p _ w p).trans (h.closed hc))
    exact ⟨hclosed, (hgone hk').1, hrec.notice hk'⟩
  · obtain ⟨hnotice, hlast, -⟩ := hstep (h.exchange hon)
    exact ⟨hnotice, hlast⟩

end

/-! ## All four ports (R214 step 3) -/

section
variable {p : Port} {s : State}

theorem foldl_restarted (ps : List Port) (hp : p ∉ ps) {w : Ev} (h : RestartedByBurn p s w) :
    RestartedByBurn p s (ps.foldl restartAbove w) := by
  induction ps generalizing w with
  | nil => exact h
  | cons q ps ih =>
    simp only [List.mem_cons, not_or] at hp
    exact ih hp.2 (h.other (restartAbove_one q w) hp.1)

theorem foldl_restarts (ps : List Port) (hn : ps.Nodup) (hp : p ∈ ps) {w : Ev} (h : AwaitsRestart p s w)
    (habove : (s.port p).aboveCeiling w.factoryValues.portCurrent = true) :
    RestartedByBurn p s (ps.foldl restartAbove w) := by
  induction ps generalizing w with
  | nil => cases hp
  | cons q ps ih =>
    obtain ⟨hq, hn⟩ := List.nodup_cons.1 hn
    by_cases hpq : p = q
    · subst hpq
      exact foldl_restarted ps hq (h.restart habove)
    · refine ih hn ((List.mem_cons.1 hp).resolve_left hpq) (h.other (restartAbove_one q w) hpq) ?_
      rw [factoryValues_of_rest (restartAbove_rest w q)]
      exact habove

/-- The turn of any port leaves a port below the ceiling below it. -/
theorem restartAbove_keeps_below {w : Ev} (q : Port)
    (h : (w.port p).aboveCeiling w.factoryValues.portCurrent = false) :
    ((restartAbove w q).port p).aboveCeiling (restartAbove w q).factoryValues.portCurrent = false := by
  rw [factoryValues_of_rest (restartAbove_rest w q)]
  by_cases hpq : p = q
  · subst hpq
    rw [restartAbove_below h, h]
  · rw [poolTouched_above ((restartAbove_one q w).others p hpq), h]

/-- A feed none of whose ports stands above the ceiling is left alone. -/
theorem foldl_restartAbove_feed (ps : List Port) {w : Ev} {f : Feed}
    (h : ∀ p, feedOf p = f → (w.port p).aboveCeiling w.factoryValues.portCurrent = false) :
    (ps.foldl restartAbove w).feed f = w.feed f := by
  induction ps generalizing w with
  | nil => rfl
  | cons q ps ih =>
    rw [List.foldl_cons, ih (fun p hp => restartAbove_keeps_below q (h p hp))]
    by_cases hq : f = feedOf q
    · rw [restartAbove_below (h q hq.symm)]
    · exact (restartAbove_one q w).feeds f hq

/-- With no port above the ceiling nothing is done. -/
theorem foldl_restartAbove_below (ps : List Port) {w : Ev}
    (h : ∀ p, (w.port p).aboveCeiling w.factoryValues.portCurrent = false) : ps.foldl restartAbove w = w := by
  induction ps with
  | nil => rfl
  | cons q ps ih => rw [List.foldl_cons, restartAbove_below (h q), ih]

theorem foldl_restartAbove_stands (ps : List Port) (w : Ev) : (ps.foldl restartAbove w).control.trim = w.control.trim
    ∧ (w.trig = true → (ps.foldl restartAbove w).trig = true) ∧ (ps.foldl restartAbove w).rest = w.rest := by
  refine ⟨?_, ?_, foldl_rest _ restartAbove_rest ps w⟩
  · induction ps generalizing w with
    | nil => rfl
    | cons q ps ih => exact (ih _).trans (restartAbove_one q w).trim
  · induction ps generalizing w with
    | nil => exact id
    | cons q ps ih => exact fun h => ih _ ((restartAbove_one q w).trig h)

end

/-! ## The burn read back (R213, R214) -/

theorem readBack_good (c : FactoryContent) :
    Factory.readBack c false = ⟨.written, .holding c (crc8 (contentBytes c)), none⟩ := by
  simp [Factory.readBack, Cells.recordState]

theorem readBack_bad (c : FactoryContent) : Factory.readBack c true = ⟨.damaged, .damaged, none⟩ := by
  simp [Factory.readBack, Cells.recordState]

theorem storeTables_lowers (t : Tables) (w : Ev) : CapsLowered w (storeTables t w) := by
  unfold storeTables
  dsimp only
  split
  · exact { CapsLowered.refl w with }
  · exact { CapsLowered.refl w with }

/-- The state of a record read back, and after steps 1 and 2 the tables under it and the caps lowered. -/
def State.recordRead (s : State) (c : FactoryContent) : Ev := { Ev.start s with factory := Factory.readBack c false }
def State.capsUnder (s : State) (c : FactoryContent) : Ev :=
  allPorts.foldl (applyLoweredCap s.tables.port) (storeTables (s.tables.under c) (s.recordRead c))

section
variable (c : FactoryContent) (s : State)

theorem recordRead_rest : (s.recordRead c).rest = { s.rest with factory := Factory.readBack c false } := by
  unfold State.recordRead
  generalize Factory.readBack c false = f
  rfl

theorem capsUnder_lowers : CapsLowered (s.recordRead c) (s.capsUnder c) :=
  (storeTables_lowers _ _).trans (lowerCaps _ _ _)

theorem capsUnder_rest : (s.capsUnder c).rest
    = { s.rest with factory := Factory.readBack c false, tables := s.tables.under c } := by
  rw [State.capsUnder, foldl_rest _ (applyLoweredCap_rest s.tables.port), storeTables_rest, recordRead_rest]

theorem recordRead_values : (s.recordRead c).factoryValues = c := by
  rw [State.factoryValues, State.recordRead, readBack_good]
  rfl

theorem capsUnder_values : (s.capsUnder c).factoryValues = c :=
  (congrArg (fun r => r.factory.values) (capsUnder_rest c s)).trans (recordRead_values c s)

theorem recordRead_kept : (s.recordRead c).control = s.control ∧ (s.recordRead c).feeds = s.feeds
    ∧ (s.recordRead c).ports = s.ports ∧ (s.recordRead c).tables = s.tables := by
  unfold State.recordRead
  generalize Factory.readBack c false = f
  exact ⟨rfl, rfl, rfl, rfl⟩

theorem capsUnder_kept : (s.capsUnder c).control = s.control ∧ (s.capsUnder c).feeds = s.feeds :=
  ⟨(capsUnder_lowers c s).control.trans (recordRead_kept c s).1, (capsUnder_lowers c s).feeds.trans (recordRead_kept c s).2.1⟩

theorem capsUnder_port (p : Port) : ∃ o, (s.capsUnder c).port p = { s.port p with order := o } := by
  obtain ⟨o, hport⟩ := (capsUnder_lowers c s).port p
  exact ⟨o, hport.trans (by rw [State.port, (recordRead_kept c s).2.2.1]; rfl)⟩

theorem capsUnder_closedOn (p : Port) : (s.capsUnder c).closedOn p = s.closedOn p := by
  simp only [State.closedOn, State.feed, (capsUnder_kept c s).2]

/-- Every port awaits its restart when step 3 begins. -/
theorem capsUnder_awaits {p : Port} (h : (s.port p).state ≠ .recovery) : AwaitsRestart p s (s.capsUnder c) := by
  obtain ⟨o, hport⟩ := capsUnder_port c s p
  refine ⟨by rw [hport], by rw [hport], by rw [hport]; exact h, fun hc => (capsUnder_closedOn c s p).trans hc,
    fun hon => ?_⟩
  rw [exchangeOn_congr (s := s) (capsUnder_kept c s).1, hon]

theorem capsUnder_above (p : Port) (n : Nat) : ((s.capsUnder c).port p).aboveCeiling n = (s.port p).aboveCeiling n := by
  obtain ⟨o, hport⟩ := capsUnder_port c s p
  rw [hport]
  rfl

theorem readBackBurn_bad {c : FactoryContent} {s : State} (hb : s.factory.burn = some ⟨c, .running 0⟩) :
    readBackBurn true (Ev.start s) = { Ev.start s with factory := ⟨.damaged, .damaged, none⟩ } := by
  simp [readBackBurn, hb, Timer.expired, readBack_bad]

theorem readBackBurn_good {c : FactoryContent} {s : State} (hb : s.factory.burn = some ⟨c, .running 0⟩) :
    readBackBurn false (Ev.start s) =
      if s.factoryValues.selectionDiffers c then raiseTrigger (trimForCeiling (allPorts.foldl restartAbove (s.capsUnder c)))
      else trimForCeiling (allPorts.foldl restartAbove (s.capsUnder c)) := by
  have hread : readBackBurn false (Ev.start s) = putInForce s.factoryValues (s.recordRead c) := by
    simp [readBackBurn, hb, Timer.expired, State.recordRead, readBack_good]
  have hvalues : (trimForCeiling (allPorts.foldl restartAbove (s.capsUnder c))).factoryValues = c := by
    rw [factoryValues_of_rest (trimForCeiling_feedsOnly _).rest_eq,
      factoryValues_of_rest (foldl_restartAbove_stands allPorts _).2.2, capsUnder_values]
  rw [hread]
  unfold putInForce
  dsimp only
  rw [recordRead_values, (recordRead_kept c s).2.2.2]
  show (if s.factoryValues.selectionDiffers (trimForCeiling (allPorts.foldl restartAbove (s.capsUnder c))).factoryValues
    then raiseTrigger (trimForCeiling (allPorts.foldl restartAbove (s.capsUnder c)))
    else trimForCeiling (allPorts.foldl restartAbove (s.capsUnder c))) = _
  rw [hvalues]

end

theorem mem_allPorts (p : Port) : p ∈ allPorts := by cases p <;> decide

/-- Settles O53. -/
theorem burnReadBackPutsTheRecordInForce : Obligations.BurnReadBackPutsTheRecordInForce := by
  intro c s hs hb
  refine ⟨?_, ?_⟩
  · refine (takeEvent_running hs (readBackBurn true)).trans ?_
    rw [readBackBurn_bad hb, closeEvent_quiet rfl rfl rfl]
    rfl
  have hexec : exec (.burnReadBack false) s = .next (closeEvent (readBackBurn false (Ev.start s))) :=
    takeEvent_running hs (readBackBurn false)
  have hawaits := fun p => capsUnder_awaits (p := p) c s
  have habove := capsUnder_above c s
  have hvalues := capsUnder_values c s
  obtain ⟨hcontrol, hufeeds⟩ := capsUnder_kept c s
  have hrest := capsUnder_rest c s
  rw [readBackBurn_good hb] at hexec
  generalize s.capsUnder c = u at *
  have hrestarts := fun p => foldl_restarts (p := p) (s := s) allPorts (by decide) (mem_allPorts p) (w := u)
  rw [hvalues] at hrestarts
  obtain ⟨htrim, -, hxrest⟩ := foldl_restartAbove_stands allPorts u
  have hxfeed := fun f => foldl_restartAbove_feed allPorts (w := u) (f := f)
  have hxbelow := foldl_restartAbove_below allPorts (w := u)
  simp only [hvalues, habove] at hxfeed hxbelow
  generalize allPorts.foldl restartAbove u = x at *
  rw [hrest] at hxrest
  have hxtables : x.tables = s.tables.under c := congrArg (fun r => r.tables) hxrest
  have hxfactory : x.factory = Factory.readBack c false := congrArg (fun r => r.factory) hxrest
  have hxtime : x.time = s.time := congrArg (fun r => r.time) hxrest
  have hxsense : x.sense = s.sense := congrArg (fun r => r.sense) hxrest
  have hxwatches : x.watches = s.watches := congrArg (fun r => r.watches) hxrest
  have hxmode : x.link.mode = s.link.mode := congrArg (fun r => r.link.mode) hxrest
  have hxvalues : x.factoryValues = c := (congrArg (fun r => r.factory.values) hxrest).trans (recordRead_values c s)
  have htrims := trimForCeiling_trimsTo x
  obtain ⟨fs, k, hfeeds⟩ := trimForCeiling_feedsOnly x
  have hceiling : x.effectiveCeiling
      = if s.link.mode = .attended then (s.tables.under c).budget.ceiling else c.fallbackCeiling := by
    simp [State.effectiveCeiling, State.attended, hxmode, hxtables, hxvalues]
  rw [hceiling] at htrims
  rw [hfeeds] at htrims hexec
  have hevent : ∃ t : Bool, (s.factoryValues.selectionDiffers c = true → t = true) ∧ (x.trig = true → t = true)
      ∧ exec (.burnReadBack false) s = .next (closeEvent { x with feeds := fs, control := k, trig := t }) := by
    split at hexec
    · exact ⟨true, fun _ => rfl, fun _ => rfl, hexec⟩
    · rename_i hno
      exact ⟨x.trig, fun h => absurd h hno, id, hexec⟩
  obtain ⟨t, hdiffers, htrig, hexec⟩ := hevent
  refine ⟨_, hexec, hxfactory.trans (readBack_good c), hxvalues, hxtables, fun p hp hst => ?_, hdiffers,
    ⟨x.toState, rfl, ?_, ?_, fun f hf => ?_, fun hall => ?_, fun p hp hst => ?_⟩, hxtime, hxsense, hxwatches⟩
  · have hdone := hrestarts p (hawaits p hst) hp
    obtain ⟨h1, h2, h3⟩ := hdone.port
    exact ⟨h1, h2, h3, htrig hdone.trig⟩
  · rw [htrim, hcontrol]
  · show x.toState.trimsTo (x.ceilingTrim (if s.link.mode = .attended then x.tables.budget.ceiling else _)) _
    rw [hxtables]
    exact htrims
  · rw [hxfeed f hf, State.feed, hufeeds]
    rfl
  · rw [hxbelow hall, hcontrol]
  · have hdone := hrestarts p (hawaits p hst) hp
    exact ⟨fun hk hc => ⟨(hdone.ended hk hc).2.1, (hdone.ended hk hc).2.2⟩, hdone.failed⟩

end Sys2Proof.Machine
end

