-- ==== Sys2Proof/Proofs/RestoredTables.lean ====
section
/-! PROOFS. What the restored tables of a policy restart bring about (R218 step 3): disabled ports enabled, the pool computed
again, caps lowered, roles permitted. -/
namespace Sys2Proof.Machine

/-! ## The shrink parks with reason POOL alone (R152) -/

/-- A port's state and park reason stand, or the port was parked with reason POOL. -/
def Parks (w v : Ev) : Prop := ∀ q, ((v.port q).state = (w.port q).state ∧ (v.port q).parkReason = (w.port q).parkReason)
  ∨ ((v.port q).state = .parked ∧ (v.port q).parkReason = some .pool)

section
variable {u v w : Ev}

theorem Parks.of_ports (h : ∀ q, v.port q = w.port q) : Parks w v := fun q => .inl (by rw [h q]; exact ⟨rfl, rfl⟩)
theorem Parks.trans (h : Parks u v) (k : Parks v w) : Parks u w := fun q => by
  rcases k q with ⟨h1, h2⟩ | hk
  · rw [h1, h2]
    exact h q
  · exact .inr hk

theorem foldl_parks {α : Type} {g : Ev → α → Ev} (hg : ∀ w x, Parks w (g w x)) (xs : List α) (w : Ev) :
    Parks w (xs.foldl g w) := by
  induction xs generalizing w with
  | nil => exact .of_ports fun _ => rfl
  | cons x xs ih => exact (hg w x).trans (ih _)

theorem announceCut_parks (w : Ev) (c : Port × Nat) : Parks w (announceCut w c) := fun q => by
  rw [announceCut, setNotice_port]
  by_cases h : q = c.1
  · rw [h, decideFrame_port_self]
    exact .inl ⟨rfl, rfl⟩
  · rw [decideFrame_port_of_ne h]
    exact .inl ⟨rfl, rfl⟩

theorem expelPort_parks (w : Ev) (g : GrantEntry) : Parks w (expelPort w g) := fun q => by
  rw [expelPort, setNotice_port, updOutlet_port]
  by_cases h : q = g.port
  · rw [h, parkForPool_port_self]
    exact .inr ⟨rfl, rfl⟩
  · rw [parkForPool_port_of_ne h]
    exact .inl ⟨rfl, rfl⟩

theorem shrinkPool_parks (w : Ev) : Parks w (shrinkPool w) := by
  have hgrants : ∀ gs, Parks w (updOutlet (fun o => { o with grants := gs }) w) := fun _ => .of_ports fun _ => rfl
  unfold shrinkPool
  exact ((hgrants _).trans (foldl_parks announceCut_parks _ _)).trans (foldl_parks expelPort_parks _ _)

theorem recomputePool_parks (w : Ev) : Parks w (recomputePool w) := by
  have hpool : ∀ g : Outlet → Outlet, Parks w (updOutlet g w) := fun _ => .of_ports fun _ => rfl
  unfold recomputePool
  dsimp only
  split
  · exact (hpool _).trans (shrinkPool_parks _)
  · split
    · exact .of_ports fun _ => rfl
    · exact hpool _

theorem openIfClosedOn_parks (p : Port) (w : Ev) : Parks w (openIfClosedOn p w) := by
  have hinto : Parks w (openInto .gap (feedOf p) w) := by
    rw [openInto_eq]
    split
    · exact Parks.trans (.of_ports fun _ => rfl) (recomputePool_parks _)
    · exact .of_ports fun _ => rfl
  unfold openIfClosedOn openWithGap
  split
  · split
    · exact hinto.trans (.of_ports fun _ => rfl)
    · exact .of_ports fun _ => rfl
  · exact .of_ports fun _ => rfl

end

/-! ## One consequence of the restored tables -/

/-- A port that the restored tables act on: disabled, or parked for its role. -/
def PortRec.withheld (r : PortRec) : Prop := r.state = .disabled ∨ (r.state = .parked ∧ r.parkReason = some .role)

/-- The states of a port that the restored tables leave alone where it holds no entry. -/
def PortState.settled (st : PortState) : Prop := st ∉ [PortState.parked, .disabled, .outletBase, .outletGranted]

/-- What a consequence of the restored tables leaves. -/
structure Follows (w v : Ev) : Prop where
  rest : v.rest = w.rest
  only : ∀ n, v.link.noticeSet n = true → w.link.noticeSet n = true ∨ n = .outletCut
  relay : ∀ p, (v.port p).relay = (w.port p).relay
  levels : ∀ f, (v.feed f).derate = (w.feed f).derate ∧ (v.feed f).shed = (w.feed f).shed
  disabled : ∀ p, (v.port p).state = .disabled → (w.port p).state = .disabled
  withheld : ∀ p, (v.port p).withheld → (w.port p).withheld
  quiet : ∀ p, (w.port p).state.settled → w.outlet.hasEntry p = false → v.port p = w.port p ∧ v.outlet.hasEntry p = false
  feed : ∀ f, (w.feed f).state ≠ .fault → (∀ p, feedOf p = f → (w.port p).withheld → w.closedOn p = false) →
    v.feed f = w.feed f ∧ v.control.trim.get f = w.control.trim.get f

section
variable {u v w : Ev} {p q : Port}

theorem Follows.refl (w : Ev) : Follows w w :=
  ⟨rfl, fun _ => .inl, fun _ => rfl, fun _ => ⟨rfl, rfl⟩, fun _ => id, fun _ => id, fun _ _ h => ⟨rfl, h⟩, fun _ _ _ => ⟨rfl, rfl⟩⟩

theorem Follows.trans (h : Follows u v) (k : Follows v w) : Follows u w := by
  refine ⟨k.rest.trans h.rest, fun n hn => (k.only n hn).elim (h.only n) .inr, fun p => (k.relay p).trans (h.relay p),
    fun f => ⟨(k.levels f).1.trans (h.levels f).1, (k.levels f).2.trans (h.levels f).2⟩,
    fun p hp => h.disabled p (k.disabled p hp), fun p hp => h.withheld p (k.withheld p hp), fun p hst he => ?_, fun f hf hopen => ?_⟩
  · obtain ⟨hport, hentry⟩ := h.quiet p hst he
    obtain ⟨hport', hentry'⟩ := k.quiet p (by rwa [hport]) hentry
    exact ⟨hport'.trans hport, hentry'⟩
  · obtain ⟨hfeed, htrim⟩ := h.feed f hf hopen
    obtain ⟨hfeed', htrim'⟩ := k.feed f (by rwa [hfeed]) fun p hp hw => by
      rw [closedOn_congr (s := u.toState) (by rw [hp, hfeed]) (by rw [hp, hfeed])]
      exact hopen p hp (h.withheld p hw)
    exact ⟨hfeed'.trans hfeed, htrim'.trans htrim⟩

theorem follows_foldl {α : Type} {g : Ev → α → Ev} (hg : ∀ w x, Follows w (g w x)) (xs : List α) (w : Ev) :
    Follows w (xs.foldl g w) := by
  induction xs generalizing w with
  | nil => exact .refl w
  | cons x xs ih => exact (hg w x).trans (ih _)

/-! ## Disabled ports enabled (R56) -/

/-- The port of an enabled entry, its feed's exit from FAULT aside. -/
theorem enablePort_eq (p : Port) (w : Ev) : ∃ st t, (st = .debounce ∨ st = .detached)
    ∧ enablePort p w = faultExit (feedOf p) (raiseTrigger (enter p st (updPort p (fun r => { r with timer := t }) w))) := by
  unfold enablePort
  split
  · exact ⟨.debounce, _, .inl rfl, rfl⟩
  · refine ⟨.detached, (w.port p).timer, .inr rfl, ?_⟩
    rw [show updPort p (fun r => { r with timer := (w.port p).timer }) w = w by cases p <;> rfl]

theorem faultExit_control (f : Feed) (w : Ev) : (faultExit f w).control = w.control := by unfold faultExit; split <;> rfl
theorem faultExit_levels (f g : Feed) (w : Ev) : ((faultExit f w).feed g).derate = (w.feed g).derate
    ∧ ((faultExit f w).feed g).shed = (w.feed g).shed := by
  rcases faultExit_eq f w with h | ⟨-, h⟩
  · rw [h]
    exact ⟨rfl, rfl⟩
  · rw [h, raiseTrigger_feed]
    by_cases hg : g = f
    · subst hg
      rw [updFeed_feed_self]
      exact ⟨rfl, rfl⟩
    · rw [updFeed_feed_of_ne _ _ hg]
      exact ⟨rfl, rfl⟩

theorem enter_levels (p : Port) (st : PortState) (f : Feed) (w : Ev) : ((enter p st w).feed f).derate = (w.feed f).derate
    ∧ ((enter p st w).feed f).shed = (w.feed f).shed := by
  rw [enter_feed]
  split <;> exact ⟨rfl, rfl⟩

/-- A withheld port whose record is written and a state entered, no withheld one: what is left of ports, feeds and outlet. -/
theorem enter_follows {st : PortState} {g : PortRec → PortRec} (hg : ∀ r, (g r).relay = r.relay) (hst : st ≠ .disabled)
    (hst' : st ≠ .parked) (hw : (w.port p).withheld) : Follows w (enter p st (updPort p g w)) := by
  have hport : ∀ q, (enter p st (updPort p g w)).port q = if q = p then { g (w.port p) with state := st } else w.port q := by
    intro q
    split
    · rename_i h
      rw [h, enter_port, updPort_port_self]
    · rename_i h
      rw [enter_port_of_ne _ _ _ h, updPort_port_of_ne _ _ h]
  have hunsettled : ¬ (w.port p).state.settled := by
    intro h
    rcases hw with hd | ⟨hd, -⟩ <;> rw [hd] at h <;> exact h (by simp)
  refine ⟨enter_rest _ _ _, fun n hn => .inl (by rwa [enter_link] at hn), fun q => ?_, fun f => enter_levels p st f _, fun q hq => ?_,
    fun q hq => ?_, fun q hq he => ?_, fun f _ hopen => ⟨?_, by rw [enter_control]; rfl⟩⟩
  · rw [hport]
    split
    · rename_i h
      rw [h]
      exact hg _
    · rfl
  · rw [hport] at hq
    split at hq
    · exact absurd hq hst
    · exact hq
  · rw [hport] at hq
    split at hq
    · exact absurd hq (by simp [PortRec.withheld, hst, hst'])
    · exact hq
  · rw [hport, enter_outlet]
    split
    · rename_i h
      exact absurd (h ▸ hq) hunsettled
    · exact ⟨rfl, he⟩
  · rw [enter_feed]
    split
    · rename_i h
      have := hopen p h.1.symm hw
      rw [updPort_closedOn] at h
      exact absurd (this.symm.trans h.2.2) (by decide)
    · rfl

theorem faultExit_follows (f : Feed) (w : Ev) : Follows w (faultExit f w) :=
  ⟨faultExit_rest _ _, fun _ hn => .inl (by rwa [faultExit_link] at hn), fun _ => by rw [faultExit_port],
    fun g => faultExit_levels f g w, fun _ => by rw [faultExit_port]; exact id, fun _ => by rw [faultExit_port]; exact id,
    fun _ _ he => ⟨faultExit_port _ _ _, by rwa [faultExit_outlet]⟩,
    fun _ hg _ => ⟨faultExit_of_state f w hg, by rw [faultExit_control]⟩⟩

theorem raiseTrigger_follows (w : Ev) : Follows w (raiseTrigger w) := { Follows.refl w with }

theorem enableIfDisabled_follows (w : Ev) (p : Port) : Follows w (enableIfDisabled w p) := by
  unfold enableIfDisabled
  split
  · rename_i h
    obtain ⟨st, t, hst, heq⟩ := enablePort_eq p w
    rw [heq]
    have henter := enter_follows (p := p) (st := st) (g := fun r => { r with timer := t }) (w := w) (fun _ => rfl)
      (by rcases hst with rfl | rfl <;> decide) (by rcases hst with rfl | rfl <;> decide) (.inl h)
    exact (henter.trans (raiseTrigger_follows _)).trans (faultExit_follows _ _)
  · exact .refl w

/-- No port stays disabled. -/
theorem enabled_all (w : Ev) (p : Port) : ((allPorts.foldl enableIfDisabled w).port p).state ≠ .disabled := by
  have hturn : ∀ w : Ev, ((enableIfDisabled w p).port p).state ≠ .disabled := by
    intro w
    unfold enableIfDisabled
    split
    · rw [(enablePort_enables p w).2.1]
      split <;> decide
    · assumption
  have hfold : ∀ ps : List Port, ∀ w : Ev, p ∈ ps → ((ps.foldl enableIfDisabled w).port p).state ≠ .disabled := by
    intro ps
    induction ps with
    | nil => simp
    | cons q ps ih =>
      intro w hp
      rcases List.mem_cons.1 hp with rfl | hp
      · exact fun h => hturn w ((follows_foldl enableIfDisabled_follows ps _).disabled p h)
      · exact ih _ hp
  exact hfold allPorts w (mem_allPorts p)

/-! ## The pool and the caps (R146, R151) -/

/-- What the allocator may do to ports leaves them relays, and withholds none. -/
theorem withheld_of_parks (h : Parks w v) (q : Port) (hq : (v.port q).withheld) : (w.port q).withheld := by
  rcases h q with ⟨h1, h2⟩ | ⟨h1, h2⟩
  · rwa [PortRec.withheld, h1, h2] at hq
  · simp [PortRec.withheld, h1, h2] at hq

theorem entry_of_entries (h : ∀ q, v.outlet.hasEntry q = true → w.outlet.hasEntry q = true) {q : Port}
    (hq : w.outlet.hasEntry q = false) : v.outlet.hasEntry q = false := by
  rw [← Bool.not_eq_true]
  exact fun he => absurd (hq.symm.trans (h q he)) (by decide)

theorem disabled_of_touched {entry : Bool} {r r' : PortRec} (h : r.poolTouched entry r') (hd : r'.state = .disabled) :
    r.state = .disabled := by
  obtain ⟨⟨st, pr, o, rfl, -, hst⟩, -⟩ := h
  rcases hst with hst | hst
  · exact hst.symm.trans hd
  · exact absurd (hst.symm.trans hd) (by decide)

theorem relay_of_touched {entry : Bool} {r r' : PortRec} (h : r.poolTouched entry r') : r'.relay = r.relay := by
  obtain ⟨⟨st, pr, o, rfl, -⟩, -⟩ := h
  rfl

theorem recomputePool_follows (w : Ev) : Follows w (recomputePool w) := by
  have h := recomputePool_side w
  exact ⟨h.rest, h.only, fun p => relay_of_touched (h.port p), fun f => by rw [recomputePool_feed]; exact ⟨rfl, rfl⟩,
    fun p => disabled_of_touched (h.port p), withheld_of_parks (recomputePool_parks w),
    fun p _ he => ⟨h.parked he, entry_of_entries h.entries he⟩,
    fun f _ _ => ⟨recomputePool_feed w f, by rw [recomputePool_control]⟩⟩

theorem setGrant_hasEntry (p q : Port) (i : Nat) (w : Ev) : (setGrant p i w).outlet.hasEntry q = w.outlet.hasEntry q := by
  rw [Bool.eq_iff_iff, hasEntry_iff, hasEntry_iff, ← setGrant_ports p i w.outlet.grants]
  rfl

theorem applyCap_follows (p : Port) (cap : Nat) (w : Ev) : Follows w (applyCap p cap w) := by
  rcases applyCap_spec p cap w with h | ⟨g, -, -, -, -, h⟩
  · rw [h]
    exact .refl w
  · cases hentry : w.outlet.hasEntry p with
    | false =>
      rw [applyCap_free hentry]
      exact .refl w
    | true =>
      rw [h]
      generalize max 500 cap = i
      have hport : ∀ q, ∃ o, ({ announceCut (setGrant p i w) (p, i) with readmit := true } : Ev).port q
          = { w.port q with order := o } ∧ (q ≠ p → o = (w.port q).order) := by
        intro q
        by_cases hq : q = p
        · subst hq
          exact ⟨_, decideFrame_port_self q (.cut i) (setGrant q i w), fun h => absurd rfl h⟩
        · exact ⟨_, decideFrame_port_of_ne hq (.cut i) (setGrant p i w), fun _ => rfl⟩
      refine ⟨rfl, fun n hn => announceCut_notices (setGrant p i w) (p, i) n hn, fun q => ?_, fun f => ⟨rfl, rfl⟩,
        fun q hq => ?_, fun q hq => ?_,
        fun q _ he => ?_, fun f _ _ => ⟨rfl, rfl⟩⟩
      all_goals obtain ⟨o, ho, hsame⟩ := hport q
      · rw [ho]
      · rwa [ho] at hq
      · rwa [ho] at hq
      · have hq : q ≠ p := fun k => by rw [k, hentry] at he; cases he
        exact ⟨by rw [ho, hsame hq], (setGrant_hasEntry p q i w).trans he⟩

theorem applyLoweredCap_follows (old : PerPort PortEntry) (w : Ev) (p : Port) : Follows w (applyLoweredCap old w p) := by
  unfold applyLoweredCap
  dsimp only
  split
  · exact applyCap_follows p _ w
  · exact .refl w

/-! ## Roles permitted (R53) -/

/-- What the permission of its role makes of a parked port: a state entered, or a request for admission. -/
theorem leaveParkedRole_eq (p : Port) (w : Ev) : leaveParkedRole p w = w ∨
    ((w.port p).withheld ∧ ∃ g : PortRec → PortRec, (∀ r, (g r).relay = r.relay)
      ∧ ((∃ st, st ≠ .disabled ∧ st ≠ .parked ∧ leaveParkedRole p w = raiseTrigger (enter p st (updPort p g w)))
        ∨ leaveParkedRole p w = raiseTrigger (requestAdmission p (openIfClosedOn p (updPort p g w))))) := by
  cases hq : (w.port p).partner with
  | none =>
    unfold leaveParkedRole
    rw [hq]
    exact .inl rfl
  | some q =>
    have hact : leaveParkedRole p w = if (w.port p).state = .parked ∧ (w.port p).parkReason = some .role
        ∧ (w.tables.port.get p).roles.allows (roleAsked q.cls) then
          raiseTrigger (if q.silent then enter p .held (setRole p .intake (updPort p (fun r => { r with parkReason := none }) w))
            else welcomePartner p q.cls (updPort p (fun r => { r with parkReason := none }) w)) else w := by
      rw [leaveParkedRole, hq]
    rw [hact]
    split
    · rename_i h
      obtain ⟨hst, hreason, hallow⟩ := h
      refine .inr ⟨.inr ⟨hst, hreason⟩, ?_⟩
      split
      · rw [setRole, updPort_updPort]
        refine ⟨_, ?_, .inl ⟨.held, by decide, by decide, rfl⟩⟩
        exact fun _ => rfl
      · rcases roleAsked_cases q.cls with hrole | hrole
        · rw [welcomePartner_intake (w := updPort p _ w) hallow hrole, decideWelcome_eq, updPort_updPort]
          refine ⟨_, ?_, .inl ⟨.awaitSheet, by decide, by decide, rfl⟩⟩
          exact fun _ => rfl
        · rw [welcomePartner_outlet (w := updPort p _ w) hallow hrole, decideWelcome_eq, updPort_updPort]
          refine ⟨_, ?_, .inr rfl⟩
          exact fun _ => rfl
    · exact .inl rfl

theorem requestAdmission_port_of_ne (h : q ≠ p) (w : Ev) : (requestAdmission p w).port q = w.port q := by
  unfold requestAdmission
  split
  · simp [admitPort, h]
  · simp [parkForPool, h]

theorem requestAdmission_hasEntry_of_ne (h : q ≠ p) (w : Ev) :
    (requestAdmission p w).outlet.hasEntry q = w.outlet.hasEntry q := by
  rw [Bool.eq_iff_iff, hasEntry_iff, hasEntry_iff]
  obtain ⟨-, -, -, ⟨-, -, -, houtlet⟩ | ⟨-, -, -, houtlet⟩⟩ := requestAdmission_spec p w
  · rw [houtlet]
    simp only [List.map_append, List.mem_append, List.mem_map, List.mem_filter, bne_iff_ne, List.mem_singleton, List.map_cons,
      List.map_nil]
    exact ⟨fun hk => hk.elim (fun ⟨g, ⟨hg, _⟩, hp⟩ => ⟨g, hg, hp⟩) (fun hk => absurd hk h),
      fun ⟨g, hg, hp⟩ => .inl ⟨g, ⟨hg, fun hgp => h (hp.symm.trans hgp)⟩, hp⟩⟩
  · rw [houtlet]

theorem requestAdmission_control (p : Port) (w : Ev) : (requestAdmission p w).control = w.control := by
  unfold requestAdmission
  split <;> rfl

/-- A withheld port that asks for admission, its switch opened where it was closed. -/
theorem admission_follows {g : PortRec → PortRec} (hg : ∀ r, (g r).relay = r.relay) (hw : (w.port p).withheld) :
    Follows w (requestAdmission p (openIfClosedOn p (updPort p g w))) := by
  have hopen := openIfClosedOn_opens p (updPort p g w)
  have hparks := openIfClosedOn_parks p (updPort p g w)
  generalize openIfClosedOn p (updPort p g w) = y at hopen hparks ⊢
  obtain ⟨st, pr, hself, hcases⟩ := requestAdmission_spec p y
  have hst : (st = .outletBase ∧ pr = none) ∨ (st = .parked ∧ pr = some .pool) :=
    hcases.elim (fun h => .inl ⟨h.2.1, h.2.2.1⟩) (fun h => .inr ⟨h.2.1, h.2.2.1⟩)
  have hunsettled : ¬ (w.port p).state.settled := by
    intro h
    rcases hw with hd | ⟨hd, -⟩ <;> rw [hd] at h <;> exact h (by simp)
  have hrelay : ∀ q, ((updPort p g w).port q).relay = (w.port q).relay := fun q => by
    rw [updPort_port]
    split
    · rename_i h
      rw [h]
      exact hg _
    · rfl
  have hother : ∀ q, q ≠ p → (updPort p g w).port q = w.port q := fun q hq => updPort_port_of_ne _ _ hq
  refine ⟨(requestAdmission_rest p y).trans hopen.rest, fun n hn => ?_, fun q => ?_, fun f => ?_, fun q hq => ?_, fun q hq => ?_,
    fun q hq he => ?_, fun f _ hclosed => ?_⟩
  · rw [requestAdmission_link] at hn
    exact hopen.only n hn
  · refine Eq.trans ?_ ((relay_of_touched (hopen.port q)).trans (hrelay q))
    by_cases hq : q = p
    · rw [hq, hself]
    · rw [requestAdmission_port_of_ne hq]
  · rw [requestAdmission_feed]
    by_cases hf : f = feedOf p
    · subst hf
      rw [hopen.feed, State.gapFeed]
      split <;> exact ⟨rfl, rfl⟩
    · rw [hopen.feeds f hf]
      exact ⟨rfl, rfl⟩
  · by_cases hqp : q = p
    · subst hqp
      rw [hself] at hq
      rcases hst with ⟨h, -⟩ | ⟨h, -⟩ <;> exact absurd (h.symm.trans hq) (by decide)
    · rw [requestAdmission_port_of_ne hqp] at hq
      rw [← hother q hqp]
      exact disabled_of_touched (hopen.port q) hq
  · by_cases hqp : q = p
    · rw [hqp]
      exact hw
    · rw [PortRec.withheld, requestAdmission_port_of_ne hqp] at hq
      rw [← hother q hqp]
      exact withheld_of_parks hparks q hq
  · have hqp : q ≠ p := fun k => hunsettled (k ▸ hq)
    have hentry : (updPort p g w).outlet.hasEntry q = false := he
    rw [requestAdmission_port_of_ne hqp, requestAdmission_hasEntry_of_ne hqp, hopen.parked hentry, hother q hqp]
    exact ⟨rfl, entry_of_entries hopen.entries hentry⟩
  · have htrim : (f = feedOf p → w.closedOn p = false) := fun hf => hclosed p hf.symm hw
    rw [requestAdmission_feed, requestAdmission_control, hopen.control]
    by_cases hf : f = feedOf p
    · rw [hf, hopen.feed, State.gapFeed, updPort_closedOn, htrim hf]
      exact ⟨rfl, rfl⟩
    · rw [hopen.feeds f hf]
      refine ⟨rfl, ?_⟩
      split
      · simp [hf]
      · rfl

theorem leaveParkedRole_follows (w : Ev) (p : Port) : Follows w (leaveParkedRole p w) := by
  rcases leaveParkedRole_eq p w with h | ⟨hw, g, hg, ⟨st, hst, hst', h⟩ | h⟩ <;> rw [h]
  · exact .refl w
  · exact (enter_follows hg hst hst' hw).trans (raiseTrigger_follows _)
  · exact (admission_follows hg hw).trans (raiseTrigger_follows _)

/-! ## All of step 3 -/

theorem followRestart_follows (old : PerPort PortEntry) (w : Ev) : Follows w (followRestart old w) :=
  (((follows_foldl enableIfDisabled_follows allPorts w).trans (recomputePool_follows _)).trans
    (follows_foldl (applyLoweredCap_follows old) allPorts _)).trans (follows_foldl leaveParkedRole_follows allPorts _)

theorem followRestart_enables (old : PerPort PortEntry) (w : Ev) (p : Port) : ((followRestart old w).port p).state ≠ .disabled :=
  fun h => enabled_all w p ((((recomputePool_follows _).trans (follows_foldl (applyLoweredCap_follows old) allPorts _)).trans
    (follows_foldl leaveParkedRole_follows allPorts _)).disabled p h)

end

end Sys2Proof.Machine
end

