-- ==== Sys2Proof/Proofs/PolicyRestarts.lean ====
section
/-! PROOFS. The policy restart as a whole (R218): the restored policy, the trim it makes, and what follows from its tables. -/
namespace Sys2Proof.Machine

/-! ## The restored policy (R218 step 2) -/

/-- A port record whose relay slot was emptied (R191). -/
def PortRec.slotless (r : PortRec) : PortRec :=
  { r with
    relay := none
    tx := match r.tx with
      | some (.relayed f _) => some (.relayed f false)
      | t => t }

/-- What the emptying of the relay slots writes of ports. -/
def State.slotless (s : State) : PerPort PortRec :=
  ⟨(s.port .A).slotless, (s.port .B).slotless, (s.port .C).slotless, (s.port .D).slotless⟩

theorem emptySlots_eq (w : Ev) :
    allPorts.foldl (fun w p => emptySlot p w) w = { w with ports := w.toState.slotless } := rfl

theorem slotless_get (s : State) (p : Port) : s.slotless.get p = (s.port p).slotless := by cases p <;> rfl

/-- The link of a part whose policy was restored (R171, R203, R208). -/
def Link.restored (l : Link) : Link := { l with notices := 0, mask := 0, mode := .unattended, liveness := .stopped }

/-- The event when the policy is restored, before the trim. -/
def Ev.policyRestored (w : Ev) : Ev :=
  { w with
    tables := { Tables.default.under w.factoryValues with lock := w.tables.lock }
    watches := List.replicate 8 .reset
    ports := w.toState.slotless
    link := w.link.restored }

/-- A table of reset entries asks for no derate and no shed (R168, R169). -/
theorem levels_of_reset (f : Feed) :
    derateLevel (List.replicate 8 .reset) f = 0 ∧ shedFlag (List.replicate 8 .reset) f = false := by
  cases f <;> decide

theorem applyWatches_reset {w : Ev} (h : w.watches = List.replicate 8 .reset) :
    ∃ t, applyWatches w = { w with toState := w.toState.withLevels [], trig := t } := by
  have hlevelled : levelled (List.replicate 8 .reset) w = { w with toState := w.toState.withLevels [] } := by
    unfold levelled
    rw [(levels_of_reset .F0).1, (levels_of_reset .F1).1]
    rfl
  rw [applyWatches_eq, h, hlevelled]
  exact ⟨_, rfl⟩

theorem restorePolicy_eq (w : Ev) : ∃ t, restorePolicy w =
    { (if w.attended then trimForCeiling w.policyRestored else w.policyRestored) with
      toState := (if w.attended then trimForCeiling w.policyRestored else w.policyRestored).toState.withLevels []
      trig := t } := by
  have hact : restorePolicy w = applyWatches (if w.attended then trimForCeiling w.policyRestored else w.policyRestored) := by
    simp only [restorePolicy, emptySlots_eq]
    rfl
  rw [hact]
  refine applyWatches_reset ?_
  split
  · obtain ⟨fs, c, h⟩ := trimForCeiling_feedsOnly w.policyRestored
    rw [h]
    rfl
  · rfl

/-! ## The trim and the levels (R118, R168) -/

/-- A feed record with no derate and no shed. -/
def FeedRec.unlevelled (r : FeedRec) : FeedRec := { r with derate := 0, shed := false }

theorem withLevels_nil_feed (s : State) (f : Feed) : (s.withLevels []).feed f = (s.feed f).unlevelled := by cases f <;> rfl

/-- A trim is the same before the levels are cleared and after (R118). -/
theorem FeedRec.trimmed.unlevelled {r after : FeedRec} {t i v : Option Nat} (h : r.trimmed t i after v) :
    r.unlevelled.trimmed t i after.unlevelled v := by
  cases i with
  | none =>
    obtain ⟨rfl, rfl⟩ := h
    exact ⟨rfl, rfl⟩
  | some n =>
    obtain ⟨hv, hafter, hle, hexact⟩ := h
    exact ⟨hv, by rw [hafter]; rfl, hle, hexact⟩

/-- Levels and relay slots are no part of the committed powers. -/
theorem policyRestored_committed (w : Ev) (f : Feed) :
    w.policyRestored.committed f = (w.toState.withLevels []).committed f := by
  have hcontract : ∀ p, (w.policyRestored.port p).contract = (w.port p).contract := fun p =>
    congrArg (·.contract) (slotless_get w.toState p)
  have hpower : w.policyRestored.statePower f = (w.toState.withLevels []).statePower f := by
    simp only [State.statePower, withLevels_nil_feed, hcontract]
    rfl
  unfold State.committed
  rw [hpower]
  rfl

theorem policyRestored_ceilingTrim (w : Ev) (ceiling : Nat) (f : Feed) :
    w.policyRestored.ceilingTrim ceiling f = (w.toState.withLevels []).ceilingTrim ceiling f := by
  simp only [State.ceilingTrim, State.committedTotal, policyRestored_committed, withLevels_nil_feed]
  rfl

/-- What step 2 leaves of a feed and its trim value. -/
theorem restorePolicy_trimmed (w : Ev) (f : Feed) :
    ((w.toState.withLevels []).feed f).trimmed ((w.toState.withLevels []).control.trim.get f)
      (if w.link.mode = .attended then (w.toState.withLevels []).ceilingTrim w.factoryValues.fallbackCeiling f else none)
      ((restorePolicy w).feed f) ((restorePolicy w).control.trim.get f) := by
  obtain ⟨t, heq⟩ := restorePolicy_eq w
  rw [heq]
  show ((w.toState.withLevels []).feed f).trimmed _ _
    (((if w.attended then trimForCeiling w.policyRestored else w.policyRestored).toState.withLevels []).feed f) _
  rw [withLevels_nil_feed, withLevels_nil_feed]
  apply FeedRec.trimmed.unlevelled
  show (w.policyRestored.feed f).trimmed (w.policyRestored.control.trim.get f) _ _
    ((if w.attended then trimForCeiling w.policyRestored else w.policyRestored).control.trim.get f)
  by_cases ha : w.link.mode = .attended
  · rw [if_pos ((attended_iff w.toState).2 ha), if_pos ha, ← policyRestored_ceilingTrim]
    have hceiling : w.policyRestored.effectiveCeiling = w.factoryValues.fallbackCeiling := rfl
    have h := (trimForCeiling_trimsTo w.policyRestored).1 f
    rwa [hceiling] at h
  · rw [if_neg fun h => ha ((attended_iff w.toState).1 h), if_neg ha]
    exact ⟨rfl, rfl⟩

/-- What step 2 leaves of everything but feeds and controller. -/
theorem restorePolicy_leaves (w : Ev) : (restorePolicy w).ports = w.toState.slotless ∧ (restorePolicy w).outlet = w.outlet
    ∧ (restorePolicy w).rest = w.policyRestored.rest ∧ (restorePolicy w).link = w.link.restored
    ∧ ∀ f, ((restorePolicy w).feed f).derate = 0 ∧ ((restorePolicy w).feed f).shed = false := by
  obtain ⟨t, heq⟩ := restorePolicy_eq w
  have honly : FeedsOnly w.policyRestored (if w.attended then trimForCeiling w.policyRestored else w.policyRestored) :=
    feedsOnly_ite (trimForCeiling_feedsOnly _) (.refl _)
  generalize (if w.attended then trimForCeiling w.policyRestored else w.policyRestored) = u at heq honly
  obtain ⟨fs, c, rfl⟩ := honly
  rw [heq]
  refine ⟨rfl, rfl, rfl, rfl, fun f => ?_⟩
  rw [withLevels_nil_feed]
  exact ⟨rfl, rfl⟩

/-- A switch is closed by the feed's state and selected port, which neither the trim nor the levels write. -/
theorem restorePolicy_switch (w : Ev) (f : Feed) : ((restorePolicy w).feed f).state = (w.feed f).state
    ∧ ((restorePolicy w).feed f).selected = (w.feed f).selected := by
  have h := restorePolicy_trimmed w f
  rw [withLevels_nil_feed] at h
  generalize (if w.link.mode = .attended then _ else none) = i at h
  cases i with
  | none =>
    rw [h.1]
    exact ⟨rfl, rfl⟩
  | some n =>
    rw [h.2.1]
    exact ⟨rfl, rfl⟩

theorem restorePolicy_closedOn (w : Ev) (p : Port) : (restorePolicy w).closedOn p = w.closedOn p := by
  obtain ⟨hstate, hselected⟩ := restorePolicy_switch w (feedOf p)
  exact closedOn_congr (by simp only [FeedRec.powered, hstate]) hselected

/-! ## The whole of the restart (R218) -/

/-- Steps 2 and 3 on the state that the default verdicts leave. -/
def Ev.policyRestarted (v : Ev) : Ev := followRestart v.tables.port (restorePolicy v)

theorem exec_policyRestart {s : State} (hs : s.takes = true) (hl : s.tables.lock = false) :
    exec (.policyRestart []) s = .next (closeEvent (placeResult 0x9C#8 (answer (raiseTrigger
      { (flushTraps (Ev.start (s.holding 0x9C#8))).policyRestarted with readmit := true }) .done))) := by
  refine requestEvent_gives hs (Nat.zero_le _) ?_
  have hlock : (Ev.start (s.holding 0x9C#8)).tables.lock = false := hl
  rw [withLength_eq (n := 0) (params := []) rfl, hlock]
  rfl

section
variable (v : Ev)

/-- What the restart leaves of a port that no list holds. -/
theorem policyRestarted_port {p : Port} (hst : (v.port p).state.settled) (he : v.outlet.hasEntry p = false) :
    v.policyRestarted.port p = (v.port p).slotless := by
  obtain ⟨hports, houtlet, -⟩ := restorePolicy_leaves v
  have hport : (restorePolicy v).port p = (v.port p).slotless := by rw [State.port, hports, slotless_get]
  obtain ⟨hquiet, -⟩ := (followRestart_follows v.tables.port (restorePolicy v)).quiet p (by rw [hport]; exact hst)
    (by rw [houtlet, he])
  exact hquiet.trans hport

theorem policyRestarted_relay (p : Port) :
    (v.policyRestarted.port p).relay = none ∧ (v.policyRestarted.port p).state ≠ .disabled := by
  refine ⟨((followRestart_follows v.tables.port (restorePolicy v)).relay p).trans ?_, followRestart_enables _ _ p⟩
  rw [State.port, (restorePolicy_leaves v).1, slotless_get]
  rfl

theorem policyRestarted_levels (f : Feed) :
    (v.policyRestarted.feed f).derate = 0 ∧ (v.policyRestarted.feed f).shed = false := by
  obtain ⟨hderate, hshed⟩ := (followRestart_follows v.tables.port (restorePolicy v)).levels f
  obtain ⟨-, -, -, -, hlevels⟩ := restorePolicy_leaves v
  exact ⟨hderate.trans (hlevels f).1, hshed.trans (hlevels f).2⟩

theorem policyRestarted_rest : v.policyRestarted.rest = v.policyRestored.rest :=
  (followRestart_follows v.tables.port (restorePolicy v)).rest.trans (restorePolicy_leaves v).2.2.1

/-- The notices are empty but for an OUTLET_CUT of step 3 (R203). -/
theorem policyRestarted_notices (n : Notice) (h : v.policyRestarted.link.noticeSet n = true) : n = .outletCut := by
  refine ((followRestart_follows v.tables.port (restorePolicy v)).only n h).resolve_left ?_
  rw [(restorePolicy_leaves v).2.2.2.1]
  simp [Link.noticeSet, Link.restored]

/-- A feed that no withheld port has its switch closed on is left as step 2 trimmed it. -/
theorem policyRestarted_feed {f : Feed} (hf : (v.feed f).state ≠ .fault)
    (hopen : ∀ p, feedOf p = f → (v.port p).state ∈ [PortState.parked, .disabled] → v.closedOn p = false) :
    ((v.toState.withLevels []).feed f).trimmed ((v.toState.withLevels []).control.trim.get f)
      (if v.link.mode = .attended then (v.toState.withLevels []).ceilingTrim v.factoryValues.fallbackCeiling f else none)
      (v.policyRestarted.feed f) (v.policyRestarted.control.trim.get f) := by
  obtain ⟨hfeed, htrim⟩ := (followRestart_follows v.tables.port (restorePolicy v)).feed f
    (by rwa [(restorePolicy_switch v f).1]) fun p hp hw => by
      rw [restorePolicy_closedOn]
      refine hopen p hp ?_
      rw [PortRec.withheld, State.port, (restorePolicy_leaves v).1, slotless_get] at hw
      rcases hw with h | ⟨h, -⟩
      · exact List.mem_cons_of_mem _ (List.mem_singleton.2 h)
      · exact List.mem_cons.2 (.inl h)
  rw [Ev.policyRestarted, hfeed, htrim]
  exact restorePolicy_trimmed v f

end

/-- Settles O54. -/
theorem policyRestartRestoresThePolicy : Obligations.PolicyRestartRestoresThePolicy := by
  intro s hs hl
  have hexec := exec_policyRestart hs hl
  obtain ⟨-, hrest⟩ := flushTraps_rest (Ev.start (s.holding 0x9C#8))
  refine ⟨_, hexec, ?_⟩
  generalize flushTraps (Ev.start (s.holding 0x9C#8)) = v at *
  have htables : v.tables = s.tables := congrArg (fun r => r.tables) hrest
  have hfactory : v.factory = s.factory := congrArg (fun r => r.factory) hrest
  have htraps : v.traps = { s.traps with queue := [] } := congrArg (fun r => r.traps) hrest
  have hmode : v.link.mode = s.link.mode := congrArg (fun r => r.link.mode) hrest
  have hvalues : v.factoryValues = s.factoryValues := congrArg Factory.values hfactory
  have hrestart := policyRestarted_rest v
  have hport := fun p => policyRestarted_port v (p := p)
  have hrelay := policyRestarted_relay v
  have hlevels := policyRestarted_levels v
  have hnotices := policyRestarted_notices v
  have hfeed := fun f => policyRestarted_feed v (f := f)
  rw [hvalues, hmode] at hfeed
  generalize v.policyRestarted = z at *
  have hlink : z.link = { v.link.restored with notices := z.link.notices } :=
    congrArg (fun r => { r.link with notices := z.link.notices }) hrestart
  refine ⟨?_, congrArg (fun r => r.watches) hrestart, ?_, hrelay, hnotices, ?_, ?_, ?_, rfl, hlevels, rfl, rfl,
    ?_, ?_, ?_, ?_, hport, hfeed⟩
  · refine (congrArg (fun r => r.tables) hrestart).trans ?_
    show { Tables.default.under v.factoryValues with lock := v.tables.lock } = _
    rw [htables, hl, hvalues]
    rfl
  · exact (congrArg (fun r => r.traps) hrestart).trans htraps
  · exact congrArg (·.mask) hlink
  · exact congrArg (·.mode) hlink
  · exact congrArg (·.liveness) hlink
  · exact (congrArg (fun r => r.time) hrestart).trans (congrArg (fun r => r.time) hrest)
  · exact (congrArg (fun r => r.sense) hrestart).trans (congrArg (fun r => r.sense) hrest)
  · exact (congrArg (fun r => r.cause) hrestart).trans (congrArg (fun r => r.cause) hrest)
  · exact (congrArg (fun r => r.factory) hrestart).trans hfactory

end Sys2Proof.Machine
end

