-- ==== Sys2Proof/Proofs/StepStarts.lean ====
section
/-! PROOFS. The start of a step (R107 to R114): the ceiling check, the lowered output, the step marked in the plan, its command,
and the committed powers after it (R103). -/
namespace Sys2Proof.Machine

/-! ## Committed powers (R103) -/

/-- With no step in flight the committed power is the state's. -/
theorem committed_of_idle {s : State} (h : s.inFlight = none) (f : Feed) : s.committed f = s.statePower f := by
  simp [State.committed, h]

theorem committed_of_other {s : State} {st : PlanStep} (h : s.inFlight = some st) {f : Feed} (hf : st.feed ≠ f) :
    s.committed f = s.statePower f := by
  simp [State.committed, h, hf]

theorem statePower_congr {s t : State} {f : Feed} (hstate : (t.feed f).state = (s.feed f).state)
    (hselected : (t.feed f).selected = (s.feed f).selected) (hports : ∀ p, (t.port p).contract = (s.port p).contract) :
    t.statePower f = s.statePower f := by
  simp only [State.statePower, hstate, hselected, hports]

/-- The other feed. -/
def siblingFeed : Feed → Feed
  | .F0 => .F1
  | .F1 => .F0

theorem siblingFeed_ne (f : Feed) : siblingFeed f ≠ f := by cases f <;> decide

theorem committedTotal_eq (s : State) (f : Feed) : s.committedTotal = s.committed f + s.committed (siblingFeed f) := by
  cases f
  · rfl
  · exact Nat.add_comm _ _

/-! ## The plan's first waiting step (R107, R109) -/

/-- The plan around its next step. -/
theorem plan_around {c : Controller} {st : PlanStep} (hno : c.inFlight = none) (hnext : c.nextStep = some st) :
    ∃ before after, c.plan = before ++ st :: after ∧ st.status = .waiting ∧ (∀ x ∈ before, x.status ≠ .waiting)
      ∧ (∀ x ∈ before, x.status ≠ .inFlight) ∧ ∀ x ∈ after, x.status ≠ .inFlight := by
  obtain ⟨hst, before, after, hplan, hbefore⟩ := List.find?_eq_some_iff_append.1 hnext
  have hall := List.find?_eq_none.1 hno
  refine ⟨before, after, hplan, by simpa using hst, fun x hx => by simpa using hbefore x hx, fun x hx => ?_, fun x hx => ?_⟩
  · simpa using hall x (by rw [hplan]; exact List.mem_append_left _ hx)
  · simpa using hall x (by rw [hplan]; exact List.mem_append_right _ (List.mem_cons_of_mem _ hx))

theorem markFirstWaiting_append {before after : List PlanStep} {st : PlanStep} (g : PlanStep → PlanStep)
    (hst : st.status = .waiting) (h : ∀ x ∈ before, x.status ≠ .waiting) :
    markFirstWaiting g (before ++ st :: after) = before ++ g st :: after := by
  induction before with
  | nil => simp [markFirstWaiting, hst]
  | cons x xs ih =>
    rw [List.cons_append, markFirstWaiting, if_neg (h x (List.mem_cons_self ..)),
      ih (fun y hy => h y (List.mem_cons_of_mem _ hy))]
    rfl

/-- The marked step is the step in flight. -/
theorem inFlight_marked {c : Controller} {st : PlanStep} {g : PlanStep → PlanStep} (hno : c.inFlight = none)
    (hnext : c.nextStep = some st) (hg : (g st).status = .inFlight) :
    ({ c with plan := markFirstWaiting g c.plan } : Controller).inFlight = some (g st) := by
  obtain ⟨before, after, hplan, hst, hwaiting, hbefore, -⟩ := plan_around hno hnext
  rw [Controller.inFlight, hplan, markFirstWaiting_append g hst hwaiting]
  refine List.find?_eq_some_iff_append.2 ⟨by simp [hg], before, after, rfl, fun x hx => by simpa using hbefore x hx⟩

/-- A skipped step leaves no step waiting and none in flight. -/
theorem skipStep_leaves {w : Ev} {st : PlanStep} (hno : w.inFlight = none) (hnext : w.control.nextStep = some st) :
    (skipStep w).control.nextStep = none ∧ (skipStep w).inFlight = none := by
  obtain ⟨before, after, hplan, hst, hwaiting, hbefore, hafter⟩ := plan_around hno hnext
  have hskipped : (skipStep w).control.plan
      = (before ++ { st with status := .skipped } :: after).filter (fun x => x.status != .waiting) := by
    rw [← markFirstWaiting_append (fun x => { x with status := .skipped }) hst hwaiting, ← hplan]
    rfl
  refine ⟨List.find?_eq_none.2 fun x hx => ?_, List.find?_eq_none.2 fun x hx => ?_⟩ <;> rw [hskipped] at hx
  · simpa using (List.mem_filter.1 hx).2
  · have hmem := (List.mem_filter.1 hx).1
    simp only [List.mem_append, List.mem_cons] at hmem
    rcases hmem with h | rfl | h
    · simpa using hbefore x h
    · simp
    · simpa using hafter x h

theorem skipStep_total {w : Ev} {st : PlanStep} (hno : w.inFlight = none) (hnext : w.control.nextStep = some st) :
    (skipStep w).committedTotal = w.committedTotal := by
  simp only [State.committedTotal, committed_of_idle hno, committed_of_idle (skipStep_leaves hno hnext).2]
  rfl

/-! ## The step cap (R110 to R112, R137) -/

theorem limitTarget_le_cap {r : FeedRec} {c : Nat} (h : r.stepCap = some c) (t : Option Nat) : limitTarget r t ≤ c := by
  unfold limitTarget
  rw [h]
  split
  · exact Nat.zero_le _
  · exact Nat.zero_le _
  · exact Nat.zero_le _
  · exact capBy_some_le _ _
  · split
    · exact Nat.zero_le _
    · exact capBy_some_le _ _

/-- A limit under a new step cap is the lower of the two, for an output that stood within the old one. -/
theorem min_limitTarget {r : FeedRec} {t : Option Nat} {n : Nat} (hn : n ≤ limitTarget r t) (c : Nat) :
    min n (limitTarget { r with stepCap := some c } t) = min n c := by
  have hcap : ∀ x, n ≤ capBy x r.stepCap → min n (capBy x (some c)) = min n c := by
    intro x h
    have hx := h.trans (capBy_le x r.stepCap)
    show min n (min x c) = min n c
    omega
  unfold limitTarget at hn ⊢
  cases hst : r.state with
  | idle => rw [hst] at hn; simp only at hn ⊢; omega
  | gap => rw [hst] at hn; simp only at hn ⊢; omega
  | fault => rw [hst] at hn; simp only at hn ⊢; omega
  | base => rw [hst] at hn; exact hcap _ hn
  | contract =>
    rw [hst] at hn
    cases hv : r.view with
    | none => simp only [hv] at hn ⊢; omega
    | some v => simp only [hv] at hn ⊢; exact hcap _ hn

/-- What a step cap makes of its feed. -/
theorem setStepCap_feed (f : Feed) (c : Nat) (w : Ev) : ((setStepCap f (some c) w).feed f).stepCap = some c
    ∧ ((setStepCap f (some c) w).feed f).output ≤ c
    ∧ (((setStepCap f (some c) w).feed f).output = min (w.feed f).output c ∨ w.limitsHold = false)
    ∧ ((setStepCap f (some c) w).feed f).state = (w.feed f).state
    ∧ ((setStepCap f (some c) w).feed f).selected = (w.feed f).selected := by
  have hfeed : (setStepCap f (some c) w).feed f
      = FeedRec.retarget (w.control.trim.get f) { w.feed f with stepCap := some c } := by
    rw [setStepCap, retarget, updFeed_feed_self, updFeed_feed_self]
    rfl
  obtain ⟨ramp, hr⟩ := retarget_spec (w.control.trim.get f) { w.feed f with stepCap := some c }
  rw [hfeed, hr]
  have hle := limitTarget_le_cap (r := { w.feed f with stepCap := some c }) rfl (w.control.trim.get f)
  refine ⟨rfl, (Nat.min_le_right _ _).trans hle, ?_, rfl, rfl⟩
  cases hlimits : w.limitsHold with
  | false => exact .inr rfl
  | true =>
    have hholds := (limitsHold_iff w.toState).1 hlimits f
    simp only [FeedRec.limitHolds, Bool.and_eq_true, decide_eq_true_eq] at hholds
    exact .inl (min_limitTarget (hholds.1.trans hholds.2) c)

theorem setStepCap_feed_of_ne {f g : Feed} (h : g ≠ f) (c : Option Nat) (w : Ev) : (setStepCap f c w).feed g = w.feed g := by
  rw [setStepCap, retarget, updFeed_feed_of_ne _ _ h, updFeed_feed_of_ne _ _ h]

/-! ## A step about to be commanded (R107) -/

/-- The step as it stands in the plan once it has started. -/
def PlanStep.going (st : PlanStep) (base : Nat) : PlanStep := { st with status := .inFlight, base := base }

/-- The event of a step that has started, its command about to be issued. -/
def Ev.starting (w : Ev) (st : PlanStep) : Ev :=
  { lowerForStep st w with control := { (lowerForStep st w).control with
    plan := markFirstWaiting (·.going (w.committed st.feed)) (lowerForStep st w).control.plan } }

theorem startStep_allowed {w : Ev} {st : PlanStep} (h : w.ceilingAllows st = true) :
    startStep st w = issueStep st (w.starting st) := if_pos h

section
variable {w : Ev} {st : PlanStep}

/-- What has changed when the command is issued: of the event the feeds and the plan alone. -/
structure Starting (st : PlanStep) (w u : Ev) : Prop where
  ports : u.ports = w.ports
  tables : u.tables = w.tables
  link : u.link = w.link
  inFlight : u.inFlight = some (st.going (w.committed st.feed))
  feeds : ∀ f, (u.feed f).state = (w.feed f).state ∧ (u.feed f).selected = (w.feed f).selected

theorem lowerForStep_eq (st : PlanStep) (w : Ev) : lowerForStep st w = w ∨ ∃ c, lowerForStep st w = setStepCap st.feed (some c) w := by
  unfold lowerForStep
  split
  · exact .inr ⟨_, rfl⟩
  · exact .inr ⟨_, rfl⟩
  · exact .inl rfl
  · exact .inl rfl

theorem starting_spec (hno : w.inFlight = none) (hnext : w.control.nextStep = some st) : Starting st w (w.starting st) := by
  have hflight := inFlight_marked (g := (·.going (w.committed st.feed))) hno hnext rfl
  rcases lowerForStep_eq st w with h | ⟨c, h⟩
  · unfold Ev.starting
    rw [h]
    exact ⟨rfl, rfl, rfl, hflight, fun f => ⟨rfl, rfl⟩⟩
  · unfold Ev.starting
    rw [h]
    refine ⟨rfl, rfl, rfl, hflight, fun f => ?_⟩
    show ((setStepCap st.feed (some c) w).feed f).state = _ ∧ ((setStepCap st.feed (some c) w).feed f).selected = _
    by_cases hf : f = st.feed
    · subst hf
      exact (setStepCap_feed st.feed c w).2.2.2
    · rw [setStepCap_feed_of_ne hf]
      exact ⟨rfl, rfl⟩

/-- The statement of a command that its port or feed cannot take (R115). -/
structure Refused (p : Port) (going : PlanStep) (u t : Ev) : Prop where
  inFlight : t.inFlight = none
  ended : t.ended = some { going with status := .failed .superseded }
  trig : t.trig = true
  notice : t.link.noticeSet .stepFailed = true
  port : ∃ l, t.port p = { u.port p with lastFailure := l }
  feeds : t.feeds = u.feeds
  contract : ∀ q, (t.port q).contract = (u.port q).contract

theorem failStep_refuses {u : Ev} {going : PlanStep} (h : u.inFlight = some going) :
    Refused going.port going u (failStep .superseded u) := by
  have hfails := failStep_fails h .superseded
  refine ⟨hfails.inFlight, hfails.ended going h, hfails.trig, by rw [hfails.link]; exact noticeSet_setNotice_self _ u,
    ⟨_, hfails.port⟩, failStep_feeds _ _, fun q => ?_⟩
  by_cases hq : q = going.port
  · rw [hq, hfails.port]
  · rw [hfails.others q hq]

/-! ## The commands (R34, R42, R113, R114) -/

theorem commandClaim_takes {p : Port} {l v i : Nat} {m : StepMark} {u : Ev} (h : (u.port p).state ∈ [PortState.held, .contract]) :
    commandClaim p l v i m u = openClaim p l v i (if m = .raise then .raise else .lower) (decide ((u.port p).state = .contract)) u := by
  simp only [List.mem_cons, List.not_mem_nil, or_false] at h
  unfold commandClaim
  rcases h with h | h <;> rw [h] <;> cases m <;> rfl

theorem commandClaim_refuses {p : Port} {l v i : Nat} {m : StepMark} {u : Ev} (h : (u.port p).state ∉ [PortState.held, .contract]) :
    commandClaim p l v i m u = failStep .superseded u := by
  simp only [List.mem_cons, List.not_mem_nil, or_false, not_or] at h
  unfold commandClaim
  cases hst : (u.port p).state
  case held => exact absurd hst h.1
  case contract => exact absurd hst h.2
  all_goals rfl

/-- What the opening of a claim exchange leaves (R35). -/
theorem openClaim_spec (p : Port) (l v i : Nat) (origin : Origin) (held : Bool) (u : Ev) :
    (∃ o, (openClaim p l v i origin held u).port p = { u.port p with
        claim := some ⟨l, v, i, origin, held, u.tables.timing.repeatLimit, none⟩
        repeatCount := 0, timer := .stopped, state := .claiming, order := o }
      ∧ ((u.port p).restartOwed = false → OutFrame.claim l v i ∈ o))
    ∧ (∀ q, q ≠ p → (openClaim p l v i origin held u).port q = u.port q)
    ∧ (openClaim p l v i origin held u).control = u.control
    ∧ ∀ f, ∃ x, (openClaim p l v i origin held u).feed f = { u.feed f with underVolt := x } := by
  unfold openClaim
  dsimp only
  rw [decideFrame_deciding, updPort_updPort]
  refine ⟨⟨_, by rw [enter_port, updPort_port_self]; rfl, fun h => ?_⟩, fun q hq => ?_, enter_control _ _ _, fun f => ?_⟩
  · show _ ∈ if (u.port p).restartOwed then (u.port p).order else placeFrame (.claim l v i) (u.port p).order
    rw [h]
    exact mem_placeFrame _ _
  · rw [enter_port_of_ne _ _ _ hq, updPort_port_of_ne _ _ hq]
  · rw [enter_feed]
    split
    · exact ⟨_, rfl⟩
    · exact ⟨_, rfl⟩

theorem commandRelease_refuses {p : Port} {u : Ev} (h : (u.port p).state ≠ .contract) :
    commandRelease p u = failStep .superseded u := by
  unfold commandRelease
  cases hst : (u.port p).state
  case contract => exact absurd hst h
  all_goals rfl

/-- What the command of a RELEASE step leaves of a contracted port (R42). -/
theorem commandRelease_spec {p : Port} {u : Ev} (h : (u.port p).state = .contract) :
    (∃ o, (commandRelease p u).port p = { u.port p with timer := .stopped, state := .releasing, order := o }
      ∧ ((u.port p).restartOwed = false → OutFrame.release ∈ o))
    ∧ (commandRelease p u).control = u.control
    ∧ ∀ f, ∃ x, (commandRelease p u).feed f = { u.feed f with underVolt := x } := by
  have hact : commandRelease p u = enter p .releasing (stopTimer p (decideFrame p .release u)) := by
    unfold commandRelease
    rw [h]
  rw [hact, decideFrame_deciding, stopTimer, updPort_updPort]
  refine ⟨⟨_, by rw [enter_port, updPort_port_self]; rfl, fun h => ?_⟩, enter_control _ _ _, fun f => ?_⟩
  · show _ ∈ if (u.port p).restartOwed then (u.port p).order else placeFrame .release (u.port p).order
    rw [h]
    exact mem_placeFrame _ _
  · rw [enter_feed]
    split
    · exact ⟨_, rfl⟩
    · exact ⟨_, rfl⟩

/-! ## The committed powers after a command (R103, R108) -/

/-- A refused command leaves the powers as they were. -/
theorem Starting.total_refused {u t : Ev} {p : Port} {going : PlanStep} (h : Starting st w u) (hno : w.inFlight = none)
    (k : Refused p going u t) : t.committedTotal = w.committedTotal := by
  have hpower : ∀ f, t.statePower f = w.statePower f := fun f => by
    have hfeed : t.feed f = u.feed f := by rw [State.feed, k.feeds]; rfl
    refine statePower_congr (by rw [hfeed, (h.feeds f).1]) (by rw [hfeed, (h.feeds f).2]) fun q => ?_
    rw [k.contract, State.port, h.ports]
    rfl
  simp only [State.committedTotal, committed_of_idle hno, committed_of_idle k.inFlight, hpower]

/-- A step in flight changes the power of its own feed alone. -/
theorem Starting.total_going {u t : Ev} (h : Starting st w u) (hno : w.inFlight = none) (hcontrol : t.control = u.control)
    (hfeed : (t.feed (siblingFeed st.feed)).state = (u.feed (siblingFeed st.feed)).state
      ∧ (t.feed (siblingFeed st.feed)).selected = (u.feed (siblingFeed st.feed)).selected)
    (hcontract : ∀ q, (t.port q).contract = (u.port q).contract) :
    t.inFlight = some (st.going (w.committed st.feed))
      ∧ t.committedTotal = w.committedTotal - w.committed st.feed + t.committed st.feed := by
  have hflight : t.inFlight = some (st.going (w.committed st.feed)) := by
    rw [State.inFlight, hcontrol]
    exact h.inFlight
  refine ⟨hflight, ?_⟩
  have hother : t.committed (siblingFeed st.feed) = w.committed (siblingFeed st.feed) := by
    rw [committed_of_idle hno, committed_of_other hflight (Ne.symm (siblingFeed_ne st.feed))]
    refine statePower_congr (by rw [hfeed.1, (h.feeds _).1]) (by rw [hfeed.2, (h.feeds _).2]) fun q => ?_
    rw [hcontract, State.port, h.ports]
    rfl
  rw [committedTotal_eq t.toState st.feed, committedTotal_eq w.toState st.feed, hother]
  omega

/-- The capped feed of a step that lowers the output. -/
theorem starting_capped {c : Nat} (hlower : lowerForStep st w = setStepCap st.feed (some c) w) :
    ((w.starting st).feed st.feed).stepCap = some c ∧ ((w.starting st).feed st.feed).output ≤ c
      ∧ (((w.starting st).feed st.feed).output = min (w.feed st.feed).output c ∨ w.limitsHold = false) := by
  unfold Ev.starting
  rw [hlower]
  obtain ⟨h1, h2, h3, -⟩ := setStepCap_feed st.feed c w
  exact ⟨h1, h2, h3⟩

theorem starting_kept (hlower : lowerForStep st w = w) : (w.starting st).feeds = w.feeds := by
  unfold Ev.starting
  rw [hlower]

end

end Sys2Proof.Machine
end

