-- ==== Sys2Proof/Proofs/StepCommands.lean ====
section
/-! PROOFS. What each kind of step does when it starts (O43): CLAIM, RELEASE, CLOSE and OPEN, and the ceiling over them. -/
namespace Sys2Proof.Machine

/-! ## Each kind of step (R110 to R114) -/

section
variable {w : Ev} {st : PlanStep} (hno : w.inFlight = none) (hnext : w.control.nextStep = some st)
  (hall : w.ceilingAllows st = true)

/-- What the statement of a refused command says. -/
theorem Refused.told {p : Port} {going : PlanStep} {u t : Ev} (h : Refused p going u t) :
    t.inFlight = none ∧ t.ended = some { going with status := .failed .superseded } ∧ t.trig = true
      ∧ t.link.noticeSet .stepFailed = true := ⟨h.inFlight, h.ended, h.trig, h.notice⟩

theorem Starting.port {u : Ev} (h : Starting st w u) (q : Port) : u.port q = w.port q := by rw [State.port, h.ports]; rfl

/-- The refusal of a step's command. -/
theorem Starting.refused {u : Ev} (h : Starting st w u) :
    Refused st.port (st.going (w.committed st.feed)) u (failStep .superseded u) := failStep_refuses h.inFlight

include hno hnext hall

theorem startClaim_spec {l v i pw : Nat} {m : StepMark} (hk : st.kind = .claim l v i pw m) :
    ((startStep st w).feed st.feed).stepCap = some i ∧ ((startStep st w).feed st.feed).output ≤ i
      ∧ (((startStep st w).feed st.feed).output = min (w.feed st.feed).output i ∨ w.limitsHold = false)
      ∧ ((w.port st.port).state ∈ [PortState.held, .contract] →
        (startStep st w).inFlight = some (st.going (w.committed st.feed))
          ∧ ((startStep st w).port st.port).state = .claiming ∧ ((startStep st w).port st.port).repeatCount = 0
          ∧ ((startStep st w).port st.port).claim = some ⟨l, v, i, if m = .raise then .raise else .lower,
              decide ((w.port st.port).state = .contract), w.tables.timing.repeatLimit, none⟩
          ∧ ((startStep st w).port st.port).contract = (w.port st.port).contract
          ∧ ((w.port st.port).restartOwed = false → OutFrame.claim l v i ∈ ((startStep st w).port st.port).order))
      ∧ ((w.port st.port).state ∉ [PortState.held, .contract] →
        ((startStep st w).inFlight = none
          ∧ (startStep st w).ended = some { st.going (w.committed st.feed) with status := .failed .superseded }
          ∧ (startStep st w).trig = true ∧ (startStep st w).link.noticeSet .stepFailed = true)
        ∧ ((startStep st w).port st.port).state = (w.port st.port).state)
      ∧ (startStep st w).committedTotal ≤ max w.committedTotal (w.committedTotal - w.committed st.feed + pw) := by
  have hs := starting_spec hno hnext
  obtain ⟨hcap, hle, hmin⟩ := starting_capped (w := w) (st := st) (c := i) (by unfold lowerForStep; rw [hk])
  have hact : startStep st w = commandClaim st.port l v i m (w.starting st) := by
    rw [startStep_allowed hall, issueStep, hk]
  rw [hact]
  generalize w.starting st = u at hs hcap hle hmin
  have hport := hs.port st.port
  by_cases hst : (w.port st.port).state ∈ [PortState.held, .contract]
  · have htakes := commandClaim_takes (p := st.port) (l := l) (v := v) (i := i) (m := m) (u := u) (by rwa [hport])
    obtain ⟨⟨o, hself, horder⟩, hothers, hcontrol, hfeeds⟩ := openClaim_spec st.port l v i
      (if m = .raise then .raise else .lower) (decide ((u.port st.port).state = .contract)) u
    rw [← htakes, hport] at hself
    rw [hport] at horder
    rw [← htakes] at hothers hcontrol hfeeds
    obtain ⟨hflight, htotal⟩ := hs.total_going hno hcontrol
      (by obtain ⟨x, hx⟩ := hfeeds (siblingFeed st.feed); rw [hx]; exact ⟨rfl, rfl⟩) (fun q => by
        by_cases hq : q = st.port
        · rw [hq, hself, hport]
        · rw [hothers q hq])
    obtain ⟨x, hx⟩ := hfeeds st.feed
    rw [hx, hself]
    refine ⟨hcap, hle, hmin, fun _ => ⟨hflight, rfl, rfl, ?_, rfl, horder⟩, fun h => absurd hst h, ?_⟩
    · rw [hs.tables]
    · have hpower : (commandClaim st.port l v i m u).committed st.feed = max (w.committed st.feed) pw := by
        simp [State.committed, hflight, PlanStep.going, hk]
      have hpart : w.committed st.feed ≤ w.committedTotal := by
        rw [committedTotal_eq w.toState st.feed]
        omega
      rw [htotal, hpower]
      omega
  · have hrefused := hs.refused
    rw [← commandClaim_refuses (p := st.port) (l := l) (v := v) (i := i) (m := m) (u := u) (by rwa [hport])] at hrefused
    obtain ⟨last, hlast⟩ := hrefused.port
    have hfeed : (commandClaim st.port l v i m u).feed st.feed = u.feed st.feed := by
      rw [State.feed, hrefused.feeds]
      rfl
    rw [hfeed]
    refine ⟨hcap, hle, hmin, fun h => absurd h hst, fun _ => ⟨hrefused.told, by rw [hlast, hport]⟩, ?_⟩
    rw [hs.total_refused hno hrefused]
    exact Nat.le_max_left _ _

theorem startRelease_spec (hk : st.kind = .release) :
    ((startStep st w).feed st.feed).stepCap = some 900 ∧ ((startStep st w).feed st.feed).output ≤ 900
      ∧ (((startStep st w).feed st.feed).output = min (w.feed st.feed).output 900 ∨ w.limitsHold = false)
      ∧ ((w.port st.port).state = .contract →
        (startStep st w).inFlight = some (st.going (w.committed st.feed))
          ∧ ((startStep st w).port st.port).state = .releasing
          ∧ ((startStep st w).port st.port).contract = (w.port st.port).contract
          ∧ ((w.port st.port).restartOwed = false → OutFrame.release ∈ ((startStep st w).port st.port).order))
      ∧ ((w.port st.port).state ≠ .contract →
        ((startStep st w).inFlight = none
          ∧ (startStep st w).ended = some { st.going (w.committed st.feed) with status := .failed .superseded }
          ∧ (startStep st w).trig = true ∧ (startStep st w).link.noticeSet .stepFailed = true)
        ∧ ((startStep st w).port st.port).state = (w.port st.port).state) := by
  have hs := starting_spec hno hnext
  obtain ⟨hcap, hle, hmin⟩ := starting_capped (w := w) (st := st) (c := 900) (by unfold lowerForStep; rw [hk]; rfl)
  have hact : startStep st w = commandRelease st.port (w.starting st) := by
    rw [startStep_allowed hall, issueStep, hk]
  rw [hact]
  generalize w.starting st = u at hs hcap hle hmin
  have hport := hs.port st.port
  by_cases hst : (w.port st.port).state = .contract
  · obtain ⟨⟨o, hself, horder⟩, hcontrol, hfeeds⟩ := commandRelease_spec (p := st.port) (u := u) (by rw [hport, hst])
    rw [hport] at hself horder
    obtain ⟨x, hx⟩ := hfeeds st.feed
    rw [hx, hself]
    refine ⟨hcap, hle, hmin, fun _ => ⟨?_, rfl, rfl, horder⟩, fun h => absurd hst h⟩
    rw [State.inFlight, hcontrol]
    exact hs.inFlight
  · have hrefused := hs.refused
    rw [← commandRelease_refuses (p := st.port) (u := u) (by rwa [hport])] at hrefused
    obtain ⟨last, hlast⟩ := hrefused.port
    have hfeed : (commandRelease st.port u).feed st.feed = u.feed st.feed := by
      rw [State.feed, hrefused.feeds]
      rfl
    rw [hfeed]
    exact ⟨hcap, hle, hmin, fun h => absurd h hst, fun _ => ⟨hrefused.told, by rw [hlast, hport]⟩⟩

theorem startClose_spec (hfeedOf : feedOf st.port = st.feed) (hk : st.kind = .closeSwitch) :
    ((w.port st.port).state = .held → (w.feed st.feed).state = .idle →
        (startStep st w).inFlight = some (st.going (w.committed st.feed))
          ∧ ((startStep st w).feed st.feed).check = .close st.port .armed
          ∧ ((startStep st w).feed st.feed).drive st.port = .softStart
          ∧ ((startStep st w).feed st.feed).selected = some st.port ∧ ((startStep st w).feed st.feed).output = 0)
      ∧ ((w.port st.port).state = .held → (w.feed st.feed).state = .gap →
        (startStep st w).inFlight = some (st.going (w.committed st.feed))
          ∧ (startStep st w).feed st.feed
            = { w.feed st.feed with heldClose := some st.port, heldLost := false, selected := some st.port })
      ∧ ((w.port st.port).state ≠ .held ∨ (w.feed st.feed).state ∉ [FeedState.idle, .gap] →
        ((startStep st w).inFlight = none
          ∧ (startStep st w).ended = some { st.going (w.committed st.feed) with status := .failed .superseded }
          ∧ (startStep st w).trig = true ∧ (startStep st w).link.noticeSet .stepFailed = true)
        ∧ (startStep st w).feeds = w.feeds)
      ∧ (startStep st w).committedTotal
        ≤ max w.committedTotal (w.committedTotal - w.committed st.feed + Config.basePower) := by
  have hs := starting_spec hno hnext
  have hkept := starting_kept (w := w) (st := st) (by unfold lowerForStep; rw [hk])
  have hact : startStep st w = commandClose st.feed st.port (w.starting st) := by
    rw [startStep_allowed hall, issueStep, hk]
  rw [hact]
  generalize w.starting st = u at hs hkept
  have hport := hs.port st.port
  have hfeed : u.feed st.feed = w.feed st.feed := by rw [State.feed, hkept]; rfl
  have htotal : ∀ t : Ev, (∃ g, t = updFeed st.feed g u) → t.inFlight = some (st.going (w.committed st.feed))
      ∧ t.committedTotal ≤ max w.committedTotal (w.committedTotal - w.committed st.feed + Config.basePower) := by
    rintro t ⟨g, rfl⟩
    obtain ⟨hflight, htotal⟩ := hs.total_going (t := updFeed st.feed g u) hno rfl
      (by rw [updFeed_feed_of_ne _ _ (siblingFeed_ne _)]; exact ⟨rfl, rfl⟩) (fun _ => rfl)
    have hpower : (updFeed st.feed g u).committed st.feed = Config.basePower := by
      simp [State.committed, hflight, PlanStep.going, hk]
    exact ⟨hflight, by rw [htotal, hpower]; exact Nat.le_max_right _ _⟩
  unfold commandClose
  rw [hport, hfeed]
  by_cases hidle : (w.port st.port).state = .held ∧ (w.feed st.feed).state = .idle
  · rw [if_pos hidle]
    obtain ⟨hflight, hbound⟩ := htotal (startCloseCheck st.port u) ⟨_, by rw [startCloseCheck, hfeedOf]⟩
    refine ⟨fun _ _ => ⟨hflight, ?_⟩, fun _ h => absurd (hidle.2.symm.trans h) (by decide), fun h => ?_, hbound⟩
    · rw [startCloseCheck, hfeedOf, updFeed_feed_self]
      refine ⟨rfl, ?_, rfl, rfl⟩
      cases st.port <;> rfl
    · rcases h with h | h
      · exact absurd hidle.1 h
      · exact absurd hidle.2 (fun k => h (by simp [k]))
  · rw [if_neg hidle]
    by_cases hgap : (w.port st.port).state = .held ∧ (w.feed st.feed).state = .gap
    · rw [if_pos hgap]
      obtain ⟨hflight, hbound⟩ := htotal (updFeed st.feed (fun r =>
        { r with heldClose := some st.port, heldLost := false, selected := some st.port }) u) ⟨_, rfl⟩
      refine ⟨fun h1 h2 => absurd ⟨h1, h2⟩ hidle, fun _ _ => ⟨hflight, ?_⟩, fun h => ?_, hbound⟩
      · rw [updFeed_feed_self, hfeed]
      · rcases h with h | h
        · exact absurd hgap.1 h
        · exact absurd hgap.2 (fun k => h (by simp [k]))
    · rw [if_neg hgap]
      have hrefused := hs.refused
      refine ⟨fun h1 h2 => absurd ⟨h1, h2⟩ hidle, fun h1 h2 => absurd ⟨h1, h2⟩ hgap,
        fun _ => ⟨hrefused.told, hrefused.feeds.trans hkept⟩, ?_⟩
      rw [hs.total_refused hno hrefused]
      exact Nat.le_max_left _ _

theorem startOpen_spec (hk : st.kind = .openSwitch) :
    (startStep st w).inFlight = none
      ∧ (startStep st w).ended = some { st.going (w.committed st.feed) with status := .done }
      ∧ (startStep st w).control.trim.get st.feed = none
      ∧ ((w.feed st.feed).powered = true →
        ((startStep st w).feed st.feed).state = .gap ∧ ((startStep st w).feed st.feed).gap = .armed
          ∧ ((startStep st w).feed st.feed).output = 0 ∧ ((startStep st w).feed st.feed).driveLead = .opened
          ∧ ((startStep st w).feed st.feed).driveOther = .opened ∧ ((startStep st w).feed st.feed).selected = none)
      ∧ ((w.feed st.feed).powered = false → (startStep st w).feeds = w.feeds) := by
  have hs := starting_spec hno hnext
  have hkept := starting_kept (w := w) (st := st) (by unfold lowerForStep; rw [hk])
  have hact : startStep st w = endStep .done (setTrim st.feed none (openWithGap st.feed (w.starting st))) := by
    rw [startStep_allowed hall, issueStep, hk]
    rfl
  rw [hact]
  generalize w.starting st = u at hs hkept
  have hfeed : u.feed st.feed = w.feed st.feed := by rw [State.feed, hkept]; rfl
  generalize hz : setTrim st.feed none (openWithGap st.feed u) = z
  have hplan : z.control.plan = u.control.plan := by
    rw [← hz, openWithGap]
    split
    · show (openInto .gap st.feed u).control.plan = _
      rw [openInto_control]
    · rfl
  have hflight : z.inFlight = some (st.going (w.committed st.feed)) := by
    rw [← hs.inFlight, State.inFlight, State.inFlight, Controller.inFlight, hplan]
    rfl
  refine ⟨endStep_inFlight (by simp) z, by rw [endStep_eq hflight], ?_, fun h => ?_, fun h => ?_⟩
  · rw [endStep_trim, ← hz]
    exact (PerFeed.get_set _ _ _ _).trans (if_pos rfl)
  · rw [endStep_feed, ← hz]
    show (((openWithGap st.feed u).feed st.feed).state) = _ ∧ ((openWithGap st.feed u).feed st.feed).gap = _
      ∧ ((openWithGap st.feed u).feed st.feed).output = _ ∧ ((openWithGap st.feed u).feed st.feed).driveLead = _
      ∧ ((openWithGap st.feed u).feed st.feed).driveOther = _ ∧ ((openWithGap st.feed u).feed st.feed).selected = _
    rw [openWithGap, hfeed, if_pos h, updFeed_feed_self, openInto_feed]
    exact ⟨rfl, rfl, rfl, rfl, rfl, rfl⟩
  · rw [endStep_feeds, ← hz, ← hkept]
    show (openWithGap st.feed u).feeds = _
    rw [openWithGap, hfeed, if_neg (by simp [h])]

/-! ## The ceiling (R108) -/

/-- The powers after an increase step that starts. -/
theorem startIncrease_total (hfeedOf : feedOf st.port = st.feed) {n : Nat} (hn : st.increase = some n) :
    (startStep st w).committedTotal ≤ max w.committedTotal w.effectiveCeiling := by
  have hceiling : w.committedTotal - w.committed st.feed + n ≤ w.effectiveCeiling := by
    simpa [State.ceilingAllows, hn] using hall
  have hbound : (startStep st w).committedTotal ≤ max w.committedTotal (w.committedTotal - w.committed st.feed + n) := by
    cases hk : st.kind with
    | claim l v i pw m =>
      cases m with
      | raise =>
        obtain rfl : pw = n := by simpa [PlanStep.increase, hk] using hn
        obtain ⟨-, -, -, -, -, h⟩ := startClaim_spec hno hnext hall hk
        exact h
      | lower => simp [PlanStep.increase, hk] at hn
    | closeSwitch =>
      obtain rfl : Config.basePower = n := by simpa [PlanStep.increase, hk] using hn
      exact (startClose_spec hno hnext hall hfeedOf hk).2.2.2
    | release => simp [PlanStep.increase, hk] at hn
    | openSwitch => simp [PlanStep.increase, hk] at hn
  omega

end

/-- Settles O43. -/
theorem increasesStartWithinTheCeiling : Obligations.IncreasesStartWithinTheCeiling := by
  intro w st hno hnext hfeedOf
  have hskip : w.ceilingAllows st = false → startStep st w = skipStep w := fun h => if_neg (by simp [h])
  have htotal := skipStep_total hno hnext
  obtain ⟨hwaiting, hidle⟩ := skipStep_leaves hno hnext
  refine ⟨fun n hn => ⟨by simp [State.ceilingAllows, hn], ?_⟩, fun hn => by simp [State.ceilingAllows, hn],
    fun h => ⟨hskip h, rfl, hwaiting, hidle, htotal, rfl⟩, fun hall => ?_⟩
  · cases hall : w.ceilingAllows st with
    | true => exact startIncrease_total hno hnext hall hfeedOf hn
    | false =>
      rw [hskip hall, htotal]
      exact Nat.le_max_left _ _
  · refine ⟨fun l v i pw m hk => ?_, fun hk => startRelease_spec hno hnext hall hk, fun hk => ?_,
      fun hk => startOpen_spec hno hnext hall hk⟩
    · obtain ⟨h1, h2, h3, h4, h5, -⟩ := startClaim_spec hno hnext hall hk
      exact ⟨h1, h2, h3, h4, h5⟩
    · obtain ⟨h1, h2, h3, -⟩ := startClose_spec hno hnext hall hfeedOf hk
      exact ⟨h1, h2, h3⟩

end Sys2Proof.Machine
end
